-- ==== Sys2Proof/Word.lean ====
section
/-! DEFINITION. The word types of the engine: 32-bit registers and host accesses, bytes, and the
byte strings every command reads and writes (00_scope.md section 5.1). -/

namespace Sys2Proof

/-- A 32-bit register value or one host access (20_memory.md R62). -/
abbrev Word := BitVec 32

/-- One 8-bit value. -/
abbrev Byte := BitVec 8

/-- A finite sequence of bytes, lowest offset first (00_scope.md section 5.1). -/
abbrev Bytes := List Byte

end Sys2Proof
end

