-- ==== Sys2Proof/Syntax.lean ====
section
/-! DEFINITION. The 52 commands as syntax: one constructor per row of spec/opcode_table.json, with
the fields its format uses (30_encoding.md R90, R91, R97). -/

namespace Sys2Proof

/-- The MOD field (R93): the field modulus `p`, or the group order `n`. -/
inductive Modulus where
  | field
  | order
  deriving DecidableEq, Repr

/-- The FORM field (R90, R95). Value 3 is reserved: such a word spells its command and the command
is illegal (R96 step 5). -/
inductive PointForm where
  | uncompressed
  | compressed
  | hybrid
  | reserved
  deriving DecidableEq, Repr

/-- A command. Format A: curve, MOD, SEC; C: curve, SEC; N: curve; P: curve, FORM; PS: curve, FORM,
SEC; S: curve, DER; SR: curve, FORM, DER, RID; M: curve, SIGN (R91). -/
inductive Instr where
  | madd (curve : BitVec 4) (modulus : Modulus) (sec : Bool)
  | msub (curve : BitVec 4) (modulus : Modulus) (sec : Bool)
  | mmul (curve : BitVec 4) (modulus : Modulus) (sec : Bool)
  | msqr (curve : BitVec 4) (modulus : Modulus) (sec : Bool)
  | minv (curve : BitVec 4) (modulus : Modulus) (sec : Bool)
  | msqrt (curve : BitVec 4) (sec : Bool)
  | pchk (curve : BitVec 4)
  | padd (curve : BitVec 4) (form : PointForm)
  | pdbl (curve : BitVec 4) (form : PointForm)
  | pneg (curve : BitVec 4) (form : PointForm)
  | pcomb (curve : BitVec 4) (form : PointForm)
  | pmulg (curve : BitVec 4) (form : PointForm) (sec : Bool)
  | pmul (curve : BitVec 4) (form : PointForm) (sec : Bool)
  | penc (curve : BitVec 4) (form : PointForm)
  | pdec (curve : BitVec 4)
  | skgen (curve : BitVec 4)
  | skvfy (curve : BitVec 4)
  | skred (curve : BitVec 4)
  | skneg (curve : BitVec 4)
  | skinv (curve : BitVec 4)
  | sktadd (curve : BitVec 4)
  | sktmul (curve : BitVec 4)
  | pkcrt (curve : BitVec 4) (form : PointForm)
  | pktadd (curve : BitVec 4) (form : PointForm)
  | pktmul (curve : BitVec 4) (form : PointForm)
  | pkneg (curve : BitVec 4) (form : PointForm)
  | pkadd (curve : BitVec 4) (form : PointForm)
  | pkvfy (curve : BitVec 4)
  | sigtoder (curve : BitVec 4)
  | sigfromder (curve : BitVec 4)
  | siglows (curve : BitVec 4)
  | siglowder (curve : BitVec 4)
  | signorm (curve : BitVec 4)
  | signormder (curve : BitVec 4)
  | ecsign (curve : BitVec 4) (der : Bool)
  | ecsignr (curve : BitVec 4) (der : Bool)
  | ecvfy (curve : BitVec 4) (der : Bool)
  | ecrcv (curve : BitVec 4) (form : PointForm) (der : Bool) (rid : BitVec 2)
  | schvfy (curve : BitVec 4)
  | schvfyb (curve : BitVec 4)
  | h2sswu (curve : BitVec 4) (form : PointForm)
  | h2icart (curve : BitVec 4) (form : PointForm)
  | h2svdw (curve : BitVec 4) (form : PointForm)
  | h2hash (curve : BitVec 4) (form : PointForm)
  | edexp (curve : BitVec 4)
  | edpub (curve : BitVec 4)
  | edsign (curve : BitVec 4)
  | edvfy (curve : BitVec 4)
  | edpktadd (curve : BitVec 4)
  | edsignt (curve : BitVec 4)
  | edtomont (curve : BitVec 4)
  | edfrommont (curve : BitVec 4) (sign : Bool)
  deriving DecidableEq, Repr

end Sys2Proof
end

