-- ==== Sys2Proof/WellFormed.lean ====
section
/-! DEFINITION. Which commands are well formed as syntax. Every field but FORM may hold any value of
its width; FORM = 3 is reserved (30_encoding.md R90, R96 step 5). What depends on the configuration
(the curve index, its kind, its map) is checked when the command runs. -/

namespace Sys2Proof

/-- FORM is one of the three point forms (R95). -/
def PointForm.wellFormed : PointForm → Bool
  | .uncompressed => true
  | .compressed => true
  | .hybrid => true
  | .reserved => false

/-- A command is well formed iff its FORM field, where it has one, is not reserved. -/
def Instr.wellFormed : Instr → Bool
  | .madd _ _ _ => true
  | .msub _ _ _ => true
  | .mmul _ _ _ => true
  | .msqr _ _ _ => true
  | .minv _ _ _ => true
  | .msqrt _ _ => true
  | .pchk _ => true
  | .padd _ f => f.wellFormed
  | .pdbl _ f => f.wellFormed
  | .pneg _ f => f.wellFormed
  | .pcomb _ f => f.wellFormed
  | .pmulg _ f _ => f.wellFormed
  | .pmul _ f _ => f.wellFormed
  | .penc _ f => f.wellFormed
  | .pdec _ => true
  | .skgen _ => true
  | .skvfy _ => true
  | .skred _ => true
  | .skneg _ => true
  | .skinv _ => true
  | .sktadd _ => true
  | .sktmul _ => true
  | .pkcrt _ f => f.wellFormed
  | .pktadd _ f => f.wellFormed
  | .pktmul _ f => f.wellFormed
  | .pkneg _ f => f.wellFormed
  | .pkadd _ f => f.wellFormed
  | .pkvfy _ => true
  | .sigtoder _ => true
  | .sigfromder _ => true
  | .siglows _ => true
  | .siglowder _ => true
  | .signorm _ => true
  | .signormder _ => true
  | .ecsign _ _ => true
  | .ecsignr _ _ => true
  | .ecvfy _ _ => true
  | .ecrcv _ f _ _ => f.wellFormed
  | .schvfy _ => true
  | .schvfyb _ => true
  | .h2sswu _ f => f.wellFormed
  | .h2icart _ f => f.wellFormed
  | .h2svdw _ f => f.wellFormed
  | .h2hash _ f => f.wellFormed
  | .edexp _ => true
  | .edpub _ => true
  | .edsign _ => true
  | .edvfy _ => true
  | .edpktadd _ => true
  | .edsignt _ => true
  | .edtomont _ => true
  | .edfrommont _ _ => true

end Sys2Proof
end

