-- ==== Sys2Proof/Decode.lean ====
section
/-! DEFINITION. The command word: its fields (30_encoding.md R90), the eight formats with their masks
(R91), the opcode table (R97), the decoder (R96 steps 1 and 2, R98) and the encoder (R109). -/

namespace Sys2Proof

/-- The fields of a command word besides OP (R90), bits 31:20 apart. -/
structure Fields where
  curve : BitVec 4 := 0
  modulus : Modulus := .field
  sec : Bool := false
  form : PointForm := .uncompressed
  der : Bool := false
  rid : BitVec 2 := 0
  sign : Bool := false
  deriving DecidableEq, Repr

/-- MOD as a bit (R93). -/
def Modulus.bit : Modulus → Bool
  | .field => false
  | .order => true

/-- MOD from its bit (R93). -/
def Modulus.ofBit : Bool → Modulus
  | false => .field
  | true => .order

/-- FORM as bits 15:14 (R90). -/
def PointForm.bits : PointForm → BitVec 2
  | .uncompressed => 0
  | .compressed => 1
  | .hybrid => 2
  | .reserved => 3

/-- FORM from bits 15:14 (R90). -/
def PointForm.ofBits (b : BitVec 2) : PointForm :=
  if b = 0 then .uncompressed else if b = 1 then .compressed else if b = 2 then .hybrid
  else .reserved

/-- OP, bits 7:0 (R90). -/
def opOf (w : Word) : BitVec 8 := w.extractLsb' 0 8

/-- The fields of a word, each at its place of R90. -/
def fieldsOf (w : Word) : Fields where
  curve := w.extractLsb' 8 4
  modulus := .ofBit (w.getLsbD 12)
  sec := w.getLsbD 13
  form := .ofBits (w.extractLsb' 14 2)
  der := w.getLsbD 16
  rid := w.extractLsb' 17 2
  sign := w.getLsbD 19

/-- The word of R109: `OP + (c << 8) + (MOD << 12) + (SEC << 13) + (FORM << 14) + (DER << 16) +
(RID << 17) + (SIGN << 19)`. -/
def wordOf (op : BitVec 8) (f : Fields) : Word :=
  op.setWidth 32 + (f.curve.setWidth 32 <<< 8) + ((BitVec.ofBool f.modulus.bit).setWidth 32 <<< 12)
    + ((BitVec.ofBool f.sec).setWidth 32 <<< 13) + (f.form.bits.setWidth 32 <<< 14)
    + ((BitVec.ofBool f.der).setWidth 32 <<< 16) + (f.rid.setWidth 32 <<< 17)
    + ((BitVec.ofBool f.sign).setWidth 32 <<< 19)

/-- The eight formats (R91). -/
inductive Format where
  | n
  | a
  | c
  | p
  | ps
  | s
  | sr
  | m
  deriving DecidableEq, Repr

/-- The bits of a word that must equal `match` (R91). -/
def Format.mask : Format → Word
  | .n => 0xFFFFF0FF
  | .a => 0xFFFFC0FF
  | .c => 0xFFFFD0FF
  | .p => 0xFFFF30FF
  | .ps => 0xFFFF10FF
  | .s => 0xFFFEF0FF
  | .sr => 0xFFF830FF
  | .m => 0xFFF7F0FF

/-- A row of the opcode table (R97): OP, mnemonic, format, and the command its fields spell. -/
structure Row where
  op : BitVec 8
  mnemonic : String
  format : Format
  build : Fields → Instr

/-- `match` of a row: OP zero-extended (R91). -/
def Row.pattern (r : Row) : Word := r.op.setWidth 32

/-- Rows of 40_modular_arithmetic.md. -/
def rowsModular : List Row :=
  [ ⟨0x01, "MADD", .a, fun f => .madd f.curve f.modulus f.sec⟩,
    ⟨0x02, "MSUB", .a, fun f => .msub f.curve f.modulus f.sec⟩,
    ⟨0x03, "MMUL", .a, fun f => .mmul f.curve f.modulus f.sec⟩,
    ⟨0x04, "MSQR", .a, fun f => .msqr f.curve f.modulus f.sec⟩,
    ⟨0x05, "MINV", .a, fun f => .minv f.curve f.modulus f.sec⟩,
    ⟨0x06, "MSQRT", .c, fun f => .msqrt f.curve f.sec⟩ ]

/-- Rows of 41_curve_group.md. -/
def rowsGroup : List Row :=
  [ ⟨0x10, "PCHK", .n, fun f => .pchk f.curve⟩,
    ⟨0x11, "PADD", .p, fun f => .padd f.curve f.form⟩,
    ⟨0x12, "PDBL", .p, fun f => .pdbl f.curve f.form⟩,
    ⟨0x13, "PNEG", .p, fun f => .pneg f.curve f.form⟩,
    ⟨0x14, "PCOMB", .p, fun f => .pcomb f.curve f.form⟩,
    ⟨0x15, "PMULG", .ps, fun f => .pmulg f.curve f.form f.sec⟩,
    ⟨0x16, "PMUL", .ps, fun f => .pmul f.curve f.form f.sec⟩,
    ⟨0x17, "PENC", .p, fun f => .penc f.curve f.form⟩,
    ⟨0x18, "PDEC", .n, fun f => .pdec f.curve⟩ ]

/-- Rows of 42_key_lifecycle.md. -/
def rowsKey : List Row :=
  [ ⟨0x20, "SKGEN", .n, fun f => .skgen f.curve⟩,
    ⟨0x21, "SKVFY", .n, fun f => .skvfy f.curve⟩,
    ⟨0x22, "SKRED", .n, fun f => .skred f.curve⟩,
    ⟨0x23, "SKNEG", .n, fun f => .skneg f.curve⟩,
    ⟨0x24, "SKINV", .n, fun f => .skinv f.curve⟩,
    ⟨0x25, "SKTADD", .n, fun f => .sktadd f.curve⟩,
    ⟨0x26, "SKTMUL", .n, fun f => .sktmul f.curve⟩,
    ⟨0x27, "PKCRT", .p, fun f => .pkcrt f.curve f.form⟩,
    ⟨0x28, "PKTADD", .p, fun f => .pktadd f.curve f.form⟩,
    ⟨0x29, "PKTMUL", .p, fun f => .pktmul f.curve f.form⟩,
    ⟨0x2A, "PKNEG", .p, fun f => .pkneg f.curve f.form⟩,
    ⟨0x2B, "PKADD", .p, fun f => .pkadd f.curve f.form⟩,
    ⟨0x2C, "PKVFY", .n, fun f => .pkvfy f.curve⟩ ]

/-- Rows of 43_signature_codec.md, 44_ecdsa.md and 45_schnorr.md. -/
def rowsSignature : List Row :=
  [ ⟨0x30, "SIGTODER", .n, fun f => .sigtoder f.curve⟩,
    ⟨0x31, "SIGFROMDER", .n, fun f => .sigfromder f.curve⟩,
    ⟨0x32, "SIGLOWS", .n, fun f => .siglows f.curve⟩,
    ⟨0x33, "SIGLOWDER", .n, fun f => .siglowder f.curve⟩,
    ⟨0x34, "SIGNORM", .n, fun f => .signorm f.curve⟩,
    ⟨0x35, "SIGNORMDER", .n, fun f => .signormder f.curve⟩,
    ⟨0x40, "ECSIGN", .s, fun f => .ecsign f.curve f.der⟩,
    ⟨0x41, "ECSIGNR", .s, fun f => .ecsignr f.curve f.der⟩,
    ⟨0x42, "ECVFY", .s, fun f => .ecvfy f.curve f.der⟩,
    ⟨0x43, "ECRCV", .sr, fun f => .ecrcv f.curve f.form f.der f.rid⟩,
    ⟨0x50, "SCHVFY", .n, fun f => .schvfy f.curve⟩,
    ⟨0x51, "SCHVFYB", .n, fun f => .schvfyb f.curve⟩ ]

/-- Rows of 46_hash_to_curve.md and 47_eddsa.md. -/
def rowsMapEd : List Row :=
  [ ⟨0x60, "H2SSWU", .p, fun f => .h2sswu f.curve f.form⟩,
    ⟨0x61, "H2ICART", .p, fun f => .h2icart f.curve f.form⟩,
    ⟨0x62, "H2SVDW", .p, fun f => .h2svdw f.curve f.form⟩,
    ⟨0x63, "H2HASH", .p, fun f => .h2hash f.curve f.form⟩,
    ⟨0x70, "EDEXP", .n, fun f => .edexp f.curve⟩,
    ⟨0x71, "EDPUB", .n, fun f => .edpub f.curve⟩,
    ⟨0x72, "EDSIGN", .n, fun f => .edsign f.curve⟩,
    ⟨0x73, "EDVFY", .n, fun f => .edvfy f.curve⟩,
    ⟨0x74, "EDPKTADD", .n, fun f => .edpktadd f.curve⟩,
    ⟨0x75, "EDSIGNT", .n, fun f => .edsignt f.curve⟩,
    ⟨0x76, "EDTOMONT", .n, fun f => .edtomont f.curve⟩,
    ⟨0x77, "EDFROMMONT", .m, fun f => .edfrommont f.curve f.sign⟩ ]

/-- The opcode table (R97). -/
def opcodeTable : List Row := rowsModular ++ rowsGroup ++ rowsKey ++ rowsSignature ++ rowsMapEd

/-- The table's row for an OP value; none where the value is reserved (R98). -/
def rowFor (op : BitVec 8) : Option Row := opcodeTable.find? (fun r => r.op == op)

/-- Why a word spells no command (R96 steps 1 and 2). -/
inductive DecodeError where
  /-- step 1: OP is none of the 52 codes. -/
  | unknownOp (op : BitVec 8)
  /-- step 2: a field the format does not use, or a reserved bit, is not 0. -/
  | unusedBitsSet (mnemonic : String)
  deriving DecidableEq, Repr

/-- The command a word spells: `w and mask = match` for exactly one row (R91, R96 steps 1, 2). -/
def decodeWord (w : Word) : Except DecodeError Instr :=
  match rowFor (opOf w) with
  | none => .error (.unknownOp (opOf w))
  | some r =>
    if w &&& r.format.mask = r.pattern then .ok (r.build (fieldsOf w))
    else .error (.unusedBitsSet r.mnemonic)

/-- The decoder on a word numbered as spec/opcode_table.json numbers it. A command is one 32-bit
word, bit 0 its least significant, so the first `nbits` bits of `w` are its low bits. -/
def decodeTableWord (nbits w : Nat) : Option Instr :=
  match decodeWord (BitVec.ofNat 32 (w % 2 ^ nbits)) with
  | .ok i => some i
  | .error _ => none

/-- The OP value of a command (R97). -/
def Instr.op : Instr → BitVec 8
  | .madd _ _ _ => 0x01
  | .msub _ _ _ => 0x02
  | .mmul _ _ _ => 0x03
  | .msqr _ _ _ => 0x04
  | .minv _ _ _ => 0x05
  | .msqrt _ _ => 0x06
  | .pchk _ => 0x10
  | .padd _ _ => 0x11
  | .pdbl _ _ => 0x12
  | .pneg _ _ => 0x13
  | .pcomb _ _ => 0x14
  | .pmulg _ _ _ => 0x15
  | .pmul _ _ _ => 0x16
  | .penc _ _ => 0x17
  | .pdec _ => 0x18
  | .skgen _ => 0x20
  | .skvfy _ => 0x21
  | .skred _ => 0x22
  | .skneg _ => 0x23
  | .skinv _ => 0x24
  | .sktadd _ => 0x25
  | .sktmul _ => 0x26
  | .pkcrt _ _ => 0x27
  | .pktadd _ _ => 0x28
  | .pktmul _ _ => 0x29
  | .pkneg _ _ => 0x2A
  | .pkadd _ _ => 0x2B
  | .pkvfy _ => 0x2C
  | .sigtoder _ => 0x30
  | .sigfromder _ => 0x31
  | .siglows _ => 0x32
  | .siglowder _ => 0x33
  | .signorm _ => 0x34
  | .signormder _ => 0x35
  | .ecsign _ _ => 0x40
  | .ecsignr _ _ => 0x41
  | .ecvfy _ _ => 0x42
  | .ecrcv _ _ _ _ => 0x43
  | .schvfy _ => 0x50
  | .schvfyb _ => 0x51
  | .h2sswu _ _ => 0x60
  | .h2icart _ _ => 0x61
  | .h2svdw _ _ => 0x62
  | .h2hash _ _ => 0x63
  | .edexp _ => 0x70
  | .edpub _ => 0x71
  | .edsign _ => 0x72
  | .edvfy _ => 0x73
  | .edpktadd _ => 0x74
  | .edsignt _ => 0x75
  | .edtomont _ => 0x76
  | .edfrommont _ _ => 0x77

/-- The fields of a command, the ones its format does not use at 0 (R91). -/
def Instr.fields : Instr → Fields
  | .madd c m x => { curve := c, modulus := m, sec := x }
  | .msub c m x => { curve := c, modulus := m, sec := x }
  | .mmul c m x => { curve := c, modulus := m, sec := x }
  | .msqr c m x => { curve := c, modulus := m, sec := x }
  | .minv c m x => { curve := c, modulus := m, sec := x }
  | .msqrt c x => { curve := c, sec := x }
  | .pchk c => { curve := c }
  | .padd c f => { curve := c, form := f }
  | .pdbl c f => { curve := c, form := f }
  | .pneg c f => { curve := c, form := f }
  | .pcomb c f => { curve := c, form := f }
  | .pmulg c f x => { curve := c, form := f, sec := x }
  | .pmul c f x => { curve := c, form := f, sec := x }
  | .penc c f => { curve := c, form := f }
  | .pdec c => { curve := c }
  | .skgen c => { curve := c }
  | .skvfy c => { curve := c }
  | .skred c => { curve := c }
  | .skneg c => { curve := c }
  | .skinv c => { curve := c }
  | .sktadd c => { curve := c }
  | .sktmul c => { curve := c }
  | .pkcrt c f => { curve := c, form := f }
  | .pktadd c f => { curve := c, form := f }
  | .pktmul c f => { curve := c, form := f }
  | .pkneg c f => { curve := c, form := f }
  | .pkadd c f => { curve := c, form := f }
  | .pkvfy c => { curve := c }
  | .sigtoder c => { curve := c }
  | .sigfromder c => { curve := c }
  | .siglows c => { curve := c }
  | .siglowder c => { curve := c }
  | .signorm c => { curve := c }
  | .signormder c => { curve := c }
  | .ecsign c d => { curve := c, der := d }
  | .ecsignr c d => { curve := c, der := d }
  | .ecvfy c d => { curve := c, der := d }
  | .ecrcv c f d r => { curve := c, form := f, der := d, rid := r }
  | .schvfy c => { curve := c }
  | .schvfyb c => { curve := c }
  | .h2sswu c f => { curve := c, form := f }
  | .h2icart c f => { curve := c, form := f }
  | .h2svdw c f => { curve := c, form := f }
  | .h2hash c f => { curve := c, form := f }
  | .edexp c => { curve := c }
  | .edpub c => { curve := c }
  | .edsign c => { curve := c }
  | .edvfy c => { curve := c }
  | .edpktadd c => { curve := c }
  | .edsignt c => { curve := c }
  | .edtomont c => { curve := c }
  | .edfrommont c g => { curve := c, sign := g }

/-- The word of a command (R109). -/
def encode (i : Instr) : Word := wordOf i.op i.fields

end Sys2Proof
end

