-- ==== Sys2Proof/Config.lean ====
section
/-! DEFINITION. The configuration record `Cfg` of 00_scope.md section 4 (R3 to R8), as plain data;
the free values the spec leaves open, as opaque constants; and the one configuration that
State.reset carries (93_implementation_defined.md G1, log 2). -/

namespace Sys2Proof

/-- Byte order of a number in a byte string (R9); the type of `Cfg.ED_ENDIAN` (R8). -/
inductive ByteOrder where
  | little
  | big
  deriving DecidableEq, Repr

/-- The kind of a curve with the constants of its equation (R3, R5, 41_curve_group.md R140). -/
inductive Shape where
  /-- kind W: `y² = x³ + a·x + b`. -/
  | weierstrass (a b : Nat)
  /-- kind E: `ea·x² + y² = 1 + d·x²·y²`. -/
  | edwards (ea d : Nat)
  deriving DecidableEq, Repr

/-- `h2c` of R5: the hash-to-curve map a curve carries. -/
inductive MapKind where
  | none
  | sswu
  | icart
  | svdw
  deriving DecidableEq, Repr

/-- A `CurveParams` record (R3, R5). -/
structure Curve where
  shape : Shape
  p : Nat
  gx : Nat
  gy : Nat
  n : Nat
  h : Nat
  fsize : Nat
  ssize : Nat
  h2c : MapKind
  z : Nat
  hash : Nat
  deriving DecidableEq, Repr

/-- A point (00_scope.md section 5.3): `Inf`, or affine coordinates. On a kind-E curve `Inf`
never occurs (41_curve_group.md R142). -/
inductive Point where
  | inf
  | aff (x y : Nat)
  deriving DecidableEq, Repr

/-- One entry of `Cfg.Hashes` (R7). The function `H` itself is the collaborator's: it is
`Config.hashPort`, uninterpreted, but on the inputs `known` lists, where the configuration
fixes its answer (log 11). -/
structure HashParams where
  hlen : Nat
  hblock : Nat
  known : List (Bytes × Bytes)
  deriving DecidableEq, Repr

/-- Which instantiation a configuration function of R8 has (log 12, log 13). -/
inductive Source where
  /-- any function with the properties the spec states: an uninterpreted constant. -/
  | port
  /-- the suggested instantiation (45_schnorr.md R260; 46_hash_to_curve.md R276 to R278). -/
  | suggested
  deriving DecidableEq, Repr

/-- The configuration record (R3, R7, R8). `NCURVES` is the length of `curves`. -/
structure Cfg where
  curves : List Curve
  hashes : List HashParams
  imemBytes : Nat
  omemBytes : Nat
  tables : Bool
  /-- `WINDOW`: not observable (R8); no rule reads it (log 21). -/
  window : Nat
  /-- `LIMB_BITS`: not observable (R8); no rule reads it (log 21). -/
  limbBits : Nat
  edEndian : ByteOrder
  schnorr : Source
  maps : Source
  deriving DecidableEq, Repr

/-- `NCURVES` (R3). -/
def Cfg.ncurves (g : Cfg) : Nat := g.curves.length

/-- A curve as a command sees it: its `CurveParams` with the parts of `Cfg` the command's rules use
for it (R9 byte order, the hash `Hashes[C.hash]`, the instantiations). -/
structure Ctx extends Curve where
  order : ByteOrder
  digest : HashParams
  schnorr : Source
  maps : Source
  deriving DecidableEq, Repr

/-- The byte order of `os2i_C` and `i2os_C`: big-endian on kind W, `ED_ENDIAN` on kind E (R9). -/
def Cfg.byteOrder (g : Cfg) (C : Curve) : ByteOrder :=
  match C.shape with
  | .weierstrass _ _ => .big
  | .edwards _ _ => g.edEndian

/-- `Cfg.Curves[c]` with what belongs to it; none when `c ≥ NCURVES` (30_encoding.md R92, R96). A
hash index outside `Hashes`, which R7 excludes, reads as an empty hash (log 23). -/
def Cfg.ctx? (g : Cfg) (c : Nat) : Option Ctx :=
  match g.curves[c]? with
  | none => none
  | some C => some
      { toCurve := C, order := g.byteOrder C, digest := g.hashes[C.hash]?.getD ⟨0, 0, []⟩,
        schnorr := g.schnorr, maps := g.maps }

/-! ### Free values and collaborators: constants without a body

Nothing in Lean can evaluate these or prove a value of one; a statement that mentions one holds for
every function it could be. -/

/-- A valueless byte's value at its k-th free read, a byte of OMEM that a completion or the BUSY period
leaves unspecified, and a byte the RNG port answers (10_state.md R29, 20_memory.md R66, R71,
60_exceptions.md R334; logs 5 to 8). -/
opaque Config.freeByte : Nat → Byte

/-- What RESi reads as while BUSY = 1 (10_state.md R25; log 7). -/
opaque Config.freeWord : Nat → Word

/-- A draw that stands for a scalar of `[1, n)` (42_key_lifecycle.md R180, 45_schnorr.md R262;
log 8). -/
opaque Config.freeNat : Nat → Nat

/-- Which of the two roots MSQRT returns when `p ≡ 1 (mod 4)` (40_modular_arithmetic.md R127;
log 9). -/
opaque Config.freeBit : Nat → Bool

/-- Which of the two roots modulo p of a number the SVDW formula takes when `p ≡ 1 (mod 4)`
(40_modular_arithmetic.md R127, 46_hash_to_curve.md R278; log 30). -/
opaque Config.rootSide : Nat → Nat → Bool

/-- The hash functions `Cfg.Hashes[i].H` (R7; log 11). -/
opaque Config.hashPort : Nat → Bytes → Bytes

/-- `Cfg.SchnorrLift_C` (45_schnorr.md R260; log 12). -/
opaque Config.schnorrLiftPort : Curve → Bytes → Option (Nat × Nat)

/-- `Cfg.SchnorrChal_C` (45_schnorr.md R260; log 12). -/
opaque Config.schnorrChalPort : Curve → Bytes → Point → Bytes → Nat

/-- `Cfg.MapSSWU_C`, `Cfg.MapIcart_C` or `Cfg.MapSVDW_C`, whichever `C.h2c` names
(46_hash_to_curve.md R270; log 13). -/
opaque Config.mapPort : Curve → Nat → Nat × Nat

/-! ### The configuration State.reset carries (log 2)

The curve table 93_implementation_defined.md G1, which the spec suggests and on which no rule
depends. G1 gives a z only where a map uses one (P-256 and secp256k1); `z := 0` on the other curves is the
model's filler, a DESIGN CHOICE that no rule reads (log 2). -/

/-- P-192. Its z is a filler: G1 gives none (log 2). -/
def Config.p192 : Curve where
  shape := .weierstrass (2 ^ 192 - 2 ^ 64 - 1 - 3) 0x64210519E59C80E70FA7E9AB72243049FEB8DEECC146B9B1
  p := 2 ^ 192 - 2 ^ 64 - 1
  gx := 0x188DA80EB03090F67CBF20EB43A18800F4FF0AFD82FF1012
  gy := 0x07192B95FFC8DA78631011ED6B24CDD573F977A11E794811
  n := 0xFFFFFFFFFFFFFFFFFFFFFFFF99DEF836146BC9B1B4D22831
  h := 1
  fsize := 24
  ssize := 24
  h2c := .none
  z := 0
  hash := 0

/-- P-224. Its z is a filler: G1 gives none (log 2). -/
def Config.p224 : Curve where
  shape := .weierstrass (2 ^ 224 - 2 ^ 96 + 1 - 3)
    0xB4050A850C04B3ABF54132565044B0B7D7BFD8BA270B39432355FFB4
  p := 2 ^ 224 - 2 ^ 96 + 1
  gx := 0xB70E0CBD6BB4BF7F321390B94A03C1D356C21122343280D6115C1D21
  gy := 0xBD376388B5F723FB4C22DFE6CD4375A05A07476444D5819985007E34
  n := 0xFFFFFFFFFFFFFFFFFFFFFFFFFFFF16A2E0B8F03E13DD29455C5C2A3D
  h := 1
  fsize := 28
  ssize := 28
  h2c := .none
  z := 0
  hash := 0

/-- P-256. -/
def Config.p256 : Curve where
  shape := .weierstrass (2 ^ 256 - 2 ^ 224 + 2 ^ 192 + 2 ^ 96 - 1 - 3)
    0x5AC635D8AA3A93E7B3EBBD55769886BC651D06B0CC53B0F63BCE3C3E27D2604B
  p := 2 ^ 256 - 2 ^ 224 + 2 ^ 192 + 2 ^ 96 - 1
  gx := 0x6B17D1F2E12C4247F8BCE6E563A440F277037D812DEB33A0F4A13945D898C296
  gy := 0x4FE342E2FE1A7F9B8EE7EB4A7C0F9E162BCE33576B315ECECBB6406837BF51F5
  n := 0xFFFFFFFF00000000FFFFFFFFFFFFFFFFBCE6FAADA7179E84F3B9CAC2FC632551
  h := 1
  fsize := 32
  ssize := 32
  h2c := .sswu
  z := 2 ^ 256 - 2 ^ 224 + 2 ^ 192 + 2 ^ 96 - 1 - 10
  hash := 0

/-- P-384. Its z is a filler: G1 gives none (log 2). -/
def Config.p384 : Curve where
  shape := .weierstrass (2 ^ 384 - 2 ^ 128 - 2 ^ 96 + 2 ^ 32 - 1 - 3)
    0xB3312FA7E23EE7E4988E056BE3F82D19181D9C6EFE8141120314088F5013875AC656398D8A2ED19D2A85C8EDD3EC2AEF
  p := 2 ^ 384 - 2 ^ 128 - 2 ^ 96 + 2 ^ 32 - 1
  gx := 0xAA87CA22BE8B05378EB1C71EF320AD746E1D3B628BA79B9859F741E082542A385502F25DBF55296C3A545E3872760AB7
  gy := 0x3617DE4A96262C6F5D9E98BF9292DC29F8F41DBD289A147CE9DA3113B5F0B8C00A60B1CE1D7E819D7A431D7C90EA0E5F
  n := 0xFFFFFFFFFFFFFFFFFFFFFFFFFFFFFFFFFFFFFFFFFFFFFFFFC7634D81F4372DDF581A0DB248B0A77AECEC196ACCC52973
  h := 1
  fsize := 48
  ssize := 48
  h2c := .icart
  z := 0
  hash := 1

/-- P-521. Its z is a filler: G1 gives none (log 2). -/
def Config.p521 : Curve where
  shape := .weierstrass (2 ^ 521 - 1 - 3)
    0x0051953EB9618E1C9A1F929A21A0B68540EEA2DA725B99B315F3B8B489918EF109E156193951EC7E937B1652C0BD3BB1BF073573DF883D2C34F1EF451FD46B503F00
  p := 2 ^ 521 - 1
  gx := 0x00C6858E06B70404E9CD9E3ECB662395B4429C648139053FB521F828AF606B4D3DBAA14B5E77EFE75928FE1DC127A2FFA8DE3348B3C1856A429BF97E7E31C2E5BD66
  gy := 0x011839296A789A3BC0045C8A5FB42C7D1BD998F54449579B446817AFBD17273E662C97EE72995EF42640C550B9013FAD0761353C7086A272C24088BE94769FD16650
  n := 0x01FFFFFFFFFFFFFFFFFFFFFFFFFFFFFFFFFFFFFFFFFFFFFFFFFFFFFFFFFFFFFFFFFA51868783BF2F966B7FCC0148F709A5D03BB5C9B8899C47AEBB6FB71E91386409
  h := 1
  fsize := 66
  ssize := 66
  h2c := .none
  z := 0
  hash := 2

/-- secp256k1, the Koblitz curve. -/
def Config.secp256k1 : Curve where
  shape := .weierstrass 0 7
  p := 2 ^ 256 - 2 ^ 32 - 977
  gx := 0x79BE667EF9DCBBAC55A06295CE870B07029BFCDB2DCE28D959F2815B16F81798
  gy := 0x483ADA7726A3C4655DA4FBFC0E1108A8FD17B448A68554199C47D08FFB10D4B8
  n := 0xFFFFFFFFFFFFFFFFFFFFFFFFFFFFFFFEBAAEDCE6AF48A03BBFD25E8CD0364141
  h := 1
  fsize := 32
  ssize := 32
  h2c := .svdw
  z := 1
  hash := 0

/-- Ed25519, the twisted-Edwards curve. Its z is a filler: G1 gives none (log 2). -/
def Config.ed25519 : Curve where
  shape := .edwards (2 ^ 255 - 19 - 1)
    0x52036CEE2B6FFE738CC740797779E89800700A4D4141D8AB75EB4DCA135978A3
  p := 2 ^ 255 - 19
  gx := 0x216936D3CD6E53FEC0A4E231FDD6DC5C692CC7609525A7B2C9562D608F25D51A
  gy := 0x6666666666666666666666666666666666666666666666666666666666666658
  n := 0x1000000000000000000000000000000014DEF9DEA2F79CD65812631A5CF5D3ED
  h := 8
  fsize := 32
  ssize := 32
  h2c := .none
  z := 0
  hash := 2

/-- The suggested configuration: the seven curves of G1 with its maps and the lengths of its three
hashes (entry 0: 32 and 64, entry 1: 48 and 128, entry 2: 64 and 128), `ED_ENDIAN` at its default.
DESIGN CHOICE, where 92_eei_decisions.md D8 leaves the value open and G1 gives none: memories of 1024 bytes,
tables, WINDOW = 4, LIMB_BITS = 32, and the suggested Schnorr and map functions rather than
uninterpreted ones (log 2). -/
def Config.suggested : Cfg where
  curves := [Config.p192, Config.p224, Config.p256, Config.p384, Config.p521, Config.secp256k1,
    Config.ed25519]
  hashes := [⟨32, 64, []⟩, ⟨48, 128, []⟩, ⟨64, 128, []⟩]
  imemBytes := 1024
  omemBytes := 1024
  tables := true
  window := 4
  limbBits := 32
  edEndian := .little
  schnorr := .suggested
  maps := .suggested

end Sys2Proof
end

