-- ==== Sys2Proof/Machine/Arith.lean ====
section
/-! DEFINITION. Numbers in byte strings (00_scope.md R9) and arithmetic modulo `m`
(40_modular_arithmetic.md R120, R126, R127). -/

namespace Sys2Proof.Machine

/-- `bitlen(v)` (00_scope.md section 5.1). -/
def bitlen (v : Nat) : Nat := if v = 0 then 0 else v.log2 + 1

/-- `le2int` (R9). -/
def le2int : Bytes → Nat
  | [] => 0
  | b :: B => b.toNat + 256 * le2int B

/-- `be2int` (R9). -/
def be2int (B : Bytes) : Nat := le2int B.reverse

/-- `int2le(v, L)` (R9); beyond the range R9 defines it for, the low L bytes (log 23). -/
def int2le (v : Nat) : Nat → Bytes
  | 0 => []
  | L + 1 => BitVec.ofNat 8 v :: int2le (v / 256) L

/-- `int2be(v, L)` (R9; log 23). -/
def int2be (v L : Nat) : Bytes := (int2le v L).reverse

/-- A byte string as an integer in a byte order: `ed2int` for `ED_ENDIAN`, `os2i_C` for a curve's
order (R9). -/
def os2i (o : ByteOrder) (B : Bytes) : Nat :=
  match o with
  | .little => le2int B
  | .big => be2int B

/-- `i2os` (R9). -/
def i2os (o : ByteOrder) (v L : Nat) : Bytes :=
  match o with
  | .little => int2le v L
  | .big => int2be v L

/-- `(a − b) mod m` for `a, b ≥ 0`. -/
def subm (m a b : Nat) : Nat := (a + (m - b % m)) % m

/-- `b^e mod m` over the low k bits of e, square and multiply. -/
def powBits (m b : Nat) : Nat → Nat → Nat
  | 0, _ => 1 % m
  | k + 1, e =>
    let h := powBits m b k (e / 2)
    if e % 2 = 1 then h * h % m * b % m else h * h % m

/-- `b^e mod m`. -/
def powMod (m b e : Nat) : Nat := powBits m b (bitlen e) e

/-- `inv_m(a)` as the exponentiation `a^(m−2) mod m`, which R126 and 42_key_lifecycle.md R184 require
for a secret operand and allow for any (log 15). For `a = 0` it is `inv0` of 46_hash_to_curve.md
section 3. -/
def inv (m a : Nat) : Nat := powMod m a (m - 2)

/-- How often 2 divides v, over the low k bits of v. -/
def twos : Nat → Nat → Nat
  | 0, _ => 0
  | k + 1, v => if v % 2 = 0 then twos k (v / 2) + 1 else 0

/-- The least non-square modulo p among the k numbers from z on, by Euler's criterion; `z + k` if
there is none. -/
def nonSquare (p : Nat) : Nat → Nat → Nat
  | 0, z => z
  | k + 1, z => if powMod p z ((p - 1) / 2) = p - 1 then z else nonSquare p k (z + 1)

/-- The loop of Tonelli-Shanks: `r² = a·t`, `t^(2^k) = 1` and `c^(2^k) = −1` hold throughout when a
is a square, and `t = 1` at the end. -/
def tonelliLoop (p : Nat) : Nat → Nat → Nat → Nat → Nat
  | 0, r, _, _ => r
  | k + 1, r, t, c =>
    let c2 := c * c % p
    if powMod p t (2 ^ k) = 1 then tonelliLoop p k r t c2
    else tonelliLoop p k (r * c % p) (t * c2 % p) c2

/-- Tonelli-Shanks (40_modular_arithmetic.md R127): with `p − 1 = q·2^s`, q odd. A square root of a
if a is a square modulo p; any number otherwise. -/
def tonelliShanks (p a : Nat) : Nat :=
  let s := twos (bitlen (p - 1)) (p - 1)
  let q := (p - 1) / 2 ^ s
  let c := powMod p (nonSquare p p 2) q
  tonelliLoop p (s - 1) (powMod p a ((q + 1) / 2)) (powMod p a q) c

/-- The candidate root of R127: `a^((p+1)/4) mod p` for `p ≡ 3 (mod 4)`, the general algorithm
otherwise (log 16). -/
def rootCandidate (p a : Nat) : Nat :=
  if p % 4 = 3 then powMod p a ((p + 1) / 4) else tonelliShanks p a

/-- A square root of a modulo p, none if a has none (R127: the candidate is checked). -/
def sqrt? (p a : Nat) : Option Nat :=
  let r := rootCandidate p a
  if r * r % p = a % p then some r else none

/-- The root R127 lets a user of a found root r have: r itself for `p ≡ 3 (mod 4)`, where R127 fixes it,
otherwise the one of the two that `first` names, which R127 leaves open (log 9). -/
def chosenRoot (p r : Nat) (first : Bool) : Nat := if p % 4 = 3 ∨ first then r else (p - r) % p

/-- `sq(v)`: v is a square modulo p, 0 included. -/
def isSquare (p a : Nat) : Bool := (sqrt? p a).isSome

/-- What a search for a square root of a given parity finds. -/
inductive ParityRoot where
  /-- the number has no square root. -/
  | missing
  /-- it has one, and none of the parity asked for: only the root 0 with parity 1. -/
  | otherParity
  | found (y : Nat)
  deriving DecidableEq, Repr

/-- The square root of a with parity t: a root r, replaced by `(p − r) mod p` if its parity is not
t (41_curve_group.md R150, R151; 44_ecdsa.md R238; 47_eddsa.md R300). -/
def rootOfParity (p a t : Nat) : ParityRoot :=
  match sqrt? p a with
  | none => .missing
  | some r =>
    let y := if r % 2 = t then r else (p - r) % p
    if y % 2 = t then .found y else .otherParity

end Sys2Proof.Machine
end

