-- ==== Sys2Proof/Machine/Group.lean ====
section
/-! DEFINITION. The curve group (41_curve_group.md section 1): the equations (R140), the identity
(R141, R142), the two group laws (R143, R144) and scalar multiples (R145, R147). -/

namespace Sys2Proof.Machine

/-- `OnCurve_C(x, y)` (R140). -/
def onCurve (C : Curve) (x y : Nat) : Bool :=
  decide (x < C.p) && decide (y < C.p) &&
    match C.shape with
    | .weierstrass a b => decide (y * y % C.p = (x * x * x + a * x + b) % C.p)
    | .edwards ea d => decide ((ea * x * x + y * y) % C.p = (1 + d * (x * x) * (y * y)) % C.p)

/-- A CurvePoint of the curve (R141, R142). -/
def validPoint (C : Curve) : Point → Bool
  | .inf => match C.shape with
    | .weierstrass _ _ => true
    | .edwards _ _ => false
  | .aff x y => onCurve C x y

/-- The identity: `Inf` on kind W, `Aff(0, 1)` on kind E (R141, R142). -/
def identity (C : Curve) : Point :=
  match C.shape with
  | .weierstrass _ _ => .inf
  | .edwards _ _ => .aff 0 1

/-- `IsId_C(P)`. -/
def isId (C : Curve) (P : Point) : Bool := decide (P = identity C)

/-- The generator `G`. -/
def base (C : Curve) : Point := .aff C.gx C.gy

/-- The group law of kind W (R143). -/
def addW (p a : Nat) : Point → Point → Point
  | .inf, Q => Q
  | .aff x y, .inf => .aff x y
  | .aff x1 y1, .aff x2 y2 =>
    if x1 = x2 ∧ (y1 + y2) % p = 0 then .inf
    else
      let lam := if x1 = x2 then (3 * x1 * x1 + a) * inv p (2 * y1) % p
        else subm p y2 y1 * inv p (subm p x2 x1) % p
      let x3 := subm p (subm p (lam * lam) x1) x2
      .aff x3 (subm p (lam * subm p x1 x3) y1)

/-- The group law of kind E (R144). `Inf` does not occur there; it is given the identity's part
(log 22). -/
def addE (p ea d : Nat) : Point → Point → Point
  | .inf, Q => Q
  | .aff x y, .inf => .aff x y
  | .aff x1 y1, .aff x2 y2 =>
    let t := d * x1 * x2 * y1 * y2 % p
    .aff ((x1 * y2 + y1 * x2) * inv p (1 + t) % p)
      (subm p (y1 * y2) (ea * x1 * x2) * inv p (subm p 1 t) % p)

/-- `Add_C(P, Q)` (R143, R144). -/
def add (C : Curve) (P Q : Point) : Point :=
  match C.shape with
  | .weierstrass a _ => addW C.p a P Q
  | .edwards ea d => addE C.p ea d P Q

/-- `Dbl_C(P)` (R143, R144). -/
def dbl (C : Curve) (P : Point) : Point := add C P P

/-- `Neg_C(P)` (R143, R144). -/
def neg (C : Curve) : Point → Point
  | .inf => .inf
  | .aff x y =>
    match C.shape with
    | .weierstrass _ _ => .aff x ((C.p - y) % C.p)
    | .edwards _ _ => .aff ((C.p - x) % C.p) y

/-- `e·P` over the low k bits of e: double and add, most significant bit first. -/
def mulBits (C : Curve) (P : Point) : Nat → Nat → Point
  | 0, _ => identity C
  | k + 1, e =>
    let h := mulBits C P k (e / 2)
    if e % 2 = 1 then add C (dbl C h) P else dbl C h

/-- `Mul_C(k, P)` (R145), by plain double-and-add, which R145 names as acceptable and whose value is
R145's wherever the group law is associative (log 14). -/
def mul (C : Curve) (k : Nat) (P : Point) : Point := mulBits C P (bitlen k) k

/-- `MulG_C(k)` (R147). -/
def mulG (C : Curve) (k : Nat) : Point := mul C k (base C)

/-- `g(x) = x³ + a·x + b`, the right side of the kind-W equation (R140); 0 on kind E, where no rule
uses it. -/
def rhsW (C : Curve) (x : Nat) : Nat :=
  match C.shape with
  | .weierstrass a b => (x * x * x + a * x + b) % C.p
  | .edwards _ _ => 0

/-- `x² = (y² − 1)/(d·y² − ea)`, the square of the first coordinate on kind E (R151, R300); 0 on
kind W, where no rule uses it. -/
def xSquaredE (C : Curve) (y : Nat) : Nat :=
  match C.shape with
  | .weierstrass _ _ => 0
  | .edwards ea d => subm C.p (y * y) 1 * inv C.p (subm C.p (d * (y * y)) ea) % C.p

end Sys2Proof.Machine
end

