-- ==== Sys2Proof/Machine/State.lean ====
section
/-! DEFINITION. The state of the engine as plain data (10_state.md R20), with the model's own fields
for the host's coming accesses, the host port's answer, the RNG port's coming bytes and the
counter of free values; the reasons a step can stop; and the state after reset (R35). -/

namespace Sys2Proof.Machine

/-- Outcome codes (60_exceptions.md R320). Codes 0x09 to 0xFF are never produced. -/
inductive Code where
  | none
  | invalidScalar
  | invalidPoint
  | invalidEncoding
  | verificationFailure
  | recoveryFailure
  | domain
  | illegalCommand
  | badDescriptor
  deriving DecidableEq, Repr

/-- The outcome flags and the busy, done and hazard bits of STATUS (R26). Bits 7:6 and 31:10 read 0
and have no storage. -/
structure Status where
  busy : Bool
  done : Bool
  err : Bool
  result : Bool
  null : Bool
  haz : Bool
  recid : BitVec 2
  deriving DecidableEq, Repr

/-- A descriptor register: `off` in bits 15:0, `len` in bits 31:16 (R24, R25). -/
structure Desc where
  off : BitVec 16
  len : BitVec 16
  deriving DecidableEq, Repr

/-- ARG0..ARG3 (R24). -/
structure Args where
  a0 : Desc
  a1 : Desc
  a2 : Desc
  a3 : Desc
  deriving DecidableEq, Repr

/-- A memory: the bytes that hold a value, as (offset, byte) pairs at strictly rising offsets. An
unlisted offset is valueless (R29, log 5). -/
abbrev Mem := List Host.Cell

/-- The canonical form of a memory: offsets strictly rising. No entry can equal what an unlisted
offset reads as, since an unlisted offset holds no value. -/
def Mem.wf : Mem → Bool
  | [] => true
  | [_] => true
  | c :: d :: m => decide (c.1 < d.1) && Mem.wf (d :: m)

/-- The pending-command latch (R30): the word, the descriptors and IMEM as they were at
acceptance. -/
structure Pending where
  word : Word
  args : Args
  imem : Mem
  deriving DecidableEq, Repr

/-- The width of a host access; only 32 bits is legal (20_memory.md R62). -/
inductive Width where
  | bits8
  | bits16
  | bits32
  | bits64
  deriving DecidableEq, Repr

/-- What happens next from outside the engine, or the engine's own turn (log 3). Addresses are
18-bit byte addresses on the host port (20_memory.md R60, log 19). -/
inductive HostEvent where
  | read (width : Width) (addr : BitVec 18)
  | write (width : Width) (addr : BitVec 18) (data : Word)
  | reset
  /-- the engine completes the pending command, if there is one (10_state.md R31). -/
  | engine
  deriving DecidableEq, Repr

/-- The host port's answer to an access (20_memory.md R62, R63; log 4). -/
inductive Reply where
  | data (w : Word)
  | written
  | busError
  deriving DecidableEq, Repr

/-- The state (R20). -/
structure State where
  /-- the configuration; no step changes it (log 1). -/
  cfg : Cfg
  ctrl : Word
  cmd : Word
  status : Status
  errcode : Code
  tblstat : Word
  args : Args
  res0 : Desc
  res1 : Desc
  imem : Mem
  omem : Mem
  pend : Option Pending
  /-- the model's own: what comes next, first first (log 3). -/
  inputs : List HostEvent
  /-- the model's own: the answer to the last host access (log 4). -/
  reply : Option Reply
  /-- the model's own: the bytes the RNG port answers next, first first (log 8). -/
  rng : Bytes
  /-- the model's own: where the next free value is taken (log 5). -/
  free : Nat
  /-- the model's own: where the free values of the present BUSY period start (log 7). -/
  held : Nat
  deriving DecidableEq, Repr

/-- Why a step stops with a fault. -/
inductive Fault where
  /-- A meaning was asked for although no command is pending: raised by every meaning, and never by
  `step`, which asks for one only while a command is pending (log 17). Safe. -/
  | noCommandPending
  /-- ECSIGN or ECSIGNR: no candidate of the nonce generator is ever accepted. The spec's stuck case, a
  command that never completes (93_implementation_defined.md U7, log 10). Safe. -/
  | nonceNeverAccepted
  deriving DecidableEq, Repr

/-- Why a step is refused. -/
inductive Refusal where
  /-- A command that has no meaning in this model yet: raised by `exec` alone. Safe. -/
  | notModelled (mnemonic : String)
  deriving DecidableEq, Repr

/-- STATUS = 0 (R35). -/
def Status.zero : Status := ⟨false, false, false, false, false, false, 0⟩

/-- A descriptor register holding 0 (R35). -/
def Desc.zero : Desc := ⟨0, 0⟩

/-- ARG0..ARG3 all 0 (R35). -/
def Args.zero : Args := ⟨.zero, .zero, .zero, .zero⟩

/-- The state after reset under a configuration (R35; 70_reset_and_hazards.md R350). The last five
fields are the model's own (logs 3, 4, 5, 7, 8). -/
def State.resetWith (g : Cfg) : State where
  cfg := g
  ctrl := 0
  cmd := 0
  status := .zero
  errcode := .none
  tblstat := 0
  args := .zero
  res0 := .zero
  res1 := .zero
  imem := []
  omem := []
  pend := none
  inputs := []
  reply := none
  rng := []
  free := 0
  held := 0

/-- The machine right after reset. R35 fixes everything but the configuration, which is the
suggested one (log 2). -/
def State.reset : State := State.resetWith Config.suggested

end Sys2Proof.Machine
end

