-- ==== Sys2Proof/Machine/Flags.lean ====
section
/-! DEFINITION. How a command can end, and the flags and the outcome code each ending gives
(60_exceptions.md R320 to R324; 10_state.md R26, R27, R32). -/

namespace Sys2Proof.Machine

/-- The validation failures: the argument of `raise Err(code)` (R320, R322). -/
inductive Failure where
  | invalidScalar
  | invalidPoint
  | invalidEncoding
  | domain
  | illegalCommand
  | badDescriptor
  deriving DecidableEq, Repr

/-- How a command reports its end. -/
inductive Report where
  /-- success with one or two result strings and a recovery id (20_memory.md R71, 44_ecdsa.md
  R236). -/
  | results (b0 : Bytes) (b1 : Option Bytes) (recid : BitVec 2)
  /-- `return_bool` of a predicate (R323). -/
  | predicate (b : Bool)
  /-- `return_bool` of a verification: ECVFY, SCHVFY, SCHVFYB, EDVFY (R323). -/
  | verified (b : Bool)
  /-- `return_null()` (R324). -/
  | null
  /-- `raise Err(code)` (R322). -/
  | failure (f : Failure)
  deriving DecidableEq, Repr

/-- All a completing command does: its report, whether it evaluated `MulG_C` (10_state.md R33), and
how many bytes of the RNG port's known answers it used (60_exceptions.md R334). -/
structure Ending where
  report : Report
  table : Bool
  rngUsed : Nat
  deriving DecidableEq, Repr

/-- The outcome code of a failure (R320). -/
def Failure.code : Failure → Code
  | .invalidScalar => .invalidScalar
  | .invalidPoint => .invalidPoint
  | .invalidEncoding => .invalidEncoding
  | .domain => .domain
  | .illegalCommand => .illegalCommand
  | .badDescriptor => .badDescriptor

/-- The number of an outcome code, ERRCODE[7:0] (R320). -/
def Code.value : Code → BitVec 8
  | .none => 0x00
  | .invalidScalar => 0x01
  | .invalidPoint => 0x02
  | .invalidEncoding => 0x03
  | .verificationFailure => 0x04
  | .recoveryFailure => 0x05
  | .domain => 0x06
  | .illegalCommand => 0x07
  | .badDescriptor => 0x08

/-- ERRCODE at completion (R320, R322 to R324). -/
def Report.code : Report → Code
  | .results _ _ _ => .none
  | .predicate _ => .none
  | .verified true => .none
  | .verified false => .verificationFailure
  | .null => .recoveryFailure
  | .failure f => f.code

/-- STATUS.ERR at completion (R320). -/
def Report.err : Report → Bool
  | .results _ _ _ => false
  | .predicate _ => false
  | .verified _ => false
  | .null => false
  | .failure _ => true

/-- STATUS.RESULT at completion (R320, R323). -/
def Report.result : Report → Bool
  | .results _ _ _ => false
  | .predicate b => b
  | .verified b => b
  | .null => false
  | .failure _ => false

/-- STATUS.NULL at completion (R320, R324). -/
def Report.isNull : Report → Bool
  | .results _ _ _ => false
  | .predicate _ => false
  | .verified _ => false
  | .null => true
  | .failure _ => false

/-- STATUS.RECID at completion: the id of ECSIGNR, 0 otherwise (R26). -/
def Report.recid : Report → BitVec 2
  | .results _ _ id => id
  | .predicate _ => 0
  | .verified _ => 0
  | .null => 0
  | .failure _ => 0

/-- STATUS after a completion: not busy, done, the outcome flags all written, HAZ kept (R31, R32,
R37). -/
def Report.status (r : Report) (haz : Bool) : Status where
  busy := false
  done := true
  err := r.err
  result := r.result
  null := r.isNull
  haz := haz
  recid := r.recid

/-- STATUS after an acceptance: busy, every outcome flag cleared, HAZ kept (R30). -/
def Status.accepted (haz : Bool) : Status where
  busy := true
  done := false
  err := false
  result := false
  null := false
  haz := haz
  recid := 0

/-- STATUS as a word (R26). -/
def Status.word (t : Status) : Word :=
  (0 : BitVec 22) ++ t.recid ++ (0 : BitVec 2) ++ BitVec.ofBool t.haz ++ BitVec.ofBool t.null
    ++ BitVec.ofBool t.result ++ BitVec.ofBool t.err ++ BitVec.ofBool t.done ++ BitVec.ofBool t.busy

/-- A host write to STATUS: bits 1 and 5 clear DONE and HAZ, nothing else changes (R26). -/
def Status.clear (t : Status) (d : Word) : Status :=
  { t with done := t.done && !d.getLsbD 1, haz := t.haz && !d.getLsbD 5 }

/-- An ending that only reports. -/
def Ending.plain (r : Report) : Ending := ⟨r, false, 0⟩

/-- An ending after `MulG_C` was evaluated. -/
def Ending.afterMulG (r : Report) : Ending := ⟨r, true, 0⟩

/-- Success with one result string. -/
def Ending.one (B : Bytes) : Ending := .plain (.results B none 0)

/-- Success with two result strings. -/
def Ending.two (B0 B1 : Bytes) : Ending := .plain (.results B0 (some B1) 0)

/-- `raise Err(f)` before any `MulG_C`. -/
def Ending.fail (f : Failure) : Ending := .plain (.failure f)

/-- The ending of a rule that either raises or gives one result, without `MulG_C`. -/
def Ending.ofOne : Except Failure Bytes → Ending
  | .ok B => .one B
  | .error f => .fail f

/-- The ending of a rule that either raises or gives two results, without `MulG_C`. -/
def Ending.ofTwo : Except Failure (Bytes × Bytes) → Ending
  | .ok B => .two B.1 B.2
  | .error f => .fail f

end Sys2Proof.Machine
end

