-- ==== Sys2Proof/Machine/Ops.lean ====
section
/-! DEFINITION. The named operations over memory and registers: bytes of a memory, descriptors,
acceptance (10_state.md R30), completion (R31), raising a failure (60_exceptions.md R322) and its
acknowledgement (R327), the interrupt output (R330), the table bit (R33), reset (R35). -/

namespace Sys2Proof.Machine

/-! ### Memory -/

/-- The byte at an offset, none where it is valueless (R29). -/
def Mem.get? : Mem → Nat → Option Byte
  | [], _ => none
  | (a, b) :: m, x => if a = x then some b else Mem.get? m x

/-- The bytes from offset n on, each one that held a value now holding an unspecified one, the free value
of its own offset from k on; a valueless byte stays valueless (20_memory.md R67, R71, log 6). -/
def Mem.unspecified : Mem → Nat → Nat → Mem
  | [], _, _ => []
  | (a, _) :: m, n, k =>
    if a < n then Mem.unspecified m n k
    else (a, Config.freeByte (k + a)) :: Mem.unspecified m n k

/-- Write one byte, keeping the canonical form. -/
def Mem.set : Mem → Nat → Byte → Mem
  | [], x, v => [(x, v)]
  | (a, b) :: m, x, v =>
    if x < a then (x, v) :: (a, b) :: m
    else if x = a then (a, v) :: m
    else (a, b) :: Mem.set m x v

/-- The memory that holds a byte string from an offset on and nothing else. -/
def Mem.ofBytes (x : Nat) : Bytes → Mem
  | [] => []
  | b :: B => (x, b) :: Mem.ofBytes (x + 1) B

/-- A read of one byte: its value, or the k-th free value where it is valueless (R29, log 5). -/
def Mem.readByte (m : Mem) (x k : Nat) : Byte := (m.get? x).getD (Config.freeByte k)

/-- `MemRead(space, x, n)`, lowest offset first; a valueless byte takes its own free value, from the
k-th on (00_scope.md section 5.2, log 5). -/
def Mem.read (m : Mem) (x : Nat) : Nat → Nat → Bytes
  | 0, _ => []
  | n + 1, k => m.readByte x k :: Mem.read m (x + 1) n (k + 1)

/-- A word from its four byte lanes, lane 0 in bits 7:0 (20_memory.md R63). -/
def wordOfLanes (b0 b1 b2 b3 : Byte) : Word := b3 ++ b2 ++ b1 ++ b0

/-- Byte lane i of a word (20_memory.md R63). -/
def lane (w : Word) (i : Nat) : Byte := w.extractLsb' (8 * i) 8

/-- A word read of a memory at offset x (20_memory.md R63). -/
def Mem.readWord (m : Mem) (x k : Nat) : Word :=
  wordOfLanes (m.readByte x k) (m.readByte (x + 1) (k + 1)) (m.readByte (x + 2) (k + 2))
    (m.readByte (x + 3) (k + 3))

/-- A word write at offset x: the four bytes from lanes 0..3 (20_memory.md R63, R65). -/
def Mem.writeWord (m : Mem) (x : Nat) (w : Word) : Mem :=
  (((m.set x (lane w 0)).set (x + 1) (lane w 1)).set (x + 2) (lane w 2)).set (x + 3) (lane w 3)

/-! ### Descriptor registers -/

/-- A descriptor as the register's word (R24). -/
def Desc.word (d : Desc) : Word := d.len ++ d.off

/-- A descriptor from the word written (R24). -/
def Desc.ofWord (w : Word) : Desc := ⟨w.extractLsb' 0 16, w.extractLsb' 16 16⟩

/-- The descriptor of `n` bytes at OMEM offset `x` (20_memory.md R71). -/
def Desc.ofNat (x n : Nat) : Desc := ⟨BitVec.ofNat 16 x, BitVec.ofNat 16 n⟩

/-- ARGi. -/
def Args.get (a : Args) (i : BitVec 2) : Desc :=
  if i = 0 then a.a0 else if i = 1 then a.a1 else if i = 2 then a.a2 else a.a3

/-- A write of ARGi. -/
def Args.set (a : Args) (i : BitVec 2) (d : Desc) : Args :=
  if i = 0 then { a with a0 := d } else if i = 1 then { a with a1 := d }
  else if i = 2 then { a with a2 := d } else { a with a3 := d }

/-! ### The two transitions of a command -/

/-- How many free values an acceptance sets aside for the reads of OMEM while BUSY = 1, one for each offset
an OMEM can have (log 7). -/
def freePerAcceptance : Nat := 65536

/-- Acceptance of a word (R30). What RESi and OMEM read as until the command completes is settled here
(20_memory.md R66, R67, log 7). -/
def State.accept (s : State) (w : Word) : State :=
  { s with
    cmd := w
    pend := some ⟨w, s.args, s.imem⟩
    status := .accepted s.status.haz
    errcode := .none
    res0 := .zero
    res1 := .zero
    held := s.free
    free := s.free + freePerAcceptance }

/-- RES0 at completion (20_memory.md R71). -/
def Report.res0 : Report → Desc
  | .results b0 _ _ => .ofNat 0 b0.length
  | .predicate _ => .zero
  | .verified _ => .zero
  | .null => .zero
  | .failure _ => .zero

/-- RES1 at completion (20_memory.md R71). -/
def Report.res1 : Report → Desc
  | .results b0 (some b1) _ => .ofNat b0.length b1.length
  | .results _ none _ => .zero
  | .predicate _ => .zero
  | .verified _ => .zero
  | .null => .zero
  | .failure _ => .zero

/-- The bytes a completion writes to OMEM, the results packed (20_memory.md R71). -/
def Report.bytes : Report → Bytes
  | .results b0 (some b1) _ => b0 ++ b1
  | .results b0 none _ => b0
  | .predicate _ => []
  | .verified _ => []
  | .null => []
  | .failure _ => []

/-- TBLSTAT at completion: bit c is set iff the command evaluated `MulG_C` on curve c and the tables
exist (R33). -/
def tableAfter (g : Cfg) (t : Word) (c : BitVec 4) (evaluated : Bool) : Word :=
  if evaluated && g.tables then t ||| (1 <<< c.toNat) else t

/-- How many free values one completion may take: 65536 for each of ARG0..ARG2, as many for the command's
own draws, and as many for the bytes of OMEM it leaves unspecified (log 5). -/
def freePerCommand : Nat := 327680

/-- OMEM at a completion that writes B: B from offset 0; every other byte that held a value holds an
unspecified one, the same at every read until the next completion; a byte never written since reset stays
valueless (20_memory.md R67, R71; 10_state.md R29; log 6). -/
def State.omemAfter (s : State) (B : Bytes) : Mem :=
  Mem.ofBytes 0 B ++ s.omem.unspecified B.length (s.free + 262144)

/-- Completion of a command on curve c (R31): everything it writes, at once. -/
def State.complete (s : State) (c : BitVec 4) (e : Ending) : State :=
  { s with
    omem := s.omemAfter e.report.bytes
    res0 := e.report.res0
    res1 := e.report.res1
    status := e.report.status s.status.haz
    errcode := e.report.code
    tblstat := tableAfter s.cfg s.tblstat c e.table
    pend := none
    rng := s.rng.drop e.rngUsed
    free := s.free + freePerCommand }

/-- `raise Err(f)` before anything was computed: the completion that only reports a failure
(60_exceptions.md R322, R326). This is the engine's whole exception entry. -/
def State.raise (s : State) (f : Failure) : State := s.complete 0 (.fail f)

/-- The host's acknowledgement, a write to STATUS (60_exceptions.md R327; R26). This is the engine's
whole exception return: nothing is restored, because nothing was saved. -/
def State.acknowledge (s : State) (d : Word) : State := { s with status := s.status.clear d }

/-- Reset (R35, R36; 70_reset_and_hazards.md R350): every register and memory, and a pending command
is discarded. What lies outside the engine stays: the configuration, the coming inputs, the RNG
port and the free values (log 28). -/
def State.resetEngine (s : State) : State :=
  { State.resetWith s.cfg with inputs := s.inputs, rng := s.rng, free := s.free }

/-- The interrupt output `irq = CTRL.IE and STATUS.DONE` (60_exceptions.md R330). -/
def State.irq (s : State) : Bool := s.ctrl.getLsbD 0 && s.status.done

end Sys2Proof.Machine
end

