-- ==== Sys2Proof/Machine/Operands.lean ====
section
/-! DEFINITION. The operand forms: the point encodings (41_curve_group.md R150 to R152), the operand
classes (30_encoding.md R100 to R105), lists (20_memory.md R72), and the argument strings a
pending command names (20_memory.md R69, R70). -/

namespace Sys2Proof.Machine

/-- `require b else Err(f)` (00_scope.md section 5.2). -/
def require (b : Bool) (f : Failure) : Except Failure Unit := if b then .ok () else .error f

/-! ### Byte strings of a curve -/

/-- `os2i_C` (00_scope.md R9). -/
def os2iC (C : Ctx) (B : Bytes) : Nat := os2i C.order B

/-- `i2os_C` (00_scope.md R9). -/
def i2osC (C : Ctx) (v L : Nat) : Bytes := i2os C.order v L

/-- The modulus MOD selects (30_encoding.md R93). -/
def modulusC (C : Ctx) : Modulus → Nat
  | .field => C.p
  | .order => C.n

/-- The operand width MOD selects (30_encoding.md R93). -/
def widthC (C : Ctx) : Modulus → Nat
  | .field => C.fsize
  | .order => C.ssize

/-! ### Point encodings -/

/-- The compressed form of R150: `x`, and the root of `g(x)` with the parity the prefix asks for. -/
def decodeCompressed (C : Ctx) (t : Nat) (X : Bytes) : Except Failure Point := do
  require (X.length = C.fsize) .invalidEncoding
  let x := be2int X
  require (x < C.p) .invalidPoint
  match rootOfParity C.p (rhsW C.toCurve x) t with
  | .missing => .error .invalidPoint
  | .otherParity => .error .invalidPoint
  | .found y => .ok (.aff x y)

/-- The forms of R150 that carry both coordinates; `parity` is what a hybrid prefix claims. -/
def decodeBoth (C : Ctx) (parity : Option Nat) (XY : Bytes) : Except Failure Point := do
  require (XY.length = 2 * C.fsize) .invalidEncoding
  let x := be2int (XY.take C.fsize)
  let y := be2int (XY.drop C.fsize)
  require (x < C.p) .invalidPoint
  require (y < C.p) .invalidPoint
  require (match parity with | none => true | some t => decide (y % 2 = t)) .invalidEncoding
  require (onCurve C.toCurve x y) .invalidPoint
  .ok (.aff x y)

/-- `DecodePoint_C(B)`, kind W (R150). -/
def decodePointW (C : Ctx) : Bytes → Except Failure Point
  | [] => .error .invalidEncoding
  | t :: B =>
    if t = 0x00 ∧ B = [] then .ok .inf
    else if t = 0x02 then decodeCompressed C 0 B
    else if t = 0x03 then decodeCompressed C 1 B
    else if t = 0x04 then decodeBoth C none B
    else if t = 0x06 then decodeBoth C (some 0) B
    else if t = 0x07 then decodeBoth C (some 1) B
    else .error .invalidEncoding

/-- `DecodePoint_C(B)`, kind E (R151). -/
def decodePointE (C : Ctx) (B : Bytes) : Except Failure Point := do
  require (B.length = C.fsize) .invalidEncoding
  let v := os2iC C B
  let s := v / 2 ^ (8 * C.fsize - 1)
  let y := v % 2 ^ (8 * C.fsize - 1)
  require (y < C.p) .invalidPoint
  match rootOfParity C.p (xSquaredE C.toCurve y) s with
  | .missing => .error .invalidPoint
  | .otherParity => .error .invalidEncoding
  | .found x => .ok (.aff x y)

/-- `DecodePoint_C(B)`. -/
def decodePoint (C : Ctx) (B : Bytes) : Except Failure Point :=
  match C.shape with
  | .weierstrass _ _ => decodePointW C B
  | .edwards _ _ => decodePointE C B

/-- `EncodePoint_C(P, form)` (R152). The reserved form never reaches it (30_encoding.md R96 step 5);
`Inf` does not occur on kind E (log 22). -/
def encodePoint (C : Ctx) (P : Point) (form : PointForm) : Bytes :=
  match C.shape, P with
  | .weierstrass _ _, .inf => [0x00]
  | .weierstrass _ _, .aff x y =>
    match form with
    | .compressed => BitVec.ofNat 8 (2 + y % 2) :: int2be x C.fsize
    | .hybrid => BitVec.ofNat 8 (6 + y % 2) :: int2be x C.fsize ++ int2be y C.fsize
    | .uncompressed => 0x04 :: int2be x C.fsize ++ int2be y C.fsize
    | .reserved => 0x04 :: int2be x C.fsize ++ int2be y C.fsize
  | .edwards _ _, .aff x y => i2osC C (y + 2 ^ (8 * C.fsize - 1) * (x % 2)) C.fsize
  | .edwards _ _, .inf => i2osC C 1 C.fsize

/-! ### Operand classes -/

/-- `getRes_C,m(B)` (R100). -/
def getRes (C : Ctx) (m : Modulus) (B : Bytes) : Except Failure Nat := do
  require (B.length = widthC C m) .domain
  require (os2iC C B < modulusC C m) .domain
  .ok (os2iC C B)

/-- `getSC_C(B)` (R101). -/
def getSC (C : Ctx) (B : Bytes) : Except Failure Nat := do
  require (B.length = C.ssize && os2iC C B < C.n) .invalidScalar
  .ok (os2iC C B)

/-- `getSK_C(B)` (R102). -/
def getSK (C : Ctx) (B : Bytes) : Except Failure Nat := do
  let k ← getSC C B
  require (1 ≤ k) .invalidScalar
  .ok k

/-- `getPT_C(B)` (R103). -/
def getPT (C : Ctx) (B : Bytes) : Except Failure Point := decodePoint C B

/-- `getPK_C(B)` (R104). -/
def getPK (C : Ctx) (B : Bytes) : Except Failure Point := do
  let P ← getPT C B
  require (!isId C.toCurve P) .invalidPoint
  .ok P

/-- `putPT_C(P, form)` (R105). -/
def putPT (C : Ctx) (P : Point) (form : PointForm) : Bytes := encodePoint C P form

/-- `putSC_C(v)` (R105). -/
def putSC (C : Ctx) (v : Nat) : Bytes := i2osC C v C.ssize

/-- `putFE_C(v)` (R105). -/
def putFE (C : Ctx) (v : Nat) : Bytes := i2osC C v C.fsize

/-! ### Lists -/

/-- Parsing of a list (20_memory.md R72): items of a 2-byte big-endian length and that many bytes,
until the string is exhausted; none if it is malformed. Each item takes at least 2 bytes, so k
items suffice for a string of at most 2·k bytes. -/
def parseItems : Nat → Bytes → Option (List Bytes)
  | _, [] => some []
  | 0, _ :: _ => none
  | _ + 1, [_] => none
  | k + 1, b1 :: b0 :: B =>
    let n := be2int [b1, b0]
    if n ≤ B.length then (parseItems k (B.drop n)).map (fun items => B.take n :: items) else none

/-- `parse_list(B)` (20_memory.md R72). -/
def parseList (B : Bytes) : Except Failure (List Bytes) :=
  match parseItems B.length B with
  | some items => .ok items
  | none => .error .invalidEncoding

/-! ### The arguments of a pending command -/

/-- The descriptor check of one argument (20_memory.md R69). -/
def Desc.inImem (d : Desc) (g : Cfg) : Bool := decide (d.off.toNat + d.len.toNat ≤ g.imemBytes)

/-- The descriptor checks of a command that uses ARG0..ARG(n−1), in increasing i (20_memory.md R69).
Every failing one has the same outcome. -/
def Args.inImem (a : Args) (g : Cfg) (n : Nat) : Bool :=
  (decide (n < 1) || a.a0.inImem g) && (decide (n < 2) || a.a1.inImem g)
    && (decide (n < 3) || a.a2.inImem g)

/-- `arg(i)` of a descriptor, from the copy of IMEM, its valueless bytes from the k-th free value on
(20_memory.md R70, log 5). -/
def Pending.fetch (p : Pending) (d : Desc) (k : Nat) : Bytes :=
  p.imem.read d.off.toNat d.len.toNat k

/-- What a command computes on: `arg(0)`, `arg(1)`, `arg(2)`, the RNG port's known answers, and where
the command's own free draws start. -/
structure Operands where
  a0 : Bytes
  a1 : Bytes
  a2 : Bytes
  rng : Bytes
  draw : Nat
  deriving DecidableEq, Repr

/-- The operands of a pending command. Each argument has its own 65536 free values (log 5). -/
def State.operands (s : State) (p : Pending) : Operands where
  a0 := p.fetch p.args.a0 s.free
  a1 := p.fetch p.args.a1 (s.free + 65536)
  a2 := p.fetch p.args.a2 (s.free + 131072)
  rng := s.rng
  draw := s.free + 196608

end Sys2Proof.Machine
end

