-- ==== Sys2Proof/Machine/Command.lean ====
section
/-! DEFINITION. What every command shares: the legality checks that need the configuration
(30_encoding.md R96 steps 3 to 6), the descriptor checks (20_memory.md R69), and the completion with
what the command's own rule gives (10_state.md R31; priority 60_exceptions.md R325). -/

namespace Sys2Proof.Machine

/-- The column "kinds" of 30_encoding.md R97. -/
inductive Kinds where
  | both
  | onlyW
  | onlyE
  deriving DecidableEq, Repr

/-- R96 step 4. -/
def Kinds.allows (k : Kinds) (C : Curve) : Bool :=
  match k, C.shape with
  | .both, _ => true
  | .onlyW, .weierstrass _ _ => true
  | .onlyW, .edwards _ _ => false
  | .onlyE, .weierstrass _ _ => false
  | .onlyE, .edwards _ _ => true

/-- R96 step 5: FORM ≠ 3, and FORM = 0 on kind E. A command without a FORM field has FORM = 0. -/
def formAllowed (f : PointForm) (C : Curve) : Bool :=
  match f, C.shape with
  | .reserved, _ => false
  | .uncompressed, _ => true
  | .compressed, .weierstrass _ _ => true
  | .compressed, .edwards _ _ => false
  | .hybrid, .weierstrass _ _ => true
  | .hybrid, .edwards _ _ => false

/-- What R96 step 6 asks of `C.h2c`. -/
inductive MapNeed where
  | nothing
  | exactly (m : MapKind)
  | some
  deriving DecidableEq, Repr

/-- R96 step 6. -/
def MapNeed.met (m : MapNeed) (C : Curve) : Bool :=
  match m with
  | .nothing => true
  | .exactly k => decide (C.h2c = k)
  | .some => decide (C.h2c ≠ .none)

/-- What the opcode table and R96 say of a command besides its word: the kinds, the FORM field, the
map, and how many of ARG0, ARG1, ARG2 it reads (R97). -/
structure Demand where
  kinds : Kinds
  form : PointForm
  map : MapNeed
  nargs : Nat
  deriving DecidableEq, Repr

/-- R96 steps 3 to 6: the curve a legal command works on, none if the command is illegal. -/
def Demand.curve? (d : Demand) (g : Cfg) (c : BitVec 4) : Option Ctx :=
  match g.ctx? c.toNat with
  | none => none
  | some C =>
    if d.kinds.allows C.toCurve && formAllowed d.form C.toCurve && d.map.met C.toCurve then some C
    else none

/-- The completion of the pending command: IllegalCommand, then BadDescriptor, then the command's own
rule (R325). `rule` is none where the rule never ends (93_implementation_defined.md U7). -/
def runCommand (s : State) (c : BitVec 4) (d : Demand) (rule : Ctx → Operands → Option Ending) :
    Host.Outcome State Fault Refusal :=
  match s.pend with
  | none => .fault .noCommandPending
  | some p =>
    match d.curve? s.cfg c with
    | none => .next (s.raise .illegalCommand)
    | some C =>
      if p.args.inImem s.cfg d.nargs then
        match rule C (s.operands p) with
        | none => .fault .nonceNeverAccepted
        | some e => .next (s.complete c e)
      else .next (s.raise .badDescriptor)

/-- A command that always ends (40_modular_arithmetic.md R128; 10_state.md R31). -/
def runTotal (s : State) (c : BitVec 4) (d : Demand) (rule : Ctx → Operands → Ending) :
    Host.Outcome State Fault Refusal :=
  runCommand s c d (fun C o => some (rule C o))

end Sys2Proof.Machine
end

