-- ==== Sys2Proof/Machine/CurveGroup.lean ====
section
/-! DEFINITION. Curve group commands (41_curve_group.md R153 to R161): PCHK, PADD, PDBL, PNEG, PCOMB,
PMULG, PMUL, PENC, PDEC. -/

namespace Sys2Proof.Machine

/-- PCHK (R153): a wrong length or a value out of range is false. -/
def execPchk (c : BitVec 4) (s : State) : Host.Outcome State Fault Refusal :=
  runTotal s c ⟨.both, .uncompressed, .nothing, 2⟩ fun C o =>
    .plain (.predicate (decide (o.a0.length = C.fsize) && decide (o.a1.length = C.fsize)
      && onCurve C.toCurve (os2iC C o.a0) (os2iC C o.a1)))

/-- PADD (R154). -/
def execPadd (c : BitVec 4) (f : PointForm) (s : State) : Host.Outcome State Fault Refusal :=
  runTotal s c ⟨.both, f, .nothing, 2⟩ fun C o =>
    .ofOne (do
      let P ← getPT C o.a0
      let Q ← getPT C o.a1
      .ok (putPT C (add C.toCurve P Q) f))

/-- PDBL (R155). -/
def execPdbl (c : BitVec 4) (f : PointForm) (s : State) : Host.Outcome State Fault Refusal :=
  runTotal s c ⟨.both, f, .nothing, 1⟩ fun C o =>
    .ofOne (do
      let P ← getPT C o.a0
      .ok (putPT C (dbl C.toCurve P) f))

/-- PNEG (R156). -/
def execPneg (c : BitVec 4) (f : PointForm) (s : State) : Host.Outcome State Fault Refusal :=
  runTotal s c ⟨.both, f, .nothing, 1⟩ fun C o =>
    .ofOne (do
      let P ← getPT C o.a0
      .ok (putPT C (neg C.toCurve P) f))

/-- The items of a list as public keys, all decoded before anything is added (R157). -/
def getPKs (C : Ctx) : List Bytes → Except Failure (List Point)
  | [] => .ok []
  | B :: Bs => do
    let P ← getPK C B
    let Ps ← getPKs C Bs
    .ok (P :: Ps)

/-- The sum of a list onto S, every partial sum tested (R157, 90_conflicts.md C5). -/
def combine (C : Curve) : Point → List Point → Except Failure Point
  | S, [] => .ok S
  | S, P :: Ps =>
    if isId C (add C S P) then .error .invalidPoint else combine C (add C S P) Ps

/-- PCOMB (R157). -/
def execPcomb (c : BitVec 4) (f : PointForm) (s : State) : Host.Outcome State Fault Refusal :=
  runTotal s c ⟨.both, f, .nothing, 1⟩ fun C o =>
    .ofOne (do
      let items ← parseList o.a0
      let Ps ← getPKs C items
      require (Ps ≠ []) .invalidPoint
      let S ← combine C.toCurve (identity C.toCurve) Ps
      .ok (putPT C S f))

/-- PMULG (R158). SEC = 1 asks for a constant number of group operations and changes no value (R146), so
the meaning does not read it (log 20). -/
def execPmulg (c : BitVec 4) (f : PointForm) (_sec : Bool) (s : State) :
    Host.Outcome State Fault Refusal :=
  runTotal s c ⟨.both, f, .nothing, 1⟩ fun C o =>
    match getSC C o.a0 with
    | .error e => .fail e
    | .ok k => .afterMulG (.results (putPT C (mulG C.toCurve k) f) none 0)

/-- PMUL (R159). SEC changes no value (R146, log 20). -/
def execPmul (c : BitVec 4) (f : PointForm) (_sec : Bool) (s : State) :
    Host.Outcome State Fault Refusal :=
  runTotal s c ⟨.both, f, .nothing, 2⟩ fun C o =>
    .ofOne (do
      let k ← getSC C o.a0
      let P ← getPT C o.a1
      .ok (putPT C (mul C.toCurve k P) f))

/-- PENC (R160): it validates before it encodes. -/
def execPenc (c : BitVec 4) (f : PointForm) (s : State) : Host.Outcome State Fault Refusal :=
  runTotal s c ⟨.both, f, .nothing, 2⟩ fun C o =>
    .ofOne (do
      require (o.a0.length = C.fsize && o.a1.length = C.fsize) .invalidEncoding
      let x := os2iC C o.a0
      let y := os2iC C o.a1
      require (x < C.p) .invalidPoint
      require (y < C.p) .invalidPoint
      require (onCurve C.toCurve x y) .invalidPoint
      .ok (putPT C (.aff x y) f))

/-- PDEC (R161): the kind-W identity has no coordinates. -/
def execPdec (c : BitVec 4) (s : State) : Host.Outcome State Fault Refusal :=
  runTotal s c ⟨.both, .uncompressed, .nothing, 1⟩ fun C o =>
    .ofTwo (do
      let P ← getPT C o.a0
      match P with
      | .inf => .error .invalidPoint
      | .aff x y => .ok (putFE C x, putFE C y))

end Sys2Proof.Machine
end

