-- ==== Sys2Proof/Machine/SigCodec.lean ====
section
/-! DEFINITION. Signature codec (43_signature_codec.md): the compact form (R210), low-S (R211), DER
(R212), strict DER decoding (R213), and SIGTODER, SIGFROMDER, SIGLOWS, SIGLOWDER, SIGNORM,
SIGNORMDER (R214 to R219). -/

namespace Sys2Proof.Machine

/-- The range of a signature component: `0 < v < n` (R210). -/
def sigRange (C : Ctx) (v : Nat) : Bool := decide (0 < v) && decide (v < C.n)

/-- `getSigC_C(B)` (R210). -/
def getSigC (C : Ctx) (B : Bytes) : Except Failure (Nat × Nat) := do
  require (B.length = 2 * C.ssize) .invalidEncoding
  let r := be2int (B.take C.ssize)
  let s := be2int (B.drop C.ssize)
  require (sigRange C r) .invalidScalar
  require (sigRange C s) .invalidScalar
  .ok (r, s)

/-- `putSigC_C(r, s)` (R210). -/
def putSigC (C : Ctx) (r s : Nat) : Bytes := int2be r C.ssize ++ int2be s C.ssize

/-- `LowS_C(s)` (R211). -/
def lowS (C : Ctx) (s : Nat) : Bool := decide (s ≤ (C.n - 1) / 2)

/-- The canonical low-S value of s (R218). -/
def normalS (C : Ctx) (s : Nat) : Nat := if lowS C s then s else C.n - s

/-- `Len(k)` (R212); k ≥ 256 cannot occur (log 23). -/
def derLen (k : Nat) : Bytes := if k < 128 then [BitVec.ofNat 8 k] else [0x81, BitVec.ofNat 8 k]

/-- The shortest big-endian byte string of v, one byte for 0 (R212). -/
def shortest (v : Nat) : Bytes := int2be v (max 1 ((bitlen v + 7) / 8))

/-- The content of a DER INTEGER: the shortest string, with a `00` in front when its first byte is
`≥ 0x80` (R212). -/
def derContent (v : Nat) : Bytes :=
  let M := shortest v
  if 128 ≤ (M.headD 0).toNat then 0x00 :: M else M

/-- `EncInt(v)` (R212). -/
def derInt (v : Nat) : Bytes := 0x02 :: derLen (derContent v).length ++ derContent v

/-- `EncodeDER(r, s)` (R212). -/
def encodeDER (r s : Nat) : Bytes :=
  0x30 :: derLen (derInt r ++ derInt s).length ++ (derInt r ++ derInt s)

/-- `ReadLen` (R213): the length, and what follows it. -/
def readLen : Bytes → Except Failure (Nat × Bytes)
  | [] => .error .invalidEncoding
  | b :: B =>
    if b.toNat < 128 then .ok (b.toNat, B)
    else
      match B with
      | [] => .error .invalidEncoding
      | k :: B' =>
        if b = 0x81 ∧ 128 ≤ k.toNat then .ok (k.toNat, B') else .error .invalidEncoding

/-- The content of a DER INTEGER is not negative and is minimal (R213). -/
def derMinimal : Bytes → Bool
  | [] => false
  | [b] => decide (b.toNat < 128)
  | b :: b' :: _ => decide (b.toNat < 128) && !(decide (b = 0x00) && decide (b'.toNat < 128))

/-- `ReadInt` (R213): the integer, and what follows it. -/
def readInt : Bytes → Except Failure (Nat × Bytes)
  | [] => .error .invalidEncoding
  | t :: B => do
    require (t = 0x02) .invalidEncoding
    let k ← readLen B
    require (1 ≤ k.1 && k.1 ≤ k.2.length) .invalidEncoding
    require (derMinimal (k.2.take k.1)) .invalidEncoding
    .ok (be2int (k.2.take k.1), k.2.drop k.1)

/-- `DecodeDER_C(B)` (R213). -/
def decodeDER (C : Ctx) : Bytes → Except Failure (Nat × Nat)
  | [] => .error .invalidEncoding
  | t :: B => do
    require (t = 0x30) .invalidEncoding
    let k ← readLen B
    require (k.2.length = k.1) .invalidEncoding
    let r ← readInt k.2
    let s ← readInt r.2
    require (s.2 = []) .invalidEncoding
    require (sigRange C r.1) .invalidScalar
    require (sigRange C s.1) .invalidScalar
    .ok (r.1, s.1)

/-- A signature in the form DER selects (30_encoding.md R95). -/
def readSig (C : Ctx) (der : Bool) (B : Bytes) : Except Failure (Nat × Nat) :=
  if der then decodeDER C B else getSigC C B

/-- A signature written in the form DER selects (30_encoding.md R95). -/
def writeSig (C : Ctx) (der : Bool) (r s : Nat) : Bytes :=
  if der then encodeDER r s else putSigC C r s

/-- Whether a signature was read and is low-S (R216, R217). -/
def readsLow (C : Ctx) : Except Failure (Nat × Nat) → Bool
  | .ok rs => lowS C rs.2
  | .error _ => false

/-- SIGTODER (R214). -/
def execSigtoder (c : BitVec 4) (s : State) : Host.Outcome State Fault Refusal :=
  runTotal s c ⟨.onlyW, .uncompressed, .nothing, 1⟩ fun C o =>
    .ofOne (do
      let rs ← getSigC C o.a0
      .ok (encodeDER rs.1 rs.2))

/-- SIGFROMDER (R215). -/
def execSigfromder (c : BitVec 4) (s : State) : Host.Outcome State Fault Refusal :=
  runTotal s c ⟨.onlyW, .uncompressed, .nothing, 1⟩ fun C o =>
    .ofOne (do
      let rs ← decodeDER C o.a0
      .ok (putSigC C rs.1 rs.2))

/-- SIGLOWS (R216). -/
def execSiglows (c : BitVec 4) (s : State) : Host.Outcome State Fault Refusal :=
  runTotal s c ⟨.onlyW, .uncompressed, .nothing, 1⟩ fun C o =>
    .plain (.predicate (readsLow C (getSigC C o.a0)))

/-- SIGLOWDER (R217). -/
def execSiglowder (c : BitVec 4) (s : State) : Host.Outcome State Fault Refusal :=
  runTotal s c ⟨.onlyW, .uncompressed, .nothing, 1⟩ fun C o =>
    .plain (.predicate (readsLow C (decodeDER C o.a0)))

/-- SIGNORM (R218). -/
def execSignorm (c : BitVec 4) (s : State) : Host.Outcome State Fault Refusal :=
  runTotal s c ⟨.onlyW, .uncompressed, .nothing, 1⟩ fun C o =>
    .ofOne (do
      let rs ← getSigC C o.a0
      .ok (putSigC C rs.1 (normalS C rs.2)))

/-- SIGNORMDER (R219). -/
def execSignormder (c : BitVec 4) (s : State) : Host.Outcome State Fault Refusal :=
  runTotal s c ⟨.onlyW, .uncompressed, .nothing, 1⟩ fun C o =>
    .ofOne (do
      let rs ← decodeDER C o.a0
      .ok (encodeDER rs.1 (normalS C rs.2)))

end Sys2Proof.Machine
end

