-- ==== Sys2Proof/Machine/Ecdsa.lean ====
section
/-! DEFINITION. ECDSA (44_ecdsa.md): the hash port (00_scope.md R7), messages as integers (R230), HMAC
(R231), the nonce candidates (R232), the signing core (R233, R234), and ECSIGN, ECSIGNR, ECVFY,
ECRCV (R235 to R238). -/

namespace Sys2Proof.Machine

/-- A byte string brought to length L: cut, or filled up with 0. -/
def fitTo (L : Nat) (B : Bytes) : Bytes := B.take L ++ List.replicate (L - B.length) 0

/-- `Hash_C(B)` (00_scope.md section 5.2): the answer the configuration fixes for B, or the hash
port's, always HLEN bytes (R7, log 11). -/
def hashC (C : Ctx) (B : Bytes) : Bytes :=
  fitTo C.digest.hlen ((C.digest.known.lookup B).getD (Config.hashPort C.hash B))

/-- `bits2int(B)` (R230): the leftmost `bitlen(n)` bits of B. -/
def bits2int (C : Ctx) (B : Bytes) : Nat := be2int B / 2 ^ (8 * B.length - bitlen C.n)

/-- `E_C(msg)` (R230). -/
def messageInt (C : Ctx) (msg : Bytes) : Nat := bits2int C msg % C.n

/-- `K0 xor rep(x, HBLOCK)` with `K0 = K ‖ rep(00, HBLOCK − len(K))` (R231). -/
def hmacPad (C : Ctx) (K : Bytes) (x : Byte) : Bytes :=
  (K ++ List.replicate (C.digest.hblock - K.length) 0).map (fun b => b ^^^ x)

/-- `HMAC_C(K, M)` (R231). -/
def hmac (C : Ctx) (K M : Bytes) : Bytes :=
  hashC C (hmacPad C K 0x5c ++ hashC C (hmacPad C K 0x36 ++ M))

/-- The state of the nonce generator (R232). -/
structure NonceGen where
  key : Bytes
  v : Bytes
  deriving DecidableEq, Repr

/-- `K = HMAC(K, V ‖ b ‖ M); V = HMAC(K, V)` (R232). -/
def nonceUpdate (C : Ctx) (G : NonceGen) (b : Byte) (M : Bytes) : NonceGen :=
  let K := hmac C G.key (G.v ++ b :: M)
  ⟨K, hmac C K G.v⟩

/-- The generator before the first candidate (R232). -/
def nonceStart (C : Ctx) (d e : Nat) : NonceGen :=
  let M := int2be d C.ssize ++ int2be e C.ssize
  let G : NonceGen := ⟨List.replicate C.digest.hlen 0, List.replicate C.digest.hlen 1⟩
  nonceUpdate C (nonceUpdate C G 0 M) 1 M

/-- `while len(T) < L: V = HMAC(K, V); T = T ‖ V` (R232), T and V; each round adds HLEN ≥ 1 bytes, so
L rounds suffice (log 24). -/
def nonceFill (C : Ctx) (K : Bytes) : Nat → Bytes → Bytes → Bytes × Bytes
  | 0, T, V => (T, V)
  | t + 1, T, V =>
    if T.length < C.ssize then nonceFill C K t (T ++ hmac C K V) (hmac C K V) else (T, V)

/-- A signature with its recovery id (R233, R234). -/
structure Signature where
  r : Nat
  s : Nat
  recid : BitVec 2
  deriving DecidableEq, Repr

/-- The signing core on one nonce candidate: the signature if k is accepted (R233 steps 2 to 5,
R234). -/
def signWith (C : Ctx) (d e k : Nat) : Option Signature :=
  if k = 0 ∨ C.n ≤ k then none
  else
    match mulG C.toCurve k with
    | .inf => none
    | .aff x y =>
      let r := x % C.n
      let s := inv C.n k * (e + r * d) % C.n
      let id := BitVec.ofNat 2 (y % 2 + 2 * (if C.n ≤ x then 1 else 0))
      if r = 0 ∨ s = 0 then none
      else if lowS C s then some ⟨r, s, id⟩
      else some ⟨r, C.n - s, id ^^^ 1⟩

/-- The candidates in order until one is accepted, at most t of them (R232, R233). -/
def signSearch (C : Ctx) (d e : Nat) : Nat → NonceGen → Option Signature
  | 0, _ => none
  | t + 1, G =>
    let TV := nonceFill C G.key C.ssize [] G.v
    match signWith C d e (bits2int C TV.1) with
    | some sig => some sig
    | none => signSearch C d e t (nonceUpdate C ⟨G.key, TV.2⟩ 0 [])

/-- How many candidates the model tries: as many as the generator has states, each two strings of HLEN
bytes. The spec sets no bound, and the generator's next state is a function of its state (R232), so
if none of these candidates is accepted none ever is, and the command never completes
(93_implementation_defined.md U7, log 10). -/
def nonceTries (C : Ctx) : Nat := 256 ^ (2 * C.digest.hlen)

/-- `SignCore_C(msg, d)` (R233). -/
def signCore (C : Ctx) (msg : Bytes) (d : Nat) : Option Signature :=
  signSearch C d (messageInt C msg) (nonceTries C) (nonceStart C d (messageInt C msg))

/-- The rule ECSIGN and ECSIGNR share (R235, R236); `id` says whether RECID is reported. -/
def signRule (C : Ctx) (der id : Bool) (msg priv : Bytes) : Option Ending :=
  match getSK C priv with
  | .error e => some (.fail e)
  | .ok d =>
    match signCore C msg d with
    | none => none
    | some sig =>
      some (.afterMulG (.results (writeSig C der sig.r sig.s) none (if id then sig.recid else 0)))

/-- ECSIGN (R235). -/
def execEcsign (c : BitVec 4) (der : Bool) (s : State) : Host.Outcome State Fault Refusal :=
  runCommand s c ⟨.onlyW, .uncompressed, .nothing, 2⟩ fun C o => signRule C der false o.a0 o.a1

/-- ECSIGNR (R236). -/
def execEcsignr (c : BitVec 4) (der : Bool) (s : State) : Host.Outcome State Fault Refusal :=
  runCommand s c ⟨.onlyW, .uncompressed, .nothing, 2⟩ fun C o => signRule C der true o.a0 o.a1

/-- `u1·G + u2·Q` of R237. -/
def verifyPoint (C : Ctx) (e r s : Nat) (Q : Point) : Point :=
  let w := inv C.n s
  add C.toCurve (mulG C.toCurve (e * w % C.n)) (mul C.toCurve (r * w % C.n) Q)

/-- ECVFY on its three arguments (R237): it fails closed. -/
def verifyRule (C : Ctx) (der : Bool) (msg sig pub : Bytes) : Ending :=
  match readSig C der sig, getPK C pub with
  | .error _, _ => .plain (.verified false)
  | .ok _, .error _ => .plain (.verified false)
  | .ok rs, .ok Q =>
    match verifyPoint C (messageInt C msg) rs.1 rs.2 Q with
    | .inf => .afterMulG (.verified false)
    | .aff x _ => .afterMulG (.verified (decide (x % C.n = rs.1)))

/-- ECVFY (R237). -/
def execEcvfy (c : BitVec 4) (der : Bool) (s : State) : Host.Outcome State Fault Refusal :=
  runTotal s c ⟨.onlyW, .uncompressed, .nothing, 3⟩ fun C o => verifyRule C der o.a0 o.a1 o.a2

/-- The commitment point R that `(r, RID)` stands for (R238), none where no point exists. -/
def recoverCommitment (C : Ctx) (r : Nat) (rid : BitVec 2) : Option Point :=
  let x := r + (if rid.getLsbD 1 then C.n else 0)
  if C.p ≤ x then none
  else
    match rootOfParity C.p (rhsW C.toCurve x) (if rid.getLsbD 0 then 1 else 0) with
    | .missing => none
    | .otherParity => none
    | .found y => some (.aff x y)

/-- ECRCV on its two arguments (R238): null where no key exists. -/
def recoverRule (C : Ctx) (f : PointForm) (der : Bool) (rid : BitVec 2) (msg sig : Bytes) : Ending :=
  match readSig C der sig with
  | .error _ => .plain .null
  | .ok rs =>
    match recoverCommitment C rs.1 rid with
    | none => .plain .null
    | some R =>
      let Q := mul C.toCurve (inv C.n rs.1)
        (add C.toCurve (mul C.toCurve rs.2 R) (neg C.toCurve (mulG C.toCurve (messageInt C msg))))
      .afterMulG (if Q = .inf then .null else .results (putPT C Q f) none 0)

/-- ECRCV (R238). -/
def execEcrcv (c : BitVec 4) (f : PointForm) (der : Bool) (rid : BitVec 2) (s : State) :
    Host.Outcome State Fault Refusal :=
  runTotal s c ⟨.onlyW, f, .nothing, 2⟩ fun C o => recoverRule C f der rid o.a0 o.a1

end Sys2Proof.Machine
end

