-- ==== Sys2Proof/Machine/KeyLifecycle.lean ====
section
/-! DEFINITION. Key lifecycle commands (42_key_lifecycle.md R180 to R192): SKGEN, SKVFY, SKRED, SKNEG,
SKINV, SKTADD, SKTMUL, PKCRT, PKTADD, PKTMUL, PKNEG, PKADD, PKVFY; and the draw of a non-zero
scalar from the RNG port, which SCHVFYB shares (60_exceptions.md R334). -/

namespace Sys2Proof.Machine

/-- The free draw of a scalar: any value of `[1, n)` (R180, log 8). -/
def freeScalar (C : Ctx) (k : Nat) : Nat := 1 + Config.freeNat k % (C.n - 1)

/-- `repeat k = os2i_C(Rng(ssize)) mod n until k ≠ 0` (R180): over the RNG port's known answers, at
most t attempts; once fewer than ssize bytes are known, the k-th free draw. The value, and the
known answers left. -/
def drawScalar (C : Ctx) (k : Nat) : Nat → Bytes → Nat × Bytes
  | 0, _ => (freeScalar C k, [])
  | t + 1, rng =>
    if C.ssize = 0 ∨ rng.length < C.ssize then (freeScalar C k, [])
    else
      let v := os2iC C (rng.take C.ssize) % C.n
      if v = 0 then drawScalar C k t (rng.drop C.ssize) else (v, rng.drop C.ssize)

/-- SKGEN (R180). -/
def execSkgen (c : BitVec 4) (s : State) : Host.Outcome State Fault Refusal :=
  runTotal s c ⟨.both, .uncompressed, .nothing, 0⟩ fun C o =>
    let k := drawScalar C o.draw (o.rng.length + 1) o.rng
    ⟨.results (putSC C k.1) none 0, false, o.rng.length - k.2.length⟩

/-- SKVFY (R181). -/
def execSkvfy (c : BitVec 4) (s : State) : Host.Outcome State Fault Refusal :=
  runTotal s c ⟨.both, .uncompressed, .nothing, 1⟩ fun C o =>
    .plain (.predicate (decide (o.a0.length = C.ssize) && decide (1 ≤ os2iC C o.a0)
      && decide (os2iC C o.a0 < C.n)))

/-- SKRED (R182). -/
def execSkred (c : BitVec 4) (s : State) : Host.Outcome State Fault Refusal :=
  runTotal s c ⟨.both, .uncompressed, .nothing, 1⟩ fun C o =>
    .one (putSC C (os2iC C o.a0 % C.n))

/-- SKNEG (R183). -/
def execSkneg (c : BitVec 4) (s : State) : Host.Outcome State Fault Refusal :=
  runTotal s c ⟨.both, .uncompressed, .nothing, 1⟩ fun C o =>
    .ofOne (do
      let k ← getSC C o.a0
      .ok (putSC C ((C.n - k) % C.n)))

/-- SKINV (R184). -/
def execSkinv (c : BitVec 4) (s : State) : Host.Outcome State Fault Refusal :=
  runTotal s c ⟨.both, .uncompressed, .nothing, 1⟩ fun C o =>
    .ofOne (do
      let k ← getSK C o.a0
      .ok (putSC C (inv C.n k)))

/-- SKTADD (R185). -/
def execSktadd (c : BitVec 4) (s : State) : Host.Outcome State Fault Refusal :=
  runTotal s c ⟨.both, .uncompressed, .nothing, 2⟩ fun C o =>
    .ofOne (do
      let k ← getSK C o.a0
      let t ← getSC C o.a1
      let r := (k + t) % C.n
      require (r ≠ 0) .invalidScalar
      .ok (putSC C r))

/-- SKTMUL (R186). -/
def execSktmul (c : BitVec 4) (s : State) : Host.Outcome State Fault Refusal :=
  runTotal s c ⟨.both, .uncompressed, .nothing, 2⟩ fun C o =>
    .ofOne (do
      let k ← getSK C o.a0
      let t ← getSC C o.a1
      let r := k * t % C.n
      require (r ≠ 0) .invalidScalar
      .ok (putSC C r))

/-- PKCRT (R187). -/
def execPkcrt (c : BitVec 4) (f : PointForm) (s : State) : Host.Outcome State Fault Refusal :=
  runTotal s c ⟨.both, f, .nothing, 1⟩ fun C o =>
    match getSK C o.a0 with
    | .error e => .fail e
    | .ok k => .afterMulG (.results (putPT C (mulG C.toCurve k) f) none 0)

/-- The end of a rule whose result is a PublicKey (R188, R189, R191): the identity is InvalidPoint. -/
def publicKeyReport (C : Ctx) (R : Point) (f : PointForm) : Report :=
  if isId C.toCurve R then .failure .invalidPoint else .results (putPT C R f) none 0

/-- `P + t·G` as a PublicKey: the shared rule of PKTADD (R188) and EDPKTADD (47_eddsa.md R297). -/
def tweakAddRule (C : Ctx) (f : PointForm) (A B : Bytes) : Ending :=
  match getPK C A, getSC C B with
  | .error e, _ => .fail e
  | .ok _, .error e => .fail e
  | .ok P, .ok t => .afterMulG (publicKeyReport C (add C.toCurve P (mulG C.toCurve t)) f)

/-- PKTADD (R188). -/
def execPktadd (c : BitVec 4) (f : PointForm) (s : State) : Host.Outcome State Fault Refusal :=
  runTotal s c ⟨.both, f, .nothing, 2⟩ fun C o => tweakAddRule C f o.a0 o.a1

/-- PKTMUL (R189). -/
def execPktmul (c : BitVec 4) (f : PointForm) (s : State) : Host.Outcome State Fault Refusal :=
  runTotal s c ⟨.both, f, .nothing, 2⟩ fun C o =>
    match getPK C o.a0, getSC C o.a1 with
    | .error e, _ => .fail e
    | .ok _, .error e => .fail e
    | .ok P, .ok t => .plain (publicKeyReport C (mul C.toCurve t P) f)

/-- PKNEG (R190). -/
def execPkneg (c : BitVec 4) (f : PointForm) (s : State) : Host.Outcome State Fault Refusal :=
  runTotal s c ⟨.both, f, .nothing, 1⟩ fun C o =>
    .ofOne (do
      let P ← getPK C o.a0
      .ok (putPT C (neg C.toCurve P) f))

/-- PKADD (R191). -/
def execPkadd (c : BitVec 4) (f : PointForm) (s : State) : Host.Outcome State Fault Refusal :=
  runTotal s c ⟨.both, f, .nothing, 2⟩ fun C o =>
    match getPK C o.a0, getPK C o.a1 with
    | .error e, _ => .fail e
    | .ok _, .error e => .fail e
    | .ok P, .ok Q => .plain (publicKeyReport C (add C.toCurve P Q) f)

/-- Whether a check succeeds. -/
def succeeds {α : Type} : Except Failure α → Bool
  | .ok _ => true
  | .error _ => false

/-- PKVFY (R192): every failure of the public-key check is false. -/
def execPkvfy (c : BitVec 4) (s : State) : Host.Outcome State Fault Refusal :=
  runTotal s c ⟨.both, .uncompressed, .nothing, 1⟩ fun C o =>
    .plain (.predicate (succeeds (getPK C o.a0)))

end Sys2Proof.Machine
end

