-- ==== Sys2Proof/Machine/EdDsa.lean ====
section
/-! DEFINITION. EdDSA (47_eddsa.md): clamping (R291), key expansion (R292), the signing core (R301),
and EDEXP, EDPUB, EDSIGN, EDVFY, EDPKTADD, EDSIGNT, EDTOMONT, EDFROMMONT (R293 to R300). On the
kind-E curve `ed2int` and `int2ed` are `os2i_C` and `i2os_C` (00_scope.md R9). -/

namespace Sys2Proof.Machine

/-- `Clamp(v)` for strings of f bytes (R291). -/
def clamp (f v : Nat) : Nat := v / 8 * 8 % 2 ^ (8 * f - 2) + 2 ^ (8 * f - 2)

/-- An expanded key: the clamped scalar and the nonce key, BC's "secondary seed half" (R292). -/
structure EdKey where
  a : Nat
  nonceKey : Bytes
  deriving DecidableEq, Repr

/-- `Expand_C(seed)` (R292). -/
def edExpand (C : Ctx) (seed : Bytes) : Except Failure EdKey := do
  require (seed.length = C.fsize) .invalidEncoding
  let h := hashC C seed
  .ok ⟨clamp C.fsize (os2iC C (h.take C.fsize)), (h.drop C.fsize).take C.fsize⟩

/-- `EncodePoint_C(P, 0)`. -/
def edEncode (C : Ctx) (P : Point) : Bytes := encodePoint C P .uncompressed

/-- A hash as a scalar: `ed2int(Hash_C(B)) mod n` (R301). -/
def edHashInt (C : Ctx) (B : Bytes) : Nat := os2iC C (hashC C B) % C.n

/-- `EdSignCore_C(msg, a, prefix, Ab)` (R301). -/
def edSignCore (C : Ctx) (msg : Bytes) (K : EdKey) (Ab : Bytes) : Bytes :=
  let r := edHashInt C (K.nonceKey ++ msg)
  let Rb := edEncode C (mulG C.toCurve r)
  let k := edHashInt C (Rb ++ Ab ++ msg)
  Rb ++ i2osC C ((r + k * K.a) % C.n) C.fsize

/-- EDEXP (R293). -/
def execEdexp (c : BitVec 4) (s : State) : Host.Outcome State Fault Refusal :=
  runTotal s c ⟨.onlyE, .uncompressed, .nothing, 1⟩ fun C o =>
    .ofTwo (do
      let K ← edExpand C o.a0
      .ok (i2osC C K.a C.fsize, K.nonceKey))

/-- EDPUB (R294): the identity is tested before anything is written. -/
def execEdpub (c : BitVec 4) (s : State) : Host.Outcome State Fault Refusal :=
  runTotal s c ⟨.onlyE, .uncompressed, .nothing, 1⟩ fun C o =>
    match edExpand C o.a0 with
    | .error e => .fail e
    | .ok K => .afterMulG (publicKeyReport C (mulG C.toCurve (K.a % C.n)) .uncompressed)

/-- EDSIGN on its two arguments (R295). -/
def edSignRule (C : Ctx) (msg seed : Bytes) : Ending :=
  match edExpand C seed with
  | .error e => .fail e
  | .ok K =>
    let A := mulG C.toCurve (K.a % C.n)
    .afterMulG (if isId C.toCurve A then .failure .invalidPoint
      else .results (edSignCore C msg K (edEncode C A)) none 0)

/-- EDSIGN (R295). -/
def execEdsign (c : BitVec 4) (s : State) : Host.Outcome State Fault Refusal :=
  runTotal s c ⟨.onlyE, .uncompressed, .nothing, 2⟩ fun C o => edSignRule C o.a0 o.a1

/-- EDVFY on its three arguments (R296): it fails closed. -/
def edVerifyRule (C : Ctx) (msg sig pub : Bytes) : Ending :=
  let Rb := sig.take C.fsize
  let S := os2iC C (sig.drop C.fsize)
  if sig.length ≠ 2 * C.fsize ∨ C.n ≤ S then .plain (.verified false)
  else
    match getPT C Rb, getPK C pub with
    | .error _, _ => .plain (.verified false)
    | .ok _, .error _ => .plain (.verified false)
    | .ok R, .ok A =>
      .afterMulG (.verified (decide (mulG C.toCurve S
        = add C.toCurve R (mul C.toCurve (edHashInt C (Rb ++ pub ++ msg)) A))))

/-- EDVFY (R296). -/
def execEdvfy (c : BitVec 4) (s : State) : Host.Outcome State Fault Refusal :=
  runTotal s c ⟨.onlyE, .uncompressed, .nothing, 3⟩ fun C o => edVerifyRule C o.a0 o.a1 o.a2

/-- EDPKTADD (R297): the function of PKTADD on the kind-E curve. -/
def execEdpktadd (c : BitVec 4) (s : State) : Host.Outcome State Fault Refusal :=
  runTotal s c ⟨.onlyE, .uncompressed, .nothing, 2⟩ fun C o =>
    tweakAddRule C .uncompressed o.a0 o.a1

/-- EDSIGNT on its three arguments (R298). -/
def edSignTweakRule (C : Ctx) (msg seed tweak : Bytes) : Ending :=
  match edExpand C seed, getSC C tweak with
  | .error e, _ => .fail e
  | .ok _, .error e => .fail e
  | .ok K, .ok t =>
    let a := (K.a + t) % C.n
    if a = 0 then .fail .invalidScalar
    else
      let K' : EdKey := ⟨a, (hashC C (K.nonceKey ++ i2osC C t C.ssize)).take C.fsize⟩
      .afterMulG (.results (edSignCore C msg K' (edEncode C (mulG C.toCurve a))) none 0)

/-- EDSIGNT (R298). -/
def execEdsignt (c : BitVec 4) (s : State) : Host.Outcome State Fault Refusal :=
  runTotal s c ⟨.onlyE, .uncompressed, .nothing, 3⟩ fun C o => edSignTweakRule C o.a0 o.a1 o.a2

/-- `u = (1 + y)/(1 − y)` (R299). -/
def montU (p y : Nat) : Nat := (1 + y) * inv p (subm p 1 y) % p

/-- EDTOMONT (R299). `Inf` does not occur on kind E (log 22). -/
def execEdtomont (c : BitVec 4) (s : State) : Host.Outcome State Fault Refusal :=
  runTotal s c ⟨.onlyE, .uncompressed, .nothing, 1⟩ fun C o =>
    .ofOne (do
      let P ← getPK C o.a0
      match P with
      | .inf => .error .invalidPoint
      | .aff _ y => .ok (i2osC C (montU C.p y) C.fsize))

/-- `y = (u − 1)/(u + 1)` (R300). -/
def montY (p u : Nat) : Nat := subm p u 1 * inv p ((u + 1) % p) % p

/-- EDFROMMONT (R300). -/
def execEdfrommont (c : BitVec 4) (sign : Bool) (s : State) : Host.Outcome State Fault Refusal :=
  runTotal s c ⟨.onlyE, .uncompressed, .nothing, 1⟩ fun C o =>
    .ofOne (do
      require (o.a0.length = C.fsize) .invalidEncoding
      let u := os2iC C o.a0
      require (u < C.p) .invalidPoint
      require (u ≠ C.p - 1) .invalidPoint
      let y := montY C.p u
      match rootOfParity C.p (xSquaredE C.toCurve y) (if sign then 1 else 0) with
      | .missing => .error .invalidPoint
      | .otherParity => .error .invalidPoint
      | .found x => .ok (edEncode C (.aff x y)))

end Sys2Proof.Machine
end

