-- ==== Sys2Proof/Machine/HashToCurve.lean ====
section
/-! DEFINITION. Hash to curve (46_hash_to_curve.md): the map of a curve (R270) with the suggested
formulas (R276 to R278, log 13), the field-element operand (R271), and H2SSWU, H2ICART, H2SVDW,
H2HASH (R272 to R275). -/

namespace Sys2Proof.Machine

/-- `sqrt(v)` of 46_hash_to_curve.md section 3, the root MSQRT's rule gives, if v has one. For
`p ≡ 1 (mod 4)` that rule leaves open which of the two it is, and a map is a function of u and the
curve constants alone (R270), so the choice is a free one for each p and v (log 30). -/
def rootOf? (p v : Nat) : Option Nat :=
  (sqrt? p v).map fun r => chosenRoot p r (Config.rootSide p v)

/-- `y`, or `(p − y) mod p` if its parity is not that of u (R276, R278). -/
def withSign (p u y : Nat) : Nat := if y % 2 = u % 2 then y else (p - y) % p

/-- The point with abscissa x and an ordinate of u's parity (R276, R278); `Inf`, for no image, where x has
none. -/
def imageAt (C : Curve) (u x : Nat) : Point :=
  match rootOf? C.p (rhsW C x) with
  | none => .inf
  | some y => .aff x (withSign C.p u y)

/-- The exceptional abscissa `b/(z·a)` of R276. -/
def sswuException (C : Curve) (a b : Nat) : Nat := b * inv C.p (C.z * a % C.p) % C.p

/-- The side conditions of R276. DESIGN CHOICE: that `g(x) − z` has no root, which the formula does
not need, is not asked (log 33). -/
def sswuApplies (C : Curve) (a b : Nat) : Bool :=
  decide (a ≠ 0) && decide (b ≠ 0) && !isSquare C.p C.z && decide (C.z ≠ C.p - 1)
    && isSquare C.p (rhsW C (sswuException C a b))

/-- The simplified SWU formula (R276). -/
def sswu (C : Curve) (a b u : Nat) : Point :=
  let p := C.p
  let zu := C.z * u * u % p
  let t := inv p ((zu * zu + zu) % p)
  let x1 := if t = 0 then sswuException C a b else subm p 0 b * inv p a * (1 + t) % p
  imageAt C u (if isSquare p (rhsW C x1) then x1 else zu * x1 % p)

/-- Icart's formula (R277). -/
def icart (C : Curve) (a b u : Nat) : Point :=
  let p := C.p
  let w := if u = 0 then 1 else u
  let v := subm p (3 * a) (w ^ 4) * inv p (6 * w % p) % p
  let r := subm p (subm p (v * v) b) (w ^ 6 * inv p (27 % p))
  let x := (powMod p r ((2 * p - 1) / 3) + w * w * inv p (3 % p)) % p
  .aff x ((w * x + v) % p)

/-- The side conditions of R278, but for the root c (`svdw`). -/
def svdwApplies (C : Curve) (a : Nat) : Bool :=
  decide (a = 0) && decide (rhsW C C.z ≠ 0) && isSquare C.p (rhsW C C.z)

/-- The Shallue–van de Woestijne formula (R278) with the root c of `−3·z²`. -/
def svdwWith (C : Curve) (c u : Nat) : Point :=
  let p := C.p
  let z := C.z
  let t1 := (u * u + rhsW C z) % p
  let t2 := inv p (u * u * t1 % p)
  let t3 := u * u * u * u * t2 * c % p
  let half := inv p (2 % p)
  let x1 := subm p (subm p c z * half) t3
  let x2 := subm p t3 ((c + z) * half)
  let x3 := subm p z (t1 * t1 * t1 * t2 * inv p (3 * z * z % p))
  imageAt C u (if isSquare p (rhsW C x1) then x1 else if isSquare p (rhsW C x2) then x2 else x3)

/-- The Shallue–van de Woestijne formula (R278). Which root c is shows in the result, since `−c` swaps x1
and x2; for `p ≡ 1 (mod 4)` it is a free choice (log 30). DESIGN CHOICE: where `−3·z²` has no root, which
R6 and R278's side conditions allow (`p mod 3 = 2`) and for which R127 gives none, the formula has no
image, and `mapToCurve` takes the uninterpreted map (log 33). -/
def svdw (C : Curve) (u : Nat) : Point :=
  match rootOf? C.p (subm C.p 0 (3 * C.z * C.z)) with
  | none => .inf
  | some c => svdwWith C c u

/-- The suggested formula for the map `C.h2c` names, where its side conditions hold (R276 to R278); `Inf`,
for no image, elsewhere (log 33). -/
def suggestedMap (C : Curve) (u : Nat) : Point :=
  match C.h2c, C.shape with
  | .sswu, .weierstrass a b => if sswuApplies C a b then sswu C a b u else .inf
  | .icart, .weierstrass a b => if C.p % 3 = 2 then icart C a b u else .inf
  | .svdw, .weierstrass a _ => if svdwApplies C a then svdw C u else .inf
  | .none, _ => .inf
  | .sswu, .edwards _ _ => .inf
  | .icart, .edwards _ _ => .inf
  | .svdw, .edwards _ _ => .inf

/-- Q if it is an affine point of the curve, else P. -/
def affineOr (C : Curve) (P : Point) : Point → Point
  | .inf => P
  | .aff x y => if onCurve C x y then .aff x y else P

/-- The uninterpreted map: any function of u and the curve constants onto affine points of the curve
(R270, log 13). -/
def portMap (C : Curve) (u : Nat) : Point :=
  affineOr C (base C) (.aff (Config.mapPort C u).1 (Config.mapPort C u).2)

/-- `Map_C(u)` (R270): a total function of u and the curve constants whose result is an affine point
that satisfies the curve equation (log 13). Where the suggested formulas give none it is the uninterpreted
map (log 33). What R279 asks of it on the Koblitz curve is `svdwVectorOk`, a condition on the
configuration. -/
def mapToCurve (C : Ctx) (u : Nat) : Point :=
  match C.maps with
  | .port => portMap C.toCurve u
  | .suggested => affineOr C.toCurve (portMap C.toCurve u) (suggestedMap C.toCurve u)

/-- `getU_C(B)` (R271): reduced, not rejected. -/
def getU (C : Ctx) (B : Bytes) : Except Failure Nat := do
  require (B.length = C.fsize) .invalidEncoding
  .ok (be2int B % C.p)

/-- The rule the three map commands share (R272 to R274). -/
def mapRule (C : Ctx) (f : PointForm) (B : Bytes) : Ending :=
  .ofOne (do
    let u ← getU C B
    .ok (putPT C (mapToCurve C u) f))

/-- H2SSWU (R272). -/
def execH2sswu (c : BitVec 4) (f : PointForm) (s : State) : Host.Outcome State Fault Refusal :=
  runTotal s c ⟨.onlyW, f, .exactly .sswu, 1⟩ fun C o => mapRule C f o.a0

/-- H2ICART (R273). -/
def execH2icart (c : BitVec 4) (f : PointForm) (s : State) : Host.Outcome State Fault Refusal :=
  runTotal s c ⟨.onlyW, f, .exactly .icart, 1⟩ fun C o => mapRule C f o.a0

/-- H2SVDW (R274). -/
def execH2svdw (c : BitVec 4) (f : PointForm) (s : State) : Host.Outcome State Fault Refusal :=
  runTotal s c ⟨.onlyW, f, .exactly .svdw, 1⟩ fun C o => mapRule C f o.a0

/-- The sum of the maps of the two halves (R275, 90_conflicts.md C6). -/
def fromHash (C : Ctx) (B : Bytes) : Point :=
  add C.toCurve (mapToCurve C (be2int (B.take C.fsize) % C.p))
    (mapToCurve C (be2int (B.drop C.fsize) % C.p))

/-- H2HASH (R275). -/
def execH2hash (c : BitVec 4) (f : PointForm) (s : State) : Host.Outcome State Fault Refusal :=
  runTotal s c ⟨.onlyW, f, .some, 1⟩ fun C o =>
    .ofOne (do
      require (o.a0.length = 2 * C.fsize) .invalidEncoding
      require (fromHash C o.a0 ≠ .inf) .invalidPoint
      .ok (putPT C (fromHash C o.a0) f))

end Sys2Proof.Machine
end

