-- ==== Sys2Proof/Machine/ModArith.lean ====
section
/-! DEFINITION. Modular arithmetic commands (40_modular_arithmetic.md R120 to R128): MADD, MSUB, MMUL,
MSQR, MINV, MSQRT. SEC = 1 asks for constant time (R129) and changes no value (30_encoding.md R94), so
no meaning reads it (log 20). -/

namespace Sys2Proof.Machine

/-- A two-operand command of the modular ALU. -/
def alu2 (C : Ctx) (m : Modulus) (f : Nat → Nat → Nat) (A B : Bytes) : Except Failure Bytes := do
  let a ← getRes C m A
  let b ← getRes C m B
  .ok (i2osC C (f a b) (widthC C m))

/-- MADD (R122). -/
def execMadd (c : BitVec 4) (m : Modulus) (_sec : Bool) (s : State) :
    Host.Outcome State Fault Refusal :=
  runTotal s c ⟨.both, .uncompressed, .nothing, 2⟩ fun C o =>
    .ofOne (alu2 C m (fun a b => (a + b) % modulusC C m) o.a0 o.a1)

/-- MSUB (R123). -/
def execMsub (c : BitVec 4) (m : Modulus) (_sec : Bool) (s : State) :
    Host.Outcome State Fault Refusal :=
  runTotal s c ⟨.both, .uncompressed, .nothing, 2⟩ fun C o =>
    .ofOne (alu2 C m (fun a b => subm (modulusC C m) a b) o.a0 o.a1)

/-- MMUL (R124): the ordinary product, no Montgomery form (R121). -/
def execMmul (c : BitVec 4) (m : Modulus) (_sec : Bool) (s : State) :
    Host.Outcome State Fault Refusal :=
  runTotal s c ⟨.both, .uncompressed, .nothing, 2⟩ fun C o =>
    .ofOne (alu2 C m (fun a b => a * b % modulusC C m) o.a0 o.a1)

/-- MSQR (R125). -/
def execMsqr (c : BitVec 4) (m : Modulus) (_sec : Bool) (s : State) :
    Host.Outcome State Fault Refusal :=
  runTotal s c ⟨.both, .uncompressed, .nothing, 1⟩ fun C o =>
    .ofOne (do
      let a ← getRes C m o.a0
      .ok (i2osC C (a * a % modulusC C m) (widthC C m)))

/-- MINV (R126): 0 is rejected whatever SEC is. -/
def execMinv (c : BitVec 4) (m : Modulus) (_sec : Bool) (s : State) :
    Host.Outcome State Fault Refusal :=
  runTotal s c ⟨.both, .uncompressed, .nothing, 1⟩ fun C o =>
    .ofOne (do
      let a ← getRes C m o.a0
      require (a ≠ 0) .domain
      .ok (i2osC C (inv (modulusC C m) a) (widthC C m)))

/-- MSQRT (R127); for `p ≡ 1 (mod 4)` a free bit says which of the two roots it is (log 9). -/
def execMsqrt (c : BitVec 4) (_sec : Bool) (s : State) : Host.Outcome State Fault Refusal :=
  runTotal s c ⟨.both, .uncompressed, .nothing, 1⟩ fun C o =>
    .ofOne (do
      let a ← getRes C .field o.a0
      match sqrt? C.p a with
      | none => .error .domain
      | some r => .ok (putFE C (chosenRoot C.p r (Config.freeBit o.draw))))

end Sys2Proof.Machine
end

