-- ==== Sys2Proof/Machine/Schnorr.lean ====
section
/-! DEFINITION. Schnorr verification (45_schnorr.md): the two scheme functions (R260, log 12), the
parse (R263), SCHVFY (R261) and SCHVFYB (R262). -/

namespace Sys2Proof.Machine

/-- An uninterpreted lift (R260): none or an affine point of the curve. An answer that is no point of
the curve counts as none (log 12). -/
def liftPort (C : Ctx) (Rb : Bytes) : Option Point :=
  match Config.schnorrLiftPort C.toCurve Rb with
  | none => none
  | some q => if onCurve C.toCurve q.1 q.2 then some (.aff q.1 q.2) else none

/-- The suggested lift (R260), which needs `p ≡ 3 (mod 4)`: there the root `a^((p+1)/4)` is the one that
is itself a square. -/
def liftSquare (C : Ctx) (Rb : Bytes) : Option Point :=
  let x := be2int Rb
  if C.p ≤ x then none
  else
    match sqrt? C.p (rhsW C.toCurve x) with
    | none => none
    | some y => some (.aff x y)

/-- `SchnorrLift_C(Rb)` (R260). On a curve with `p ≡ 1 (mod 4)` the suggested lift names no root, and the
lift stays uninterpreted there (log 31). -/
def schnorrLift (C : Ctx) (Rb : Bytes) : Option Point :=
  match C.schnorr with
  | .port => liftPort C Rb
  | .suggested => if C.p % 4 = 3 then liftSquare C Rb else liftPort C Rb

/-- `SchnorrChal_C(Rb, P, msg)` (R260): a value of `[0, n)`. -/
def schnorrChal (C : Ctx) (Rb : Bytes) (P : Point) (msg : Bytes) : Nat :=
  match C.schnorr with
  | .port => Config.schnorrChalPort C.toCurve Rb P msg % C.n
  | .suggested => be2int (hashC C (Rb ++ encodePoint C P .compressed ++ msg)) % C.n

/-- A triple that parses (R263). -/
structure SchnorrTriple where
  R : Point
  e : Nat
  s : Nat
  P : Point
  deriving DecidableEq, Repr

/-- `SchnorrParse_C(msg, sig, pub)` (R263): none for every malformed part. -/
def schnorrParse (C : Ctx) (msg sig pub : Bytes) : Option SchnorrTriple :=
  let Rb := sig.take C.fsize
  let s := be2int (sig.drop C.fsize)
  if sig.length ≠ C.fsize + C.ssize ∨ C.n ≤ s then none
  else
    match getPK C pub, schnorrLift C Rb with
    | .error _, _ => none
    | .ok _, none => none
    | .ok P, some R => some ⟨R, schnorrChal C Rb P msg, s, P⟩

/-- SCHVFY on its three arguments (R261). -/
def schnorrRule (C : Ctx) (msg sig pub : Bytes) : Ending :=
  match schnorrParse C msg sig pub with
  | none => .plain (.verified false)
  | some t => .afterMulG (.verified
      (decide (mulG C.toCurve t.s = add C.toCurve t.R (mul C.toCurve t.e t.P))))

/-- SCHVFY (R261). -/
def execSchvfy (c : BitVec 4) (s : State) : Host.Outcome State Fault Refusal :=
  runTotal s c ⟨.onlyW, .uncompressed, .nothing, 3⟩ fun C o => schnorrRule C o.a0 o.a1 o.a2

/-- The items of a batch as triples (R262); none where their number is no multiple of 3. -/
def tripleItems : List Bytes → Option (List (Bytes × Bytes × Bytes))
  | [] => some []
  | [_] => none
  | [_, _] => none
  | m :: s :: p :: items => (tripleItems items).map (fun ts => (m, s, p) :: ts)

/-- Every triple parsed, none if one does not parse (R262). -/
def parseTriples (C : Ctx) : List (Bytes × Bytes × Bytes) → Option (List SchnorrTriple)
  | [] => some []
  | t :: ts =>
    match schnorrParse C t.1 t.2.1 t.2.2, parseTriples C ts with
    | none, _ => none
    | some _, none => none
    | some x, some xs => some (x :: xs)

/-- The coefficients `a_2, a_3, …` for k further triples (R262), drawn in increasing j, and the RNG
port's known answers left. -/
def drawCoefficients (C : Ctx) : Nat → Nat → Bytes → List Nat × Bytes
  | 0, _, rng => ([], rng)
  | k + 1, i, rng =>
    let a := drawScalar C i (rng.length + 1) rng
    let rest := drawCoefficients C k (i + 1) a.2
    (a.1 :: rest.1, rest.2)

/-- `Σ_j a_j·s_j mod n` (R262). -/
def batchScalar (C : Ctx) : List Nat → List SchnorrTriple → Nat
  | a :: as, t :: ts => (a * t.s + batchScalar C as ts) % C.n
  | [], _ => 0
  | _ :: _, [] => 0

/-- `S + Σ_j Add_C(Mul_C(a_j, R_j), Mul_C(a_j·e_j mod n, P_j))`, added in increasing j (R262). -/
def batchPoint (C : Ctx) : Point → List Nat → List SchnorrTriple → Point
  | S, a :: as, t :: ts =>
    batchPoint C (add C.toCurve S
      (add C.toCurve (mul C.toCurve a t.R) (mul C.toCurve (a * t.e % C.n) t.P))) as ts
  | S, [], _ => S
  | S, _ :: _, [] => S

/-- SCHVFYB on its argument, its first free draw and the RNG port's known answers (R262). -/
def batchRule (C : Ctx) (L : Bytes) (draw : Nat) (rng : Bytes) : Ending :=
  match parseList L with
  | .error e => .fail e
  | .ok items =>
    match tripleItems items with
    | none => .fail .invalidEncoding
    | some [] => .plain (.verified true)
    | some (x :: xs) =>
      match parseTriples C (x :: xs) with
      | none => .plain (.verified false)
      | some ts =>
        let a := drawCoefficients C xs.length draw rng
        ⟨.verified (decide (mulG C.toCurve (batchScalar C (1 :: a.1) ts)
            = batchPoint C .inf (1 :: a.1) ts)), true, rng.length - a.2.length⟩

/-- SCHVFYB (R262). -/
def execSchvfyb (c : BitVec 4) (s : State) : Host.Outcome State Fault Refusal :=
  runTotal s c ⟨.onlyW, .uncompressed, .nothing, 1⟩ fun C o => batchRule C o.a0 o.draw o.rng

end Sys2Proof.Machine
end

