-- ==== Sys2Proof/Machine/Dispatch.lean ====
section
/-! DEFINITION. One arm per command (30_encoding.md R97): which meaning completes it. -/

namespace Sys2Proof.Machine

def exec (i : Instr) (s : State) : Host.Outcome State Fault Refusal :=
  match i with
  | .madd c m x => Sys2Proof.Machine.execMadd c m x s
  | .msub c m x => Sys2Proof.Machine.execMsub c m x s
  | .mmul c m x => Sys2Proof.Machine.execMmul c m x s
  | .msqr c m x => Sys2Proof.Machine.execMsqr c m x s
  | .minv c m x => Sys2Proof.Machine.execMinv c m x s
  | .msqrt c x => Sys2Proof.Machine.execMsqrt c x s
  | .pchk c => Sys2Proof.Machine.execPchk c s
  | .padd c f => Sys2Proof.Machine.execPadd c f s
  | .pdbl c f => Sys2Proof.Machine.execPdbl c f s
  | .pneg c f => Sys2Proof.Machine.execPneg c f s
  | .pcomb c f => Sys2Proof.Machine.execPcomb c f s
  | .pmulg c f x => Sys2Proof.Machine.execPmulg c f x s
  | .pmul c f x => Sys2Proof.Machine.execPmul c f x s
  | .penc c f => Sys2Proof.Machine.execPenc c f s
  | .pdec c => Sys2Proof.Machine.execPdec c s
  | .skgen c => Sys2Proof.Machine.execSkgen c s
  | .skvfy c => Sys2Proof.Machine.execSkvfy c s
  | .skred c => Sys2Proof.Machine.execSkred c s
  | .skneg c => Sys2Proof.Machine.execSkneg c s
  | .skinv c => Sys2Proof.Machine.execSkinv c s
  | .sktadd c => Sys2Proof.Machine.execSktadd c s
  | .sktmul c => Sys2Proof.Machine.execSktmul c s
  | .pkcrt c f => Sys2Proof.Machine.execPkcrt c f s
  | .pktadd c f => Sys2Proof.Machine.execPktadd c f s
  | .pktmul c f => Sys2Proof.Machine.execPktmul c f s
  | .pkneg c f => Sys2Proof.Machine.execPkneg c f s
  | .pkadd c f => Sys2Proof.Machine.execPkadd c f s
  | .pkvfy c => Sys2Proof.Machine.execPkvfy c s
  | .sigtoder c => Sys2Proof.Machine.execSigtoder c s
  | .sigfromder c => Sys2Proof.Machine.execSigfromder c s
  | .siglows c => Sys2Proof.Machine.execSiglows c s
  | .siglowder c => Sys2Proof.Machine.execSiglowder c s
  | .signorm c => Sys2Proof.Machine.execSignorm c s
  | .signormder c => Sys2Proof.Machine.execSignormder c s
  | .ecsign c d => Sys2Proof.Machine.execEcsign c d s
  | .ecsignr c d => Sys2Proof.Machine.execEcsignr c d s
  | .ecvfy c d => Sys2Proof.Machine.execEcvfy c d s
  | .ecrcv c f d r => Sys2Proof.Machine.execEcrcv c f d r s
  | .schvfy c => Sys2Proof.Machine.execSchvfy c s
  | .schvfyb c => Sys2Proof.Machine.execSchvfyb c s
  | .h2sswu c f => Sys2Proof.Machine.execH2sswu c f s
  | .h2icart c f => Sys2Proof.Machine.execH2icart c f s
  | .h2svdw c f => Sys2Proof.Machine.execH2svdw c f s
  | .h2hash c f => Sys2Proof.Machine.execH2hash c f s
  | .edexp c => Sys2Proof.Machine.execEdexp c s
  | .edpub c => Sys2Proof.Machine.execEdpub c s
  | .edsign c => Sys2Proof.Machine.execEdsign c s
  | .edvfy c => Sys2Proof.Machine.execEdvfy c s
  | .edpktadd c => Sys2Proof.Machine.execEdpktadd c s
  | .edsignt c => Sys2Proof.Machine.execEdsignt c s
  | .edtomont c => Sys2Proof.Machine.execEdtomont c s
  | .edfrommont c g => Sys2Proof.Machine.execEdfrommont c g s

end Sys2Proof.Machine
end

