-- ==== Sys2Proof/Machine/Port.lean ====
section
/-! DEFINITION. The host port: the address map (20_memory.md R60, R61), the legal accesses (R62), the
effect of a word write and the answer of a word read (10_state.md R22 to R28, R37; 20_memory.md R63,
R65 to R67; 60_exceptions.md R328). -/

namespace Sys2Proof.Machine

/-- What a host access reaches (20_memory.md R61). -/
inductive Target where
  | ctrl
  | cmd
  | status
  | errcode
  | tblstat
  | version
  | arg (i : BitVec 2)
  | res0
  | res1
  /-- an unlisted word of the register space: reads 0, ignores writes. -/
  | unlisted
  /-- the word at a byte offset of IMEM. -/
  | imem (off : Nat)
  /-- the word at a byte offset of OMEM. -/
  | omem (off : Nat)
  /-- an access the port answers with a bus error (20_memory.md R62). -/
  | busError
  deriving DecidableEq, Repr

/-- The register at a byte offset of the register space (10_state.md section 2). -/
def registerAt (off : Nat) : Target :=
  if off = 0x000 then .ctrl
  else if off = 0x004 then .cmd
  else if off = 0x008 then .status
  else if off = 0x00C then .errcode
  else if off = 0x010 then .tblstat
  else if off = 0x014 then .version
  else if off = 0x020 then .arg 0
  else if off = 0x024 then .arg 1
  else if off = 0x028 then .arg 2
  else if off = 0x02C then .arg 3
  else if off = 0x040 then .res0
  else if off = 0x044 then .res1
  else .unlisted

/-- The address map for an aligned word access (20_memory.md R61). -/
def Cfg.mapped (g : Cfg) (a : Nat) : Target :=
  if a < 0x00100 then registerAt a
  else if a < 0x10000 then .busError
  else if a < 0x20000 then
    if a - 0x10000 < g.imemBytes then .imem (a - 0x10000) else .busError
  else if a - 0x20000 < g.omemBytes then .omem (a - 0x20000)
  else .busError

/-- What an access of a width at an address reaches: only an aligned 32-bit access is legal
(20_memory.md R62). -/
def Cfg.target (g : Cfg) (w : Width) (addr : BitVec 18) : Target :=
  match w with
  | .bits32 => if addr.toNat % 4 = 0 then Cfg.mapped g addr.toNat else .busError
  | .bits8 => .busError
  | .bits16 => .busError
  | .bits64 => .busError

/-- A host write that came while BUSY = 1: it changes nothing but HAZ (10_state.md R37). -/
def State.hazard (s : State) : State := { s with status := { s.status with haz := true } }

/-- A write of CTRL: bit 0 is IE, the rest stays 0 (10_state.md R22). -/
def State.writeCtrl (s : State) (d : Word) : State := { s with ctrl := d &&& 1 }

/-- A write of CMD: an acceptance, or a hazard while BUSY = 1 (10_state.md R23). -/
def State.writeCmd (s : State) (d : Word) : State :=
  if s.status.busy then s.hazard else s.accept d

/-- A write of ARGi (10_state.md R24). -/
def State.writeArg (s : State) (i : BitVec 2) (d : Word) : State :=
  if s.status.busy then s.hazard else { s with args := s.args.set i (.ofWord d) }

/-- A word write of IMEM (20_memory.md R65). -/
def State.writeImem (s : State) (off : Nat) (d : Word) : State :=
  if s.status.busy then s.hazard else { s with imem := s.imem.writeWord off d }

/-- The effect of a host write on the engine. Writes to read-only registers, to unlisted offsets and
to OMEM are ignored (10_state.md section 2, 20_memory.md R61, R66), and a bus error changes nothing
(20_memory.md R62). -/
def State.store (s : State) (t : Target) (d : Word) : State :=
  match t with
  | .ctrl => s.writeCtrl d
  | .cmd => s.writeCmd d
  | .status => s.acknowledge d
  | .errcode => s
  | .tblstat => s
  | .version => s
  | .arg i => s.writeArg i d
  | .res0 => s
  | .res1 => s
  | .unlisted => s
  | .imem off => s.writeImem off d
  | .omem _ => s
  | .busError => s

/-- The constant VERSION reads (10_state.md R28, log 18). -/
def versionWord : Word := 1

/-- RESi as read, k being i: an unspecified word while BUSY = 1, the same at every read until the command
completes (10_state.md R25, 20_memory.md R67, log 7). -/
def State.readRes (s : State) (d : Desc) (k : Nat) : Word :=
  if s.status.busy then Config.freeWord (s.held + k) else d.word

/-- OMEM as the host reads it: while BUSY = 1 every byte that holds a value reads as an unspecified one, the
same at every read until the command completes (20_memory.md R66, R67, log 7). -/
def State.visibleOmem (s : State) : Mem :=
  if s.status.busy then s.omem.unspecified 0 s.held else s.omem

/-- The value a host read returns (10_state.md section 2; 20_memory.md R65, R66); none on a bus
error. A valueless byte takes a free value of its own at each read (10_state.md R29, log 5). -/
def State.load (s : State) (t : Target) : Option Word :=
  match t with
  | .ctrl => some s.ctrl
  | .cmd => some s.cmd
  | .status => some s.status.word
  | .errcode => some (s.errcode.value.setWidth 32)
  | .tblstat => some s.tblstat
  | .version => some versionWord
  | .arg i => some (s.args.get i).word
  | .res0 => some (s.readRes s.res0 0)
  | .res1 => some (s.readRes s.res1 1)
  | .unlisted => some 0
  | .imem off => some (s.imem.readWord off s.free)
  | .omem off => some (s.visibleOmem.readWord off s.free)
  | .busError => none

/-- The port's answer to a read. -/
def readReply : Option Word → Reply
  | some w => .data w
  | none => .busError

/-- The port's answer to a write. -/
def Target.writeReply : Target → Reply
  | .busError => .busError
  | .ctrl => .written
  | .cmd => .written
  | .status => .written
  | .errcode => .written
  | .tblstat => .written
  | .version => .written
  | .arg _ => .written
  | .res0 => .written
  | .res1 => .written
  | .unlisted => .written
  | .imem _ => .written
  | .omem _ => .written

/-- A host read (20_memory.md R62, R67): the answer, and no side effect. The free values it may have
used are not used again (log 5). -/
def State.hostRead (s : State) (w : Width) (addr : BitVec 18) : State :=
  { s with reply := some (readReply (s.load (Cfg.target s.cfg w addr))), free := s.free + 4 }

/-- A host write (20_memory.md R62). -/
def State.hostWrite (s : State) (w : Width) (addr : BitVec 18) (d : Word) : State :=
  { s.store (Cfg.target s.cfg w addr) d with
    reply := some (Target.writeReply (Cfg.target s.cfg w addr)) }

end Sys2Proof.Machine
end

