-- ==== Sys2Proof/Machine/Engine.lean ====
section
/-! DEFINITION. The engine's own step (10_state.md R31; 30_encoding.md R96, R98) and what one input of
the outside world does (20_memory.md R73; 70_reset_and_hazards.md R350). -/

namespace Sys2Proof.Machine

/-- The engine's step: the completion of the pending command. With none pending the engine is idle
(10_state.md R21, R31). A word that spells no command completes with IllegalCommand
(30_encoding.md R96 steps 1 and 2). -/
def State.engineStep (s : State) : Host.Outcome State Fault Refusal :=
  match s.pend with
  | none => .next s
  | some p =>
    match decodeWord p.word with
    | .error _ => .next (s.raise .illegalCommand)
    | .ok i => exec i s

/-- One input: a host access, a reset, or the engine's turn (log 3). -/
def State.handle (s : State) : HostEvent → Host.Outcome State Fault Refusal
  | .read w addr => .next (s.hostRead w addr)
  | .write w addr d => .next (s.hostWrite w addr d)
  | .reset => .next s.resetEngine
  | .engine => s.engineStep

/-- The next thing to happen: the first input, taken from the list; the engine's turn when no input is
left (log 3). -/
def State.advance (s : State) : Host.Outcome State Fault Refusal :=
  match s.inputs with
  | [] => s.engineStep
  | e :: es => ({ s with inputs := es } : State).handle e

/-- The acceptance that a host write of a word to CMD makes, with nothing else to come: where the next
engine step takes its command from (10_state.md R30, log 3). -/
def State.presented (s : State) (w : Word) : State := { s.accept w with inputs := [] }

end Sys2Proof.Machine
end

