-- ==== Sys2Proof/Machine/Step.lean ====
section
/-! DEFINITION. The step of the machine, and the state in which the next step runs a given command. -/

namespace Sys2Proof.Machine

/-- One step: the next input, or the engine's own step (log 3). -/
def step (s : State) : Host.Outcome State Fault Refusal := s.advance

/-- The state after a host write of the command word to CMD was accepted, so that the very next step is
its completion. The machine has no program and no fetch (10_state.md R21): the host's CMD write is how a
command comes to run (log 3). -/
def State.withFetchWord (s : State) (nbits w : Nat) : State :=
  s.presented (BitVec.ofNat 32 (w % 2 ^ nbits))

end Sys2Proof.Machine
end

