-- ==== Sys2Proof/Machine/CfgOk.lean ====
section
/-! DEFINITION. Well-formedness of a configuration (00_scope.md R3 to R8; 46_hash_to_curve.md R279;
47_eddsa.md R290; 44_ecdsa.md R231): the host duty H-CFG (70_reset_and_hazards.md R360). No meaning reads it; a statement
takes it as a hypothesis where a rule presumes it. -/

namespace Sys2Proof.Machine

/-- `ceil(bitlen(v)/8)`. -/
def byteSize (v : Nat) : Nat := (bitlen v + 7) / 8

/-- The sizes of a curve (R4). -/
def sizesOk (C : Curve) : Bool :=
  decide (C.fsize = byteSize C.p) && decide (C.ssize = byteSize C.n) && decide (C.fsize ≤ 66)
    && decide (C.ssize ≤ 66) && decide (1 ≤ C.h)

/-- z is a non-zero field constant (R5). -/
def zOk (C : Curve) : Bool := decide (0 < C.z) && decide (C.z < C.p)

/-- What a map asks of its curve: its kind and constants (R6), and z where the map uses it (R5). Nothing is
asked of z elsewhere (log 2). -/
def mapOk (C : Curve) : Bool :=
  match C.h2c, C.shape with
  | .none, _ => true
  | .sswu, .weierstrass a b => decide (a ≠ 0) && decide (b ≠ 0) && zOk C
  | .icart, .weierstrass _ _ => decide (C.p % 3 = 2)
  | .svdw, .weierstrass _ _ => zOk C
  | .sswu, .edwards _ _ => false
  | .icart, .edwards _ _ => false
  | .svdw, .edwards _ _ => false

/-- The curve's hash exists; a nonce key fits one block (44_ecdsa.md R231); and on kind E the digest
has two halves, a scalar fits one of them, and the sign bit is free (47_eddsa.md R290). -/
def digestOk (g : Cfg) (C : Curve) : Bool :=
  match g.hashes[C.hash]? with
  | none => false
  | some H =>
    match C.shape with
    | .weierstrass _ _ => decide (1 ≤ H.hlen) && decide (H.hlen ≤ H.hblock)
    | .edwards _ _ => decide (H.hlen = 2 * C.fsize) && decide (C.ssize ≤ C.fsize)
        && decide (bitlen C.p < 8 * C.fsize)

/-- The constraints of R3 and R6 to R8 that are plain comparisons. -/
def Cfg.shapeOk (g : Cfg) : Bool :=
  decide (1 ≤ g.ncurves) && decide (g.ncurves ≤ 16)
    && g.curves.all (fun C => sizesOk C && mapOk C && digestOk g C)
    && decide (1024 ≤ g.imemBytes) && decide (g.imemBytes ≤ 65536) && decide (g.imemBytes % 4 = 0)
    && decide (1024 ≤ g.omemBytes) && decide (g.omemBytes ≤ 65536) && decide (g.omemBytes % 4 = 0)
    && decide (1 ≤ g.window) && decide (g.window ≤ 8)

/-- The equation's constants (R4). R4 does not say whether 0 counts as the square `ea` is, nor that the
constants are below p: that `ea ≠ 0` is DEDUCED from 41_curve_group.md R151, whose denominator
`d·y² − ea` is never 0, and that they are below p is a DESIGN CHOICE (log 32). -/
def shapeConstantsOk (C : Curve) : Prop :=
  match C.shape with
  | .weierstrass a b => a < C.p ∧ b < C.p ∧ (4 * a ^ 3 + 27 * b ^ 2) % C.p ≠ 0
  | .edwards ea d =>
    ea < C.p ∧ d < C.p ∧ ea ≠ 0 ∧ (∃ r, r * r % C.p = ea) ∧ ¬ ∃ r, r * r % C.p = d

/-- The algebraic constraints of R4. -/
def curveOk (C : Curve) : Prop :=
  C.p.Prime ∧ 3 < C.p ∧ C.n.Prime ∧ C.n % 2 = 1 ∧ shapeConstantsOk C
    ∧ onCurve C C.gx C.gy = true ∧ mulG C C.n = identity C ∧ base C ≠ identity C

/-- The curve BC's vector is about: `p = 2^256 − 2^32 − 977`, `a = 0`, `b = 7` (46_hash_to_curve.md
R279). -/
def isKoblitz (C : Curve) : Prop :=
  C.shape = .weierstrass 0 7 ∧ C.p = 2 ^ 256 - 2 ^ 32 - 977 ∧ C.fsize = 32

/-- The digest of BC's vector (46_hash_to_curve.md R279). -/
def vectorDigest : Bytes :=
  int2be 0x6e6af4a60acb033eb95d767cf9533133d74bc32a26ad56a80aae8637aa4e295f 32
    ++ int2be 0xb63e9e96ebf0fc910a1bf9f760780e86767e336cd80e9a8e6925e52ff98f1964 32

/-- The compressed point of BC's vector (46_hash_to_curve.md R279). -/
def vectorPoint : Bytes :=
  0x03 :: int2be 0x2287235856654cff0bf82466518bb9e7eaef62632c4805b3c76f8a6675f2a1df 32

/-- R279: any instantiation of the map of that curve gives BC's point for BC's digest. -/
def svdwVectorOk (C : Ctx) : Prop :=
  isKoblitz C.toCurve → C.h2c = .svdw → putPT C (fromHash C vectorDigest) .compressed = vectorPoint

/-- A well-formed configuration. -/
def Cfg.wellFormed (g : Cfg) : Prop :=
  Cfg.shapeOk g = true ∧ (∀ C ∈ g.curves, curveOk C) ∧ ∀ c C, g.ctx? c = some C → svdwVectorOk C

end Sys2Proof.Machine
end

