-- ==== Sys2Proof/Machine/Script.lean ====
section
/-! DEFINITION. The assembler's text form (30_encoding.md R109) and the host scripts with their
pseudo-instructions (R110), each as the inputs it stands for; and the end of a run
(70_reset_and_hazards.md R361). Nothing here is part of the engine: it is the host's program. -/

namespace Sys2Proof.Machine

/-! ### Command text (R109) -/

/-- One field of a command text. -/
inductive AsmField where
  | modulus (m : Modulus)
  | sec
  | form (f : PointForm)
  | der
  | rid (r : BitVec 2)
  | sign (b : Bool)
  deriving DecidableEq, Repr

/-- A command text read: the mnemonic, the curve index, the fields in any order. -/
structure AsmLine where
  mnemonic : List Char
  curve : BitVec 4
  fields : List AsmField
  deriving DecidableEq, Repr

/-- Whether a format has the field (R91). -/
def AsmField.allowed (t : Format) : AsmField → Bool
  | .modulus _ => match t with
    | .a => true
    | .n | .c | .p | .ps | .s | .sr | .m => false
  | .sec => match t with
    | .a | .c | .ps => true
    | .n | .p | .s | .sr | .m => false
  | .form _ => match t with
    | .p | .ps | .sr => true
    | .n | .a | .c | .s | .m => false
  | .der => match t with
    | .s | .sr => true
    | .n | .a | .c | .p | .ps | .m => false
  | .rid _ => match t with
    | .sr => true
    | .n | .a | .c | .p | .ps | .s | .m => false
  | .sign _ => match t with
    | .m => true
    | .n | .a | .c | .p | .ps | .s | .sr => false

/-- A field put into the fields of the word. -/
def AsmField.put (f : Fields) : AsmField → Fields
  | .modulus m => { f with modulus := m }
  | .sec => { f with sec := true }
  | .form p => { f with form := p }
  | .der => { f with der := true }
  | .rid r => { f with rid := r }
  | .sign b => { f with sign := b }

/-- The word of a command text (R109): none for an unknown mnemonic or a field its format lacks. -/
def AsmLine.word? (l : AsmLine) : Option Word :=
  match opcodeTable.find? (fun r => r.mnemonic.toList == l.mnemonic) with
  | none => none
  | some r =>
    if l.fields.all (AsmField.allowed r.format) then
      some (wordOf r.op (l.fields.foldl AsmField.put { curve := l.curve }))
    else none

/-- A line cut at its spaces; `w` is the word read so far, last character first. -/
def splitWords (w : List Char) : List Char → List (List Char)
  | [] => if w = [] then [] else [w.reverse]
  | ch :: cs =>
    if ch = ' ' then
      if w = [] then splitWords [] cs else w.reverse :: splitWords [] cs
    else splitWords (ch :: w) cs

/-- The fields' spellings (R109). -/
def fieldTexts : List (List Char × AsmField) :=
  [ (['m', 'o', 'd', '=', 'p'], .modulus .field),
    (['m', 'o', 'd', '=', 'n'], .modulus .order),
    (['s', 'e', 'c'], .sec),
    (['f', 'o', 'r', 'm', '=', 'u'], .form .uncompressed),
    (['f', 'o', 'r', 'm', '=', 'c'], .form .compressed),
    (['f', 'o', 'r', 'm', '=', 'h'], .form .hybrid),
    (['d', 'e', 'r'], .der),
    (['r', 'i', 'd', '=', '0'], .rid 0),
    (['r', 'i', 'd', '=', '1'], .rid 1),
    (['r', 'i', 'd', '=', '2'], .rid 2),
    (['r', 'i', 'd', '=', '3'], .rid 3),
    (['s', 'i', 'g', 'n', '=', '0'], .sign false),
    (['s', 'i', 'g', 'n', '=', '1'], .sign true) ]

/-- A curve index in decimal, 0 to 15. -/
def curveText : List Char → Option (BitVec 4)
  | ['c', '=', d] =>
    if '0'.toNat ≤ d.toNat ∧ d.toNat ≤ '9'.toNat then some (BitVec.ofNat 4 (d.toNat - '0'.toNat))
    else none
  | ['c', '=', '1', d] =>
    if '0'.toNat ≤ d.toNat ∧ d.toNat ≤ '5'.toNat then
      some (BitVec.ofNat 4 (10 + (d.toNat - '0'.toNat)))
    else none
  | _ => none

/-- The fields of a command text; none for a spelling R109 does not have. -/
def readFields : List (List Char) → Option (List AsmField)
  | [] => some []
  | w :: ws =>
    match fieldTexts.lookup w, readFields ws with
    | some f, some fs => some (f :: fs)
    | some _, none => none
    | none, _ => none

/-- `MNEMONIC c=<curve index>` and the format's fields (R109). -/
def readLine (line : List Char) : Option AsmLine :=
  match splitWords [] line with
  | mnemonic :: c :: ws =>
    match curveText c, readFields ws with
    | some curve, some fs => some ⟨mnemonic, curve, fs⟩
    | some _, none => none
    | none, _ => none
  | [_] => none
  | [] => none

/-- The assembler (R109). -/
def assemble (line : List Char) : Option Word := (readLine line).bind AsmLine.word?

/-! ### Host scripts (R110) -/

/-- A pseudo-instruction. -/
inductive Pseudo where
  | wr (addr : BitVec 18) (value : Word)
  | rd (addr : BitVec 18)
  | put (off : Nat) (bytes : Bytes)
  | arg (i : BitVec 2) (off len : BitVec 16)
  | command (w : Word)
  /-- `polls` counts the reads of STATUS before the engine takes its turn, which no rule fixes
  (70_reset_and_hazards.md R356, log 29). -/
  | wait (polls : Nat)
  /-- `get 0` or `get 1`. -/
  | get (second : Bool)
  | ack
  deriving DecidableEq, Repr

/-- A word write at a byte address. An address beyond the 18-bit port would lose its high bits;
`Pseudo.expand?` gives none (log 29). -/
def wordWrite (a : Nat) (d : Word) : HostEvent := .write .bits32 (BitVec.ofNat 18 a) d

/-- A word read at a byte address. -/
def wordRead (a : Nat) : HostEvent := .read .bits32 (BitVec.ofNat 18 a)

/-- The word writes of `put` (R110): four bytes a word, the last one filled up with 00. -/
def putEvents (a : Nat) : Bytes → List HostEvent
  | [] => []
  | [b0] => [wordWrite a (wordOfLanes b0 0 0 0)]
  | [b0, b1] => [wordWrite a (wordOfLanes b0 b1 0 0)]
  | [b0, b1, b2] => [wordWrite a (wordOfLanes b0 b1 b2 0)]
  | b0 :: b1 :: b2 :: b3 :: B => wordWrite a (wordOfLanes b0 b1 b2 b3) :: putEvents (a + 4) B

/-- k word reads from an address on. -/
def readEvents (a : Nat) : Nat → List HostEvent
  | 0 => []
  | k + 1 => wordRead a :: readEvents (a + 4) k

/-- The OMEM reads of `get` for a descriptor: from the word that holds byte `off` up to the word that
holds byte `off + len − 1` (R110). DESIGN CHOICE, where R110's last word lies before its first or is that of
byte `off − 1`: with `len = 0` no word is read (log 29). -/
def getEvents (d : Desc) : List HostEvent :=
  if d.len = 0 then []
  else
    readEvents (0x20000 + d.off.toNat / 4 * 4)
      ((d.off.toNat + d.len.toNat - 1) / 4 - d.off.toNat / 4 + 1)

/-- Whether a `put` is one: `off` is a multiple of 4 (R110). DESIGN CHOICE, where R110 is silent: and every
word it writes has an address the 18-bit port has, so that no write wraps round to the registers
(log 29). -/
def putOk (off : Nat) (B : Bytes) : Bool :=
  decide (off % 4 = 0) && decide (0x10000 + off + B.length ≤ 0x40000)

/-- The host accesses a pseudo-instruction other than `wait` expands to, in a state (R110); none for a
`put` that is not `putOk`. What the reads of `get` are depends on the RESi the host has
just read. Each access of `wait` depends on the answer before it: `State.runWait`. -/
def Pseudo.expand? (s : State) : Pseudo → Option (List HostEvent)
  | .wr a v => some [.write .bits32 a v]
  | .rd a => some [.read .bits32 a]
  | .put off B => if putOk off B then some (putEvents (0x10000 + off) B) else none
  | .arg i off len => some [wordWrite (0x020 + 4 * i.toNat) (len ++ off)]
  | .command w => some [wordWrite 0x004 w]
  | .wait _ => none
  | .get false => some (wordRead 0x040 :: getEvents (.ofWord (s.readRes s.res0 0)))
  | .get true => some (wordRead 0x044 :: getEvents (.ofWord (s.readRes s.res1 1)))
  | .ack => some [wordWrite 0x008 2]

/-- How a piece of a script ends. -/
inductive ScriptEnd where
  /-- it is over: the state, and the answer of every read in order. Of a whole script this says that
  nothing is pending (70_reset_and_hazards.md R361, `State.runScript`). -/
  | done (s : State) (answers : List Reply)
  /-- a `wait` that reads STATUS for ever: DONE is 0 and nothing is pending. -/
  | waiting (s : State)
  /-- a line that is no pseudo-instruction: a `put` that is not `putOk`. -/
  | malformed
  | fault (f : Fault)
  | refused (r : Refusal)
  deriving DecidableEq, Repr

/-- One piece of a script after another. -/
def ScriptEnd.andThen (r : ScriptEnd) (k : State → ScriptEnd) : ScriptEnd :=
  match r with
  | .waiting s => .waiting s
  | .malformed => .malformed
  | .fault f => .fault f
  | .refused f => .refused f
  | .done s as =>
    match k s with
    | .done t bs => .done t (as ++ bs)
    | .waiting t => .waiting t
    | .malformed => .malformed
    | .fault f => .fault f
    | .refused f => .refused f

/-- One input, as a piece of a script: a read's answer is kept. -/
def State.runEvent (s : State) (e : HostEvent) : ScriptEnd :=
  match s.handle e with
  | .fault f => .fault f
  | .refused r => .refused r
  | .next t =>
    match e with
    | .read _ _ => .done t t.reply.toList
    | .write _ _ _ => .done t []
    | .reset => .done t []
    | .engine => .done t []

/-- Inputs one after another. -/
def State.runEvents (s : State) : List HostEvent → ScriptEnd
  | [] => .done s []
  | e :: es => (s.runEvent e).andThen fun t => t.runEvents es

/-- Whether the host's last answer was a word with bit 1 set: DONE, where the word is STATUS. -/
def State.sawDone (s : State) : Bool :=
  match s.reply with
  | some (.data w) => w.getLsbD 1
  | some .written => false
  | some .busError => false
  | none => false

/-- `wait` (R110): `rd 0x008` until bit 1 is 1. After `polls` reads that saw 0 the engine takes its turn
(70_reset_and_hazards.md R356); nothing is pending then, so a read that still sees 0 is followed by
others for ever. -/
def State.runWait (s : State) : Nat → ScriptEnd
  | 0 =>
    (s.runEvent .engine).andThen fun t =>
      (t.runEvent (wordRead 0x008)).andThen fun u => if u.sawDone then .done u [] else .waiting u
  | polls + 1 =>
    (s.runEvent (wordRead 0x008)).andThen fun t => if t.sawDone then .done t [] else t.runWait polls

/-- The accesses an expansion gives, one after another. -/
def State.runAccesses (s : State) : Option (List HostEvent) → ScriptEnd
  | none => .malformed
  | some es => s.runEvents es

/-- One line of a script. -/
def State.runLine (s : State) (p : Pseudo) : ScriptEnd :=
  match p with
  | .wait polls => s.runWait polls
  | .wr _ _ => s.runAccesses (p.expand? s)
  | .rd _ => s.runAccesses (p.expand? s)
  | .put _ _ => s.runAccesses (p.expand? s)
  | .arg _ _ _ => s.runAccesses (p.expand? s)
  | .command _ => s.runAccesses (p.expand? s)
  | .get _ => s.runAccesses (p.expand? s)
  | .ack => s.runAccesses (p.expand? s)

/-- The lines of a script, one after another. -/
def State.runLines (s : State) : List Pseudo → ScriptEnd
  | [] => .done s []
  | p :: ps => (s.runLine p).andThen fun t => t.runLines ps

/-- A script: its lines, and then the engine's turn, because a script whose last line is a command has
not ended until that command completes (70_reset_and_hazards.md R361). -/
def State.runScript (s : State) (ps : List Pseudo) : ScriptEnd :=
  (s.runLines ps).andThen fun t => t.runEvent .engine

/-- The bytes `get` returns: those the descriptor names, out of the words read (R110). -/
def getBytes (d : Desc) (ws : List Word) : Bytes :=
  ((ws.flatMap fun w => [lane w 0, lane w 1, lane w 2, lane w 3]).drop (d.off.toNat % 4)).take
    d.len.toNat

/-- A run is over: no input is left and nothing is pending (70_reset_and_hazards.md R361). Whatever a
script ends in as `done` is such a state, where no other input was listed (`runScript_final` in
Sys2Proof/Laws/Script.lean). -/
def State.final (s : State) : Bool := decide (s.inputs = []) && s.pend.isNone

end Sys2Proof.Machine
end

