-- ==== Sys2Proof/Safety.lean ====
section
/-! DEFINITION. What holds in every state a run reaches (10_state.md R22, R26 to R28, R30, R33;
60_exceptions.md R320), what a safe step is, and the terms statements are made in: when a command gets as
far as its own rule, and the states its end can leave, written out field by field. -/

namespace Sys2Proof.Machine

/-- Both memories are in canonical form. -/
abbrev State.MemoriesOk (s : State) : Prop := s.imem.wf = true ∧ s.omem.wf = true

/-- BUSY is 1 exactly while a command is pending, and then DONE is 0 (R26, R30, R31). -/
abbrev State.BusyOk (s : State) : Prop :=
  s.status.busy = s.pend.isSome ∧ ¬ (s.status.busy = true ∧ s.status.done = true)

/-- The pending command is the one CMD holds, with the ARGi and the IMEM the engine still has
(R23, R24, R30, R37). -/
abbrev State.PendOk (s : State) : Prop :=
  s.pend = none ∨ s.pend = some ⟨s.cmd, s.args, s.imem⟩

/-- From acceptance to completion there is no outcome and no result (R25 to R27, R30). -/
abbrev State.ClearWhileBusy (s : State) : Prop :=
  s.status.busy = true →
    s.status.err = false ∧ s.status.result = false ∧ s.status.null = false ∧ s.status.recid = 0
      ∧ s.errcode = .none ∧ s.res0 = .zero ∧ s.res1 = .zero

/-- The outcome code is one that leaves ERR = 1 (R320). -/
def Code.isError : Code → Bool
  | .none => false
  | .invalidScalar => true
  | .invalidPoint => true
  | .invalidEncoding => true
  | .verificationFailure => false
  | .recoveryFailure => false
  | .domain => true
  | .illegalCommand => true
  | .badDescriptor => true

/-- ERR, RESULT, NULL and ERRCODE tell one outcome (R26, R320). -/
abbrev State.OutcomeOk (s : State) : Prop :=
  s.status.err = s.errcode.isError ∧ s.status.null = decide (s.errcode = .recoveryFailure)
    ∧ (s.status.result = true → s.errcode = .none)
    ∧ (s.status.recid ≠ 0 → s.errcode = .none ∧ s.status.result = false)

/-- A result exists only after a success without a predicate's boolean (20_memory.md R71). -/
abbrev State.ResultsOk (s : State) : Prop :=
  (s.errcode ≠ .none ∨ s.status.result = true) → s.res0 = .zero ∧ s.res1 = .zero

/-- Reserved bits of CTRL and TBLSTAT read 0; without tables TBLSTAT is 0 (R22, R28, R33). -/
abbrev State.ReservedOk (s : State) : Prop :=
  s.ctrl &&& 0xFFFFFFFE = 0 ∧ s.tblstat.toNat < 2 ^ s.cfg.ncurves
    ∧ (s.cfg.tables = false → s.tblstat = 0)

/-- The invariant of the machine. -/
abbrev State.Inv (s : State) : Prop :=
  s.MemoriesOk ∧ s.BusyOk ∧ s.PendOk ∧ s.ClearWhileBusy ∧ s.OutcomeOk ∧ s.ResultsOk ∧ s.ReservedOk

/-! ### The ends of a command, field by field (R31; 60_exceptions.md R320 to R324) -/

/-- The completion's writes (R31): not busy, done, HAZ kept, no command pending; B at OMEM offset 0, every
other byte of OMEM unspecified (20_memory.md R71). -/
def State.finish (s : State) (r0 r1 : Desc) (B : Bytes) (err result null : Bool) (recid : BitVec 2)
    (code : Code) : State :=
  { s with
    omem := s.omemAfter B
    res0 := r0
    res1 := r1
    status :=
      { busy := false, done := true, err := err, result := result, null := null,
        haz := s.status.haz, recid := recid }
    errcode := code
    pend := none
    free := s.free + freePerCommand }

/-- Success with one result string, at OMEM offset 0, and a recovery id (20_memory.md R71). -/
def State.succeedId (s : State) (B : Bytes) (id : BitVec 2) : State :=
  s.finish ⟨0, BitVec.ofNat 16 B.length⟩ ⟨0, 0⟩ B false false false id .none

/-- Success with one result string (20_memory.md R71). -/
def State.succeed (s : State) (B : Bytes) : State := s.succeedId B 0

/-- Success with two result strings, the second packed behind the first (20_memory.md R71). -/
def State.succeedTwo (s : State) (B0 B1 : Bytes) : State :=
  s.finish ⟨0, BitVec.ofNat 16 B0.length⟩ ⟨BitVec.ofNat 16 B0.length, BitVec.ofNat 16 B1.length⟩
    (B0 ++ B1) false false false 0 .none

/-- `raise Err(code)` (60_exceptions.md R322). -/
def State.failWith (s : State) (code : Code) : State :=
  s.finish ⟨0, 0⟩ ⟨0, 0⟩ [] true false false 0 code

/-- `return_bool(b)` of a predicate (60_exceptions.md R323). -/
def State.answer (s : State) (b : Bool) : State :=
  s.finish ⟨0, 0⟩ ⟨0, 0⟩ [] false b false 0 .none

/-- `return_bool(b)` of a verification (60_exceptions.md R323). -/
def State.verdict (s : State) (b : Bool) : State :=
  s.finish ⟨0, 0⟩ ⟨0, 0⟩ [] false b false 0 (if b then .none else .verificationFailure)

/-- `return_null()` (60_exceptions.md R324). -/
def State.nullResult (s : State) : State :=
  s.finish ⟨0, 0⟩ ⟨0, 0⟩ [] false false true 0 .recoveryFailure

/-- TBLSTAT[c] set where the configuration has tables (R33). -/
def State.withTable (s : State) (c : BitVec 4) : State :=
  { s with tblstat := if s.cfg.tables then s.tblstat ||| (1 <<< c.toNat) else s.tblstat }

/-! ### When a command gets as far as its own rule -/

/-- The curve is of kind W (R3). -/
def kindW (C : Curve) : Prop := ∃ a b, C.shape = .weierstrass a b

/-- The curve is of kind E (R3). -/
def kindE (C : Curve) : Prop := ∃ ea d, C.shape = .edwards ea d

/-- 30_encoding.md R96 step 5. -/
def FormOk (C : Curve) (f : PointForm) : Prop := f ≠ .reserved ∧ (kindE C → f = .uncompressed)

/-- A command on curve c is pending, the curve exists, and the first n of ARG0, ARG1, ARG2 lie inside
IMEM (20_memory.md R69). -/
structure Ready (s : State) (c : BitVec 4) (n : Nat) (p : Pending) (C : Ctx) : Prop where
  pending : s.pend = some p
  curve : s.cfg.ctx? c.toNat = some C
  fits0 : 1 ≤ n → p.args.a0.off.toNat + p.args.a0.len.toNat ≤ s.cfg.imemBytes
  fits1 : 2 ≤ n → p.args.a1.off.toNat + p.args.a1.len.toNat ≤ s.cfg.imemBytes
  fits2 : 3 ≤ n → p.args.a2.off.toNat + p.args.a2.len.toNat ≤ s.cfg.imemBytes

/-- A canonical residue: L bytes with a value below the modulus (30_encoding.md R100). -/
def Canonical (C : Ctx) (m : Modulus) (B : Bytes) : Prop :=
  B.length = widthC C m ∧ os2iC C B < modulusC C m

/-- What 30_encoding.md R96 steps 3 to 6 ask of a command besides its word. -/
def LegalOn (g : Cfg) (i : Instr) : Prop :=
  ∃ C, g.ctx? i.fields.curve.toNat = some C
    ∧ (0x30 ≤ i.op.toNat ∧ i.op.toNat ≤ 0x63 → kindW C.toCurve)
    ∧ (0x70 ≤ i.op.toNat → kindE C.toCurve)
    ∧ FormOk C.toCurve i.fields.form
    ∧ (i.op = 0x60 → C.h2c = .sswu) ∧ (i.op = 0x61 → C.h2c = .icart)
    ∧ (i.op = 0x62 → C.h2c = .svdw) ∧ (i.op = 0x63 → C.h2c ≠ .none)

/-- How many of ARG0, ARG1, ARG2 a command reads (30_encoding.md R97, column "args"). -/
def argCount (i : Instr) : Nat :=
  if i.op = 0x20 then 0
  else if i.op ∈ [0x42, 0x50, 0x73, 0x75] then 3
  else if i.op ∈ [0x01, 0x02, 0x03, 0x10, 0x11, 0x16, 0x17, 0x25, 0x26, 0x28, 0x29, 0x2B, 0x40, 0x41,
    0x43, 0x72, 0x74] then 2
  else 1

/-- `y² = x³ + a·x + b` on kind W, `ea·x² + y² = 1 + d·x²·y²` on kind E, modulo p
(41_curve_group.md R140). -/
def Equation (C : Curve) (x y : Nat) : Prop :=
  match C.shape with
  | .weierstrass a b => y ^ 2 ≡ x ^ 3 + a * x + b [MOD C.p]
  | .edwards ea d => ea * x ^ 2 + y ^ 2 ≡ 1 + d * x ^ 2 * y ^ 2 [MOD C.p]

/-- A host access reaches something: an aligned 32-bit word of the register space, of IMEM or of OMEM
(20_memory.md R61, R62). -/
def Reaches (g : Cfg) (w : Width) (a : Nat) : Prop :=
  w = .bits32 ∧ a % 4 = 0
    ∧ (a < 0x100 ∨ (0x10000 ≤ a ∧ a < 0x20000 ∧ a < 0x10000 + g.imemBytes)
      ∨ (0x20000 ≤ a ∧ a < 0x20000 + g.omemBytes))

/-- Every register at its value after reset, every byte of both memories valueless, nothing pending
(R35). -/
def State.AsAfterReset (t : State) : Prop :=
  t.ctrl = 0 ∧ t.cmd = 0 ∧ t.status.word = 0 ∧ t.errcode.value = 0 ∧ t.tblstat = 0
    ∧ t.load .version = some 1 ∧ (∀ i, (t.args.get i).word = 0) ∧ t.res0.word = 0 ∧ t.res1.word = 0
    ∧ t.pend = none ∧ (∀ x, t.imem.get? x = none) ∧ (∀ x, t.omem.get? x = none)

/-- A curve as 00_scope.md R4 wants it: its sizes and its algebra. -/
def SoundCurve (C : Curve) : Prop := sizesOk C = true ∧ curveOk C

/-- The candidates of the nonce generator, written from 44_ecdsa.md R232: `K i` and `V i` are its state
before candidate i, `T i` the bytes candidate i is read from, in blocks of HLEN bytes until there are
ssize of them. -/
structure NonceRun (C : Ctx) (d e : Nat) (K V T : Nat → Bytes) : Prop where
  start : ∃ K1 V1 : Bytes,
    let M := int2be d C.ssize ++ int2be e C.ssize
    let V0 := List.replicate C.digest.hlen 0x01
    K1 = hmac C (List.replicate C.digest.hlen 0x00) (V0 ++ 0x00 :: M) ∧ V1 = hmac C K1 V0
      ∧ K 0 = hmac C K1 (V1 ++ 0x01 :: M) ∧ V 0 = hmac C (K 0) V1
  next : ∀ i,
    let blocks := (C.ssize + C.digest.hlen - 1) / C.digest.hlen
    let block := fun j => (hmac C (K i))^[j] (V i)
    T i = (List.range blocks).flatMap (fun j => block (j + 1))
      ∧ K (i + 1) = hmac C (K i) (block blocks ++ [0x00]) ∧ V (i + 1) = hmac C (K (i + 1)) (block blocks)

/-- A nonce candidate k that 44_ecdsa.md R233 does not accept, for the message integer e and the key d. -/
def NonceRejected (C : Ctx) (e d k : Nat) : Prop :=
  k = 0 ∨ C.n ≤ k ∨ mulG C.toCurve k = .inf
    ∨ ∃ x y, mulG C.toCurve k = .aff x y ∧ (x % C.n = 0 ∨ (e + x % C.n * d) % C.n = 0)

/-- A safe step: it ends in a next state, neither in a fault nor in a refusal. -/
def safeStep (s : State) : Prop := ∃ t, Sys2Proof.Machine.State.advance s = .next t

end Sys2Proof.Machine
end

