-- ==== Sys2Proof/Certificates/Slice0/Obligations.lean ====
section
/-! DEFINITION. The statements about the machine: each a proposition `Obligations.<Name>`, with the rule of
spec/ it says something of. -/

section

open Sys2Proof Sys2Proof.Machine

/-! ### Reset, host accesses, acceptance -/

/-- 10_state.md R35: after a reset, from any state, every register but VERSION is 0, VERSION reads 1, nothing
is pending, and every byte of both memories is valueless; the configuration is not changed. `State.reset` is
such a state. -/
def Obligations.ResetValues : Prop :=
  State.reset.AsAfterReset ∧
    ∀ (s : State) (es : List HostEvent), s.inputs = .reset :: es →
      ∃ t, step s = .next t ∧ t.AsAfterReset ∧ t.cfg = s.cfg ∧ t.inputs = es

/-- 10_state.md R30: a write of w to CMD while BUSY = 0 captures the command, clears the outcome and the
results, and sets BUSY; no other register and no memory changes. The model's free values move on (log 7). -/
def Obligations.Acceptance : Prop :=
  ∀ (s : State) (w : Word) (es : List HostEvent),
    s.inputs = .write .bits32 0x004 w :: es → s.status.busy = false →
    step s = .next
      { s with
        inputs := es
        reply := some .written
        cmd := w
        pend := some ⟨w, s.args, s.imem⟩
        status :=
          { busy := true, done := false, err := false, result := false, null := false,
            haz := s.status.haz, recid := 0 }
        errcode := .none
        res0 := ⟨0, 0⟩
        res1 := ⟨0, 0⟩
        held := s.free
        free := s.free + freePerAcceptance }

/-- 10_state.md R37: a write to CMD, ARGi or an IMEM word while BUSY = 1 only sets HAZ; HAZ changes no
command; and it stays 1 until a STATUS write with bit 5 = 1 or a reset. -/
def Obligations.HazardFlag : Prop :=
  (∀ (s : State) (a : BitVec 18) (d : Word) (es : List HostEvent),
    s.inputs = .write .bits32 a d :: es → s.status.busy = true →
    (a = 0x004 ∨ a = 0x020 ∨ a = 0x024 ∨ a = 0x028 ∨ a = 0x02C
      ∨ (a.toNat % 4 = 0 ∧ 0x10000 ≤ a.toNat ∧ a.toNat < 0x20000
        ∧ a.toNat < 0x10000 + s.cfg.imemBytes)) →
    step s = .next
      { s with inputs := es, reply := some .written, status := { s.status with haz := true } })
  ∧ (∀ (i : Instr) (s t : State) (b : Bool), exec i s = .next t →
    exec i { s with status := { s.status with haz := b } }
      = .next { t with status := { t.status with haz := b } })
  ∧ (∀ s t : State, s.status.haz = true → step s = .next t → t.status.haz = true
    ∨ (∃ d es, s.inputs = .write .bits32 0x008 d :: es ∧ d.getLsbD 5 = true)
    ∨ ∃ es, s.inputs = .reset :: es)

/-- 10_state.md R22: a write to CTRL, in any state, leaves bit 0 of the word written; every other step but a
reset leaves CTRL as it was; a read returns it; the interrupt output is IE and DONE. -/
def Obligations.ControlRegister : Prop :=
  (∀ (s : State) (d : Word) (es : List HostEvent), s.inputs = .write .bits32 0x000 d :: es →
    step s = .next
      { s with inputs := es, reply := some .written, ctrl := if d.getLsbD 0 then 1 else 0 })
  ∧ (∀ (s : State) (es : List HostEvent), s.inputs = .read .bits32 0x000 :: es →
    ∃ t, step s = .next t ∧ t.reply = some (.data s.ctrl))
  ∧ (∀ s t : State, step s = .next t → t.ctrl = s.ctrl
    ∨ (∃ d es, s.inputs = .write .bits32 0x000 d :: es) ∨ ∃ es, s.inputs = .reset :: es)
  ∧ ∀ s : State, s.irq = true ↔ s.ctrl.getLsbD 0 = true ∧ s.status.done = true

/-- 10_state.md R24, R26, section 2; 20_memory.md R61, R66; 60_exceptions.md R327: a write to ARGi while
BUSY = 0 sets all 32 bits of that register and no other, and a read of it returns them; a write to STATUS
clears DONE and HAZ where the written bit is 1, and changes nothing else, also while BUSY = 1; a write to a
read-only or unlisted register, or to OMEM, changes nothing. -/
def Obligations.RegisterWrites : Prop :=
  (∀ (s : State) (i : BitVec 2) (d : Word) (es : List HostEvent),
    s.inputs = .write .bits32 (BitVec.ofNat 18 (0x020 + 4 * i.toNat)) d :: es → s.status.busy = false →
    ∃ A : Args, step s = .next { s with inputs := es, reply := some .written, args := A }
      ∧ (A.get i).word = d ∧ ∀ j, j ≠ i → A.get j = s.args.get j)
  ∧ (∀ (s : State) (i : BitVec 2) (es : List HostEvent),
    s.inputs = .read .bits32 (BitVec.ofNat 18 (0x020 + 4 * i.toNat)) :: es →
    ∃ t, step s = .next t ∧ t.reply = some (.data (s.args.get i).word))
  ∧ (∀ (s : State) (d : Word) (es : List HostEvent), s.inputs = .write .bits32 0x008 d :: es →
    step s = .next
      { s with
        inputs := es
        reply := some .written
        status :=
          { s.status with
            done := if d.getLsbD 1 then false else s.status.done
            haz := if d.getLsbD 5 then false else s.status.haz } })
  ∧ ∀ (s : State) (a : BitVec 18) (d : Word) (es : List HostEvent),
    s.inputs = .write .bits32 a d :: es → a.toNat % 4 = 0 →
    ((0x00C ≤ a.toNat ∧ a.toNat ≤ 0x01C) ∨ (0x030 ≤ a.toNat ∧ a.toNat ≤ 0x0FC)
      ∨ (0x20000 ≤ a.toNat ∧ a.toNat < 0x20000 + s.cfg.omemBytes)) →
    step s = .next { s with inputs := es, reply := some .written }

/-- 20_memory.md R63, R65 to R67: a word write to IMEM while BUSY = 0 writes the four bytes from lanes 0 to 3
and leaves every other byte as it was; a word read of IMEM at any time, or of OMEM while BUSY = 0, returns
every byte that holds a value in its lane; a read changes no register and no memory. Any address read twice,
with nothing between, gives the same answer, where the bytes of a memory it names all hold values. That
this holds of RESi and OMEM while BUSY = 1 too is the model's reading of R67 (log 7, DEDUCED): R25 and R66
say only that such a read is unspecified. -/
def Obligations.HostMemory : Prop :=
  (∀ (s : State) (a : BitVec 18) (d : Word) (es : List HostEvent),
    s.inputs = .write .bits32 a d :: es → s.status.busy = false → a.toNat % 4 = 0 →
    0x10000 ≤ a.toNat → a.toNat < 0x20000 → a.toNat < 0x10000 + s.cfg.imemBytes →
    ∃ m : Mem, step s = .next { s with inputs := es, reply := some .written, imem := m }
      ∧ (∀ k < 4, m.get? (a.toNat - 0x10000 + k) = some (d.extractLsb' (8 * k) 8))
      ∧ ∀ x, (x < a.toNat - 0x10000 ∨ a.toNat - 0x10000 + 4 ≤ x) → m.get? x = s.imem.get? x)
  ∧ (∀ (s : State) (w : Width) (a : BitVec 18) (es : List HostEvent),
    s.inputs = .read w a :: .read w a :: es →
    (0x10000 ≤ a.toNat → a.toNat < 0x20000 → ∀ k < 4, s.imem.get? (a.toNat - 0x10000 + k) ≠ none) →
    (0x20000 ≤ a.toNat → ∀ k < 4, s.omem.get? (a.toNat - 0x20000 + k) ≠ none) →
    ∃ t u, step s = .next t ∧ step t = .next u ∧ u.reply = t.reply)
  ∧ ∀ (s : State) (a : BitVec 18) (es : List HostEvent),
    s.inputs = .read .bits32 a :: es → a.toNat % 4 = 0 →
    (0x10000 ≤ a.toNat → a.toNat < 0x20000 → a.toNat < 0x10000 + s.cfg.imemBytes →
      ∃ w, step s = .next { s with inputs := es, reply := some (.data w), free := s.free + 4 }
        ∧ ∀ k < 4, ∀ b, s.imem.get? (a.toNat - 0x10000 + k) = some b → w.extractLsb' (8 * k) 8 = b)
    ∧ (0x20000 ≤ a.toNat → a.toNat < 0x20000 + s.cfg.omemBytes →
      ∃ w, step s = .next { s with inputs := es, reply := some (.data w), free := s.free + 4 }
        ∧ (s.status.busy = false →
          ∀ k < 4, ∀ b, s.omem.get? (a.toNat - 0x20000 + k) = some b → w.extractLsb' (8 * k) 8 = b))

/-- 10_state.md section 2, R22 to R28; 20_memory.md R61: what a read of each register returns, and the bits of
STATUS as they are read (R26). RES0 and RES1 return some word while BUSY = 1, which word is a free value
(log 7). -/
def Obligations.RegisterRead : Prop :=
  (∀ (s : State) (a : BitVec 18) (es : List HostEvent), s.inputs = .read .bits32 a :: es →
    ∀ w : Word,
    (a = 0x000 ∧ w = s.ctrl ∨ a = 0x004 ∧ w = s.cmd ∨ a = 0x008 ∧ w = s.status.word
      ∨ (∃ i : BitVec 2, a = BitVec.ofNat 18 (0x020 + 4 * i.toNat) ∧ w = (s.args.get i).word)
      ∨ a = 0x00C ∧ w = s.errcode.value.setWidth 32 ∨ a = 0x010 ∧ w = s.tblstat
      ∨ a = 0x014 ∧ w = 1
      ∨ a = 0x040 ∧ s.status.busy = false ∧ w = s.res0.len ++ s.res0.off
      ∨ a = 0x044 ∧ s.status.busy = false ∧ w = s.res1.len ++ s.res1.off
      ∨ a.toNat % 4 = 0 ∧ (a.toNat = 0x018 ∨ a.toNat = 0x01C ∨ (0x030 ≤ a.toNat ∧ a.toNat ≤ 0x03C)
        ∨ (0x048 ≤ a.toNat ∧ a.toNat ≤ 0x0FC)) ∧ w = 0) →
    step s = .next { s with inputs := es, reply := some (.data w), free := s.free + 4 })
  ∧ (∀ (s : State) (a : BitVec 18) (es : List HostEvent), s.inputs = .read .bits32 a :: es →
    s.status.busy = true → a = 0x040 ∨ a = 0x044 →
    ∃ w, step s = .next { s with inputs := es, reply := some (.data w), free := s.free + 4 })
  ∧ ∀ t : Status, t.word.getLsbD 0 = t.busy ∧ t.word.getLsbD 1 = t.done ∧ t.word.getLsbD 2 = t.err
    ∧ t.word.getLsbD 3 = t.result ∧ t.word.getLsbD 4 = t.null ∧ t.word.getLsbD 5 = t.haz
    ∧ t.word.extractLsb' 6 2 = 0 ∧ t.word.extractLsb' 8 2 = t.recid ∧ t.word.extractLsb' 10 22 = 0

/-- 60_exceptions.md R328, 20_memory.md R62: an access of another width, misaligned or unmapped is answered
with a bus error and changes nothing in the engine. -/
def Obligations.BusErrors : Prop :=
  ∀ (s : State) (w : Width) (a : BitVec 18) (es : List HostEvent), ¬ Reaches s.cfg w a.toNat →
    (∀ d : Word, s.inputs = .write w a d :: es →
      step s = .next { s with inputs := es, reply := some .busError })
    ∧ (s.inputs = .read w a :: es →
      step s = .next { s with inputs := es, reply := some .busError, free := s.free + 4 })

/-! ### The engine's step -/

/-- 10_state.md R31: the engine's turn runs the pending command when its word decodes; with nothing pending
the engine is idle. When the turn comes, namely where the inputs list it or where no input is left, is the
model's choice of a schedule (logs 3 and 20), and so is `withFetchWord`, which presents such a word
(log 3). -/
def Obligations.StepRunsCommand : Prop :=
  (∀ (s : State) (p : Pending) (i : Instr), s.pend = some p → decodeWord p.word = .ok i →
    (s.inputs = [] → step s = exec i s)
    ∧ ∀ es, s.inputs = .engine :: es → step s = exec i { s with inputs := es })
  ∧ (∀ (s : State) (w : Word) (i : Instr), decodeWord w = .ok i →
    step (s.withFetchWord 32 w.toNat) = exec i (s.withFetchWord 32 w.toNat))
  ∧ ∀ s : State, s.pend = none →
    (s.inputs = [] → step s = .next s)
    ∧ ∀ es, s.inputs = .engine :: es → step s = .next { s with inputs := es }

/-- 30_encoding.md R96, R98; 60_exceptions.md R322, R325: a pending word that spells no command completes with
IllegalCommand (steps 1 and 2); so does a command on a curve that does not exist, of a kind, with a form or
with a map it does not allow (steps 3 to 6), whatever its descriptors and operands are. -/
def Obligations.IllegalCommands : Prop :=
  (∀ (s : State) (p : Pending) (e : DecodeError), s.pend = some p → decodeWord p.word = .error e →
    (s.inputs = [] → step s = .next (s.failWith .illegalCommand))
    ∧ ∀ es, s.inputs = .engine :: es →
      step s = .next (State.failWith { s with inputs := es } .illegalCommand))
  ∧ ∀ (i : Instr) (s : State), s.pend.isSome = true → ¬ LegalOn s.cfg i →
    exec i s = .next (s.failWith .illegalCommand)

/-- 20_memory.md R69, R70; 60_exceptions.md R325: a legal command with a descriptor it uses that reaches beyond
IMEM ends with BadDescriptor, whatever its operands are; and `arg(i)` is the bytes of the captured IMEM from
`off` on, where they all hold values. -/
def Obligations.Descriptors : Prop :=
  (∀ (i : Instr) (s : State) (p : Pending), s.pend = some p → LegalOn s.cfg i →
    (1 ≤ argCount i ∧ s.cfg.imemBytes < p.args.a0.off.toNat + p.args.a0.len.toNat
      ∨ 2 ≤ argCount i ∧ s.cfg.imemBytes < p.args.a1.off.toNat + p.args.a1.len.toNat
      ∨ 3 ≤ argCount i ∧ s.cfg.imemBytes < p.args.a2.off.toNat + p.args.a2.len.toNat) →
    exec i s = .next (s.failWith .badDescriptor))
  ∧ ∀ (s : State) (p : Pending) (B : Bytes),
    (B.length = p.args.a0.len.toNat →
      (∀ k < B.length, p.imem.get? (p.args.a0.off.toNat + k) = B[k]?) → (s.operands p).a0 = B)
    ∧ (B.length = p.args.a1.len.toNat →
      (∀ k < B.length, p.imem.get? (p.args.a1.off.toNat + k) = B[k]?) → (s.operands p).a1 = B)
    ∧ (B.length = p.args.a2.len.toNat →
      (∀ k < B.length, p.imem.get? (p.args.a2.off.toNat + k) = B[k]?) → (s.operands p).a2 = B)

/-- 10_state.md R31 to R34; 20_memory.md R71: the frame of every command of the table. A command that answers a
next state was pending; it leaves CTRL, CMD, ARGi, IMEM, HAZ, the configuration, the inputs and the port's
answer as they were; it ends not busy, done, nothing pending; of TBLSTAT it changes at most the bit of its
own curve, and that only to 1 and only with tables; and OMEM holds the strings RES0 and RES1 name from
offset 0, while of its other bytes those hold a value, which is unspecified, that held one before. That the
bytes beyond the results hold a value exactly where they did is the model's reading (log 6, DEDUCED from
R29 and R67): R71 says only that they become unspecified. -/
def Obligations.CommandFrame : Prop :=
  ∀ (i : Instr) (s t : State), exec i s = .next t →
    s.pend.isSome = true ∧ t.ctrl = s.ctrl ∧ t.cmd = s.cmd ∧ t.args = s.args ∧ t.imem = s.imem
    ∧ t.status.haz = s.status.haz ∧ t.cfg = s.cfg ∧ t.inputs = s.inputs ∧ t.reply = s.reply
    ∧ t.status.busy = false ∧ t.status.done = true ∧ t.pend = none
    ∧ (∀ k, k ≠ i.fields.curve.toNat → t.tblstat.getLsbD k = s.tblstat.getLsbD k)
    ∧ (∀ k, s.tblstat.getLsbD k = true → t.tblstat.getLsbD k = true)
    ∧ (s.cfg.tables = false → t.tblstat = s.tblstat)
    ∧ (∃ k, t.rng = s.rng.drop k)
    ∧ ∃ B0 B1 : Bytes, (∀ x, x < B0.length + B1.length → t.omem.get? x = (B0 ++ B1)[x]?)
      ∧ (∀ x, B0.length + B1.length ≤ x → (t.omem.get? x = none ↔ s.omem.get? x = none))
      ∧ t.res0 = ⟨0, BitVec.ofNat 16 B0.length⟩
      ∧ (t.res1 = ⟨0, 0⟩ ∧ B1 = []
        ∨ t.res1 = ⟨BitVec.ofNat 16 B0.length, BitVec.ofNat 16 B1.length⟩)

/-- 20_memory.md R71: under a configuration of the sizes 00_scope.md allows, no command writes more than 141
bytes of OMEM, so the results lie inside OMEM and their lengths fit their fields; a byte of OMEM that holds a
value afterwards lies in them or held one before, which is the model's reading of which bytes hold a value
(log 6, DEDUCED). -/
def Obligations.ResultsFit : Prop :=
  ∀ (i : Instr) (s t : State), Cfg.shapeOk s.cfg = true → exec i s = .next t →
    t.res0.off = 0 ∧ t.res0.len.toNat + t.res1.len.toNat ≤ 141
    ∧ (t.res1.len ≠ 0 → t.res1.off = t.res0.len)
    ∧ t.res0.len.toNat + t.res1.len.toNat ≤ s.cfg.omemBytes
    ∧ (∀ x, x < t.res0.len.toNat + t.res1.len.toNat → t.omem.get? x ≠ none)
    ∧ ∀ x, t.omem.get? x ≠ none → s.omem.get? x = none → x < t.res0.len.toNat + t.res1.len.toNat

/-- 10_state.md R33: a bit of TBLSTAT once set stays set until a reset. -/
def Obligations.TableBitStays : Prop :=
  ∀ (s t : State) (k : Nat), s.tblstat.getLsbD k = true → step s = .next t →
    t.tblstat.getLsbD k = true ∨ ∃ es, s.inputs = .reset :: es

/-- 10_state.md R32; 30_encoding.md R94; 40_modular_arithmetic.md R129; 41_curve_group.md R146: what a command
gives (the outcome, RES0, RES1 and the bytes they name) depends on the configuration, the latch, the RNG port's answers and the free values alone: not on
any flag, on ERRCODE, TBLSTAT, CTRL, CMD, ARGi, RESi, IMEM or OMEM as earlier commands or later writes
left them; and a command that has the SEC field does the same with SEC = 1 and with SEC = 0. -/
def Obligations.OutcomeIndependence : Prop :=
  (∀ (i : Instr) (s s' t : State), s'.cfg = s.cfg → s'.pend = s.pend → s'.rng = s.rng →
    s'.free = s.free → exec i s = .next t →
    ∃ t', exec i s' = .next t' ∧ t'.res0 = t.res0 ∧ t'.res1 = t.res1
      ∧ (∀ x, x < t.res0.len.toNat + t.res1.len.toNat → t'.omem.get? x = t.omem.get? x)
      ∧ t'.errcode = t.errcode ∧ t'.status.err = t.status.err ∧ t'.status.result = t.status.result
      ∧ t'.status.null = t.status.null ∧ t'.status.recid = t.status.recid)
  ∧ ∀ (c : BitVec 4) (m : Modulus) (f : PointForm) (s : State),
    exec (.madd c m true) s = exec (.madd c m false) s
    ∧ exec (.msub c m true) s = exec (.msub c m false) s
    ∧ exec (.mmul c m true) s = exec (.mmul c m false) s
    ∧ exec (.msqr c m true) s = exec (.msqr c m false) s
    ∧ exec (.minv c m true) s = exec (.minv c m false) s
    ∧ exec (.msqrt c true) s = exec (.msqrt c false) s
    ∧ exec (.pmulg c f true) s = exec (.pmulg c f false) s
    ∧ exec (.pmul c f true) s = exec (.pmul c f false) s

/-- The invariant of the machine holds after reset. -/
def Obligations.InvariantAtReset : Prop := State.reset.Inv

/-- 10_state.md R22 to R31; 60_exceptions.md R320: every step, from every state that meets it, keeps the
invariant. -/
def Obligations.InvariantKept : Prop :=
  ∀ s t : State, s.Inv → step s = .next t → t.Inv

/-! ### Encoding -/

/-- 30_encoding.md R90, R91, R97, R109: every command's word decodes to it, every field at every value. -/
def Obligations.DecodeEncode : Prop := ∀ i : Instr, decodeWord (encode i) = .ok i

/-- 30_encoding.md R91, R96, R98: a word that decodes is the word of what it decodes to, so every word spells
at most one command and no bit of it is ignored; every OP value outside the table is refused, the all-zero
word among them, and so is a word with a reserved bit set. -/
def Obligations.WordsSpellOneCommand : Prop :=
  (∀ (w : Word) (i : Instr), decodeWord w = .ok i → encode i = w)
  ∧ (∀ w : Word, (let op := w.toNat % 256
      op = 0x00 ∨ (0x07 ≤ op ∧ op ≤ 0x0F) ∨ (0x19 ≤ op ∧ op ≤ 0x1F) ∨ (0x2D ≤ op ∧ op ≤ 0x2F)
      ∨ (0x36 ≤ op ∧ op ≤ 0x3F) ∨ (0x44 ≤ op ∧ op ≤ 0x4F) ∨ (0x52 ≤ op ∧ op ≤ 0x5F)
      ∨ (0x64 ≤ op ∧ op ≤ 0x6F) ∨ 0x78 ≤ op) →
    ∃ op, decodeWord w = .error (.unknownOp op))
  ∧ ∀ w : Word, w.extractLsb' 20 12 ≠ 0 → ∃ e, decodeWord w = .error e

/-- 30_encoding.md R97, R109: words written out bit by bit from the layout of R90, one of each family, and
what they decode to. -/
def Obligations.SpecWords : Prop :=
  decodeWord 0b00000000000000000011010100000011 = .ok (.mmul 5 .order true)
  ∧ decodeWord 0b00000000000000000110000000010110 = .ok (.pmul 0 .compressed true)
  ∧ decodeWord 0b00000000000000001000000000101011 = .ok (.pkadd 0 .hybrid)
  ∧ decodeWord 0b00000000000000000000000100110000 = .ok (.sigtoder 1)
  ∧ decodeWord 0b00000000000001110100000001000011 = .ok (.ecrcv 0 .compressed true 3)
  ∧ decodeWord 0b00000000000000000000010101010001 = .ok (.schvfyb 5)
  ∧ decodeWord 0b00000000000000000100010101100011 = .ok (.h2hash 5 .compressed)
  ∧ decodeWord 0b00000000000010000000001001110111 = .ok (.edfrommont 2 true)
  ∧ decodeTableWord 32 0x00003503 = some (.mmul 5 .order true)

/-! ### Operand classes and encodings of points and numbers -/

/-- 30_encoding.md R100 to R102, R104: what a residue, a Scalar, a PrivateKey and a PublicKey are; everything
else is Domain, InvalidScalar, InvalidScalar, and InvalidPoint for the identity. -/
def Obligations.OperandClasses : Prop :=
  ∀ (C : Ctx) (m : Modulus) (B : Bytes),
    (Canonical C m B → getRes C m B = .ok (os2iC C B))
    ∧ (¬ Canonical C m B → getRes C m B = .error .domain)
    ∧ (B.length = C.ssize ∧ os2iC C B < C.n → getSC C B = .ok (os2iC C B))
    ∧ (¬ (B.length = C.ssize ∧ os2iC C B < C.n) → getSC C B = .error .invalidScalar)
    ∧ (B.length = C.ssize ∧ os2iC C B < C.n ∧ 1 ≤ os2iC C B → getSK C B = .ok (os2iC C B))
    ∧ (¬ (B.length = C.ssize ∧ os2iC C B < C.n ∧ 1 ≤ os2iC C B) → getSK C B = .error .invalidScalar)
    ∧ (∀ P, getPT C B = .ok P → P ≠ identity C.toCurve → getPK C B = .ok P)
    ∧ (getPT C B = .ok (identity C.toCurve) → getPK C B = .error .invalidPoint)
    ∧ ∀ e, getPT C B = .error e → getPK C B = .error e

/-- 00_scope.md R9, 20_memory.md R64: a number below 256^L comes back from its L bytes, and a byte string from
its number; kind W is big-endian, and kind E has the byte order `ED_ENDIAN` of the configuration. -/
def Obligations.NumberBytes : Prop :=
  ∀ C : Ctx,
    (∀ v L : Nat, v < 256 ^ L → (i2osC C v L).length = L ∧ os2iC C (i2osC C v L) = v)
    ∧ (∀ B : Bytes, i2osC C (os2iC C B) B.length = B)
    ∧ (C.order = .big → ∀ (b : Byte) (B : Bytes), os2iC C (b :: B) = b.toNat * 256 ^ B.length + os2iC C B)
    ∧ (C.order = .little → ∀ (b : Byte) (B : Bytes), os2iC C (b :: B) = b.toNat + 256 * os2iC C B)
    ∧ ∀ (g : Cfg) (c : Nat), g.ctx? c = some C →
      (kindW C.toCurve → C.order = .big) ∧ (kindE C.toCurve → C.order = g.edEndian)

/-- 41_curve_group.md R150, R151: whatever a point operand decodes to is a point of the curve: its coordinates
are below p and satisfy the equation, or it is the identity of a kind-W curve. -/
def Obligations.DecodedPointsValid : Prop :=
  ∀ (C : Ctx) (B : Bytes) (P : Point), SoundCurve C.toCurve → getPT C B = .ok P →
    (P = .inf ∧ kindW C.toCurve) ∨ ∃ x y, P = .aff x y ∧ x < C.p ∧ y < C.p ∧ Equation C.toCurve x y

/-- 41_curve_group.md R150, R151: how a malformed point fails. Kind W: an empty string, an unknown prefix, a
wrong length and a hybrid parity mismatch are InvalidEncoding; a coordinate that is not below p, no root of
the parity asked for and a failed equation are InvalidPoint; the length is tested first, then the range,
then the parity, then the equation. Kind E: a wrong length is InvalidEncoding; a y that is not below p and
one that belongs to no point are InvalidPoint; a sign bit of 1 with x = 0 is InvalidEncoding. -/
def Obligations.PointFailures : Prop :=
  (∀ C : Ctx, kindW C.toCurve →
    getPT C [] = .error .invalidEncoding
    ∧ ∀ (t : Byte) (B : Bytes),
      (t.toNat ∉ [0x00, 0x02, 0x03, 0x04, 0x06, 0x07] → getPT C (t :: B) = .error .invalidEncoding)
      ∧ (t = 0x00 → B ≠ [] → getPT C (t :: B) = .error .invalidEncoding)
      ∧ (t = 0x02 ∨ t = 0x03 →
        (B.length ≠ C.fsize → getPT C (t :: B) = .error .invalidEncoding)
        ∧ (B.length = C.fsize →
          (C.p ≤ be2int B ∨ ¬ ∃ y, y < C.p ∧ y % 2 = t.toNat % 2 ∧ Equation C.toCurve (be2int B) y) →
          getPT C (t :: B) = .error .invalidPoint))
      ∧ (t = 0x04 ∨ t = 0x06 ∨ t = 0x07 →
        (B.length ≠ 2 * C.fsize → getPT C (t :: B) = .error .invalidEncoding)
        ∧ (B.length = 2 * C.fsize →
          let x := be2int (B.take C.fsize)
          let y := be2int (B.drop C.fsize)
          (C.p ≤ x ∨ C.p ≤ y → getPT C (t :: B) = .error .invalidPoint)
          ∧ (x < C.p → y < C.p →
            (t ≠ 0x04 ∧ y % 2 ≠ t.toNat % 2 → getPT C (t :: B) = .error .invalidEncoding)
            ∧ (t = 0x04 ∨ y % 2 = t.toNat % 2 → ¬ Equation C.toCurve x y →
              getPT C (t :: B) = .error .invalidPoint)))))
  ∧ ∀ C : Ctx, kindE C.toCurve → SoundCurve C.toCurve → ∀ B : Bytes,
    (B.length ≠ C.fsize → getPT C B = .error .invalidEncoding)
    ∧ (B.length = C.fsize →
      let y := os2iC C B % 2 ^ (8 * C.fsize - 1)
      let sign := os2iC C B / 2 ^ (8 * C.fsize - 1)
      (C.p ≤ y ∨ ¬ (∃ x, x < C.p ∧ Equation C.toCurve x y) → getPT C B = .error .invalidPoint)
      ∧ (y < C.p → Equation C.toCurve 0 y → sign = 1 → getPT C B = .error .invalidEncoding))

/-- 41_curve_group.md R152: for every valid point and form, on both kinds of curve, the encoding decodes to
the point. -/
def Obligations.PointRoundTrip : Prop :=
  ∀ (C : Ctx) (P : Point) (f : PointForm), SoundCurve C.toCurve → FormOk C.toCurve f →
    (kindE C.toCurve → bitlen C.p < 8 * C.fsize) → validPoint C.toCurve P = true →
    getPT C (putPT C P f) = .ok P

/-! ### 40_modular_arithmetic.md -/

/-- 40_modular_arithmetic.md R122 to R124: MADD, MSUB and MMUL give the canonical residue of the sum, the
difference and the product of two canonical residues; with any other operand they end with Domain. -/
def Obligations.ModularSums : Prop :=
  ∀ (s : State) (c : BitVec 4) (m : Modulus) (sec : Bool) (p : Pending) (C : Ctx), Ready s c 2 p C →
    let A := (s.operands p).a0
    let B := (s.operands p).a1
    let a : Int := os2iC C A
    let b : Int := os2iC C B
    let M : Int := modulusC C m
    (Canonical C m A → Canonical C m B →
      exec (.madd c m sec) s = .next (s.succeed (i2osC C ((a + b) % M).toNat (widthC C m)))
      ∧ exec (.msub c m sec) s = .next (s.succeed (i2osC C ((a - b) % M).toNat (widthC C m)))
      ∧ exec (.mmul c m sec) s = .next (s.succeed (i2osC C ((a * b) % M).toNat (widthC C m))))
    ∧ (¬ (Canonical C m A ∧ Canonical C m B) →
      exec (.madd c m sec) s = .next (s.failWith .domain)
      ∧ exec (.msub c m sec) s = .next (s.failWith .domain)
      ∧ exec (.mmul c m sec) s = .next (s.failWith .domain))

/-- 40_modular_arithmetic.md R125, R126: MSQR gives the square; MINV with a prime modulus gives the x of
`[1, m)` with `a·x mod m = 1`; Domain for an operand that is no canonical residue, and for MINV of 0. -/
def Obligations.ModularSquareInverse : Prop :=
  ∀ (s : State) (c : BitVec 4) (m : Modulus) (sec : Bool) (p : Pending) (C : Ctx), Ready s c 1 p C →
    let A := (s.operands p).a0
    let a := os2iC C A
    let M := modulusC C m
    (Canonical C m A →
      exec (.msqr c m sec) s = .next (s.succeed (i2osC C (a ^ 2 % M) (widthC C m)))
      ∧ (a ≠ 0 → M.Prime → ∃ x, 1 ≤ x ∧ x < M ∧ a * x % M = 1
        ∧ exec (.minv c m sec) s = .next (s.succeed (i2osC C x (widthC C m))))
      ∧ (a = 0 → exec (.minv c m sec) s = .next (s.failWith .domain)))
    ∧ (¬ Canonical C m A → exec (.msqr c m sec) s = .next (s.failWith .domain)
      ∧ exec (.minv c m sec) s = .next (s.failWith .domain))

/-- 40_modular_arithmetic.md R127: MSQRT gives a square root below p of a square, the power
`a^((p+1)/4)` when `p ≡ 3 (mod 4)`; Domain for a non-square and for an operand that is no canonical
residue. Which of the two roots it gives for `p ≡ 1 (mod 4)` is a free value (log 9). -/
def Obligations.ModularSquareRoot : Prop :=
  ∀ (s : State) (c : BitVec 4) (sec : Bool) (p : Pending) (C : Ctx), Ready s c 1 p C →
    C.p.Prime → 2 < C.p →
    let A := (s.operands p).a0
    let a := os2iC C A
    (Canonical C .field A → (∃ x, x * x % C.p = a) →
      ∃ r, r < C.p ∧ r * r % C.p = a ∧ (C.p % 4 = 3 → r = a ^ ((C.p + 1) / 4) % C.p)
        ∧ exec (.msqrt c sec) s = .next (s.succeed (i2osC C r C.fsize)))
    ∧ (Canonical C .field A → ¬ (∃ x, x * x % C.p = a) →
      exec (.msqrt c sec) s = .next (s.failWith .domain))
    ∧ (¬ Canonical C .field A → exec (.msqrt c sec) s = .next (s.failWith .domain))

/-! ### 41_curve_group.md -/

/-- 41_curve_group.md R154 to R156: PADD, PDBL and PNEG give the encoding of the sum, the double and the
negative of the points they decode, and end with the first operand's failure that occurs. -/
def Obligations.PointSums : Prop :=
  ∀ (s : State) (c : BitVec 4) (f : PointForm) (p : Pending) (C : Ctx), FormOk C.toCurve f →
    let A := (s.operands p).a0
    let B := (s.operands p).a1
    (Ready s c 2 p C →
      (∀ P Q, getPT C A = .ok P → getPT C B = .ok Q →
        exec (.padd c f) s = .next (s.succeed (putPT C (add C.toCurve P Q) f)))
      ∧ (∀ e, getPT C A = .error e → exec (.padd c f) s = .next (s.failWith e.code))
      ∧ ∀ P e, getPT C A = .ok P → getPT C B = .error e →
        exec (.padd c f) s = .next (s.failWith e.code))
    ∧ (Ready s c 1 p C →
      (∀ P, getPT C A = .ok P →
        exec (.pdbl c f) s = .next (s.succeed (putPT C (add C.toCurve P P) f))
        ∧ exec (.pneg c f) s = .next (s.succeed (putPT C (neg C.toCurve P) f)))
      ∧ ∀ e, getPT C A = .error e →
        exec (.pdbl c f) s = .next (s.failWith e.code) ∧ exec (.pneg c f) s = .next (s.failWith e.code))

/-- 41_curve_group.md R143: the group law of kind W. The identity is neutral; a point and its negative sum
to the identity; otherwise the sum is the chord-and-tangent point, in affine coordinates below p, on the
curve. -/
def Obligations.GroupLawW : Prop :=
  ∀ (C : Curve) (a b : Nat), SoundCurve C → C.shape = .weierstrass a b →
    (∀ P, add C .inf P = P ∧ add C P .inf = P)
    ∧ (∀ P, validPoint C P = true → validPoint C (neg C P) = true ∧ add C P (neg C P) = .inf)
    ∧ ∀ x1 y1 x2 y2, onCurve C x1 y1 = true → onCurve C x2 y2 = true →
      ¬ (x1 = x2 ∧ (y1 + y2) % C.p = 0) →
      ∃ x3 y3, add C (.aff x1 y1) (.aff x2 y2) = .aff x3 y3 ∧ onCurve C x3 y3 = true
        ∧ ∃ lam : ZMod C.p,
          (x1 ≠ x2 → lam * ((x2 : ZMod C.p) - x1) = (y2 : ZMod C.p) - y1)
          ∧ (x1 = x2 → lam * (2 * (y1 : ZMod C.p)) = 3 * (x1 : ZMod C.p) ^ 2 + a)
          ∧ (x3 : ZMod C.p) = lam ^ 2 - x1 - x2 ∧ (y3 : ZMod C.p) = lam * (x1 - x3) - y1

/-- 41_curve_group.md R144: the group law of kind E on points of the curve. Neither denominator is 0, the one
formula gives the sum, in coordinates below p, and the identity and negatives are as they should be. -/
def Obligations.GroupLawE : Prop :=
  ∀ (C : Curve) (ea d : Nat), SoundCurve C → C.shape = .edwards ea d →
    ∀ x1 y1 x2 y2, onCurve C x1 y1 = true → onCurve C x2 y2 = true →
      (let t : ZMod C.p := d * x1 * x2 * y1 * y2
      1 + t ≠ 0 ∧ 1 - t ≠ 0
      ∧ ∃ x3 y3, add C (.aff x1 y1) (.aff x2 y2) = .aff x3 y3 ∧ x3 < C.p ∧ y3 < C.p
        ∧ (x3 : ZMod C.p) * (1 + t) = x1 * y2 + y1 * x2
        ∧ (y3 : ZMod C.p) * (1 - t) = y1 * y2 - ea * x1 * x2)
      ∧ add C (identity C) (.aff x1 y1) = .aff x1 y1
      ∧ add C (.aff x1 y1) (neg C (.aff x1 y1)) = identity C

/-- 41_curve_group.md R145 on both kinds: `0·P` is the identity and `(k+1)·P = k·P + P`, for every point of
the curve and every k, so the value PMUL and PMULG give is that of repeated addition (log 14). -/
def Obligations.ScalarMultiples : Prop :=
  ∀ (C : Curve) (P : Point), SoundCurve C → validPoint C P = true →
    mul C 0 P = identity C ∧ (∀ k, mul C (k + 1) P = add C (mul C k P) P ∧ validPoint C (mul C k P) = true)
    ∧ ∀ k, mulG C (k % C.n) = mulG C k

/-- 41_curve_group.md R158, R159: PMULG and PMUL give the encoding of the multiple; PMULG sets the table bit
and PMUL does not; their failures, the scalar's first. -/
def Obligations.ScalarMultiplications : Prop :=
  ∀ (s : State) (c : BitVec 4) (f : PointForm) (sec : Bool) (p : Pending) (C : Ctx), FormOk C.toCurve f →
    let A := (s.operands p).a0
    let B := (s.operands p).a1
    (Ready s c 1 p C →
      (∀ k, getSC C A = .ok k →
        exec (.pmulg c f sec) s = .next ((s.succeed (putPT C (mulG C.toCurve k) f)).withTable c))
      ∧ ∀ e, getSC C A = .error e → exec (.pmulg c f sec) s = .next (s.failWith .invalidScalar))
    ∧ (Ready s c 2 p C →
      (∀ k P, getSC C A = .ok k → getPT C B = .ok P →
        exec (.pmul c f sec) s = .next (s.succeed (putPT C (mul C.toCurve k P) f)))
      ∧ (∀ e, getSC C A = .error e → exec (.pmul c f sec) s = .next (s.failWith .invalidScalar))
      ∧ ∀ k e, getSC C A = .ok k → getPT C B = .error e →
        exec (.pmul c f sec) s = .next (s.failWith e.code))

/-- 41_curve_group.md R157, 20_memory.md R72: PCOMB of a list whose framing is right and whose items are all
public keys gives their sum, provided no partial sum is the identity; InvalidPoint for the empty list and
for an identity partial sum; InvalidEncoding for a broken framing. -/
def Obligations.Combine : Prop :=
  ∀ (s : State) (c : BitVec 4) (f : PointForm) (p : Pending) (C : Ctx), FormOk C.toCurve f →
    Ready s c 1 p C →
    let A := (s.operands p).a0
    (∀ e, parseList A = .error e → exec (.pcomb c f) s = .next (s.failWith .invalidEncoding))
    ∧ ∀ items, parseList A = .ok items →
      (∀ Ps : List Point, List.Forall₂ (fun B P => getPK C B = .ok P) items Ps →
        (Ps = [] → exec (.pcomb c f) s = .next (s.failWith .invalidPoint))
        ∧ (Ps ≠ [] →
          let sums := (List.range Ps.length).map fun k =>
            (Ps.take (k + 1)).foldl (add C.toCurve) (identity C.toCurve)
          (identity C.toCurve ∈ sums → exec (.pcomb c f) s = .next (s.failWith .invalidPoint))
          ∧ (identity C.toCurve ∉ sums →
            exec (.pcomb c f) s
              = .next (s.succeed (putPT C (Ps.foldl (add C.toCurve) (identity C.toCurve)) f)))))
      ∧ ∀ (good : List Bytes) (B : Bytes) (rest : List Bytes) (e : Failure),
        items = good ++ B :: rest → (∀ G ∈ good, ∃ P, getPK C G = .ok P) → getPK C B = .error e →
        exec (.pcomb c f) s = .next (s.failWith e.code)

/-- 20_memory.md R72: a list parses into items exactly when it is their framing, 2-byte big-endian lengths
each followed by that many bytes; every other string is InvalidEncoding; the empty string is the empty
list. -/
def Obligations.ListFraming : Prop :=
  (∀ (items : List Bytes) (L : Bytes),
    parseList L = .ok items ↔
      (∀ B ∈ items, B.length < 65536) ∧ L = items.flatMap fun B => int2be B.length 2 ++ B)
  ∧ (∀ (L : Bytes) (e : Failure), parseList L = .error e → e = .invalidEncoding)
  ∧ parseList [] = .ok []

/-- 41_curve_group.md R140, R153, R160, R161: PCHK answers whether both operands have fsize bytes, both
coordinates are below p and the equation holds; PENC encodes such coordinates, and PDEC gives back the
coordinates of a point that has any; their failures. -/
def Obligations.Coordinates : Prop :=
  ∀ (s : State) (c : BitVec 4) (f : PointForm) (p : Pending) (C : Ctx), FormOk C.toCurve f →
    let A := (s.operands p).a0
    let B := (s.operands p).a1
    (Ready s c 2 p C →
      (∃ b : Bool, exec (.pchk c) s = .next (s.answer b)
        ∧ (b = true ↔ A.length = C.fsize ∧ B.length = C.fsize ∧ os2iC C A < C.p ∧ os2iC C B < C.p
          ∧ Equation C.toCurve (os2iC C A) (os2iC C B)))
      ∧ (¬ (A.length = C.fsize ∧ B.length = C.fsize) →
        exec (.penc c f) s = .next (s.failWith .invalidEncoding))
      ∧ (A.length = C.fsize → B.length = C.fsize →
        ((os2iC C A < C.p ∧ os2iC C B < C.p ∧ Equation C.toCurve (os2iC C A) (os2iC C B)) →
          exec (.penc c f) s = .next (s.succeed (putPT C (.aff (os2iC C A) (os2iC C B)) f)))
        ∧ (¬ (os2iC C A < C.p ∧ os2iC C B < C.p ∧ Equation C.toCurve (os2iC C A) (os2iC C B)) →
          exec (.penc c f) s = .next (s.failWith .invalidPoint))))
    ∧ (Ready s c 1 p C →
      (∀ x y, getPT C A = .ok (.aff x y) →
        exec (.pdec c) s = .next (s.succeedTwo (i2osC C x C.fsize) (i2osC C y C.fsize)))
      ∧ (getPT C A = .ok .inf → exec (.pdec c) s = .next (s.failWith .invalidPoint))
      ∧ ∀ e, getPT C A = .error e → exec (.pdec c) s = .next (s.failWith e.code))

/-! ### 42_key_lifecycle.md -/

/-- 42_key_lifecycle.md R180: SKGEN answers some key of `[1, n)` and nothing else; when the RNG port's known
bytes start with a draw that is not 0 modulo n, that key; when they start with one that is, it tries again
on the bytes after it. Which key it is once no byte is known is a free value (log 8). -/
def Obligations.KeyGeneration : Prop :=
  ∀ (s : State) (c : BitVec 4) (p : Pending) (C : Ctx), Ready s c 0 p C → 2 ≤ C.n →
    (∃ k r, 1 ≤ k ∧ k < C.n
      ∧ exec (.skgen c) s = .next { s.succeed (i2osC C k C.ssize) with rng := r })
    ∧ (1 ≤ C.ssize → C.ssize ≤ s.rng.length →
      (os2iC C (s.rng.take C.ssize) % C.n ≠ 0 →
        exec (.skgen c) s = .next
          { s.succeed (i2osC C (os2iC C (s.rng.take C.ssize) % C.n) C.ssize) with
            rng := s.rng.drop C.ssize })
      ∧ (os2iC C (s.rng.take C.ssize) % C.n = 0 →
        exec (.skgen c) s = exec (.skgen c) { s with rng := s.rng.drop C.ssize }))

/-- 42_key_lifecycle.md R181, R192: SKVFY and PKVFY answer whether the operand is a private key, or a public
key; a false answer is no failure. -/
def Obligations.KeyChecks : Prop :=
  ∀ (s : State) (c : BitVec 4) (p : Pending) (C : Ctx), Ready s c 1 p C →
    let A := (s.operands p).a0
    (∃ b : Bool, exec (.skvfy c) s = .next (s.answer b)
      ∧ (b = true ↔ A.length = C.ssize ∧ 1 ≤ os2iC C A ∧ os2iC C A < C.n))
    ∧ ∃ b : Bool, exec (.pkvfy c) s = .next (s.answer b)
      ∧ (b = true ↔ ∃ P, getPT C A = .ok P ∧ P ≠ identity C.toCurve)

/-- 42_key_lifecycle.md R182 to R186: SKRED reduces any byte string modulo n; SKNEG gives the scalar that sums
to 0 with its operand modulo n; SKINV gives the inverse modulo the prime n; SKTADD and SKTMUL give the sum
and the product modulo n of a private key and a scalar, InvalidScalar when that is 0; InvalidScalar for an
operand that is not in its class. -/
def Obligations.PrivateKeys : Prop :=
  ∀ (s : State) (c : BitVec 4) (p : Pending) (C : Ctx), 1 < C.n →
    let A := (s.operands p).a0
    let B := (s.operands p).a1
    (Ready s c 1 p C →
      exec (.skred c) s = .next (s.succeed (i2osC C (os2iC C A % C.n) C.ssize))
      ∧ (∀ k, getSC C A = .ok k → ∃ v, v < C.n ∧ (k + v) % C.n = 0
        ∧ exec (.skneg c) s = .next (s.succeed (i2osC C v C.ssize)))
      ∧ (∀ e, getSC C A = .error e → exec (.skneg c) s = .next (s.failWith .invalidScalar))
      ∧ (∀ k, getSK C A = .ok k → C.n.Prime → ∃ v, 1 ≤ v ∧ v < C.n ∧ k * v % C.n = 1
        ∧ exec (.skinv c) s = .next (s.succeed (i2osC C v C.ssize)))
      ∧ ∀ e, getSK C A = .error e → exec (.skinv c) s = .next (s.failWith .invalidScalar))
    ∧ (Ready s c 2 p C →
      (∀ k t, getSK C A = .ok k → getSC C B = .ok t →
        exec (.sktadd c) s = .next
          (if (k + t) % C.n = 0 then s.failWith .invalidScalar
            else s.succeed (i2osC C ((k + t) % C.n) C.ssize))
        ∧ exec (.sktmul c) s = .next
          (if k * t % C.n = 0 then s.failWith .invalidScalar
            else s.succeed (i2osC C (k * t % C.n) C.ssize)))
      ∧ ((∃ e, getSK C A = .error e) ∨ (∃ e, getSC C B = .error e) →
        exec (.sktadd c) s = .next (s.failWith .invalidScalar)
        ∧ exec (.sktmul c) s = .next (s.failWith .invalidScalar)))

/-- 42_key_lifecycle.md R187, R190: PKCRT gives `k·G` of a private key and sets the table bit; PKNEG gives the
negative of a public key; their failures. -/
def Obligations.PublicKeys : Prop :=
  ∀ (s : State) (c : BitVec 4) (f : PointForm) (p : Pending) (C : Ctx), FormOk C.toCurve f →
    Ready s c 1 p C →
    let A := (s.operands p).a0
    (∀ k, getSK C A = .ok k →
      exec (.pkcrt c f) s = .next ((s.succeed (putPT C (mulG C.toCurve k) f)).withTable c))
    ∧ (∀ e, getSK C A = .error e → exec (.pkcrt c f) s = .next (s.failWith .invalidScalar))
    ∧ (∀ P, getPK C A = .ok P →
      exec (.pkneg c f) s = .next (s.succeed (putPT C (neg C.toCurve P) f)))
    ∧ ∀ e, getPK C A = .error e → exec (.pkneg c f) s = .next (s.failWith e.code)

/-- 42_key_lifecycle.md R188, R189, R191; 47_eddsa.md R297: PKTADD and EDPKTADD, PKTMUL and PKADD give
`P + t·G`, `t·P` and `P + Q`, and InvalidPoint when that is the identity; the table bit is set where
`t·G` was computed; an operand's failure is the outcome, the first operand's first. -/
def Obligations.PublicKeyTweaks : Prop :=
  ∀ (s : State) (c : BitVec 4) (f : PointForm) (p : Pending) (C : Ctx), FormOk C.toCurve f →
    Ready s c 2 p C →
    let A := (s.operands p).a0
    let B := (s.operands p).a1
    let report := fun (R : Point) (g : PointForm) =>
      if R = identity C.toCurve then s.failWith .invalidPoint else s.succeed (putPT C R g)
    (∀ P t, getPK C A = .ok P → getSC C B = .ok t →
      exec (.pktadd c f) s = .next ((report (add C.toCurve P (mulG C.toCurve t)) f).withTable c)
      ∧ exec (.pktmul c f) s = .next (report (mul C.toCurve t P) f)
      ∧ (kindE C.toCurve → exec (.edpktadd c) s
        = .next ((report (add C.toCurve P (mulG C.toCurve t)) .uncompressed).withTable c)))
    ∧ (∀ P Q, getPK C A = .ok P → getPK C B = .ok Q →
      exec (.pkadd c f) s = .next (report (add C.toCurve P Q) f))
    ∧ (∀ e, getPK C A = .error e →
      exec (.pktadd c f) s = .next (s.failWith e.code) ∧ exec (.pktmul c f) s = .next (s.failWith e.code)
      ∧ exec (.pkadd c f) s = .next (s.failWith e.code)
      ∧ (kindE C.toCurve → exec (.edpktadd c) s = .next (s.failWith e.code)))
    ∧ (∀ P e, getPK C A = .ok P → getSC C B = .error e →
      exec (.pktadd c f) s = .next (s.failWith e.code) ∧ exec (.pktmul c f) s = .next (s.failWith e.code)
      ∧ (kindE C.toCurve → exec (.edpktadd c) s = .next (s.failWith e.code)))
    ∧ ∀ P e, getPK C A = .ok P → getPK C B = .error e →
      exec (.pkadd c f) s = .next (s.failWith e.code)

/-- 42_key_lifecycle.md R193, on both kinds: for a key k and a tweak t with `(k + t) mod n ≠ 0`, PKCRT of SKTADD's
result and PKTADD of PKCRT's result write the same bytes; for `t ≠ 0` so do PKCRT of SKTMUL's result and
PKTMUL of PKCRT's. On kind E p leaves the sign bit of an encoding free (47_eddsa.md R290). -/
def Obligations.KeyHomomorphism : Prop :=
  ∀ (C : Ctx) (c : BitVec 4) (f g : PointForm) (k t : Nat) (s s' : State) (p p' : Pending),
    SoundCurve C.toCurve → (kindE C.toCurve → bitlen C.p < 8 * C.fsize) →
    FormOk C.toCurve f → FormOk C.toCurve g → 1 ≤ k → k < C.n → t < C.n → Ready s c 1 p C → Ready s' c 2 p' C →
    (s'.operands p').a0 = putPT C (mulG C.toCurve k) g → (s'.operands p').a1 = putSC C t →
    ((k + t) % C.n ≠ 0 → (s.operands p).a0 = putSC C ((k + t) % C.n) →
      ∃ B, exec (.pkcrt c f) s = .next ((s.succeed B).withTable c)
        ∧ exec (.pktadd c f) s' = .next ((s'.succeed B).withTable c))
    ∧ (t ≠ 0 → (s.operands p).a0 = putSC C (k * t % C.n) →
      ∃ B, exec (.pkcrt c f) s = .next ((s.succeed B).withTable c)
        ∧ exec (.pktmul c f) s' = .next (s'.succeed B))

/-! ### 43_signature_codec.md -/

/-- 43_signature_codec.md R210, R211, R214 to R219: SIGTODER and SIGFROMDER turn a signature in one form into
the other; SIGLOWS and SIGLOWDER answer whether the operand is a signature with `s ≤ (n−1)/2`; SIGNORM and
SIGNORMDER give the signature with s, or n − s, whichever is low; a signature that does not decode ends with
the decoder's failure, or false. -/
def Obligations.SignatureCodec : Prop :=
  ∀ (s : State) (c : BitVec 4) (p : Pending) (C : Ctx), kindW C.toCurve → C.n % 2 = 1 → Ready s c 1 p C →
    let A := (s.operands p).a0
    (∃ b : Bool, exec (.siglows c) s = .next (s.answer b)
      ∧ (b = true ↔ ∃ r v, getSigC C A = .ok (r, v) ∧ v ≤ (C.n - 1) / 2))
    ∧ (∃ b : Bool, exec (.siglowder c) s = .next (s.answer b)
      ∧ (b = true ↔ ∃ r v, decodeDER C A = .ok (r, v) ∧ v ≤ (C.n - 1) / 2))
    ∧ (∀ r v, getSigC C A = .ok (r, v) →
      exec (.sigtoder c) s = .next (s.succeed (encodeDER r v))
      ∧ ∃ w, 1 ≤ w ∧ w ≤ (C.n - 1) / 2 ∧ (w = v ∨ w = C.n - v)
        ∧ exec (.signorm c) s = .next (s.succeed (int2be r C.ssize ++ int2be w C.ssize)))
    ∧ (∀ r v, decodeDER C A = .ok (r, v) →
      exec (.sigfromder c) s = .next (s.succeed (int2be r C.ssize ++ int2be v C.ssize))
      ∧ ∃ w, 1 ≤ w ∧ w ≤ (C.n - 1) / 2 ∧ (w = v ∨ w = C.n - v)
        ∧ exec (.signormder c) s = .next (s.succeed (encodeDER r w)))
    ∧ (∀ e, getSigC C A = .error e → exec (.sigtoder c) s = .next (s.failWith e.code)
      ∧ exec (.signorm c) s = .next (s.failWith e.code))
    ∧ ∀ e, decodeDER C A = .error e → exec (.sigfromder c) s = .next (s.failWith e.code)
      ∧ exec (.signormder c) s = .next (s.failWith e.code)

/-- 43_signature_codec.md R210, R212, R213: a byte string decodes as strict DER to `(r, s)` exactly when it is
the DER encoding of `(r, s)` and both are in range, for a curve of the sizes 00_scope.md R4 allows; so
decoding undoes encoding. A string that is the DER encoding of no pair of numbers is InvalidEncoding, one
of a pair out of range is InvalidScalar. The same of the compact form, whose layout is its length. A
strict DER string has at most 258 bytes, since its longest length form is `81 ff`. -/
def Obligations.SignatureEncodings : Prop :=
  ∀ (C : Ctx) (B : Bytes), C.n ≤ 256 ^ C.ssize → C.ssize ≤ 66 →
    let inRange := fun r v : Nat => 0 < r ∧ r < C.n ∧ 0 < v ∧ v < C.n
    (∀ r v : Nat,
      (decodeDER C B = .ok (r, v) ↔ B = encodeDER r v ∧ inRange r v)
      ∧ (getSigC C B = .ok (r, v) ↔ B = int2be r C.ssize ++ int2be v C.ssize ∧ inRange r v)
      ∧ (B = encodeDER r v → B.length ≤ 258 → ¬ inRange r v →
        decodeDER C B = .error .invalidScalar))
    ∧ ((¬ ∃ r v, B = encodeDER r v ∧ B.length ≤ 258) → decodeDER C B = .error .invalidEncoding)
    ∧ (B.length ≠ 2 * C.ssize → getSigC C B = .error .invalidEncoding)
    ∧ (B.length = 2 * C.ssize → ¬ inRange (be2int (B.take C.ssize)) (be2int (B.drop C.ssize)) →
      getSigC C B = .error .invalidScalar)

/-! ### 44_ecdsa.md -/

/-- 44_ecdsa.md R233, R235, R236: ECSIGN and ECSIGNR give the signature the signing core finds, in the form
DER selects, ECSIGNR with its recovery id; the table bit is set; a bad private key is InvalidScalar. Where
the core never ends they stop (93_implementation_defined.md U7; that it ends there in a fault of the name
nonceNeverAccepted is the model's choice, log 10). -/
def Obligations.EcdsaSign : Prop :=
  ∀ (s : State) (c : BitVec 4) (der : Bool) (p : Pending) (C : Ctx), kindW C.toCurve → Ready s c 2 p C →
    let M := (s.operands p).a0
    let K := (s.operands p).a1
    (∀ d sig, getSK C K = .ok d → signCore C M d = some sig →
      let B := if der then encodeDER sig.r sig.s else int2be sig.r C.ssize ++ int2be sig.s C.ssize
      exec (.ecsign c der) s = .next ((s.succeed B).withTable c)
      ∧ exec (.ecsignr c der) s = .next ((s.succeedId B sig.recid).withTable c))
    ∧ (∀ d, getSK C K = .ok d → signCore C M d = none →
      exec (.ecsign c der) s = .fault .nonceNeverAccepted
      ∧ exec (.ecsignr c der) s = .fault .nonceNeverAccepted)
    ∧ ∀ e, getSK C K = .error e → exec (.ecsign c der) s = .next (s.failWith .invalidScalar)
      ∧ exec (.ecsignr c der) s = .next (s.failWith .invalidScalar)

/-- 44_ecdsa.md R232 to R234: the signing core finds no signature exactly when the nonce generator never
gives a candidate it accepts; every signature it finds comes from the first accepted candidate, a k of
`[1, n)`, by the equation `k·s = e + r·d`, up to the sign of s; it is in range and low-S; and the recovery
id is the parity of y, flipped with s, and whether x reached n. -/
def Obligations.SignatureEquation : Prop :=
  ∀ (C : Ctx) (msg : Bytes) (d : Nat), C.n.Prime → C.n % 2 = 1 → 1 ≤ C.digest.hlen →
    let e := messageInt C msg
    ∃ K V T : Nat → Bytes, NonceRun C d e K V T
      ∧ (signCore C msg d = none ↔ ∀ i, NonceRejected C e d (bits2int C (T i)))
      ∧ ∀ sig, signCore C msg d = some sig →
        0 < sig.r ∧ sig.r < C.n ∧ 0 < sig.s ∧ sig.s ≤ (C.n - 1) / 2
        ∧ ∃ j x y v, (∀ i < j, NonceRejected C e d (bits2int C (T i)))
          ∧ 1 ≤ bits2int C (T j) ∧ bits2int C (T j) < C.n
          ∧ mulG C.toCurve (bits2int C (T j)) = .aff x y ∧ sig.r = x % C.n
          ∧ bits2int C (T j) * v % C.n = (e + sig.r * d) % C.n ∧ v < C.n
          ∧ (sig.s = v ∧ sig.recid.toNat % 2 = y % 2
            ∨ sig.s = C.n - v ∧ sig.recid.toNat % 2 ≠ y % 2)
          ∧ (2 ≤ sig.recid.toNat ↔ C.n ≤ x)

/-- 44_ecdsa.md R230, R231; 00_scope.md R7: the message integer is the leftmost bitlen(n) bits of the message
modulo n, 0 for the empty message; HMAC is the two nested hashes of the key padded with zeros to HBLOCK
bytes; a digest has HLEN bytes. -/
def Obligations.MessageAndHmac : Prop :=
  ∀ C : Ctx,
    (∀ B : Bytes,
      (8 * B.length ≤ bitlen C.n → bits2int C B = be2int B)
      ∧ (bitlen C.n ≤ 8 * B.length → ∃ low < 2 ^ (8 * B.length - bitlen C.n),
        be2int B = bits2int C B * 2 ^ (8 * B.length - bitlen C.n) + low)
      ∧ messageInt C B = bits2int C B % C.n ∧ messageInt C [] = 0)
    ∧ (∀ B, (hashC C B).length = C.digest.hlen)
    ∧ ∀ K M inner outer : Bytes, K.length ≤ C.digest.hblock →
      inner.length = C.digest.hblock → outer.length = C.digest.hblock →
      (∀ i < C.digest.hblock, inner[i]? = some (K.getD i 0x00 ^^^ 0x36)
        ∧ outer[i]? = some (K.getD i 0x00 ^^^ 0x5c)) →
      hmac C K M = hashC C (outer ++ hashC C (inner ++ M))

/-- 44_ecdsa.md R237: ECVFY answers true exactly when the signature and the key decode and
`x mod n = r` for the point `u1·G + u2·Q`; any malformed operand is false, never a failure; the table bit is
set once the point is computed. -/
def Obligations.EcdsaVerify : Prop :=
  ∀ (s : State) (c : BitVec 4) (der : Bool) (p : Pending) (C : Ctx), kindW C.toCurve → Ready s c 3 p C →
    let M := (s.operands p).a0
    let S := (s.operands p).a1
    let K := (s.operands p).a2
    let sig := if der then decodeDER C S else getSigC C S
    ((∃ e, sig = .error e) ∨ (∃ e, getPK C K = .error e) →
      exec (.ecvfy c der) s = .next (s.verdict false))
    ∧ ∀ r v Q, sig = .ok (r, v) → getPK C K = .ok Q → C.n.Prime →
      ∃ (b : Bool) (w : Nat), v * w % C.n = 1 ∧ w < C.n
        ∧ exec (.ecvfy c der) s = .next ((s.verdict b).withTable c)
        ∧ (b = true ↔ ∃ x y, x % C.n = r
          ∧ add C.toCurve (mulG C.toCurve (messageInt C M * w % C.n)) (mul C.toCurve (r * w % C.n) Q)
            = .aff x y)

/-- 44_ecdsa.md R238: ECRCV is null for a signature that does not decode and for an x that is not below p or
has no point; otherwise it gives `r⁻¹·(v·R − e·G)` for the point R with that x and the parity RID asks
for, null if that is the identity. -/
def Obligations.EcdsaRecover : Prop :=
  ∀ (s : State) (c : BitVec 4) (f : PointForm) (der : Bool) (rid : BitVec 2) (p : Pending) (C : Ctx),
    kindW C.toCurve → FormOk C.toCurve f → Ready s c 2 p C → SoundCurve C.toCurve →
    let M := (s.operands p).a0
    let S := (s.operands p).a1
    let sig := if der then decodeDER C S else getSigC C S
    ((∃ e, sig = .error e) → exec (.ecrcv c f der rid) s = .next s.nullResult)
    ∧ ∀ r v, sig = .ok (r, v) →
      let x := r + rid.toNat / 2 * C.n
      ((C.p ≤ x ∨ ¬ ∃ y, y < C.p ∧ y % 2 = rid.toNat % 2 ∧ Equation C.toCurve x y) →
        exec (.ecrcv c f der rid) s = .next s.nullResult)
      ∧ ∀ y, x < C.p → y < C.p → y % 2 = rid.toNat % 2 → Equation C.toCurve x y →
        ∃ w, r * w % C.n = 1 ∧ w < C.n
          ∧ let Q := mul C.toCurve w (add C.toCurve (mul C.toCurve v (.aff x y))
              (neg C.toCurve (mulG C.toCurve (messageInt C M))))
            exec (.ecrcv c f der rid) s
              = .next ((if Q = .inf then s.nullResult else s.succeed (putPT C Q f)).withTable c)

/-- 44_ecdsa.md R239: a signature of ECSIGNR is low-S and verifies under the signer's public key. On a curve
whose p is at most 2·n, so that r and one overflow bit determine x, ECRCV with its recovery id gives that
key back; R239 says so without that premise, which the model adds (log 34). On a curve all of whose points n kills,
which is what R239 uses of h = 1 (log 34), ECRCV with any other id does not give that key, so that exactly
one id does where both premises hold. -/
def Obligations.SignedMessagesVerify : Prop :=
  ∀ (C : Ctx) (c : BitVec 4) (f g : PointForm) (der : Bool) (d : Nat) (msg : Bytes) (sig : Signature)
    (s s' : State) (p p' : Pending),
    SoundCurve C.toCurve → kindW C.toCurve → FormOk C.toCurve f → FormOk C.toCurve g →
    1 ≤ d → d < C.n → signCore C msg d = some sig →
    let B := if der then encodeDER sig.r sig.s else int2be sig.r C.ssize ++ int2be sig.s C.ssize
    (Ready s c 3 p C → (s.operands p).a0 = msg → (s.operands p).a1 = B →
      (s.operands p).a2 = putPT C (mulG C.toCurve d) g →
      exec (.ecvfy c der) s = .next ((s.verdict true).withTable c))
    ∧ (Ready s' c 2 p' C → (s'.operands p').a0 = msg → (s'.operands p').a1 = B →
      let key := (s'.succeed (putPT C (mulG C.toCurve d) f)).withTable c
      (C.p ≤ 2 * C.n → exec (.ecrcv c f der sig.recid) s' = .next key)
      ∧ ((∀ P, validPoint C.toCurve P = true → mul C.toCurve C.n P = .inf) →
        ∀ id : BitVec 2, id ≠ sig.recid → exec (.ecrcv c f der id) s' ≠ .next key))
    ∧ ∀ (s0 : State) (p0 : Pending), Ready s0 c 1 p0 C → (s0.operands p0).a0 = B →
      (der = false → exec (.siglows c) s0 = .next (s0.answer true))
      ∧ (der = true → exec (.siglowder c) s0 = .next (s0.answer true))

/-! ### 45_schnorr.md -/

/-- 45_schnorr.md R261, R263: SCHVFY is false for a signature of the wrong length, an s that is not below n, a
key that does not decode and a commitment that lifts to nothing; otherwise it answers whether
`s·G = R + e·P`. The commitment's lift and the challenge are the configuration's (log 12). -/
def Obligations.SchnorrVerify : Prop :=
  ∀ (s : State) (c : BitVec 4) (p : Pending) (C : Ctx), kindW C.toCurve → Ready s c 3 p C →
    let M := (s.operands p).a0
    let S := (s.operands p).a1
    let K := (s.operands p).a2
    let Rb := S.take C.fsize
    let v := be2int (S.drop C.fsize)
    (S.length ≠ C.fsize + C.ssize ∨ C.n ≤ v ∨ (∃ e, getPK C K = .error e) ∨ schnorrLift C Rb = none →
      exec (.schvfy c) s = .next (s.verdict false))
    ∧ ∀ P R, S.length = C.fsize + C.ssize → v < C.n → getPK C K = .ok P → schnorrLift C Rb = some R →
      ∃ b : Bool, exec (.schvfy c) s = .next ((s.verdict b).withTable c)
        ∧ (b = true ↔ mulG C.toCurve v = add C.toCurve R (mul C.toCurve (schnorrChal C Rb P M) P))

/-- 45_schnorr.md R262: SCHVFYB fails with InvalidEncoding on a list that does not parse or whose length is no
multiple of 3; the empty list is true; one triple that does not parse makes it false; a list of one triple
that parses answers as SCHVFY does; and every batch that parses answers whether the combined equation holds,
with the coefficient 1 for the first triple and coefficients of `[1, n)` for the others, which are the RNG
port's known answers modulo n where these are not 0. Which they are once no byte is known is a free value
(log 8). -/
def Obligations.SchnorrBatch : Prop :=
  ∀ (s : State) (c : BitVec 4) (p : Pending) (C : Ctx), kindW C.toCurve → Ready s c 1 p C →
    let A := (s.operands p).a0
    (∀ e, parseList A = .error e → exec (.schvfyb c) s = .next (s.failWith .invalidEncoding))
    ∧ ∀ items, parseList A = .ok items →
      (items.length % 3 ≠ 0 → exec (.schvfyb c) s = .next (s.failWith .invalidEncoding))
      ∧ (items = [] → exec (.schvfyb c) s = .next (s.verdict true))
      ∧ (∀ (before : List Bytes) (m g k : Bytes) (after : List Bytes),
        items = before ++ m :: g :: k :: after → before.length % 3 = 0 → after.length % 3 = 0 →
        schnorrParse C m g k = none → exec (.schvfyb c) s = .next (s.verdict false))
      ∧ (∀ m g k T, items = [m, g, k] → schnorrParse C m g k = some T →
        0 < C.n →
        ∃ b : Bool, exec (.schvfyb c) s = .next ((s.verdict b).withTable c)
          ∧ (b = true ↔ mulG C.toCurve T.s = add C.toCurve T.R (mul C.toCurve T.e T.P)))
      ∧ ∀ (triples : List (Bytes × Bytes × Bytes)) (ts : List SchnorrTriple),
        items = triples.flatMap (fun t => [t.1, t.2.1, t.2.2]) → triples ≠ [] → 2 ≤ C.n →
        List.Forall₂ (fun t T => schnorrParse C t.1 t.2.1 t.2.2 = some T) triples ts →
        ∃ (as : List Nat) (b : Bool) (r : Bytes), as.length + 1 = ts.length
          ∧ (∀ a ∈ as, 1 ≤ a ∧ a < C.n)
          ∧ (let draw := fun j => be2int ((s.rng.drop (j * C.ssize)).take C.ssize) % C.n
            1 ≤ C.ssize → as.length * C.ssize ≤ s.rng.length → (∀ j < as.length, draw j ≠ 0) →
            as = (List.range as.length).map draw ∧ r = s.rng.drop (as.length * C.ssize))
          ∧ exec (.schvfyb c) s = .next ({ s.verdict b with rng := r }.withTable c)
          ∧ (b = true ↔
            mulG C.toCurve ((((1 :: as).zip ts).map fun q => q.1 * q.2.s).sum % C.n)
              = ((1 :: as).zip ts).foldl (fun S q => add C.toCurve S
                (add C.toCurve (mul C.toCurve q.1 q.2.R)
                  (mul C.toCurve (q.1 * q.2.e % C.n) q.2.P))) .inf)

/-- 45_schnorr.md R262 (a): a batch whose triples all satisfy their equation is accepted, whatever the
coefficients drawn are, on a curve all of whose points n kills (every curve with h = 1 is one). -/
def Obligations.SchnorrBatchAccepts : Prop :=
  ∀ (s : State) (c : BitVec 4) (p : Pending) (C : Ctx) (triples : List (Bytes × Bytes × Bytes)),
    kindW C.toCurve → SoundCurve C.toCurve →
    (∀ P, validPoint C.toCurve P = true → mul C.toCurve C.n P = .inf) → Ready s c 1 p C →
    parseList (s.operands p).a0 = .ok (triples.flatMap fun t => [t.1, t.2.1, t.2.2]) →
    (∀ t ∈ triples, ∃ T, schnorrParse C t.1 t.2.1 t.2.2 = some T
      ∧ mulG C.toCurve T.s = add C.toCurve T.R (mul C.toCurve T.e T.P)) →
    triples ≠ [] →
    ∃ r, exec (.schvfyb c) s = .next ({ s.verdict true with rng := r }.withTable c)

/-! ### 46_hash_to_curve.md -/

/-- 46_hash_to_curve.md R270 to R274: on a curve that carries the map, an operand of fsize bytes is mapped to
an affine point of the curve that depends on the operand modulo p alone; another length is
InvalidEncoding. That the image is a point of the curve holds by the model's choices of logs 13 and 33,
which put the generator where the uninterpreted map gives none, and that map where the suggested formulas
give none; hence the premise on G. -/
def Obligations.CurveMaps : Prop :=
  ∀ (s : State) (c : BitVec 4) (f : PointForm) (p : Pending) (C : Ctx),
    kindW C.toCurve → FormOk C.toCurve f → Ready s c 1 p C → onCurve C.toCurve C.gx C.gy = true →
    let A := (s.operands p).a0
    ∃ x y, onCurve C.toCurve x y = true ∧ mapToCurve C (be2int A % C.p) = .aff x y
      ∧ let t := if A.length = C.fsize then s.succeed (putPT C (.aff x y) f)
          else s.failWith .invalidEncoding
        (C.h2c = .sswu → exec (.h2sswu c f) s = .next t)
        ∧ (C.h2c = .icart → exec (.h2icart c f) s = .next t)
        ∧ (C.h2c = .svdw → exec (.h2svdw c f) s = .next t)

/-- 46_hash_to_curve.md R275, R279: H2HASH gives the sum of the maps of the two halves of a string of 2·fsize
bytes, each reduced modulo p; InvalidPoint when the sum is the identity, InvalidEncoding for another length.
On the Koblitz curve it gives BC's point for BC's digest whenever the map meets R279, as every map of a
well-formed configuration does, and the suggested map with z = 1 meets it. -/
def Obligations.FromHash : Prop :=
  (∀ (s : State) (c : BitVec 4) (f : PointForm) (p : Pending) (C : Ctx),
    kindW C.toCurve → FormOk C.toCurve f → Ready s c 1 p C → C.h2c ≠ .none →
    let A := (s.operands p).a0
    let R := add C.toCurve (mapToCurve C (be2int (A.take C.fsize) % C.p))
      (mapToCurve C (be2int (A.drop C.fsize) % C.p))
    exec (.h2hash c f) s = .next
      (if A.length ≠ 2 * C.fsize then s.failWith .invalidEncoding
      else if R = .inf then s.failWith .invalidPoint
      else s.succeed (putPT C R f)))
  ∧ (∀ (s : State) (c : BitVec 4) (p : Pending) (C : Ctx), Ready s c 1 p C → svdwVectorOk C →
    isKoblitz C.toCurve → C.h2c = .svdw → (s.operands p).a0 = vectorDigest →
    exec (.h2hash c .compressed) s = .next (s.succeed vectorPoint))
  ∧ ∀ C : Ctx, isKoblitz C.toCurve → C.z = 1 → C.maps = .suggested → svdwVectorOk C

/-! ### 47_eddsa.md -/

/-- 47_eddsa.md R291: a clamped scalar is a multiple of 8 in `[2^(8f−2), 2^(8f−1))`, and its bits 3 to 8f − 3
are those of the number clamped. -/
def Obligations.Clamping : Prop :=
  ∀ f v : Nat, 1 ≤ f →
    clamp f v % 8 = 0 ∧ 2 ^ (8 * f - 2) ≤ clamp f v ∧ clamp f v < 2 ^ (8 * f - 1)
    ∧ ∀ k, 3 ≤ k → k < 8 * f - 2 → (clamp f v).testBit k = v.testBit k

/-- 47_eddsa.md R292 to R295: EDEXP, EDPUB and EDSIGN on a seed of fsize bytes: the clamped low half of the
seed's digest and its high half; the encoding of `(a mod n)·G`; the signature `Rb ‖ S` with
`S = (r + k·a) mod n`; InvalidPoint when the public key is the identity, InvalidEncoding for a seed of
another length. -/
def Obligations.EdwardsKeys : Prop :=
  ∀ (s : State) (c : BitVec 4) (p : Pending) (C : Ctx), kindE C.toCurve →
    let half := fun seed : Bytes => clamp C.fsize (os2iC C ((hashC C seed).take C.fsize))
    let nonce := fun seed : Bytes => ((hashC C seed).drop C.fsize).take C.fsize
    let enc := fun P : Point => putPT C P .uncompressed
    (Ready s c 1 p C →
      let seed := (s.operands p).a0
      let A := mulG C.toCurve (half seed % C.n)
      (seed.length ≠ C.fsize → exec (.edexp c) s = .next (s.failWith .invalidEncoding)
        ∧ exec (.edpub c) s = .next (s.failWith .invalidEncoding))
      ∧ (seed.length = C.fsize →
        exec (.edexp c) s = .next (s.succeedTwo (i2osC C (half seed) C.fsize) (nonce seed))
        ∧ (A = identity C.toCurve →
          exec (.edpub c) s = .next ((s.failWith .invalidPoint).withTable c))
        ∧ (A ≠ identity C.toCurve → exec (.edpub c) s = .next ((s.succeed (enc A)).withTable c))))
    ∧ (Ready s c 2 p C →
      let msg := (s.operands p).a0
      let seed := (s.operands p).a1
      let A := mulG C.toCurve (half seed % C.n)
      let r := os2iC C (hashC C (nonce seed ++ msg)) % C.n
      let Rb := enc (mulG C.toCurve r)
      let k := os2iC C (hashC C (Rb ++ enc A ++ msg)) % C.n
      (seed.length ≠ C.fsize → exec (.edsign c) s = .next (s.failWith .invalidEncoding))
      ∧ (seed.length = C.fsize →
        (A = identity C.toCurve → exec (.edsign c) s = .next ((s.failWith .invalidPoint).withTable c))
        ∧ (A ≠ identity C.toCurve → exec (.edsign c) s
          = .next ((s.succeed (Rb ++ i2osC C ((r + k * half seed) % C.n) C.fsize)).withTable c))))

/-- 47_eddsa.md R298: EDSIGNT signs with the scalar `(a + t) mod n` and a nonce key hashed from the old one
and the tweak; InvalidEncoding for a seed of another length, InvalidScalar for a tweak out of range and for
a zero sum. -/
def Obligations.EdwardsTweakedSign : Prop :=
  ∀ (s : State) (c : BitVec 4) (p : Pending) (C : Ctx), kindE C.toCurve → Ready s c 3 p C →
    let msg := (s.operands p).a0
    let seed := (s.operands p).a1
    let T := (s.operands p).a2
    let enc := fun P : Point => putPT C P .uncompressed
    (seed.length ≠ C.fsize → exec (.edsignt c) s = .next (s.failWith .invalidEncoding))
    ∧ (seed.length = C.fsize → (∃ e, getSC C T = .error e) →
      exec (.edsignt c) s = .next (s.failWith .invalidScalar))
    ∧ ∀ t, seed.length = C.fsize → getSC C T = .ok t →
      let a := (clamp C.fsize (os2iC C ((hashC C seed).take C.fsize)) + t) % C.n
      let nonce := (hashC C (((hashC C seed).drop C.fsize).take C.fsize ++ i2osC C t C.ssize)).take C.fsize
      let r := os2iC C (hashC C (nonce ++ msg)) % C.n
      let Rb := enc (mulG C.toCurve r)
      let k := os2iC C (hashC C (Rb ++ enc (mulG C.toCurve a) ++ msg)) % C.n
      (a = 0 → exec (.edsignt c) s = .next (s.failWith .invalidScalar))
      ∧ (a ≠ 0 → exec (.edsignt c) s
        = .next ((s.succeed (Rb ++ i2osC C ((r + k * a) % C.n) C.fsize)).withTable c))

/-- 47_eddsa.md R296: EDVFY is false for a signature of the wrong length, an S that is not below n, and an R or
a key that does not decode; otherwise it answers whether `S·G = R + k·A`. R294 to R298: the signature
EDSIGN makes of a message with a seed is true under the key EDPUB makes of that seed, and the one EDSIGNT
makes with a tweak is true under the key EDPKTADD makes of that key with the tweak, on a curve of the sizes
R290 asks for, wherever there is such a key. -/
def Obligations.EdwardsVerify : Prop :=
  (∀ (s : State) (c : BitVec 4) (p : Pending) (C : Ctx), kindE C.toCurve → Ready s c 3 p C →
    let msg := (s.operands p).a0
    let sig := (s.operands p).a1
    let pub := (s.operands p).a2
    let Rb := sig.take C.fsize
    let S := os2iC C (sig.drop C.fsize)
    (sig.length ≠ 2 * C.fsize ∨ C.n ≤ S ∨ (∃ e, getPT C Rb = .error e) ∨ (∃ e, getPK C pub = .error e) →
      exec (.edvfy c) s = .next (s.verdict false))
    ∧ ∀ R A, sig.length = 2 * C.fsize → S < C.n → getPT C Rb = .ok R → getPK C pub = .ok A →
      ∃ b : Bool, exec (.edvfy c) s = .next ((s.verdict b).withTable c)
        ∧ (b = true ↔ mulG C.toCurve S
          = add C.toCurve R (mul C.toCurve (os2iC C (hashC C (Rb ++ pub ++ msg)) % C.n) A)))
  ∧ ∀ (C : Ctx) (c : BitVec 4) (seed msg : Bytes), SoundCurve C.toCurve → kindE C.toCurve →
    bitlen C.p < 8 * C.fsize → C.ssize ≤ C.fsize → seed.length = C.fsize →
    let a := clamp C.fsize (os2iC C ((hashC C seed).take C.fsize))
    let accepts := fun sig pub : Bytes => ∀ (s : State) (p : Pending), Ready s c 3 p C →
      (s.operands p).a0 = msg → (s.operands p).a1 = sig → (s.operands p).a2 = pub →
      exec (.edvfy c) s = .next ((s.verdict true).withTable c)
    mulG C.toCurve (a % C.n) ≠ identity C.toCurve →
    ∃ pub sig : Bytes,
      (∀ (s : State) (p : Pending), Ready s c 1 p C → (s.operands p).a0 = seed →
        exec (.edpub c) s = .next ((s.succeed pub).withTable c))
      ∧ (∀ (s : State) (p : Pending), Ready s c 2 p C → (s.operands p).a0 = msg →
        (s.operands p).a1 = seed → exec (.edsign c) s = .next ((s.succeed sig).withTable c))
      ∧ accepts sig pub
      ∧ ∀ (T : Bytes) (t : Nat), getSC C T = .ok t → (a + t) % C.n ≠ 0 →
        ∃ child tweaked : Bytes,
          (∀ (s : State) (p : Pending), Ready s c 2 p C → (s.operands p).a0 = pub →
            (s.operands p).a1 = T → exec (.edpktadd c) s = .next ((s.succeed child).withTable c))
          ∧ (∀ (s : State) (p : Pending), Ready s c 3 p C → (s.operands p).a0 = msg →
            (s.operands p).a1 = seed → (s.operands p).a2 = T →
            exec (.edsignt c) s = .next ((s.succeed tweaked).withTable c))
          ∧ accepts tweaked child

/-- 47_eddsa.md R299, R300: EDTOMONT of a public key `(x, y)` gives the u below p with `u·(1 − y) = 1 + y`;
EDFROMMONT with the parity of x gives that key back, and of any u the point of that parity with
`y·(u + 1) = u − 1`. EDTOMONT fails as the public-key check does; EDFROMMONT
with InvalidEncoding for a wrong length and with InvalidPoint for a u that is not below p, for u = p − 1, and
for one that belongs to no point of the parity asked for. -/
def Obligations.MontgomeryForm : Prop :=
  ∀ (s : State) (c : BitVec 4) (p : Pending) (C : Ctx), kindE C.toCurve → Ready s c 1 p C →
    let A := (s.operands p).a0
    (∀ x y, SoundCurve C.toCurve → bitlen C.p < 8 * C.fsize → getPK C A = .ok (.aff x y) →
      ∃ u, u < C.p ∧ (u : ZMod C.p) * (1 - y) = 1 + y
        ∧ exec (.edtomont c) s = .next (s.succeed (i2osC C u C.fsize))
        ∧ ∀ (s' : State) (p' : Pending), Ready s' c 1 p' C → (s'.operands p').a0 = i2osC C u C.fsize →
          exec (.edfrommont c (decide (x % 2 = 1))) s'
            = .next (s'.succeed (putPT C (.aff x y) .uncompressed)))
    ∧ (∀ e, getPK C A = .error e → exec (.edtomont c) s = .next (s.failWith e.code))
    ∧ ∀ sign : Bool,
      (∀ x y, SoundCurve C.toCurve → A.length = C.fsize → os2iC C A < C.p →
        onCurve C.toCurve x y = true → x % 2 = sign.toNat →
        (y : ZMod C.p) * (os2iC C A + 1) = os2iC C A - 1 →
        exec (.edfrommont c sign) s = .next (s.succeed (putPT C (.aff x y) .uncompressed)))
      ∧ (A.length ≠ C.fsize → exec (.edfrommont c sign) s = .next (s.failWith .invalidEncoding))
      ∧ (A.length = C.fsize → (C.p ≤ os2iC C A ∨ os2iC C A = C.p - 1) →
        exec (.edfrommont c sign) s = .next (s.failWith .invalidPoint))
      ∧ (A.length = C.fsize → os2iC C A < C.p → SoundCurve C.toCurve →
        (¬ ∃ x y, onCurve C.toCurve x y = true ∧ x % 2 = sign.toNat
          ∧ (y : ZMod C.p) * (os2iC C A + 1) = os2iC C A - 1) →
        exec (.edfrommont c sign) s = .next (s.failWith .invalidPoint))

end
end

