-- ==== Sys2Proof/Laws/Arith.lean ====
section
/-! SUPPORT. Laws of modular arithmetic: what the exponentiation computes, that `inv` is the inverse
modulo a prime (40_modular_arithmetic.md R126), and that the square root search finds a root exactly
when there is one (R127), for both residues of p modulo 4. -/

namespace Sys2Proof.Machine

theorem powBits_eq (m b k e : Nat) : powBits m b k e = b ^ (e % 2 ^ k) % m := by
  induction k generalizing e with
  | zero => simp [powBits, Nat.mod_one]
  | succ k ih =>
    have he : e % 2 ^ (k + 1) = 2 * (e / 2 % 2 ^ k) + e % 2 := by
      have h1 := Nat.mod_mul (a := 2) (b := 2 ^ k) (x := e)
      rw [show (2 : Nat) ^ (k + 1) = 2 * 2 ^ k by rw [Nat.pow_succ]; omega, h1]
      omega
    simp only [powBits, ih]
    rw [he, pow_add, pow_mul]
    by_cases h : e % 2 = 1
    · simp only [h, if_true, pow_one, pow_two, Nat.mul_pow]
      simp [Nat.mul_mod]
    · have h0 : e % 2 = 0 := by omega
      simp only [h0, pow_zero, mul_one, pow_two, Nat.mul_pow]
      simp [Nat.mul_mod]

theorem lt_two_pow_bitlen (v : Nat) : v < 2 ^ bitlen v := by
  unfold bitlen
  split
  · next h => simp [h]
  · exact Nat.lt_log2_self

/-- The exponentiation computes `b^e mod m`. -/
theorem powMod_eq (m b e : Nat) : powMod m b e = b ^ e % m := by
  rw [powMod, powBits_eq, Nat.mod_eq_of_lt (lt_two_pow_bitlen e)]

theorem powMod_lt {m : Nat} (h : 0 < m) (b e : Nat) : powMod m b e < m := by
  rw [powMod_eq]; exact Nat.mod_lt _ h

theorem cast_powMod (p b e : Nat) : ((powMod p b e : Nat) : ZMod p) = (b : ZMod p) ^ e := by
  rw [powMod_eq, ZMod.natCast_mod, Nat.cast_pow]

/-- `inv` is the inverse modulo a prime (R126). -/
theorem inv_mul_mod {p a : Nat} (hp : p.Prime) (h : a % p ≠ 0) : a * inv p a % p = 1 := by
  have : Fact p.Prime := ⟨hp⟩
  have ha : (a : ZMod p) ≠ 0 := by
    rw [Ne, ZMod.natCast_eq_zero_iff]
    exact fun hd => h (Nat.mod_eq_zero_of_dvd hd)
  have h2 : (a : ZMod p) * (inv p a : Nat) = 1 := by
    rw [inv, cast_powMod, ← pow_succ', show p - 2 + 1 = p - 1 by have := hp.two_le; omega]
    exact ZMod.pow_card_sub_one_eq_one ha
  have h3 : ((a * inv p a : Nat) : ZMod p) = ((1 : Nat) : ZMod p) := by push_cast; exact h2
  rw [ZMod.natCast_eq_natCast_iff'] at h3
  rw [h3, Nat.mod_eq_of_lt hp.one_lt]

theorem inv_lt {p : Nat} (h : 0 < p) (a : Nat) : inv p a < p := powMod_lt h _ _

/-- What the root search answers is a root (R127). -/
theorem sqrt?_sound {p a r : Nat} (h : sqrt? p a = some r) : r * r % p = a % p := by
  unfold sqrt? at h
  simp only at h
  split at h
  · next hr => cases h; exact hr
  · cases h

theorem two_pow_twos_dvd (k v : Nat) : 2 ^ twos k v ∣ v := by
  induction k generalizing v with
  | zero => simp [twos]
  | succ k ih =>
    unfold twos
    split
    · next h =>
      obtain ⟨w, hw⟩ := ih (v / 2)
      refine ⟨w, ?_⟩
      rw [pow_succ, mul_assoc, mul_comm 2 w, ← mul_assoc, ← hw]
      omega
    · simp

theorem twos_odd (k v : Nat) (hv : 0 < v) (hk : v < 2 ^ k) : v / 2 ^ twos k v % 2 = 1 := by
  induction k generalizing v with
  | zero => omega
  | succ k ih =>
    unfold twos
    split
    · next h =>
      have := ih (v / 2) (by omega) (by rw [Nat.pow_succ] at hk; omega)
      rw [pow_succ, mul_comm, ← Nat.div_div_eq_div_mul]
      exact this
    · simp; omega

theorem nonSquare_spec (p : Nat) (k z w : Nat) (hw : powMod p w ((p - 1) / 2) = p - 1) (h1 : z ≤ w)
    (h2 : w < z + k) : powMod p (nonSquare p k z) ((p - 1) / 2) = p - 1 := by
  induction k generalizing z with
  | zero => omega
  | succ k ih =>
    unfold nonSquare
    split
    · assumption
    · next hz =>
      apply ih
      · rcases Nat.eq_or_lt_of_le h1 with rfl | h
        · exact absurd hw hz
        · exact h
      · omega

/-- The loop of Tonelli-Shanks ends in a root. -/
theorem tonelliLoop_spec {p : Nat} [Fact p.Prime] (a : ZMod p) (k r t c : Nat)
    (hr : (r : ZMod p) * r = a * t) (ht : (t : ZMod p) ^ 2 ^ k = 1) (hc : (c : ZMod p) ^ 2 ^ k = -1) :
    ((tonelliLoop p k r t c : Nat) : ZMod p) * (tonelliLoop p k r t c : Nat) = a := by
  induction k generalizing r t c with
  | zero => simp only [tonelliLoop]; rw [hr]; simp at ht; simp [ht]
  | succ k ih =>
    have hp : p.Prime := Fact.out
    have hcc : (((c * c % p : Nat) : ZMod p)) = (c : ZMod p) * c := by
      rw [ZMod.natCast_mod]; push_cast; rfl
    have hc2 : ((c * c % p : Nat) : ZMod p) ^ 2 ^ k = -1 := by
      rw [hcc, ← pow_two, ← pow_mul, ← pow_succ']; exact hc
    simp only [tonelliLoop]
    split
    · next h1 =>
      refine ih r t _ hr ?_ hc2
      have := congrArg (fun n : Nat => (n : ZMod p)) h1
      simpa [cast_powMod] using this
    · next h1 =>
      have htk : (t : ZMod p) ^ 2 ^ k = -1 := by
        have hsq : ((t : ZMod p) ^ 2 ^ k) * ((t : ZMod p) ^ 2 ^ k) = 1 := by
          rw [← pow_two, ← pow_mul, ← pow_succ]; exact ht
        rcases mul_self_eq_one_iff.1 hsq with h | h
        · exfalso
          apply h1
          have h' : ((powMod p t (2 ^ k) : Nat) : ZMod p) = ((1 : Nat) : ZMod p) := by
            rw [cast_powMod]; simpa using h
          rw [ZMod.natCast_eq_natCast_iff', Nat.mod_eq_of_lt (powMod_lt hp.pos _ _),
            Nat.mod_eq_of_lt hp.one_lt] at h'
          exact h'
        · exact h
      refine ih _ _ _ ?_ ?_ hc2
      · rw [ZMod.natCast_mod, ZMod.natCast_mod]
        push_cast
        rw [hcc]
        linear_combination ((c : ZMod p) * c) * hr
      · rw [ZMod.natCast_mod]
        push_cast
        rw [mul_pow, hc2, htk]
        ring

theorem tonelliLoop_zero (p k t c : Nat) : tonelliLoop p k 0 t c = 0 := by
  induction k generalizing t c with
  | zero => rfl
  | succ k ih => simp only [tonelliLoop, Nat.zero_mul, Nat.zero_mod, ih, ite_self]

/-- Tonelli-Shanks finds a root of every square (R127). -/
theorem tonelliShanks_spec {p a : Nat} (hp : p.Prime) (h2 : p ≠ 2) (h : IsSquare (a : ZMod p)) :
    ((tonelliShanks p a : Nat) : ZMod p) * (tonelliShanks p a : Nat) = a := by
  have : Fact p.Prime := ⟨hp⟩
  have hp3 : 3 ≤ p := by have := hp.two_le; omega
  have hodd : p % 2 = 1 := by rcases hp.eq_two_or_odd with h | h <;> omega
  set s := twos (bitlen (p - 1)) (p - 1) with hs
  set q := (p - 1) / 2 ^ s with hq
  have hdvd : 2 ^ s ∣ p - 1 := two_pow_twos_dvd _ _
  have hqs : q * 2 ^ s = p - 1 := Nat.div_mul_cancel hdvd
  have hqodd : q % 2 = 1 := twos_odd _ _ (by omega) (lt_two_pow_bitlen _)
  have hs1 : 1 ≤ s := by
    rcases Nat.eq_zero_or_pos s with h0 | h0
    · rw [h0] at hqs; simp at hqs; omega
    · exact h0
  have hhalf : q * 2 ^ (s - 1) = (p - 1) / 2 := by
    have : q * 2 ^ (s - 1) * 2 = p - 1 := by
      rw [mul_assoc, ← pow_succ, show s - 1 + 1 = s by omega]; exact hqs
    omega
  unfold tonelliShanks
  simp only [← hs, ← hq]
  by_cases ha : (a : ZMod p) = 0
  · have hz : powMod p a ((q + 1) / 2) = 0 := by
      have h' : ((powMod p a ((q + 1) / 2) : Nat) : ZMod p) = ((0 : Nat) : ZMod p) := by
        rw [cast_powMod, ha]; simp; omega
      rw [ZMod.natCast_eq_natCast_iff', Nat.mod_eq_of_lt (powMod_lt hp.pos _ _)] at h'
      simpa using h'
    rw [hz, tonelliLoop_zero, ha]; simp
  · have hring : ringChar (ZMod p) ≠ 2 := by rw [ZMod.ringChar_zmod_n]; omega
    obtain ⟨z, hz⟩ := FiniteField.exists_nonsquare (F := ZMod p) hring
    have hz0 : z ≠ 0 := fun h0 => hz (h0 ▸ IsSquare.zero)
    have hzp : z ^ (p / 2) = -1 := by
      rcases ZMod.pow_div_two_eq_neg_one_or_one p hz0 with h1 | h1
      · exact absurd ((ZMod.euler_criterion p hz0).2 h1) hz
      · exact h1
    have hpd : p / 2 = (p - 1) / 2 := by omega
    have hm1 : ∀ w : Nat, (w : ZMod p) ^ ((p - 1) / 2) = -1 ↔ powMod p w ((p - 1) / 2) = p - 1 := by
      intro w
      rw [← cast_powMod]
      have hneg : (-1 : ZMod p) = ((p - 1 : Nat) : ZMod p) := by
        rw [Nat.cast_sub (by omega)]; simp
      rw [hneg, ZMod.natCast_eq_natCast_iff', Nat.mod_eq_of_lt (powMod_lt hp.pos _ _),
        Nat.mod_eq_of_lt (by omega : p - 1 < p)]
    have hw : powMod p z.val ((p - 1) / 2) = p - 1 := by
      rw [← hm1, ZMod.natCast_zmod_val, ← hpd]; exact hzp
    have hw2 : 2 ≤ z.val := by
      rcases Nat.lt_or_ge z.val 2 with hlt | hge
      · exfalso
        have hcase : z.val = 0 ∨ z.val = 1 := by omega
        rcases hcase with h0 | h0
        · exact hz0 ((ZMod.val_eq_zero z).1 h0)
        · apply hz
          have : z = 1 := by
            have := ZMod.natCast_zmod_val z
            rw [h0] at this; simpa using this.symm
          rw [this]; exact IsSquare.one
      · exact hge
    have hns := nonSquare_spec p p 2 z.val hw hw2 (by have := ZMod.val_lt z; omega)
    have hnsz := (hm1 _).2 hns
    have hp1 : (a : ZMod p) ^ ((p - 1) / 2) = 1 := by
      rw [← hpd]; exact (ZMod.euler_criterion p ha).1 h
    apply tonelliLoop_spec
    · rw [cast_powMod, cast_powMod, ← pow_add, ← pow_succ']
      congr 1
      omega
    · rw [cast_powMod, ← pow_mul, hhalf]; exact hp1
    · rw [cast_powMod, ← pow_mul, hhalf]; exact hnsz

/-- The root search finds a root whenever there is one (R127). -/
theorem sqrt?_complete {p a x : Nat} (hp : p.Prime) (h2 : p ≠ 2) (h : x * x % p = a % p) :
    ∃ r, sqrt? p a = some r ∧ r * r % p = a % p := by
  have : Fact p.Prime := ⟨hp⟩
  have hx : (x : ZMod p) * x = a := by
    have := congrArg (fun n : Nat => (n : ZMod p)) h
    simpa using this
  have hsq : IsSquare (a : ZMod p) := ⟨x, hx.symm⟩
  have hroot : ((rootCandidate p a : Nat) : ZMod p) * (rootCandidate p a : Nat) = a := by
    unfold rootCandidate
    split
    · next h3 =>
      rw [cast_powMod, ← pow_add, ← hx, ← pow_two, ← pow_mul]
      by_cases hx0 : (x : ZMod p) = 0
      · rw [hx0, zero_pow (by omega), zero_pow (by omega)]
      · rw [show 2 * ((p + 1) / 4 + (p + 1) / 4) = (p - 1) + 2 by omega, pow_add,
          ZMod.pow_card_sub_one_eq_one hx0, one_mul]
    · exact tonelliShanks_spec hp h2 hsq
  have hmod : rootCandidate p a * rootCandidate p a % p = a % p := by
    have h' : ((rootCandidate p a * rootCandidate p a : Nat) : ZMod p) = (a : ZMod p) := by
      push_cast; exact hroot
    rwa [ZMod.natCast_eq_natCast_iff'] at h'
  exact ⟨rootCandidate p a, by simp [sqrt?, hmod], hmod⟩

end Sys2Proof.Machine
end

