-- ==== Sys2Proof/Laws/Bytes.lean ====
section
/-! SUPPORT. Laws of numbers in byte strings (00_scope.md R9) and of the operand classes
(30_encoding.md R100 to R105). -/

namespace Sys2Proof.Machine

@[simp] theorem length_int2le (v L : Nat) : (int2le v L).length = L := by
  induction L generalizing v with
  | zero => rfl
  | succ L ih => simp [int2le, ih]

@[simp] theorem length_int2be (v L : Nat) : (int2be v L).length = L := by simp [int2be]

@[simp] theorem length_i2os (o : ByteOrder) (v L : Nat) : (i2os o v L).length = L := by
  cases o <;> simp [i2os]

@[simp] theorem length_i2osC (C : Ctx) (v L : Nat) : (i2osC C v L).length = L := by simp [i2osC]

@[simp] theorem length_putSC (C : Ctx) (v : Nat) : (putSC C v).length = C.ssize := by simp [putSC]

@[simp] theorem length_putFE (C : Ctx) (v : Nat) : (putFE C v).length = C.fsize := by simp [putFE]

/-- `le2int(int2le(v, L)) = v` where `v < 256^L` (R9). -/
theorem le2int_int2le {v L : Nat} (h : v < 256 ^ L) : le2int (int2le v L) = v := by
  induction L generalizing v with
  | zero => simp at h; simp [int2le, le2int, h]
  | succ L ih =>
    have h2 : v / 256 < 256 ^ L := by
      rw [Nat.div_lt_iff_lt_mul (by decide)]; rw [Nat.pow_succ] at h; exact h
    simp only [int2le, le2int, ih h2, BitVec.toNat_ofNat]
    omega

theorem be2int_int2be {v L : Nat} (h : v < 256 ^ L) : be2int (int2be v L) = v := by
  simp [be2int, int2be, le2int_int2le h]

/-- `os2i(i2os(v, L)) = v` where `v < 256^L` (R9). -/
theorem os2i_i2os (o : ByteOrder) {v L : Nat} (h : v < 256 ^ L) : os2i o (i2os o v L) = v := by
  cases o
  · exact le2int_int2le h
  · exact be2int_int2be h

theorem le2int_lt (B : Bytes) : le2int B < 256 ^ B.length := by
  induction B with
  | nil => simp [le2int]
  | cons b B ih =>
    have := b.isLt
    simp only [le2int, List.length_cons, Nat.pow_succ]
    omega

theorem be2int_lt (B : Bytes) : be2int B < 256 ^ B.length := by
  have := le2int_lt B.reverse
  simpa [be2int] using this

/-- A byte string is less than `256^len` (R9). -/
theorem os2i_lt (o : ByteOrder) (B : Bytes) : os2i o B < 256 ^ B.length := by
  cases o
  · exact le2int_lt B
  · exact be2int_lt B

/-- What `getRes` accepts, and that it gives the number (R100). -/
theorem getRes_ok {C : Ctx} {m : Modulus} {B : Bytes} (hl : B.length = widthC C m)
    (hv : os2iC C B < modulusC C m) : getRes C m B = .ok (os2iC C B) := by
  simp [getRes, require, hl, hv, bind, Except.bind]

/-- What `getRes` refuses, always as Domain (R100). -/
theorem getRes_error {C : Ctx} {m : Modulus} {B : Bytes}
    (h : B.length ≠ widthC C m ∨ modulusC C m ≤ os2iC C B) : getRes C m B = .error .domain := by
  by_cases hl : B.length = widthC C m
  · have hv : ¬ os2iC C B < modulusC C m := by
      rcases h with h | h
      · exact absurd hl h
      · omega
    simp [getRes, require, hl, hv, bind, Except.bind]
  · simp [getRes, require, hl, bind, Except.bind]

/-- What `getSC` accepts, and that it gives the number (R101). -/
theorem getSC_ok {C : Ctx} {B : Bytes} (hl : B.length = C.ssize) (hv : os2iC C B < C.n) :
    getSC C B = .ok (os2iC C B) := by
  simp [getSC, require, hl, hv, bind, Except.bind]

/-- What `getSC` refuses, always as InvalidScalar (R101). -/
theorem getSC_error {C : Ctx} {B : Bytes} (h : B.length ≠ C.ssize ∨ C.n ≤ os2iC C B) :
    getSC C B = .error .invalidScalar := by
  have hf : ¬ (B.length = C.ssize ∧ os2iC C B < C.n) := by omega
  simp [getSC, require, hf, bind, Except.bind]

/-- What `getSK` accepts, and that it gives the number (R102). -/
theorem getSK_ok {C : Ctx} {B : Bytes} (hl : B.length = C.ssize) (h1 : 1 ≤ os2iC C B)
    (hv : os2iC C B < C.n) : getSK C B = .ok (os2iC C B) := by
  simp [getSK, getSC_ok hl hv, require, h1, bind, Except.bind]

/-- What `getSK` refuses, always as InvalidScalar (R102). -/
theorem getSK_error {C : Ctx} {B : Bytes}
    (h : B.length ≠ C.ssize ∨ os2iC C B = 0 ∨ C.n ≤ os2iC C B) :
    getSK C B = .error .invalidScalar := by
  by_cases hs : B.length ≠ C.ssize ∨ C.n ≤ os2iC C B
  · simp [getSK, getSC_error hs, bind, Except.bind]
  · have hl : B.length = C.ssize := by omega
    have hv : os2iC C B < C.n := by omega
    have h0 : os2iC C B = 0 := by omega
    have hn : 0 < C.n := by omega
    simp [getSK, getSC_ok hl hv, require, h0, bind, Except.bind]

end Sys2Proof.Machine
end

