-- ==== Sys2Proof/Laws/Memory.lean ====
section
/-! SUPPORT. Laws of the memories: every operation keeps the canonical form, a read after a write gives
the byte written, and a write leaves every other byte alone (10_state.md R29; 20_memory.md R63). -/

namespace Sys2Proof.Machine

/-- Every offset of a memory is greater than a. -/
def Mem.above (a : Nat) (m : Mem) : Prop := ∀ c ∈ m, a < c.1

theorem Mem.wf_cons (c : Host.Cell) (m : Mem) :
    Mem.wf (c :: m) = true ↔ Mem.above c.1 m ∧ Mem.wf m = true := by
  induction m generalizing c with
  | nil => simp [Mem.wf, Mem.above]
  | cons d m ih =>
    simp only [Mem.wf, Bool.and_eq_true, decide_eq_true_eq, ih d]
    constructor
    · rintro ⟨h, ha, hw⟩
      refine ⟨?_, ha, hw⟩
      intro e he
      rcases List.mem_cons.1 he with rfl | he
      · exact h
      · exact h.trans (ha e he)
    · rintro ⟨ha, hd, hw⟩
      exact ⟨ha d (by simp), hd, hw⟩

theorem Mem.above_set {a x : Nat} {v : Byte} {m : Mem} (h : Mem.above a m) (hx : a < x) :
    Mem.above a (m.set x v) := by
  induction m with
  | nil => intro c hc; simp [Mem.set] at hc; subst hc; exact hx
  | cons d m ih =>
    obtain ⟨k, b⟩ := d
    have hk : a < k := h (k, b) (by simp)
    have hm : Mem.above a m := fun c hc => h c (by simp [hc])
    simp only [Mem.set]
    split
    · intro c hc
      rcases List.mem_cons.1 hc with rfl | hc
      · exact hx
      · exact h c hc
    · split
      · intro c hc
        rcases List.mem_cons.1 hc with rfl | hc
        · exact hk
        · exact hm c hc
      · intro c hc
        rcases List.mem_cons.1 hc with rfl | hc
        · exact hk
        · exact ih hm c hc

/-- A write of one byte keeps the canonical form. -/
theorem Mem.wf_set {m : Mem} (h : m.wf = true) (x : Nat) (v : Byte) : (m.set x v).wf = true := by
  induction m with
  | nil => rfl
  | cons d m ih =>
    obtain ⟨k, b⟩ := d
    have h' := (Mem.wf_cons (k, b) m).1 h
    simp only [Mem.set]
    split
    · next hx =>
      refine (Mem.wf_cons _ _).2 ⟨?_, h⟩
      intro c hc
      rcases List.mem_cons.1 hc with rfl | hc
      · exact hx
      · exact hx.trans (h'.1 c hc)
    · split
      · exact (Mem.wf_cons _ _).2 h'
      · next h1 h2 =>
        exact (Mem.wf_cons _ _).2 ⟨Mem.above_set h'.1 (show k < x by omega), ih h'.2⟩

/-- A word write keeps the canonical form. -/
theorem Mem.wf_writeWord {m : Mem} (h : m.wf = true) (x : Nat) (w : Word) :
    (m.writeWord x w).wf = true :=
  Mem.wf_set (Mem.wf_set (Mem.wf_set (Mem.wf_set h _ _) _ _) _ _) _ _

theorem Mem.above_ofBytes {a x : Nat} (h : a < x) (B : Bytes) : Mem.above a (Mem.ofBytes x B) := by
  induction B generalizing x with
  | nil => intro c hc; simp [Mem.ofBytes] at hc
  | cons b B ih =>
    intro c hc
    rcases List.mem_cons.1 hc with rfl | hc
    · exact h
    · exact ih (by omega) c hc

/-- The memory a result makes is in canonical form. -/
theorem Mem.wf_ofBytes (x : Nat) (B : Bytes) : (Mem.ofBytes x B).wf = true := by
  induction B generalizing x with
  | nil => rfl
  | cons b B ih =>
    exact (Mem.wf_cons _ _).2 ⟨Mem.above_ofBytes (Nat.lt_succ_self x) B, ih (x + 1)⟩

/-- A read after a write of the same byte gives the byte written. -/
@[simp] theorem Mem.get?_set_same (m : Mem) (x : Nat) (v : Byte) : (m.set x v).get? x = some v := by
  induction m with
  | nil => simp [Mem.set, Mem.get?]
  | cons d m ih =>
    obtain ⟨k, b⟩ := d
    simp only [Mem.set]
    split
    · simp [Mem.get?]
    · split
      · next h => simp [Mem.get?, h]
      · next h1 h2 => simp [Mem.get?, ih, show k ≠ x from fun h => h2 h.symm]

/-- A write leaves every other byte as it was. -/
theorem Mem.get?_set_other {m : Mem} {x y : Nat} (h : y ≠ x) (v : Byte) :
    (m.set x v).get? y = m.get? y := by
  induction m with
  | nil => simp [Mem.set, Mem.get?, Ne.symm h]
  | cons d m ih =>
    obtain ⟨k, b⟩ := d
    simp only [Mem.set]
    split
    · simp [Mem.get?, Ne.symm h]
    · split
      · next h2 => subst h2; simp [Mem.get?, Ne.symm h]
      · simp only [Mem.get?]
        split
        · rfl
        · exact ih

/-- The four bytes of a word write, and no other (20_memory.md R63, R65). -/
theorem Mem.get?_writeWord (m : Mem) (x y : Nat) (w : Word) :
    (m.writeWord x w).get? y =
      if y = x then some (lane w 0) else if y = x + 1 then some (lane w 1)
      else if y = x + 2 then some (lane w 2) else if y = x + 3 then some (lane w 3)
      else m.get? y := by
  unfold Mem.writeWord
  by_cases h3 : y = x + 3
  · subst h3; simp
  · rw [Mem.get?_set_other h3]
    by_cases h2 : y = x + 2
    · subst h2; simp
    · rw [Mem.get?_set_other h2]
      by_cases h1 : y = x + 1
      · subst h1; simp
      · rw [Mem.get?_set_other h1]
        by_cases h0 : y = x
        · subst h0; simp
        · rw [Mem.get?_set_other h0]; simp [h0, h1, h2, h3]

/-- The bytes of a result are at their offsets, and nothing else holds a value (20_memory.md R71). -/
theorem Mem.get?_ofBytes (B : Bytes) (x y : Nat) :
    (Mem.ofBytes x B).get? y = if x ≤ y then B[y - x]? else none := by
  induction B generalizing x with
  | nil => simp [Mem.ofBytes, Mem.get?]
  | cons b B ih =>
    simp only [Mem.ofBytes, Mem.get?]
    by_cases h : x = y
    · subst h; simp
    · rw [if_neg h, ih]
      by_cases h2 : x ≤ y
      · have h3 : x + 1 ≤ y := by omega
        rw [if_pos h2, if_pos h3, show y - x = (y - (x + 1)) + 1 by omega]
        rfl
      · rw [if_neg h2, if_neg (by omega)]

/-! ### OMEM at a completion -/

/-- Each byte from n on that held a value holds the free value of its offset; no other holds any. -/
theorem Mem.get?_unspecified (m : Mem) (n k x : Nat) :
    (m.unspecified n k).get? x =
      if x < n then none else (m.get? x).map fun _ => Config.freeByte (k + x) := by
  induction m with
  | nil => simp [Mem.unspecified, Mem.get?]
  | cons d m ih =>
    obtain ⟨a, b⟩ := d
    simp only [Mem.unspecified]
    split
    · next h =>
      rw [ih]
      split
      · rfl
      · simp only [Mem.get?, if_neg (show a ≠ x by omega)]
    · next h =>
      simp only [Mem.get?]
      by_cases hx : a = x
      · subst hx; simp [h]
      · rw [if_neg hx, if_neg hx, ih]

theorem Mem.above_unspecified {a : Nat} {m : Mem} (h : Mem.above a m) (n k : Nat) :
    Mem.above a (m.unspecified n k) := by
  induction m with
  | nil => exact h
  | cons d m ih =>
    obtain ⟨x, b⟩ := d
    have hm := ih fun c hc => h c (by simp [hc])
    simp only [Mem.unspecified]
    split
    · exact hm
    · intro c hc
      rcases List.mem_cons.1 hc with rfl | hc
      · exact h (x, b) (by simp)
      · exact hm c hc

/-- Leaving bytes unspecified keeps the canonical form. -/
theorem Mem.wf_unspecified {m : Mem} (h : m.wf = true) (n k : Nat) :
    (m.unspecified n k).wf = true := by
  induction m with
  | nil => rfl
  | cons d m ih =>
    obtain ⟨a, b⟩ := d
    have h' := (Mem.wf_cons (a, b) m).1 h
    simp only [Mem.unspecified]
    split
    · exact ih h'.2
    · exact (Mem.wf_cons _ _).2 ⟨Mem.above_unspecified h'.1 n k, ih h'.2⟩

theorem Mem.unspecified_ge (m : Mem) (n k : Nat) : ∀ c ∈ m.unspecified n k, n ≤ c.1 := by
  induction m with
  | nil => simp [Mem.unspecified]
  | cons d m ih =>
    obtain ⟨a, b⟩ := d
    simp only [Mem.unspecified]
    split
    · exact ih
    · intro c hc
      rcases List.mem_cons.1 hc with rfl | hc
      · simp only; omega
      · exact ih c hc

/-- A byte string from x on, with a memory behind it. -/
theorem Mem.wf_ofBytes_append {m : Mem} (h : m.wf = true) (x : Nat) (B : Bytes)
    (hm : ∀ c ∈ m, x + B.length ≤ c.1) : (Mem.ofBytes x B ++ m).wf = true := by
  induction B generalizing x with
  | nil => exact h
  | cons b B ih =>
    simp only [List.length_cons] at hm
    refine (Mem.wf_cons _ _).2 ⟨?_, ih (x + 1) fun c hc => by have := hm c hc; omega⟩
    intro c hc
    rcases List.mem_append.1 hc with hc | hc
    · exact Mem.above_ofBytes (Nat.lt_succ_self x) B c hc
    · have := hm c hc; simp only; omega

theorem Mem.get?_ofBytes_append (m : Mem) (B : Bytes) (x y : Nat) :
    (Mem.ofBytes x B ++ m).get? y =
      if x ≤ y ∧ y < x + B.length then B[y - x]? else m.get? y := by
  induction B generalizing x with
  | nil =>
    rw [if_neg (by simp only [List.length_nil]; omega)]
    rfl
  | cons b B ih =>
    simp only [Mem.ofBytes, List.cons_append, Mem.get?, List.length_cons]
    by_cases h : x = y
    · subst h; simp
    · rw [if_neg h, ih]
      by_cases h2 : x ≤ y ∧ y < x + (B.length + 1)
      · rw [if_pos (by omega), if_pos h2, show y - x = (y - (x + 1)) + 1 by omega]
        rfl
      · rw [if_neg (by omega), if_neg h2]

/-- OMEM after a completion is in canonical form (20_memory.md R71). -/
theorem State.omemAfter_wf {s : State} (h : s.omem.wf = true) (B : Bytes) :
    (s.omemAfter B).wf = true :=
  Mem.wf_ofBytes_append (Mem.wf_unspecified h _ _) 0 B fun c hc => by
    have := Mem.unspecified_ge _ _ _ c hc
    omega

/-- OMEM after a completion (20_memory.md R67, R71): the bytes written; behind them a free value of its own
in every byte that held a value, and no value where there was none. -/
theorem State.omemAfter_get? (s : State) (B : Bytes) (x : Nat) :
    (s.omemAfter B).get? x =
      if x < B.length then B[x]?
      else (s.omem.get? x).map fun _ => Config.freeByte (s.free + 262144 + x) := by
  unfold State.omemAfter
  rw [Mem.get?_ofBytes_append, Mem.get?_unspecified]
  by_cases h : x < B.length <;> simp [h]

/-! ### Reads -/

/-- A valued byte reads as its value, whatever the free values are. -/
theorem Mem.readByte_of_some {m : Mem} {x k : Nat} {b : Byte} (h : m.get? x = some b) :
    m.readByte x k = b := by
  simp [Mem.readByte, h]

/-- A byte that holds a value reads the same twice (20_memory.md R67). -/
theorem Mem.readByte_fixed {m : Mem} {x : Nat} (h : m.get? x ≠ none) (k k' : Nat) :
    m.readByte x k = m.readByte x k' := by
  obtain ⟨b, hb⟩ := Option.ne_none_iff_exists'.1 h
  rw [Mem.readByte_of_some hb, Mem.readByte_of_some hb]

/-- A word whose bytes all hold values reads the same twice (20_memory.md R67). -/
theorem Mem.readWord_fixed {m : Mem} {x : Nat} (h : ∀ i < 4, m.get? (x + i) ≠ none) (k k' : Nat) :
    m.readWord x k = m.readWord x k' := by
  unfold Mem.readWord
  rw [Mem.readByte_fixed (x := x) (h 0 (by omega)) k k', Mem.readByte_fixed (h 1 (by omega)) (k + 1) (k' + 1),
    Mem.readByte_fixed (h 2 (by omega)) (k + 2) (k' + 2),
    Mem.readByte_fixed (h 3 (by omega)) (k + 3) (k' + 3)]

/-- BUSY makes the bytes of OMEM that hold a value unspecified, and no other (20_memory.md R66). -/
theorem State.visibleOmem_get? (s : State) (x : Nat) :
    s.visibleOmem.get? x =
      if s.status.busy then (s.omem.get? x).map fun _ => Config.freeByte (s.held + x)
      else s.omem.get? x := by
  unfold State.visibleOmem
  split
  · simp [Mem.get?_unspecified]
  · rfl

theorem State.visibleOmem_none (s : State) (x : Nat) :
    s.visibleOmem.get? x = none ↔ s.omem.get? x = none := by
  rw [State.visibleOmem_get?]; split <;> simp

/-- A read of a range gives as many bytes as it asks for. -/
@[simp] theorem Mem.length_read (m : Mem) (x n k : Nat) : (m.read x n k).length = n := by
  induction n generalizing x k with
  | zero => rfl
  | succ n ih => simp [Mem.read, ih]

/-- A range that holds a byte string reads as it (20_memory.md R70). -/
theorem Mem.read_of_values (m : Mem) (B : Bytes) (x k : Nat)
    (h : ∀ i, i < B.length → m.get? (x + i) = B[i]?) : m.read x B.length k = B := by
  induction B generalizing x k with
  | nil => rfl
  | cons b B ih =>
    have h0 : m.get? x = some b := by simpa using h 0 (by simp)
    simp only [List.length_cons, Mem.read, Mem.readByte_of_some h0]
    congr 1
    apply ih
    intro i hi
    have := h (i + 1) (by simpa using hi)
    simpa [Nat.add_assoc, Nat.add_comm 1 i] using this

end Sys2Proof.Machine
end

