-- ==== Sys2Proof/Laws/State.lean ====
section
/-! SUPPORT. What each update of the state does to each field, one lemma per field per update, so that no
proof unfolds a record update. -/

namespace Sys2Proof.Machine

set_option Elab.async false

@[simp] theorem State.accept_cfg (s : State) (w : Word) : (s.accept w).cfg = s.cfg := rfl
@[simp] theorem State.accept_ctrl (s : State) (w : Word) : (s.accept w).ctrl = s.ctrl := rfl
@[simp] theorem State.accept_cmd (s : State) (w : Word) : (s.accept w).cmd = w := rfl
@[simp] theorem State.accept_status (s : State) (w : Word) : (s.accept w).status = .accepted s.status.haz := rfl
@[simp] theorem State.accept_errcode (s : State) (w : Word) : (s.accept w).errcode = .none := rfl
@[simp] theorem State.accept_tblstat (s : State) (w : Word) : (s.accept w).tblstat = s.tblstat := rfl
@[simp] theorem State.accept_args (s : State) (w : Word) : (s.accept w).args = s.args := rfl
@[simp] theorem State.accept_res0 (s : State) (w : Word) : (s.accept w).res0 = .zero := rfl
@[simp] theorem State.accept_res1 (s : State) (w : Word) : (s.accept w).res1 = .zero := rfl
@[simp] theorem State.accept_imem (s : State) (w : Word) : (s.accept w).imem = s.imem := rfl
@[simp] theorem State.accept_omem (s : State) (w : Word) : (s.accept w).omem = s.omem := rfl
@[simp] theorem State.accept_pend (s : State) (w : Word) : (s.accept w).pend = some ⟨w, s.args, s.imem⟩ := rfl
@[simp] theorem State.accept_inputs (s : State) (w : Word) : (s.accept w).inputs = s.inputs := rfl
@[simp] theorem State.accept_reply (s : State) (w : Word) : (s.accept w).reply = s.reply := rfl
@[simp] theorem State.accept_rng (s : State) (w : Word) : (s.accept w).rng = s.rng := rfl
@[simp] theorem State.accept_free (s : State) (w : Word) : (s.accept w).free = s.free + freePerAcceptance := rfl
@[simp] theorem State.accept_held (s : State) (w : Word) : (s.accept w).held = s.free := rfl

@[simp] theorem State.complete_cfg (s : State) (c : BitVec 4) (e : Ending) : (s.complete c e).cfg = s.cfg := rfl
@[simp] theorem State.complete_ctrl (s : State) (c : BitVec 4) (e : Ending) : (s.complete c e).ctrl = s.ctrl := rfl
@[simp] theorem State.complete_cmd (s : State) (c : BitVec 4) (e : Ending) : (s.complete c e).cmd = s.cmd := rfl
@[simp] theorem State.complete_status (s : State) (c : BitVec 4) (e : Ending) : (s.complete c e).status = e.report.status s.status.haz := rfl
@[simp] theorem State.complete_errcode (s : State) (c : BitVec 4) (e : Ending) : (s.complete c e).errcode = e.report.code := rfl
@[simp] theorem State.complete_tblstat (s : State) (c : BitVec 4) (e : Ending) : (s.complete c e).tblstat = tableAfter s.cfg s.tblstat c e.table := rfl
@[simp] theorem State.complete_args (s : State) (c : BitVec 4) (e : Ending) : (s.complete c e).args = s.args := rfl
@[simp] theorem State.complete_res0 (s : State) (c : BitVec 4) (e : Ending) : (s.complete c e).res0 = e.report.res0 := rfl
@[simp] theorem State.complete_res1 (s : State) (c : BitVec 4) (e : Ending) : (s.complete c e).res1 = e.report.res1 := rfl
@[simp] theorem State.complete_imem (s : State) (c : BitVec 4) (e : Ending) : (s.complete c e).imem = s.imem := rfl
@[simp] theorem State.complete_omem (s : State) (c : BitVec 4) (e : Ending) : (s.complete c e).omem = s.omemAfter e.report.bytes := rfl
@[simp] theorem State.complete_pend (s : State) (c : BitVec 4) (e : Ending) : (s.complete c e).pend = none := rfl
@[simp] theorem State.complete_inputs (s : State) (c : BitVec 4) (e : Ending) : (s.complete c e).inputs = s.inputs := rfl
@[simp] theorem State.complete_reply (s : State) (c : BitVec 4) (e : Ending) : (s.complete c e).reply = s.reply := rfl
@[simp] theorem State.complete_rng (s : State) (c : BitVec 4) (e : Ending) : (s.complete c e).rng = s.rng.drop e.rngUsed := rfl
@[simp] theorem State.complete_free (s : State) (c : BitVec 4) (e : Ending) : (s.complete c e).free = s.free + freePerCommand := rfl
@[simp] theorem State.complete_held (s : State) (c : BitVec 4) (e : Ending) : (s.complete c e).held = s.held := rfl

@[simp] theorem State.raise_cfg (s : State) (f : Failure) : (s.raise f).cfg = s.cfg := rfl
@[simp] theorem State.raise_ctrl (s : State) (f : Failure) : (s.raise f).ctrl = s.ctrl := rfl
@[simp] theorem State.raise_cmd (s : State) (f : Failure) : (s.raise f).cmd = s.cmd := rfl
@[simp] theorem State.raise_status (s : State) (f : Failure) : (s.raise f).status = ⟨false, true, true, false, false, s.status.haz, 0⟩ := rfl
@[simp] theorem State.raise_errcode (s : State) (f : Failure) : (s.raise f).errcode = f.code := rfl
@[simp] theorem State.raise_tblstat (s : State) (f : Failure) : (s.raise f).tblstat = s.tblstat := rfl
@[simp] theorem State.raise_args (s : State) (f : Failure) : (s.raise f).args = s.args := rfl
@[simp] theorem State.raise_res0 (s : State) (f : Failure) : (s.raise f).res0 = .zero := rfl
@[simp] theorem State.raise_res1 (s : State) (f : Failure) : (s.raise f).res1 = .zero := rfl
@[simp] theorem State.raise_imem (s : State) (f : Failure) : (s.raise f).imem = s.imem := rfl
@[simp] theorem State.raise_omem (s : State) (f : Failure) : (s.raise f).omem = s.omemAfter [] := rfl
@[simp] theorem State.raise_pend (s : State) (f : Failure) : (s.raise f).pend = none := rfl
@[simp] theorem State.raise_inputs (s : State) (f : Failure) : (s.raise f).inputs = s.inputs := rfl
@[simp] theorem State.raise_reply (s : State) (f : Failure) : (s.raise f).reply = s.reply := rfl
@[simp] theorem State.raise_rng (s : State) (f : Failure) : (s.raise f).rng = s.rng := rfl
@[simp] theorem State.raise_free (s : State) (f : Failure) : (s.raise f).free = s.free + freePerCommand := rfl
@[simp] theorem State.raise_held (s : State) (f : Failure) : (s.raise f).held = s.held := rfl

@[simp] theorem State.acknowledge_cfg (s : State) (d : Word) : (s.acknowledge d).cfg = s.cfg := rfl
@[simp] theorem State.acknowledge_ctrl (s : State) (d : Word) : (s.acknowledge d).ctrl = s.ctrl := rfl
@[simp] theorem State.acknowledge_cmd (s : State) (d : Word) : (s.acknowledge d).cmd = s.cmd := rfl
@[simp] theorem State.acknowledge_status (s : State) (d : Word) : (s.acknowledge d).status = s.status.clear d := rfl
@[simp] theorem State.acknowledge_errcode (s : State) (d : Word) : (s.acknowledge d).errcode = s.errcode := rfl
@[simp] theorem State.acknowledge_tblstat (s : State) (d : Word) : (s.acknowledge d).tblstat = s.tblstat := rfl
@[simp] theorem State.acknowledge_args (s : State) (d : Word) : (s.acknowledge d).args = s.args := rfl
@[simp] theorem State.acknowledge_res0 (s : State) (d : Word) : (s.acknowledge d).res0 = s.res0 := rfl
@[simp] theorem State.acknowledge_res1 (s : State) (d : Word) : (s.acknowledge d).res1 = s.res1 := rfl
@[simp] theorem State.acknowledge_imem (s : State) (d : Word) : (s.acknowledge d).imem = s.imem := rfl
@[simp] theorem State.acknowledge_omem (s : State) (d : Word) : (s.acknowledge d).omem = s.omem := rfl
@[simp] theorem State.acknowledge_pend (s : State) (d : Word) : (s.acknowledge d).pend = s.pend := rfl
@[simp] theorem State.acknowledge_inputs (s : State) (d : Word) : (s.acknowledge d).inputs = s.inputs := rfl
@[simp] theorem State.acknowledge_reply (s : State) (d : Word) : (s.acknowledge d).reply = s.reply := rfl
@[simp] theorem State.acknowledge_rng (s : State) (d : Word) : (s.acknowledge d).rng = s.rng := rfl
@[simp] theorem State.acknowledge_free (s : State) (d : Word) : (s.acknowledge d).free = s.free := rfl
@[simp] theorem State.acknowledge_held (s : State) (d : Word) : (s.acknowledge d).held = s.held := rfl

@[simp] theorem State.hazard_cfg (s : State) : (s.hazard).cfg = s.cfg := rfl
@[simp] theorem State.hazard_ctrl (s : State) : (s.hazard).ctrl = s.ctrl := rfl
@[simp] theorem State.hazard_cmd (s : State) : (s.hazard).cmd = s.cmd := rfl
@[simp] theorem State.hazard_status (s : State) : (s.hazard).status = { s.status with haz := true } := rfl
@[simp] theorem State.hazard_errcode (s : State) : (s.hazard).errcode = s.errcode := rfl
@[simp] theorem State.hazard_tblstat (s : State) : (s.hazard).tblstat = s.tblstat := rfl
@[simp] theorem State.hazard_args (s : State) : (s.hazard).args = s.args := rfl
@[simp] theorem State.hazard_res0 (s : State) : (s.hazard).res0 = s.res0 := rfl
@[simp] theorem State.hazard_res1 (s : State) : (s.hazard).res1 = s.res1 := rfl
@[simp] theorem State.hazard_imem (s : State) : (s.hazard).imem = s.imem := rfl
@[simp] theorem State.hazard_omem (s : State) : (s.hazard).omem = s.omem := rfl
@[simp] theorem State.hazard_pend (s : State) : (s.hazard).pend = s.pend := rfl
@[simp] theorem State.hazard_inputs (s : State) : (s.hazard).inputs = s.inputs := rfl
@[simp] theorem State.hazard_reply (s : State) : (s.hazard).reply = s.reply := rfl
@[simp] theorem State.hazard_rng (s : State) : (s.hazard).rng = s.rng := rfl
@[simp] theorem State.hazard_free (s : State) : (s.hazard).free = s.free := rfl
@[simp] theorem State.hazard_held (s : State) : (s.hazard).held = s.held := rfl

@[simp] theorem State.writeCtrl_cfg (s : State) (d : Word) : (s.writeCtrl d).cfg = s.cfg := rfl
@[simp] theorem State.writeCtrl_ctrl (s : State) (d : Word) : (s.writeCtrl d).ctrl = d &&& 1 := rfl
@[simp] theorem State.writeCtrl_cmd (s : State) (d : Word) : (s.writeCtrl d).cmd = s.cmd := rfl
@[simp] theorem State.writeCtrl_status (s : State) (d : Word) : (s.writeCtrl d).status = s.status := rfl
@[simp] theorem State.writeCtrl_errcode (s : State) (d : Word) : (s.writeCtrl d).errcode = s.errcode := rfl
@[simp] theorem State.writeCtrl_tblstat (s : State) (d : Word) : (s.writeCtrl d).tblstat = s.tblstat := rfl
@[simp] theorem State.writeCtrl_args (s : State) (d : Word) : (s.writeCtrl d).args = s.args := rfl
@[simp] theorem State.writeCtrl_res0 (s : State) (d : Word) : (s.writeCtrl d).res0 = s.res0 := rfl
@[simp] theorem State.writeCtrl_res1 (s : State) (d : Word) : (s.writeCtrl d).res1 = s.res1 := rfl
@[simp] theorem State.writeCtrl_imem (s : State) (d : Word) : (s.writeCtrl d).imem = s.imem := rfl
@[simp] theorem State.writeCtrl_omem (s : State) (d : Word) : (s.writeCtrl d).omem = s.omem := rfl
@[simp] theorem State.writeCtrl_pend (s : State) (d : Word) : (s.writeCtrl d).pend = s.pend := rfl
@[simp] theorem State.writeCtrl_inputs (s : State) (d : Word) : (s.writeCtrl d).inputs = s.inputs := rfl
@[simp] theorem State.writeCtrl_reply (s : State) (d : Word) : (s.writeCtrl d).reply = s.reply := rfl
@[simp] theorem State.writeCtrl_rng (s : State) (d : Word) : (s.writeCtrl d).rng = s.rng := rfl
@[simp] theorem State.writeCtrl_free (s : State) (d : Word) : (s.writeCtrl d).free = s.free := rfl
@[simp] theorem State.writeCtrl_held (s : State) (d : Word) : (s.writeCtrl d).held = s.held := rfl

@[simp] theorem State.resetEngine_cfg (s : State) : (s.resetEngine).cfg = s.cfg := rfl
@[simp] theorem State.resetEngine_ctrl (s : State) : (s.resetEngine).ctrl = 0 := rfl
@[simp] theorem State.resetEngine_cmd (s : State) : (s.resetEngine).cmd = 0 := rfl
@[simp] theorem State.resetEngine_status (s : State) : (s.resetEngine).status = .zero := rfl
@[simp] theorem State.resetEngine_errcode (s : State) : (s.resetEngine).errcode = .none := rfl
@[simp] theorem State.resetEngine_tblstat (s : State) : (s.resetEngine).tblstat = 0 := rfl
@[simp] theorem State.resetEngine_args (s : State) : (s.resetEngine).args = .zero := rfl
@[simp] theorem State.resetEngine_res0 (s : State) : (s.resetEngine).res0 = .zero := rfl
@[simp] theorem State.resetEngine_res1 (s : State) : (s.resetEngine).res1 = .zero := rfl
@[simp] theorem State.resetEngine_imem (s : State) : (s.resetEngine).imem = [] := rfl
@[simp] theorem State.resetEngine_omem (s : State) : (s.resetEngine).omem = [] := rfl
@[simp] theorem State.resetEngine_pend (s : State) : (s.resetEngine).pend = none := rfl
@[simp] theorem State.resetEngine_inputs (s : State) : (s.resetEngine).inputs = s.inputs := rfl
@[simp] theorem State.resetEngine_reply (s : State) : (s.resetEngine).reply = none := rfl
@[simp] theorem State.resetEngine_rng (s : State) : (s.resetEngine).rng = s.rng := rfl
@[simp] theorem State.resetEngine_free (s : State) : (s.resetEngine).free = s.free := rfl
@[simp] theorem State.resetEngine_held (s : State) : (s.resetEngine).held = 0 := rfl

@[simp] theorem State.presented_cfg (s : State) (w : Word) : (s.presented w).cfg = s.cfg := rfl
@[simp] theorem State.presented_ctrl (s : State) (w : Word) : (s.presented w).ctrl = s.ctrl := rfl
@[simp] theorem State.presented_cmd (s : State) (w : Word) : (s.presented w).cmd = w := rfl
@[simp] theorem State.presented_status (s : State) (w : Word) : (s.presented w).status = .accepted s.status.haz := rfl
@[simp] theorem State.presented_errcode (s : State) (w : Word) : (s.presented w).errcode = .none := rfl
@[simp] theorem State.presented_tblstat (s : State) (w : Word) : (s.presented w).tblstat = s.tblstat := rfl
@[simp] theorem State.presented_args (s : State) (w : Word) : (s.presented w).args = s.args := rfl
@[simp] theorem State.presented_res0 (s : State) (w : Word) : (s.presented w).res0 = .zero := rfl
@[simp] theorem State.presented_res1 (s : State) (w : Word) : (s.presented w).res1 = .zero := rfl
@[simp] theorem State.presented_imem (s : State) (w : Word) : (s.presented w).imem = s.imem := rfl
@[simp] theorem State.presented_omem (s : State) (w : Word) : (s.presented w).omem = s.omem := rfl
@[simp] theorem State.presented_pend (s : State) (w : Word) : (s.presented w).pend = some ⟨w, s.args, s.imem⟩ := rfl
@[simp] theorem State.presented_inputs (s : State) (w : Word) : (s.presented w).inputs = [] := rfl
@[simp] theorem State.presented_reply (s : State) (w : Word) : (s.presented w).reply = s.reply := rfl
@[simp] theorem State.presented_rng (s : State) (w : Word) : (s.presented w).rng = s.rng := rfl
@[simp] theorem State.presented_free (s : State) (w : Word) : (s.presented w).free = s.free + freePerAcceptance := rfl
@[simp] theorem State.presented_held (s : State) (w : Word) : (s.presented w).held = s.free := rfl

@[simp] theorem State.hostRead_cfg (s : State) (w : Width) (a : BitVec 18) : (s.hostRead w a).cfg = s.cfg := rfl
@[simp] theorem State.hostRead_ctrl (s : State) (w : Width) (a : BitVec 18) : (s.hostRead w a).ctrl = s.ctrl := rfl
@[simp] theorem State.hostRead_cmd (s : State) (w : Width) (a : BitVec 18) : (s.hostRead w a).cmd = s.cmd := rfl
@[simp] theorem State.hostRead_status (s : State) (w : Width) (a : BitVec 18) : (s.hostRead w a).status = s.status := rfl
@[simp] theorem State.hostRead_errcode (s : State) (w : Width) (a : BitVec 18) : (s.hostRead w a).errcode = s.errcode := rfl
@[simp] theorem State.hostRead_tblstat (s : State) (w : Width) (a : BitVec 18) : (s.hostRead w a).tblstat = s.tblstat := rfl
@[simp] theorem State.hostRead_args (s : State) (w : Width) (a : BitVec 18) : (s.hostRead w a).args = s.args := rfl
@[simp] theorem State.hostRead_res0 (s : State) (w : Width) (a : BitVec 18) : (s.hostRead w a).res0 = s.res0 := rfl
@[simp] theorem State.hostRead_res1 (s : State) (w : Width) (a : BitVec 18) : (s.hostRead w a).res1 = s.res1 := rfl
@[simp] theorem State.hostRead_imem (s : State) (w : Width) (a : BitVec 18) : (s.hostRead w a).imem = s.imem := rfl
@[simp] theorem State.hostRead_omem (s : State) (w : Width) (a : BitVec 18) : (s.hostRead w a).omem = s.omem := rfl
@[simp] theorem State.hostRead_pend (s : State) (w : Width) (a : BitVec 18) : (s.hostRead w a).pend = s.pend := rfl
@[simp] theorem State.hostRead_inputs (s : State) (w : Width) (a : BitVec 18) : (s.hostRead w a).inputs = s.inputs := rfl
@[simp] theorem State.hostRead_reply (s : State) (w : Width) (a : BitVec 18) : (s.hostRead w a).reply = some (readReply (s.load (Cfg.target s.cfg w a))) := rfl
@[simp] theorem State.hostRead_rng (s : State) (w : Width) (a : BitVec 18) : (s.hostRead w a).rng = s.rng := rfl
@[simp] theorem State.hostRead_free (s : State) (w : Width) (a : BitVec 18) : (s.hostRead w a).free = s.free + 4 := rfl
@[simp] theorem State.hostRead_held (s : State) (w : Width) (a : BitVec 18) : (s.hostRead w a).held = s.held := rfl

@[simp] theorem State.hostWrite_cfg (s : State) (w : Width) (a : BitVec 18) (d : Word) : (s.hostWrite w a d).cfg = (s.store (Cfg.target s.cfg w a) d).cfg := rfl
@[simp] theorem State.hostWrite_ctrl (s : State) (w : Width) (a : BitVec 18) (d : Word) : (s.hostWrite w a d).ctrl = (s.store (Cfg.target s.cfg w a) d).ctrl := rfl
@[simp] theorem State.hostWrite_cmd (s : State) (w : Width) (a : BitVec 18) (d : Word) : (s.hostWrite w a d).cmd = (s.store (Cfg.target s.cfg w a) d).cmd := rfl
@[simp] theorem State.hostWrite_status (s : State) (w : Width) (a : BitVec 18) (d : Word) : (s.hostWrite w a d).status = (s.store (Cfg.target s.cfg w a) d).status := rfl
@[simp] theorem State.hostWrite_errcode (s : State) (w : Width) (a : BitVec 18) (d : Word) : (s.hostWrite w a d).errcode = (s.store (Cfg.target s.cfg w a) d).errcode := rfl
@[simp] theorem State.hostWrite_tblstat (s : State) (w : Width) (a : BitVec 18) (d : Word) : (s.hostWrite w a d).tblstat = (s.store (Cfg.target s.cfg w a) d).tblstat := rfl
@[simp] theorem State.hostWrite_args (s : State) (w : Width) (a : BitVec 18) (d : Word) : (s.hostWrite w a d).args = (s.store (Cfg.target s.cfg w a) d).args := rfl
@[simp] theorem State.hostWrite_res0 (s : State) (w : Width) (a : BitVec 18) (d : Word) : (s.hostWrite w a d).res0 = (s.store (Cfg.target s.cfg w a) d).res0 := rfl
@[simp] theorem State.hostWrite_res1 (s : State) (w : Width) (a : BitVec 18) (d : Word) : (s.hostWrite w a d).res1 = (s.store (Cfg.target s.cfg w a) d).res1 := rfl
@[simp] theorem State.hostWrite_imem (s : State) (w : Width) (a : BitVec 18) (d : Word) : (s.hostWrite w a d).imem = (s.store (Cfg.target s.cfg w a) d).imem := rfl
@[simp] theorem State.hostWrite_omem (s : State) (w : Width) (a : BitVec 18) (d : Word) : (s.hostWrite w a d).omem = (s.store (Cfg.target s.cfg w a) d).omem := rfl
@[simp] theorem State.hostWrite_pend (s : State) (w : Width) (a : BitVec 18) (d : Word) : (s.hostWrite w a d).pend = (s.store (Cfg.target s.cfg w a) d).pend := rfl
@[simp] theorem State.hostWrite_inputs (s : State) (w : Width) (a : BitVec 18) (d : Word) : (s.hostWrite w a d).inputs = (s.store (Cfg.target s.cfg w a) d).inputs := rfl
@[simp] theorem State.hostWrite_reply (s : State) (w : Width) (a : BitVec 18) (d : Word) : (s.hostWrite w a d).reply = some (Target.writeReply (Cfg.target s.cfg w a)) := rfl
@[simp] theorem State.hostWrite_rng (s : State) (w : Width) (a : BitVec 18) (d : Word) : (s.hostWrite w a d).rng = (s.store (Cfg.target s.cfg w a) d).rng := rfl
@[simp] theorem State.hostWrite_free (s : State) (w : Width) (a : BitVec 18) (d : Word) : (s.hostWrite w a d).free = (s.store (Cfg.target s.cfg w a) d).free := rfl
@[simp] theorem State.hostWrite_held (s : State) (w : Width) (a : BitVec 18) (d : Word) : (s.hostWrite w a d).held = (s.store (Cfg.target s.cfg w a) d).held := rfl

/-! ### Writes that BUSY turns into a hazard -/

theorem State.writeCmd_idle (s : State) (d : Word) (h : s.status.busy = false) :
    s.writeCmd d = s.accept d := by simp [State.writeCmd, h]

theorem State.writeCmd_busy (s : State) (d : Word) (h : s.status.busy = true) :
    s.writeCmd d = s.hazard := by simp [State.writeCmd, h]

theorem State.writeArg_idle (s : State) (i : BitVec 2) (d : Word) (h : s.status.busy = false) :
    s.writeArg i d = { s with args := s.args.set i (.ofWord d) } := by simp [State.writeArg, h]

theorem State.writeArg_busy (s : State) (i : BitVec 2) (d : Word) (h : s.status.busy = true) :
    s.writeArg i d = s.hazard := by simp [State.writeArg, h]

theorem State.writeImem_idle (s : State) (off : Nat) (d : Word) (h : s.status.busy = false) :
    s.writeImem off d = { s with imem := s.imem.writeWord off d } := by simp [State.writeImem, h]

theorem State.writeImem_busy (s : State) (off : Nat) (d : Word) (h : s.status.busy = true) :
    s.writeImem off d = s.hazard := by simp [State.writeImem, h]

/-- What no host write changes (20_memory.md R66, R67). -/
theorem State.store_frame (s : State) (t : Target) (d : Word) :
    (s.store t d).cfg = s.cfg ∧ (s.store t d).tblstat = s.tblstat ∧ (s.store t d).omem = s.omem
      ∧ (s.store t d).inputs = s.inputs ∧ (s.store t d).rng = s.rng ∧ (s.store t d).reply = s.reply := by
  cases t <;>
    simp only [State.store, State.writeCmd, State.writeArg, State.writeImem, State.writeCtrl,
      State.acknowledge] <;>
    (try split) <;> simp [State.hazard, State.accept]

end Sys2Proof.Machine
end

