-- ==== Sys2Proof/Laws/Run.lean ====
section
/-! SUPPORT. What a command's completion can do, said once: the four ways `runCommand` answers, and that
every command of the table is such a completion (10_state.md R31; 60_exceptions.md R325). -/

namespace Sys2Proof.Machine

set_option Elab.async false

/-- A command whose word, curve, kind, form or map is not allowed (30_encoding.md R96). -/
theorem runCommand_illegal {s : State} {p : Pending} {c : BitVec 4} {d : Demand}
    (rule : Ctx → Operands → Option Ending) (hp : s.pend = some p) (hc : d.curve? s.cfg c = none) :
    runCommand s c d rule = .next (s.raise .illegalCommand) := by
  simp [runCommand, hp, hc]

/-- A command with a descriptor that reaches beyond IMEM (20_memory.md R69). -/
theorem runCommand_badDescriptor {s : State} {p : Pending} {c : BitVec 4} {d : Demand} {C : Ctx}
    (rule : Ctx → Operands → Option Ending) (hp : s.pend = some p)
    (hc : d.curve? s.cfg c = some C) (ha : p.args.inImem s.cfg d.nargs = false) :
    runCommand s c d rule = .next (s.raise .badDescriptor) := by
  simp [runCommand, hp, hc, ha]

/-- A command that gets as far as its own rule (60_exceptions.md R325). -/
theorem runCommand_rule {s : State} {p : Pending} {c : BitVec 4} {d : Demand} {C : Ctx}
    (rule : Ctx → Operands → Option Ending) (hp : s.pend = some p)
    (hc : d.curve? s.cfg c = some C) (ha : p.args.inImem s.cfg d.nargs = true) :
    runCommand s c d rule =
      match rule C (s.operands p) with
      | none => .fault .nonceNeverAccepted
      | some e => .next (s.complete c e) := by
  cases hr : rule C (s.operands p) <;> simp [runCommand, hp, hc, ha, hr]

/-- A command that always ends, as far as its own rule. -/
theorem runTotal_rule {s : State} {p : Pending} {c : BitVec 4} {d : Demand} {C : Ctx}
    (rule : Ctx → Operands → Ending) (hp : s.pend = some p)
    (hc : d.curve? s.cfg c = some C) (ha : p.args.inImem s.cfg d.nargs = true) :
    runTotal s c d rule = .next (s.complete c (rule C (s.operands p))) := by
  simp [runTotal, runCommand, hp, hc, ha]

/-- The curve of a legal command is one of the configuration's (30_encoding.md R96 step 3). -/
theorem Demand.curve_lt {d : Demand} {g : Cfg} {c : BitVec 4} {C : Ctx}
    (h : d.curve? g c = some C) : c.toNat < g.ncurves := by
  unfold Demand.curve? at h
  split at h
  · cases h
  · next C' hC =>
    unfold Cfg.ctx? at hC
    split at hC
    · cases hC
    · next hg => exact (List.getElem?_eq_some_iff.1 hg).1

/-- How the completion of a command on curve c leaves the state: it completes with some ending, and an
ending that built the table is that of a command on an existing curve. -/
def completes (s : State) (c : BitVec 4) (t : State) : Prop :=
  s.pend.isSome = true ∧ ∃ e, t = s.complete c e ∧ (e.table = true → c.toNat < s.cfg.ncurves)

theorem raise_completes {s : State} {p : Pending} (hp : s.pend = some p) (c : BitVec 4) (f : Failure) :
    completes s c (s.raise f) :=
  ⟨by simp [hp], .fail f, rfl, by simp [Ending.fail, Ending.plain]⟩

/-- Everything a command can do when it answers a next state. -/
theorem runCommand_next {s t : State} {c : BitVec 4} {d : Demand}
    {rule : Ctx → Operands → Option Ending} (h : runCommand s c d rule = .next t) :
    completes s c t := by
  unfold runCommand at h
  split at h
  · cases h
  · next p hp =>
    split at h
    · cases h; exact raise_completes hp _ _
    · next C hC =>
      split at h
      · split at h
        · cases h
        · next e _ => cases h; exact ⟨by simp [hp], e, rfl, fun _ => Demand.curve_lt hC⟩
      · cases h; exact raise_completes hp _ _

theorem runTotal_next {s t : State} {c : BitVec 4} {d : Demand} {rule : Ctx → Operands → Ending}
    (h : runTotal s c d rule = .next t) : completes s c t := runCommand_next h

/-- What `exec` does with an instruction: one completion, on the curve its word names, with the FORM field its
word has and the arguments the opcode table lists. -/
def runs (i : Instr) : Prop :=
  ∃ d rule, (∀ s, exec i s = runCommand s i.fields.curve d rule) ∧ d.form = i.fields.form
    ∧ d.nargs = argCount i

theorem runs_of_command {i : Instr} {d : Demand} {rule : Ctx → Operands → Option Ending}
    (f : State → Host.Outcome State Fault Refusal) (h1 : ∀ s, exec i s = f s)
    (h2 : ∀ s, f s = runCommand s i.fields.curve d rule) (h3 : d.form = i.fields.form)
    (h4 : d.nargs = argCount i) : runs i :=
  ⟨d, rule, fun s => (h1 s).trans (h2 s), h3, h4⟩

theorem runs_of_total {i : Instr} {d : Demand} {rule : Ctx → Operands → Ending}
    (f : State → Host.Outcome State Fault Refusal) (h1 : ∀ s, exec i s = f s)
    (h2 : ∀ s, f s = runTotal s i.fields.curve d rule) (h3 : d.form = i.fields.form)
    (h4 : d.nargs = argCount i) : runs i :=
  runs_of_command f h1 h2 h3 h4

/-- Every command of the table is one completion (30_encoding.md R97). -/
theorem exec_runs (i : Instr) : runs i := by
  cases i with
  | madd c m x => exact runs_of_total (execMadd c m x) (fun _ => rfl) (fun _ => rfl) rfl rfl
  | msub c m x => exact runs_of_total (execMsub c m x) (fun _ => rfl) (fun _ => rfl) rfl rfl
  | mmul c m x => exact runs_of_total (execMmul c m x) (fun _ => rfl) (fun _ => rfl) rfl rfl
  | msqr c m x => exact runs_of_total (execMsqr c m x) (fun _ => rfl) (fun _ => rfl) rfl rfl
  | minv c m x => exact runs_of_total (execMinv c m x) (fun _ => rfl) (fun _ => rfl) rfl rfl
  | msqrt c x => exact runs_of_total (execMsqrt c x) (fun _ => rfl) (fun _ => rfl) rfl rfl
  | pchk c => exact runs_of_total (execPchk c) (fun _ => rfl) (fun _ => rfl) rfl rfl
  | padd c f => exact runs_of_total (execPadd c f) (fun _ => rfl) (fun _ => rfl) rfl rfl
  | pdbl c f => exact runs_of_total (execPdbl c f) (fun _ => rfl) (fun _ => rfl) rfl rfl
  | pneg c f => exact runs_of_total (execPneg c f) (fun _ => rfl) (fun _ => rfl) rfl rfl
  | pcomb c f => exact runs_of_total (execPcomb c f) (fun _ => rfl) (fun _ => rfl) rfl rfl
  | pmulg c f x => exact runs_of_total (execPmulg c f x) (fun _ => rfl) (fun _ => rfl) rfl rfl
  | pmul c f x => exact runs_of_total (execPmul c f x) (fun _ => rfl) (fun _ => rfl) rfl rfl
  | penc c f => exact runs_of_total (execPenc c f) (fun _ => rfl) (fun _ => rfl) rfl rfl
  | pdec c => exact runs_of_total (execPdec c) (fun _ => rfl) (fun _ => rfl) rfl rfl
  | skgen c => exact runs_of_total (execSkgen c) (fun _ => rfl) (fun _ => rfl) rfl rfl
  | skvfy c => exact runs_of_total (execSkvfy c) (fun _ => rfl) (fun _ => rfl) rfl rfl
  | skred c => exact runs_of_total (execSkred c) (fun _ => rfl) (fun _ => rfl) rfl rfl
  | skneg c => exact runs_of_total (execSkneg c) (fun _ => rfl) (fun _ => rfl) rfl rfl
  | skinv c => exact runs_of_total (execSkinv c) (fun _ => rfl) (fun _ => rfl) rfl rfl
  | sktadd c => exact runs_of_total (execSktadd c) (fun _ => rfl) (fun _ => rfl) rfl rfl
  | sktmul c => exact runs_of_total (execSktmul c) (fun _ => rfl) (fun _ => rfl) rfl rfl
  | pkcrt c f => exact runs_of_total (execPkcrt c f) (fun _ => rfl) (fun _ => rfl) rfl rfl
  | pktadd c f => exact runs_of_total (execPktadd c f) (fun _ => rfl) (fun _ => rfl) rfl rfl
  | pktmul c f => exact runs_of_total (execPktmul c f) (fun _ => rfl) (fun _ => rfl) rfl rfl
  | pkneg c f => exact runs_of_total (execPkneg c f) (fun _ => rfl) (fun _ => rfl) rfl rfl
  | pkadd c f => exact runs_of_total (execPkadd c f) (fun _ => rfl) (fun _ => rfl) rfl rfl
  | pkvfy c => exact runs_of_total (execPkvfy c) (fun _ => rfl) (fun _ => rfl) rfl rfl
  | sigtoder c => exact runs_of_total (execSigtoder c) (fun _ => rfl) (fun _ => rfl) rfl rfl
  | sigfromder c => exact runs_of_total (execSigfromder c) (fun _ => rfl) (fun _ => rfl) rfl rfl
  | siglows c => exact runs_of_total (execSiglows c) (fun _ => rfl) (fun _ => rfl) rfl rfl
  | siglowder c => exact runs_of_total (execSiglowder c) (fun _ => rfl) (fun _ => rfl) rfl rfl
  | signorm c => exact runs_of_total (execSignorm c) (fun _ => rfl) (fun _ => rfl) rfl rfl
  | signormder c => exact runs_of_total (execSignormder c) (fun _ => rfl) (fun _ => rfl) rfl rfl
  | ecsign c d => exact runs_of_command (execEcsign c d) (fun _ => rfl) (fun _ => rfl) rfl rfl
  | ecsignr c d => exact runs_of_command (execEcsignr c d) (fun _ => rfl) (fun _ => rfl) rfl rfl
  | ecvfy c d => exact runs_of_total (execEcvfy c d) (fun _ => rfl) (fun _ => rfl) rfl rfl
  | ecrcv c f d r => exact runs_of_total (execEcrcv c f d r) (fun _ => rfl) (fun _ => rfl) rfl rfl
  | schvfy c => exact runs_of_total (execSchvfy c) (fun _ => rfl) (fun _ => rfl) rfl rfl
  | schvfyb c => exact runs_of_total (execSchvfyb c) (fun _ => rfl) (fun _ => rfl) rfl rfl
  | h2sswu c f => exact runs_of_total (execH2sswu c f) (fun _ => rfl) (fun _ => rfl) rfl rfl
  | h2icart c f => exact runs_of_total (execH2icart c f) (fun _ => rfl) (fun _ => rfl) rfl rfl
  | h2svdw c f => exact runs_of_total (execH2svdw c f) (fun _ => rfl) (fun _ => rfl) rfl rfl
  | h2hash c f => exact runs_of_total (execH2hash c f) (fun _ => rfl) (fun _ => rfl) rfl rfl
  | edexp c => exact runs_of_total (execEdexp c) (fun _ => rfl) (fun _ => rfl) rfl rfl
  | edpub c => exact runs_of_total (execEdpub c) (fun _ => rfl) (fun _ => rfl) rfl rfl
  | edsign c => exact runs_of_total (execEdsign c) (fun _ => rfl) (fun _ => rfl) rfl rfl
  | edvfy c => exact runs_of_total (execEdvfy c) (fun _ => rfl) (fun _ => rfl) rfl rfl
  | edpktadd c => exact runs_of_total (execEdpktadd c) (fun _ => rfl) (fun _ => rfl) rfl rfl
  | edsignt c => exact runs_of_total (execEdsignt c) (fun _ => rfl) (fun _ => rfl) rfl rfl
  | edtomont c => exact runs_of_total (execEdtomont c) (fun _ => rfl) (fun _ => rfl) rfl rfl
  | edfrommont c g => exact runs_of_total (execEdfrommont c g) (fun _ => rfl) (fun _ => rfl) rfl rfl

/-- Everything any command of the table can do when it answers a next state (10_state.md R31). -/
theorem exec_next {i : Instr} {s t : State} (h : exec i s = .next t) :
    completes s i.fields.curve t := by
  obtain ⟨d, rule, hr, -⟩ := exec_runs i
  exact runCommand_next (hr s ▸ h)

/-- Everything the engine's own step can do: nothing, or the completion of the pending command. -/
theorem engineStep_next {s t : State} (h : s.engineStep = .next t) :
    (s.pend = none ∧ t = s) ∨ ∃ c, completes s c t := by
  unfold State.engineStep at h
  split at h
  · next hp => cases h; exact .inl ⟨hp, rfl⟩
  · next p hp =>
    split at h
    · cases h; exact .inr ⟨0, raise_completes hp _ _⟩
    · exact .inr ⟨_, exec_next h⟩

/-- Everything a step can do when it answers a next state. -/
theorem step_next {s t : State} (h : step s = .next t) :
    (s.inputs = [] ∧ s.pend = none ∧ t = s) ∨ (s.inputs = [] ∧ ∃ c, completes s c t)
      ∨ ∃ e es u, s.inputs = e :: es ∧ u = { s with inputs := es } ∧
        ((∃ w a, e = .read w a ∧ t = u.hostRead w a)
          ∨ (∃ w a d, e = .write w a d ∧ t = u.hostWrite w a d)
          ∨ (e = .reset ∧ t = u.resetEngine)
          ∨ (e = .engine ∧ u.pend = none ∧ t = u)
          ∨ (e = .engine ∧ ∃ c, completes u c t)) := by
  unfold step State.advance at h
  split at h
  · next hi =>
    rcases engineStep_next h with ⟨hp, ht⟩ | hc
    · exact .inl ⟨hi, hp, ht⟩
    · exact .inr (.inl ⟨hi, hc⟩)
  · next e es hi =>
    refine .inr (.inr ⟨e, es, _, hi, rfl, ?_⟩)
    cases e with
    | read w a => simp only [State.handle] at h; cases h; exact .inl ⟨w, a, rfl, rfl⟩
    | write w a d => simp only [State.handle] at h; cases h; exact .inr (.inl ⟨w, a, d, rfl, rfl⟩)
    | reset => simp only [State.handle] at h; cases h; exact .inr (.inr (.inl ⟨rfl, rfl⟩))
    | engine =>
      rcases engineStep_next h with ⟨hp, ht⟩ | hc
      · exact .inr (.inr (.inr (.inl ⟨rfl, hp, ht⟩)))
      · exact .inr (.inr (.inr (.inr ⟨rfl, hc⟩)))

end Sys2Proof.Machine
end

