-- ==== Sys2Proof/Laws/Claims.lean ====
section
/-! SUPPORT. From the conditions statements are made under (`Ready`, `FormOk`, the kinds) to what a command
does, and from its ending to the state written out field by field. -/

namespace Sys2Proof.Machine

set_option Elab.async false

theorem allows_both (C : Curve) : Kinds.both.allows C = true := rfl

theorem allows_onlyW {C : Curve} (h : kindW C) : Kinds.onlyW.allows C = true := by
  obtain ⟨a, b, h⟩ := h
  simp only [Kinds.allows, h]

theorem allows_onlyE {C : Curve} (h : kindE C) : Kinds.onlyE.allows C = true := by
  obtain ⟨a, b, h⟩ := h
  simp only [Kinds.allows, h]

theorem formAllowed_iff (C : Curve) (f : PointForm) : formAllowed f C = true ↔ FormOk C f := by
  unfold FormOk kindE
  cases f <;> cases hs : C.shape <;> simp [formAllowed, hs]

theorem formOk_uncompressed (C : Curve) : FormOk C .uncompressed := ⟨by simp, fun _ => rfl⟩

/-- The descriptors of a ready command pass the check (20_memory.md R69). -/
theorem Ready.inImem {s : State} {c : BitVec 4} {n : Nat} {p : Pending} {C : Ctx}
    (h : Ready s c n p C) : p.args.inImem s.cfg n = true := by
  have h0 := h.fits0
  have h1 := h.fits1
  have h2 := h.fits2
  simp only [Args.inImem, Desc.inImem, Bool.and_eq_true, Bool.or_eq_true, decide_eq_true_eq]
  omega

/-- The curve of a ready and legal command. -/
theorem Ready.curve? {s : State} {c : BitVec 4} {n : Nat} {p : Pending} {C : Ctx}
    (h : Ready s c n p C) {k : Kinds} {f : PointForm} {m : MapNeed} (hk : k.allows C.toCurve = true)
    (hf : FormOk C.toCurve f) (hm : m.met C.toCurve = true) :
    (Demand.mk k f m n).curve? s.cfg c = some C := by
  have hf' := (formAllowed_iff C.toCurve f).2 hf
  simp only [Demand.curve?, h.curve, hk, hf', hm, Bool.and_self, if_true]

/-- What a ready and legal command does, ECSIGN and ECSIGNR apart. -/
theorem runTotal_ready {s : State} {c : BitVec 4} {n : Nat} {p : Pending} {C : Ctx}
    (h : Ready s c n p C) {k : Kinds} {f : PointForm} {m : MapNeed} (rule : Ctx → Operands → Ending)
    (hk : k.allows C.toCurve = true) (hf : FormOk C.toCurve f) (hm : m.met C.toCurve = true) :
    runTotal s c ⟨k, f, m, n⟩ rule = .next (s.complete c (rule C (s.operands p))) :=
  runTotal_rule rule h.pending (h.curve? hk hf hm) h.inImem

/-- What a ready ECSIGN or ECSIGNR does. -/
theorem runCommand_ready {s : State} {c : BitVec 4} {n : Nat} {p : Pending} {C : Ctx}
    (h : Ready s c n p C) {k : Kinds} {f : PointForm} {m : MapNeed}
    (rule : Ctx → Operands → Option Ending)
    (hk : k.allows C.toCurve = true) (hf : FormOk C.toCurve f) (hm : m.met C.toCurve = true) :
    runCommand s c ⟨k, f, m, n⟩ rule =
      match rule C (s.operands p) with
      | none => .fault .nonceNeverAccepted
      | some e => .next (s.complete c e) :=
  runCommand_rule rule h.pending (h.curve? hk hf hm) h.inImem

/-! ### The maps of 46_hash_to_curve.md -/

/-- An affine point of the curve (41_curve_group.md R140). -/
def AffineOn (C : Curve) (P : Point) : Prop := ∃ x y, P = .aff x y ∧ onCurve C x y = true

/-- Whatever Q is, the result is an affine point of the curve where P is one. -/
theorem affineOr_affine {C : Curve} {P : Point} (h : AffineOn C P) (Q : Point) :
    AffineOn C (affineOr C P Q) := by
  cases Q with
  | inf => exact h
  | aff x y =>
    simp only [affineOr]
    split
    · next hq => exact ⟨x, y, rfl, hq⟩
    · exact h

/-- An image that is an affine point of the curve is kept. -/
theorem affineOr_of_affine {C : Curve} {Q : Point} (h : AffineOn C Q) (P : Point) :
    affineOr C P Q = Q := by
  obtain ⟨x, y, rfl, hq⟩ := h
  simp only [affineOr, hq, if_true]

/-- The map of a curve gives an affine point of it (46_hash_to_curve.md R270), given that G is one. -/
theorem mapToCurve_affine (C : Ctx) (hG : onCurve C.toCurve C.gx C.gy = true) (u : Nat) :
    AffineOn C.toCurve (mapToCurve C u) := by
  have hp : AffineOn C.toCurve (portMap C.toCurve u) := affineOr_affine ⟨_, _, rfl, hG⟩ _
  unfold mapToCurve
  split
  · exact hp
  · exact affineOr_affine hp _

/-! ### Endings as states -/

theorem complete_one (s : State) (c : BitVec 4) (B : Bytes) :
    s.complete c (.one B) = s.succeed B := rfl

theorem complete_two (s : State) (c : BitVec 4) (B0 B1 : Bytes) :
    s.complete c (.two B0 B1) = s.succeedTwo B0 B1 := rfl

theorem complete_fail (s : State) (c : BitVec 4) (f : Failure) :
    s.complete c (.fail f) = s.failWith f.code := rfl

theorem raise_eq (s : State) (f : Failure) : s.raise f = s.failWith f.code := rfl

theorem complete_predicate (s : State) (c : BitVec 4) (b : Bool) :
    s.complete c (.plain (.predicate b)) = s.answer b := rfl

theorem complete_verified (s : State) (c : BitVec 4) (b : Bool) :
    s.complete c (.plain (.verified b)) = s.verdict b := by cases b <;> rfl

theorem complete_null (s : State) (c : BitVec 4) : s.complete c (.plain .null) = s.nullResult := rfl

/-- A completion that evaluated `MulG_C` sets the table bit besides (R33). -/
theorem complete_afterMulG (s : State) (c : BitVec 4) (r : Report) :
    s.complete c (.afterMulG r) = (s.complete c (.plain r)).withTable c := by
  unfold State.complete Ending.afterMulG Ending.plain State.withTable tableAfter
  simp

theorem complete_results (s : State) (c : BitVec 4) (B : Bytes) (id : BitVec 2) :
    s.complete c (.plain (.results B none id)) = s.succeedId B id := rfl

theorem complete_failure (s : State) (c : BitVec 4) (f : Failure) :
    s.complete c (.plain (.failure f)) = s.failWith f.code := rfl

end Sys2Proof.Machine
end

