-- ==== Sys2Proof/Laws/Encoding.lean ====
section
/-! SUPPORT. Laws of the command word: the fields of a word that was put together from its fields
(30_encoding.md R90, R109), and the row each OP value has (R97). -/

namespace Sys2Proof.Laws

set_option Elab.async false

theorem modulus_ofBit_bit (m : Modulus) : Modulus.ofBit m.bit = m := by cases m <;> rfl

theorem form_ofBits_bits (f : PointForm) : PointForm.ofBits f.bits = f := by cases f <;> rfl

/-- The number of a word put together from its fields (R109). -/
theorem toNat_wordOf (op : BitVec 8) (f : Fields) :
    (wordOf op f).toNat = op.toNat + f.curve.toNat * 2 ^ 8 + f.modulus.bit.toNat * 2 ^ 12
      + f.sec.toNat * 2 ^ 13 + f.form.bits.toNat * 2 ^ 14 + f.der.toNat * 2 ^ 16
      + f.rid.toNat * 2 ^ 17 + f.sign.toNat * 2 ^ 19 := by
  have h1 := op.isLt
  have h2 := f.curve.isLt
  have h3 := f.form.bits.isLt
  have h4 := f.rid.isLt
  have h5 := Bool.toNat_lt f.modulus.bit
  have h6 := Bool.toNat_lt f.sec
  have h7 := Bool.toNat_lt f.der
  have h8 := Bool.toNat_lt f.sign
  simp only [wordOf, BitVec.toNat_add, BitVec.toNat_shiftLeft, BitVec.toNat_setWidth,
    BitVec.toNat_ofBool, Nat.shiftLeft_eq]
  omega

/-- OP of a word put together from its fields (R90). -/
theorem opOf_wordOf (op : BitVec 8) (f : Fields) : opOf (wordOf op f) = op := by
  apply BitVec.eq_of_toNat_eq
  have h1 := op.isLt
  simp only [opOf, BitVec.extractLsb'_toNat, toNat_wordOf, Nat.shiftRight_eq_div_pow]
  omega

/-- A bit of a word put together from its fields, as a number. -/
theorem getLsbD_wordOf (op : BitVec 8) (f : Fields) (i : Nat) :
    (wordOf op f).getLsbD i = decide ((wordOf op f).toNat / 2 ^ i % 2 = 1) := by
  rw [← BitVec.testBit_toNat, Nat.testBit_eq_decide_div_mod_eq]

/-- Every field of a word put together from its fields (R90). -/
theorem fieldsOf_wordOf (op : BitVec 8) (f : Fields) : fieldsOf (wordOf op f) = f := by
  have h1 := op.isLt
  have h2 := f.curve.isLt
  have h3 := f.form.bits.isLt
  have h4 := f.rid.isLt
  have h5 := Bool.toNat_lt f.modulus.bit
  have h6 := Bool.toNat_lt f.sec
  have h7 := Bool.toNat_lt f.der
  have h8 := Bool.toNat_lt f.sign
  have hw := toNat_wordOf op f
  have b (x : Bool) (n : Nat) (h : n % 2 = x.toNat) : decide (n % 2 = 1) = x := by
    cases x <;> simp_all
  have c : (wordOf op f).extractLsb' 8 4 = f.curve := by
    apply BitVec.eq_of_toNat_eq
    simp only [BitVec.extractLsb'_toNat, hw, Nat.shiftRight_eq_div_pow]
    omega
  have fo : (wordOf op f).extractLsb' 14 2 = f.form.bits := by
    apply BitVec.eq_of_toNat_eq
    simp only [BitVec.extractLsb'_toNat, hw, Nat.shiftRight_eq_div_pow]
    omega
  have r : (wordOf op f).extractLsb' 17 2 = f.rid := by
    apply BitVec.eq_of_toNat_eq
    simp only [BitVec.extractLsb'_toNat, hw, Nat.shiftRight_eq_div_pow]
    omega
  have m : (wordOf op f).getLsbD 12 = f.modulus.bit := by
    rw [getLsbD_wordOf]; apply b; rw [hw]; omega
  have se : (wordOf op f).getLsbD 13 = f.sec := by
    rw [getLsbD_wordOf]; apply b; rw [hw]; omega
  have de : (wordOf op f).getLsbD 16 = f.der := by
    rw [getLsbD_wordOf]; apply b; rw [hw]; omega
  have si : (wordOf op f).getLsbD 19 = f.sign := by
    rw [getLsbD_wordOf]; apply b; rw [hw]; omega
  simp only [fieldsOf, c, fo, r, m, se, de, si, modulus_ofBit_bit, form_ofBits_bits]

end Sys2Proof.Laws
end

