-- ==== Sys2Proof/Laws/GroupW.lean ====
section
/-! SUPPORT. The kind-W group law of the model is the group law of the Weierstrass curve over `F_p` that
Mathlib has (41_curve_group.md R143), so sums are associative and commutative, and double-and-add gives
the value R145 defines by repeated addition (log 14). -/

namespace Sys2Proof.Machine

theorem cast_subm {p : Nat} (h : 0 < p) (a b : Nat) : ((subm p a b : Nat) : ZMod p) = a - b := by
  have hb : b % p ≤ p := (Nat.mod_lt b h).le
  unfold subm
  rw [ZMod.natCast_mod, Nat.cast_add, Nat.cast_sub hb]
  simp [sub_eq_add_neg]

theorem subm_lt {p : Nat} (h : 0 < p) (a b : Nat) : subm p a b < p := Nat.mod_lt _ h

theorem cast_inv {p : Nat} (hp : p.Prime) (h2 : p ≠ 2) (v : Nat) :
    ((inv p v : Nat) : ZMod p) = (v : ZMod p)⁻¹ := by
  have : Fact p.Prime := ⟨hp⟩
  have h3 : 2 < p := by have := hp.two_le; omega
  rw [inv, cast_powMod]
  by_cases h : (v : ZMod p) = 0
  · rw [h, inv_zero, zero_pow (by omega)]
  · apply eq_inv_of_mul_eq_one_left
    rw [← pow_succ, show p - 2 + 1 = p - 1 by omega]
    exact ZMod.pow_card_sub_one_eq_one h

/-- A kind-W curve whose equation is that of a group (00_scope.md R4). -/
structure GoodW (C : Curve) (a b : Nat) : Prop where
  shape : C.shape = .weierstrass a b
  prime : C.p.Prime
  three_lt : 3 < C.p
  smooth : (4 * a ^ 3 + 27 * b ^ 2) % C.p ≠ 0

/-- The Weierstrass curve `y² = x³ + a·x + b` over `F_p`. -/
def curveW (C : Curve) (a b : Nat) : WeierstrassCurve.Affine (ZMod C.p) :=
  { a₁ := 0, a₂ := 0, a₃ := 0, a₄ := a, a₆ := b }

variable {C : Curve} {a b : Nat}

theorem curveW_disc (hg : GoodW C a b) : (curveW C a b).Δ ≠ 0 := by
  have : Fact C.p.Prime := ⟨hg.prime⟩
  have h1 : (curveW C a b).Δ = -((16 : Nat) : ZMod C.p) * ((4 * a ^ 3 + 27 * b ^ 2 : Nat) : ZMod C.p) := by
    simp only [WeierstrassCurve.Δ, WeierstrassCurve.b₂, WeierstrassCurve.b₄, WeierstrassCurve.b₆,
      WeierstrassCurve.b₈, curveW]
    push_cast
    ring
  rw [h1]
  refine mul_ne_zero (neg_ne_zero.2 ?_) ?_
  · rw [Ne, ZMod.natCast_eq_zero_iff]
    intro hd
    have h2 : C.p ∣ 2 := hg.prime.dvd_of_dvd_pow (show C.p ∣ 2 ^ 4 by simpa using hd)
    have := Nat.le_of_dvd (by decide) h2
    have := hg.three_lt
    omega
  · rw [Ne, ZMod.natCast_eq_zero_iff]
    exact fun hd => hg.smooth (Nat.mod_eq_zero_of_dvd hd)

theorem equation_curveW (x y : ZMod C.p) :
    (curveW C a b).Equation x y ↔ y * y = x * x * x + a * x + b := by
  rw [WeierstrassCurve.Affine.equation_iff]
  simp only [curveW]
  constructor <;> intro h <;> linear_combination h

/-- `OnCurve` says that the coordinates are in range and satisfy the equation over `F_p` (R140). -/
theorem onCurve_iff (hg : GoodW C a b) (x y : Nat) :
    onCurve C x y = true ↔ x < C.p ∧ y < C.p ∧ (curveW C a b).Nonsingular x y := by
  rw [← WeierstrassCurve.Affine.equation_iff_nonsingular_of_Δ_ne_zero (curveW_disc hg), equation_curveW]
  unfold onCurve
  rw [hg.shape]
  simp only [Bool.and_eq_true, decide_eq_true_eq, and_assoc]
  refine and_congr_right fun _ => and_congr_right fun _ => ?_
  rw [← ZMod.natCast_eq_natCast_iff']
  push_cast
  rfl

open Classical in
/-- A point of the model as a point of the Weierstrass curve. -/
noncomputable def toW (C : Curve) (a b : Nat) : Point → (curveW C a b).Point
  | .inf => 0
  | .aff x y => if h : (curveW C a b).Nonsingular x y then .some _ _ h else 0

theorem toW_aff {x y : Nat} {X Y : ZMod C.p} (hx : (x : ZMod C.p) = X) (hy : (y : ZMod C.p) = Y)
    (h : (curveW C a b).Nonsingular X Y) : toW C a b (.aff x y) = .some X Y h := by
  subst hx hy
  simp only [toW, h, dite_true]

theorem validPoint_aff (C : Curve) (x y : Nat) :
    validPoint C (.aff x y) = onCurve C x y := rfl

/-- Different points of the curve are different points of the Weierstrass curve. -/
theorem toW_injective (hg : GoodW C a b) {P Q : Point} (hP : validPoint C P = true)
    (hQ : validPoint C Q = true) (h : toW C a b P = toW C a b Q) : P = Q := by
  have cast_inj {u v : Nat} (hu : u < C.p) (hv : v < C.p) (huv : (u : ZMod C.p) = v) : u = v := by
    rw [ZMod.natCast_eq_natCast_iff', Nat.mod_eq_of_lt hu, Nat.mod_eq_of_lt hv] at huv
    exact huv
  cases P with
  | inf =>
    cases Q with
    | inf => rfl
    | aff x y =>
      obtain ⟨_, _, hn⟩ := (onCurve_iff hg x y).1 hQ
      rw [toW_aff rfl rfl hn] at h
      exact absurd h.symm (WeierstrassCurve.Affine.Point.some_ne_zero hn)
  | aff x1 y1 =>
    obtain ⟨hx1, hy1, hn1⟩ := (onCurve_iff hg x1 y1).1 hP
    rw [toW_aff rfl rfl hn1] at h
    cases Q with
    | inf => exact absurd h (WeierstrassCurve.Affine.Point.some_ne_zero hn1)
    | aff x2 y2 =>
      obtain ⟨hx2, hy2, hn2⟩ := (onCurve_iff hg x2 y2).1 hQ
      rw [toW_aff rfl rfl hn2] at h
      injection h with h1 h2
      rw [cast_inj hx1 hx2 h1, cast_inj hy1 hy2 h2]

/-- `Add` of R143 is the addition of the Weierstrass curve, and stays on the curve. -/
theorem add_toW [Fact C.p.Prime] [DecidableEq (ZMod C.p)] (hg : GoodW C a b) {P Q : Point}
    (hP : validPoint C P = true) (hQ : validPoint C Q = true) :
    validPoint C (add C P Q) = true ∧ toW C a b (add C P Q) = toW C a b P + toW C a b Q := by
  have hpos : 0 < C.p := hg.prime.pos
  have hadd : add C P Q = addW C.p a P Q := by simp only [add, hg.shape]
  rw [hadd]
  cases P with
  | inf => exact ⟨by simpa [addW] using hQ, by simp [addW, toW]⟩
  | aff x1 y1 =>
    cases Q with
    | inf => exact ⟨by simpa [addW] using hP, by simp [addW, toW]⟩
    | aff x2 y2 =>
      obtain ⟨hx1, hy1, hn1⟩ := (onCurve_iff hg x1 y1).1 hP
      obtain ⟨hx2, hy2, hn2⟩ := (onCurve_iff hg x2 y2).1 hQ
      rw [toW_aff rfl rfl hn1, toW_aff rfl rfl hn2]
      have hxx : x1 = x2 ↔ (x1 : ZMod C.p) = x2 := by
        rw [ZMod.natCast_eq_natCast_iff', Nat.mod_eq_of_lt hx1, Nat.mod_eq_of_lt hx2]
      have hneg (x y : ZMod C.p) : (curveW C a b).negY x y = -y := by
        simp [WeierstrassCurve.Affine.negY, curveW]
      have hyy : (y1 + y2) % C.p = 0 ↔ (y1 : ZMod C.p) = (curveW C a b).negY x2 y2 := by
        rw [hneg, ← Nat.dvd_iff_mod_eq_zero, ← ZMod.natCast_eq_zero_iff, Nat.cast_add,
          eq_neg_iff_add_eq_zero]
      simp only [addW]
      by_cases hc : x1 = x2 ∧ (y1 + y2) % C.p = 0
      · rw [if_pos hc]
        refine ⟨by simp [validPoint, hg.shape], ?_⟩
        rw [WeierstrassCurve.Affine.Point.add_of_Y_eq (hxx.1 hc.1) (hyy.1 hc.2)]
        rfl
      · rw [if_neg hc]
        have hxy : ¬ ((x1 : ZMod C.p) = x2 ∧ (y1 : ZMod C.p) = (curveW C a b).negY x2 y2) :=
          fun h => hc ⟨hxx.2 h.1, hyy.2 h.2⟩
        set lam := if x1 = x2 then (3 * x1 * x1 + a) * inv C.p (2 * y1) % C.p
          else subm C.p y2 y1 * inv C.p (subm C.p x2 x1) % C.p with hlam
        have hp2 : C.p ≠ 2 := by have := hg.three_lt; omega
        have hl : (lam : ZMod C.p) = (curveW C a b).slope x1 x2 y1 y2 := by
          by_cases hx : x1 = x2
          · have hy : (y1 : ZMod C.p) ≠ (curveW C a b).negY x2 y2 :=
              fun h => hxy ⟨hxx.1 hx, h⟩
            rw [hlam, if_pos hx, WeierstrassCurve.Affine.slope_of_Y_ne (hxx.1 hx) hy,
              ZMod.natCast_mod, hneg, Nat.cast_mul, cast_inv hg.prime hp2]
            simp only [curveW]
            push_cast
            rw [div_eq_mul_inv]
            congr 1
            · ring
            · congr 1; ring
          · have hx' : (x1 : ZMod C.p) ≠ x2 := fun h => hx (hxx.2 h)
            rw [hlam, if_neg hx, WeierstrassCurve.Affine.slope_of_X_ne hx', ZMod.natCast_mod,
              Nat.cast_mul, cast_inv hg.prime hp2, cast_subm hpos, cast_subm hpos, ← neg_sub (y1 : ZMod C.p),
              ← neg_sub (x1 : ZMod C.p), div_eq_mul_inv, inv_neg, neg_mul_neg]
        have hX : ((subm C.p (subm C.p (lam * lam) x1) x2 : Nat) : ZMod C.p)
            = (curveW C a b).addX x1 x2 ((curveW C a b).slope x1 x2 y1 y2) := by
          rw [cast_subm hpos, cast_subm hpos, Nat.cast_mul, hl]
          simp only [WeierstrassCurve.Affine.addX, curveW]
          ring
        have hY : ((subm C.p (lam * subm C.p x1 (subm C.p (subm C.p (lam * lam) x1) x2)) y1 : Nat) :
            ZMod C.p) = (curveW C a b).addY x1 x2 y1 ((curveW C a b).slope x1 x2 y1 y2) := by
          rw [cast_subm hpos, Nat.cast_mul, cast_subm hpos, hX, hl]
          simp only [WeierstrassCurve.Affine.addY, WeierstrassCurve.Affine.negAddY, hneg]
          ring
        have hn := WeierstrassCurve.Affine.nonsingular_add hn1 hn2 hxy
        refine ⟨?_, ?_⟩
        · rw [validPoint_aff, onCurve_iff hg]
          refine ⟨subm_lt hpos _ _, subm_lt hpos _ _, ?_⟩
          rw [hX, hY]
          exact hn
        · rw [WeierstrassCurve.Affine.Point.add_some hxy]
          exact toW_aff hX hY hn

theorem toW_inf : toW C a b .inf = 0 := rfl

theorem identity_W (hg : GoodW C a b) : identity C = .inf := by simp only [identity, hg.shape]

theorem validPoint_inf (hg : GoodW C a b) : validPoint C .inf = true := by
  simp only [validPoint, hg.shape]

/-- Double-and-add over k bits is the multiple in the group. -/
theorem mulBits_toW [Fact C.p.Prime] (hg : GoodW C a b) {P : Point} (hP : validPoint C P = true)
    (k e : Nat) (he : e < 2 ^ k) :
    validPoint C (mulBits C P k e) = true ∧ toW C a b (mulBits C P k e) = e • toW C a b P := by
  induction k generalizing e with
  | zero =>
    have h0 : e = 0 := by simpa using he
    subst h0
    simp only [mulBits, identity_W hg]
    exact ⟨validPoint_inf hg, by rw [toW_inf, zero_nsmul]⟩
  | succ k ih =>
    have hlt : e / 2 < 2 ^ k := by rw [pow_succ] at he; omega
    obtain ⟨hv, hw⟩ := ih (e / 2) hlt
    obtain ⟨hv2, hw2⟩ := add_toW hg hv hv
    rw [hw, ← add_nsmul] at hw2
    simp only [mulBits, dbl]
    split
    · next h1 =>
      obtain ⟨hv3, hw3⟩ := add_toW hg hv2 hP
      refine ⟨hv3, ?_⟩
      rw [hw3, hw2, ← succ_nsmul]
      congr 1
      omega
    · next h1 =>
      refine ⟨hv2, ?_⟩
      rw [hw2]
      congr 1
      omega

/-- `Mul_C(k, P)` is the multiple in the group. -/
theorem mul_toW [Fact C.p.Prime] (hg : GoodW C a b) {P : Point} (hP : validPoint C P = true)
    (k : Nat) : validPoint C (mul C k P) = true ∧ toW C a b (mul C k P) = k • toW C a b P :=
  mulBits_toW hg hP _ _ (lt_two_pow_bitlen k)

/-- A sum on a kind-W curve is a point of the curve. -/
theorem add_valid (hg : GoodW C a b) {P Q : Point} (hP : validPoint C P = true)
    (hQ : validPoint C Q = true) : validPoint C (add C P Q) = true :=
  have : Fact C.p.Prime := ⟨hg.prime⟩
  (add_toW hg hP hQ).1

/-- A multiple on a kind-W curve is a point of the curve. -/
theorem mul_valid (hg : GoodW C a b) {P : Point} (hP : validPoint C P = true) (k : Nat) :
    validPoint C (mul C k P) = true :=
  have : Fact C.p.Prime := ⟨hg.prime⟩
  (mul_toW hg hP k).1

/-- The order of summands does not matter (R143). -/
theorem add_comm_W (hg : GoodW C a b) {P Q : Point} (hP : validPoint C P = true)
    (hQ : validPoint C Q = true) : add C P Q = add C Q P := by
  have : Fact C.p.Prime := ⟨hg.prime⟩
  apply toW_injective hg (add_valid hg hP hQ) (add_valid hg hQ hP)
  rw [(add_toW hg hP hQ).2, (add_toW hg hQ hP).2, add_comm]

/-- The grouping of summands does not matter (R143). -/
theorem add_assoc_W (hg : GoodW C a b) {P Q R : Point} (hP : validPoint C P = true)
    (hQ : validPoint C Q = true) (hR : validPoint C R = true) :
    add C (add C P Q) R = add C P (add C Q R) := by
  have : Fact C.p.Prime := ⟨hg.prime⟩
  have hPQ := add_valid hg hP hQ
  have hQR := add_valid hg hQ hR
  apply toW_injective hg (add_valid hg hPQ hR) (add_valid hg hP hQR)
  rw [(add_toW hg hPQ hR).2, (add_toW hg hP hQ).2, (add_toW hg hP hQR).2, (add_toW hg hQ hR).2,
    add_assoc]

/-- Multiples add up. -/
theorem mul_add_W (hg : GoodW C a b) {P : Point} (hP : validPoint C P = true) (k l : Nat) :
    mul C (k + l) P = add C (mul C k P) (mul C l P) := by
  have : Fact C.p.Prime := ⟨hg.prime⟩
  have hk := mul_valid hg hP k
  have hl := mul_valid hg hP l
  apply toW_injective hg (mul_valid hg hP _) (add_valid hg hk hl)
  rw [(mul_toW hg hP _).2, (add_toW hg hk hl).2, (mul_toW hg hP _).2, (mul_toW hg hP _).2, add_nsmul]

/-- A multiple of a multiple. -/
theorem mul_mul_W (hg : GoodW C a b) {P : Point} (hP : validPoint C P = true) (k l : Nat) :
    mul C k (mul C l P) = mul C (k * l) P := by
  have : Fact C.p.Prime := ⟨hg.prime⟩
  have hl := mul_valid hg hP l
  apply toW_injective hg (mul_valid hg hl _) (mul_valid hg hP _)
  rw [(mul_toW hg hl _).2, (mul_toW hg hP _).2, (mul_toW hg hP _).2, mul_nsmul']

theorem mul_one_W (hg : GoodW C a b) {P : Point} (hP : validPoint C P = true) : mul C 1 P = P := by
  have : Fact C.p.Prime := ⟨hg.prime⟩
  apply toW_injective hg (mul_valid hg hP _) hP
  rw [(mul_toW hg hP _).2, one_nsmul]

theorem mul_zero_W (hg : GoodW C a b) (P : Point) : mul C 0 P = .inf := by
  show identity C = .inf
  exact identity_W hg

/-- Multiples of a point of order n depend on the scalar modulo n only. -/
theorem mul_mod_W (hg : GoodW C a b) {P : Point} (hP : validPoint C P = true) {n : Nat}
    (hn : mul C n P = .inf) (k : Nat) : mul C (k % n) P = mul C k P := by
  have : Fact C.p.Prime := ⟨hg.prime⟩
  have h0 : n • toW C a b P = 0 := by rw [← (mul_toW hg hP n).2, hn, toW_inf]
  apply toW_injective hg (mul_valid hg hP _) (mul_valid hg hP _)
  rw [(mul_toW hg hP _).2, (mul_toW hg hP _).2]
  conv_rhs => rw [← Nat.mod_add_div k n, add_nsmul, mul_nsmul, h0, nsmul_zero, add_zero]

end Sys2Proof.Machine
end

