-- ==== Sys2Proof/Laws/GroupE.lean ====
section
/-! SUPPORT. The kind-E group law of the model (41_curve_group.md R144) on the points of a curve as
00_scope.md R4 wants it: no denominator is 0, sums are points of the curve, and they are associative and
commutative, so double-and-add gives the value R145 defines by repeated addition (log 14). -/

namespace Sys2Proof.Machine

/-! ### Over a field -/

section

variable {F : Type} [Field F]

/-- The twisted-Edwards equation (R140). -/
def OnE {R : Type} [CommRing R] (a d x y : R) : Prop := a * x ^ 2 + y ^ 2 = 1 + d * x ^ 2 * y ^ 2

/-- The first coordinate of a sum (R144). -/
def addXE (d x1 y1 x2 y2 : F) : F := (x1 * y2 + y1 * x2) / (1 + d * x1 * x2 * y1 * y2)

/-- The second coordinate of a sum (R144). -/
def addYE (a d x1 y1 x2 y2 : F) : F := (y1 * y2 - a * x1 * x2) / (1 - d * x1 * x2 * y1 * y2)

/-- With `ea` a square and d none, `(d·x1·x2·y1·y2)²` is not 1 for two points of the curve (R144). -/
theorem edwards_product_ne {a d r x1 y1 x2 y2 : F} (h2 : (2 : F) ≠ 0) (ha : r * r = a)
    (hd : ¬ ∃ v, v * v = d) (h1 : OnE a d x1 y1) (h2' : OnE a d x2 y2) :
    (d * x1 * x2 * y1 * y2) ^ 2 ≠ 1 := by
  intro ht
  set t := d * x1 * x2 * y1 * y2 with hdef
  have key (e : F) (he : e ^ 2 = 1) :
      (r * x1 + e * t * y1) ^ 2 = d * (x1 * y1 * (r * x2 + e * y2)) ^ 2 := by
    unfold OnE at h1 h2'
    have e1 : t = d * x1 * x2 * y1 * y2 := hdef
    have h3 : t ^ 2 = d * (x1 * y1) ^ 2 * (d * x2 ^ 2 * y2 ^ 2) := by rw [e1]; ring
    linear_combination (x1 ^ 2 - d * x1 ^ 2 * y1 ^ 2 * x2 ^ 2) * ha + h1 - d * x1 ^ 2 * y1 ^ 2 * h2'
      + (t ^ 2 * y1 ^ 2 - d * x1 ^ 2 * y1 ^ 2 * y2 ^ 2) * he + (y1 ^ 2 - 1) * ht + h3
      + 2 * r * e * x1 * y1 * e1
  have hz (e : F) (he : e ^ 2 = 1) : x1 * y1 * (r * x2 + e * y2) = 0 := by
    by_contra hne
    refine hd ⟨(r * x1 + e * t * y1) / (x1 * y1 * (r * x2 + e * y2)), ?_⟩
    rw [← sq, div_pow, key e he, mul_div_assoc, div_self (pow_ne_zero 2 hne), mul_one]
  have hp := hz 1 (by ring)
  have hm := hz (-1) (by ring)
  have h0 : (2 : F) * t = 0 := by
    rw [hdef]; linear_combination d * x2 * (hp - hm)
  rw [(mul_eq_zero.1 h0).resolve_left h2] at ht
  simp at ht

theorem edwards_den_ne {a d r x1 y1 x2 y2 : F} (h2 : (2 : F) ≠ 0) (ha : r * r = a)
    (hd : ¬ ∃ v, v * v = d) (h1 : OnE a d x1 y1) (h2' : OnE a d x2 y2) :
    1 + d * x1 * x2 * y1 * y2 ≠ 0 ∧ 1 - d * x1 * x2 * y1 * y2 ≠ 0 := by
  have h := edwards_product_ne h2 ha hd h1 h2'
  exact ⟨fun hc => h (by linear_combination (d * x1 * x2 * y1 * y2 - 1) * hc),
    fun hc => h (by linear_combination (-1 - d * x1 * x2 * y1 * y2) * hc)⟩

theorem addXE_comm (d x1 y1 x2 y2 : F) : addXE d x1 y1 x2 y2 = addXE d x2 y2 x1 y1 := by
  unfold addXE
  congr 1 <;> ring

theorem addYE_comm (a d x1 y1 x2 y2 : F) : addYE a d x1 y1 x2 y2 = addYE a d x2 y2 x1 y1 := by
  unfold addYE
  congr 1 <;> ring

/-- The sum of two points of the curve is one. -/
theorem edwards_closed {a d x1 y1 x2 y2 : F} (h1 : OnE a d x1 y1) (h2 : OnE a d x2 y2)
    (hp : 1 + d * x1 * x2 * y1 * y2 ≠ 0) (hm : 1 - d * x1 * x2 * y1 * y2 ≠ 0) :
    OnE a d (addXE d x1 y1 x2 y2) (addYE a d x1 y1 x2 y2) := by
  have hX : addXE d x1 y1 x2 y2 * (1 + d * x1 * x2 * y1 * y2) = x1 * y2 + y1 * x2 :=
    div_mul_cancel₀ _ hp
  have hY : addYE a d x1 y1 x2 y2 * (1 - d * x1 * x2 * y1 * y2) = y1 * y2 - a * x1 * x2 :=
    div_mul_cancel₀ _ hm
  have key : a * (x1 * y2 + y1 * x2) ^ 2 * (1 - d * x1 * x2 * y1 * y2) ^ 2
      + (y1 * y2 - a * x1 * x2) ^ 2 * (1 + d * x1 * x2 * y1 * y2) ^ 2
      = (1 + d * x1 * x2 * y1 * y2) ^ 2 * (1 - d * x1 * x2 * y1 * y2) ^ 2
        + d * (x1 * y2 + y1 * x2) ^ 2 * (y1 * y2 - a * x1 * x2) ^ 2 := by
    unfold OnE at h1 h2
    linear_combination
      (d^3 * x1^2 * y1^2 * x2^4 * y2^4 + a * d^2 * x1^2 * x2^4 * y2^4 + d^2 * y1^2 * x2^4 * y2^4 - a^2 *
      d * x1^2 * x2^4 * y2^2 - a * d * x1^2 * x2^2 * y2^4 - a * d * y1^2 * x2^4 * y2^2 + 2 * a * d *
      x2^4 * y2^4 - d^2 * x2^4 * y2^4 - d * y1^2 * x2^2 * y2^4 - 2 * a^2 * x2^4 * y2^2 - 2 * a * x2^2 *
      y2^4 + a^2 * x2^4 + 4 * a * x2^2 * y2^2 - 2 * d * x2^2 * y2^2 + y2^4) * h1 + (a^2 * d * x1^4 *
      x2^2 * y2^2 + d * y1^4 * x2^2 * y2^2 + 2 * a^2 * x1^2 * x2^2 * y2^2 - 2 * a * d * x1^2 * x2^2 *
      y2^2 + 2 * a * y1^2 * x2^2 * y2^2 - 2 * d * y1^2 * x2^2 * y2^2 - a^2 * x1^2 * x2^2 - a * x1^2 *
      y2^2 - a * y1^2 * x2^2 - 2 * a * x2^2 * y2^2 + d * x2^2 * y2^2 - y1^2 * y2^2 + a * x2^2 + y2^2 +
      1) * h2
  rw [← hX, ← hY] at key
  refine mul_left_cancel₀ (pow_ne_zero 2 (mul_ne_zero hp hm)) ?_
  linear_combination key

/-- A sum with a third point, its first coordinate over one denominator. -/
theorem addXE_over {d x y x3 y3 A B p m : F} (hx : x * p = A) (hy : y * m = B) (hp : p ≠ 0)
    (hm : m ≠ 0) :
    addXE d x y x3 y3 = (A * m * y3 + B * p * x3) / (p * m + d * A * B * x3 * y3) := by
  subst hx hy
  unfold addXE
  rw [show x * p * m * y3 + y * m * p * x3 = p * m * (x * y3 + y * x3) by ring,
    show p * m + d * (x * p) * (y * m) * x3 * y3 = p * m * (1 + d * x * x3 * y * y3) by ring,
    mul_div_mul_left _ _ (mul_ne_zero hp hm)]

/-- A sum with a third point, its second coordinate over one denominator. -/
theorem addYE_over {a d x y x3 y3 A B p m : F} (hx : x * p = A) (hy : y * m = B) (hp : p ≠ 0)
    (hm : m ≠ 0) :
    addYE a d x y x3 y3 = (B * p * y3 - a * A * m * x3) / (p * m - d * A * B * x3 * y3) := by
  subst hx hy
  unfold addYE
  rw [show y * m * p * y3 - a * (x * p) * m * x3 = p * m * (y * y3 - a * x * x3) by ring,
    show p * m - d * (x * p) * (y * m) * x3 * y3 = p * m * (1 - d * x * x3 * y * y3) by ring,
    mul_div_mul_left _ _ (mul_ne_zero hp hm)]

/-- That denominator is not 0 where the sum's own is not. -/
theorem edwards_over_ne {d x y x3 y3 A B p m : F} (hx : x * p = A) (hy : y * m = B) (hp : p ≠ 0)
    (hm : m ≠ 0) (h : 1 + d * x * x3 * y * y3 ≠ 0 ∧ 1 - d * x * x3 * y * y3 ≠ 0) :
    p * m + d * A * B * x3 * y3 ≠ 0 ∧ p * m - d * A * B * x3 * y3 ≠ 0 := by
  subst hx hy
  rw [show p * m + d * (x * p) * (y * m) * x3 * y3 = p * m * (1 + d * x * x3 * y * y3) by ring,
    show p * m - d * (x * p) * (y * m) * x3 * y3 = p * m * (1 - d * x * x3 * y * y3) by ring]
  exact ⟨mul_ne_zero (mul_ne_zero hp hm) h.1, mul_ne_zero (mul_ne_zero hp hm) h.2⟩

/-- Sums on the curve are associative. -/
theorem edwards_assoc {a d r x1 y1 x2 y2 x3 y3 : F} (hc : (2 : F) ≠ 0) (ha : r * r = a)
    (hd : ¬ ∃ v, v * v = d) (h1 : OnE a d x1 y1) (h2 : OnE a d x2 y2) (h3 : OnE a d x3 y3) :
    let X := addXE d x1 y1 x2 y2
    let Y := addYE a d x1 y1 x2 y2
    let X' := addXE d x2 y2 x3 y3
    let Y' := addYE a d x2 y2 x3 y3
    addXE d X Y x3 y3 = addXE d x1 y1 X' Y' ∧ addYE a d X Y x3 y3 = addYE a d x1 y1 X' Y' := by
  intro X Y X' Y'
  have n12 := edwards_den_ne hc ha hd h1 h2
  have n23 := edwards_den_ne hc ha hd h2 h3
  have hXY : OnE a d X Y := edwards_closed h1 h2 n12.1 n12.2
  have hXY' : OnE a d X' Y' := edwards_closed h2 h3 n23.1 n23.2
  have hX : X * (1 + d * x1 * x2 * y1 * y2) = x1 * y2 + y1 * x2 := div_mul_cancel₀ _ n12.1
  have hY : Y * (1 - d * x1 * x2 * y1 * y2) = y1 * y2 - a * x1 * x2 := div_mul_cancel₀ _ n12.2
  have hX' : X' * (1 + d * x2 * x3 * y2 * y3) = x2 * y3 + y2 * x3 := div_mul_cancel₀ _ n23.1
  have hY' : Y' * (1 - d * x2 * x3 * y2 * y3) = y2 * y3 - a * x2 * x3 := div_mul_cancel₀ _ n23.2
  have nL := edwards_over_ne hX hY n12.1 n12.2 (edwards_den_ne hc ha hd hXY h3)
  have nR := edwards_over_ne hX' hY' n23.1 n23.2 (edwards_den_ne hc ha hd hXY' h1)
  rw [addXE_comm d x1 y1 X' Y', addYE_comm a d x1 y1 X' Y', addXE_over hX hY n12.1 n12.2,
    addXE_over hX' hY' n23.1 n23.2, addYE_over hX hY n12.1 n12.2, addYE_over hX' hY' n23.1 n23.2,
    div_eq_div_iff nL.1 nR.1, div_eq_div_iff nL.2 nR.2]
  unfold OnE at h1 h2 h3
  constructor
  · linear_combination
      (a * d^2 * x1 * x2^4 * y2^3 * x3^2 * y3 - d^2 * x1 * x2^3 * y2^4 * x3 * y3^2 + d^2 * y1 * x2^4 *
      y2^3 * x3 * y3^2 + d^2 * y1 * x2^3 * y2^4 * x3^2 * y3 - a^2 * d * x1 * x2^4 * y2 * x3^2 * y3 - a^2
      * d * x1 * x2^3 * y2^2 * x3^3 - a * d * y1 * x2^4 * y2 * x3 * y3^2 + a * d * y1 * x2^2 * y2^3 *
      x3^3 + d * x1 * x2^2 * y2^3 * y3^3 + d * x1 * x2 * y2^4 * x3 * y3^2 + d * y1 * x2^3 * y2^2 * y3^3
      - d * y1 * x2 * y2^4 * x3^2 * y3 + a * d * x1 * x2^3 * y2^2 * x3 - d * x1 * x2^2 * y2^3 * y3 - d *
      y1 * x2^3 * y2^2 * y3 - d * y1 * x2^2 * y2^3 * x3) * h1 + (- a * d^2 * x1^2 * y1 * x2^2 * y2 *
      x3^3 * y3^2 - d^2 * x1^2 * y1 * x2 * y2^2 * x3^2 * y3^3 - d^2 * x1 * y1^2 * x2^2 * y2 * x3^2 *
      y3^3 + d^2 * x1 * y1^2 * x2 * y2^2 * x3^3 * y3^2 + a^2 * d * x1^3 * x2^2 * y2 * x3^2 * y3 + a^2 *
      d * x1^3 * x2 * x3^3 * y3^2 - a * d * x1^3 * x2 * y2^2 * x3 * y3^2 - a * d * x1^3 * y2 * x3^2 *
      y3^3 + a * d * x1^2 * y1 * x2^2 * y2 * x3 * y3^2 + a * d * x1^2 * y1 * x2 * y2^2 * x3^2 * y3 - a *
      d * x1^2 * y1 * x2 * x3^2 * y3^3 - a * d * x1^2 * y1 * y2 * x3^3 * y3^2 + a * d * x1 * y1^2 * x2^2
      * y2 * x3^2 * y3 + a * d * x1 * y1^2 * x2 * x3^3 * y3^2 - d * x1 * y1^2 * x2 * y2^2 * x3 * y3^2 -
      d * x1 * y1^2 * y2 * x3^2 * y3^3 + d * y1^3 * x2^2 * y2 * x3 * y3^2 + d * y1^3 * x2 * y2^2 * x3^2
      * y3 - d * y1^3 * x2 * x3^2 * y3^3 - d * y1^3 * y2 * x3^3 * y3^2 - a^3 * x1^3 * x2 * x3^3 - a^2 *
      x1^3 * x2 * x3 * y3^2 + a^2 * x1^3 * y2 * x3^2 * y3 + a^2 * x1^2 * y1 * x2 * x3^2 * y3 + a^2 *
      x1^2 * y1 * y2 * x3^3 - a^2 * x1 * y1^2 * x2 * x3^3 - a * d * x1 * x2^2 * y2 * x3^2 * y3 - a * d *
      x1 * x2 * x3^3 * y3^2 + a * x1^3 * y2 * y3^3 + a * x1^2 * y1 * x2 * y3^3 + a * x1^2 * y1 * y2 * x3
      * y3^2 - a * x1 * y1^2 * x2 * x3 * y3^2 + a * x1 * y1^2 * y2 * x3^2 * y3 + a * y1^3 * x2 * x3^2 *
      y3 + a * y1^3 * y2 * x3^3 + d * x1 * x2 * y2^2 * x3 * y3^2 + d * x1 * y2 * x3^2 * y3^3 - d * y1 *
      x2^2 * y2 * x3 * y3^2 - d * y1 * x2 * y2^2 * x3^2 * y3 + d * y1 * x2 * x3^2 * y3^3 + d * y1 * y2 *
      x3^3 * y3^2 + x1 * y1^2 * y2 * y3^3 + y1^3 * x2 * y3^3 + y1^3 * y2 * x3 * y3^2 + a^2 * x1^3 * x2 *
      x3 + a^2 * x1 * x2 * x3^3 - a * x1^3 * y2 * y3 - a * x1^2 * y1 * x2 * y3 - a * x1^2 * y1 * y2 * x3
      + a * x1 * y1^2 * x2 * x3 + a * x1 * x2 * x3 * y3^2 - a * x1 * y2 * x3^2 * y3 - a * y1 * x2 * x3^2
      * y3 - a * y1 * y2 * x3^3 - x1 * y1^2 * y2 * y3 - x1 * y2 * y3^3 - y1^3 * x2 * y3 - y1^3 * y2 * x3
      - y1 * x2 * y3^3 - y1 * y2 * x3 * y3^2 - a * x1 * x2 * x3 + x1 * y2 * y3 + y1 * x2 * y3 + y1 * y2
      * x3) * h2 + (a^3 * x1^3 * x2^3 * x3 - a^2 * x1^3 * x2^2 * y2 * y3 + a^2 * x1^3 * x2 * y2^2 * x3 -
      a^2 * x1^2 * y1 * x2^3 * y3 - a^2 * x1^2 * y1 * x2^2 * y2 * x3 + a^2 * x1 * y1^2 * x2^3 * x3 + a *
      d * x1^2 * y1 * x2^2 * y2 * x3 - a * x1^3 * y2^3 * y3 - a * x1^2 * y1 * x2 * y2^2 * y3 - a * x1^2
      * y1 * y2^3 * x3 - a * x1 * y1^2 * x2^2 * y2 * y3 + a * x1 * y1^2 * x2 * y2^2 * x3 - a * y1^3 *
      x2^3 * y3 - a * y1^3 * x2^2 * y2 * x3 + d * x1^2 * y1 * x2 * y2^2 * y3 + d * x1 * y1^2 * x2^2 * y2
      * y3 - d * x1 * y1^2 * x2 * y2^2 * x3 - x1 * y1^2 * y2^3 * y3 - y1^3 * x2 * y2^2 * y3 - y1^3 *
      y2^3 * x3 - a^2 * x1^3 * x2 * x3 - a^2 * x1 * x2^3 * x3 + a * x1^3 * y2 * y3 + a * x1^2 * y1 * x2
      * y3 + a * x1^2 * y1 * y2 * x3 - a * x1 * y1^2 * x2 * x3 + a * x1 * x2^2 * y2 * y3 - a * x1 * x2 *
      y2^2 * x3 + a * y1 * x2^3 * y3 + a * y1 * x2^2 * y2 * x3 + x1 * y1^2 * y2 * y3 + x1 * y2^3 * y3 +
      y1^3 * x2 * y3 + y1^3 * y2 * x3 + y1 * x2 * y2^2 * y3 + y1 * y2^3 * x3 + a * x1 * x2 * x3 - x1 *
      y2 * y3 - y1 * x2 * y3 - y1 * y2 * x3) * h3
  · linear_combination
      (- a * d^2 * x1 * x2^4 * y2^3 * x3 * y3^2 - a * d^2 * x1 * x2^3 * y2^4 * x3^2 * y3 + a * d^2 * y1
      * x2^4 * y2^3 * x3^2 * y3 - d^2 * y1 * x2^3 * y2^4 * x3 * y3^2 + a^2 * d * x1 * x2^4 * y2 * x3 *
      y3^2 - a^2 * d * x1 * x2^2 * y2^3 * x3^3 - a^2 * d * y1 * x2^4 * y2 * x3^2 * y3 - a^2 * d * y1 *
      x2^3 * y2^2 * x3^3 - a * d * x1 * x2^3 * y2^2 * y3^3 + a * d * x1 * x2 * y2^4 * x3^2 * y3 + d * y1
      * x2^2 * y2^3 * y3^3 + d * y1 * x2 * y2^4 * x3 * y3^2 + a * d * x1 * x2^3 * y2^2 * y3 + a * d * x1
      * x2^2 * y2^3 * x3 + a * d * y1 * x2^3 * y2^2 * x3 - d * y1 * x2^2 * y2^3 * y3) * h1 + (- a * d^2
      * x1^2 * y1 * x2^2 * y2 * x3^2 * y3^3 + a * d^2 * x1^2 * y1 * x2 * y2^2 * x3^3 * y3^2 + a * d^2 *
      x1 * y1^2 * x2^2 * y2 * x3^3 * y3^2 + d^2 * x1 * y1^2 * x2 * y2^2 * x3^2 * y3^3 - a^2 * d * x1^3 *
      x2^2 * y2 * x3 * y3^2 - a^2 * d * x1^3 * x2 * y2^2 * x3^2 * y3 + a^2 * d * x1^3 * x2 * x3^2 * y3^3
      + a^2 * d * x1^3 * y2 * x3^3 * y3^2 + a^2 * d * x1^2 * y1 * x2^2 * y2 * x3^2 * y3 + a^2 * d * x1^2
      * y1 * x2 * x3^3 * y3^2 - a * d * x1^2 * y1 * x2 * y2^2 * x3 * y3^2 - a * d * x1^2 * y1 * y2 *
      x3^2 * y3^3 - a * d * x1 * y1^2 * x2^2 * y2 * x3 * y3^2 - a * d * x1 * y1^2 * x2 * y2^2 * x3^2 *
      y3 + a * d * x1 * y1^2 * x2 * x3^2 * y3^3 + a * d * x1 * y1^2 * y2 * x3^3 * y3^2 + a * d * y1^3 *
      x2^2 * y2 * x3^2 * y3 + a * d * y1^3 * x2 * x3^3 * y3^2 - d * y1^3 * x2 * y2^2 * x3 * y3^2 - d *
      y1^3 * y2 * x3^2 * y3^3 - a^3 * x1^3 * x2 * x3^2 * y3 - a^3 * x1^3 * y2 * x3^3 - a^3 * x1^2 * y1 *
      x2 * x3^3 - a^2 * x1^3 * x2 * y3^3 - a^2 * x1^3 * y2 * x3 * y3^2 - a^2 * x1^2 * y1 * x2 * x3 *
      y3^2 + a^2 * x1^2 * y1 * y2 * x3^2 * y3 - a^2 * x1 * y1^2 * x2 * x3^2 * y3 - a^2 * x1 * y1^2 * y2
      * x3^3 - a^2 * y1^3 * x2 * x3^3 + a * d * x1 * x2^2 * y2 * x3 * y3^2 + a * d * x1 * x2 * y2^2 *
      x3^2 * y3 - a * d * x1 * x2 * x3^2 * y3^3 - a * d * x1 * y2 * x3^3 * y3^2 - a * d * y1 * x2^2 * y2
      * x3^2 * y3 - a * d * y1 * x2 * x3^3 * y3^2 + a * x1^2 * y1 * y2 * y3^3 - a * x1 * y1^2 * x2 *
      y3^3 - a * x1 * y1^2 * y2 * x3 * y3^2 - a * y1^3 * x2 * x3 * y3^2 + a * y1^3 * y2 * x3^2 * y3 + d
      * y1 * x2 * y2^2 * x3 * y3^2 + d * y1 * y2 * x3^2 * y3^3 + y1^3 * y2 * y3^3 + a^2 * x1^3 * x2 * y3
      + a^2 * x1^3 * y2 * x3 + a^2 * x1^2 * y1 * x2 * x3 + a^2 * x1 * x2 * x3^2 * y3 + a^2 * x1 * y2 *
      x3^3 + a^2 * y1 * x2 * x3^3 - a * x1^2 * y1 * y2 * y3 + a * x1 * y1^2 * x2 * y3 + a * x1 * y1^2 *
      y2 * x3 + a * x1 * x2 * y3^3 + a * x1 * y2 * x3 * y3^2 + a * y1^3 * x2 * x3 + a * y1 * x2 * x3 *
      y3^2 - a * y1 * y2 * x3^2 * y3 - y1^3 * y2 * y3 - y1 * y2 * y3^3 - a * x1 * x2 * y3 - a * x1 * y2
      * x3 - a * y1 * x2 * x3 + y1 * y2 * y3) * h2 + (a^3 * x1^3 * x2^3 * y3 + a^3 * x1^3 * x2^2 * y2 *
      x3 + a^3 * x1^2 * y1 * x2^3 * x3 + a^2 * x1^3 * x2 * y2^2 * y3 + a^2 * x1^3 * y2^3 * x3 - a^2 *
      x1^2 * y1 * x2^2 * y2 * y3 + a^2 * x1^2 * y1 * x2 * y2^2 * x3 + a^2 * x1 * y1^2 * x2^3 * y3 + a^2
      * x1 * y1^2 * x2^2 * y2 * x3 + a^2 * y1^3 * x2^3 * x3 + a * d * x1^2 * y1 * x2^2 * y2 * y3 - a * d
      * x1^2 * y1 * x2 * y2^2 * x3 - a * d * x1 * y1^2 * x2^2 * y2 * x3 - a * x1^2 * y1 * y2^3 * y3 + a
      * x1 * y1^2 * x2 * y2^2 * y3 + a * x1 * y1^2 * y2^3 * x3 - a * y1^3 * x2^2 * y2 * y3 + a * y1^3 *
      x2 * y2^2 * x3 - d * x1 * y1^2 * x2 * y2^2 * y3 - y1^3 * y2^3 * y3 - a^2 * x1^3 * x2 * y3 - a^2 *
      x1^3 * y2 * x3 - a^2 * x1^2 * y1 * x2 * x3 - a^2 * x1 * x2^3 * y3 - a^2 * x1 * x2^2 * y2 * x3 -
      a^2 * y1 * x2^3 * x3 + a * x1^2 * y1 * y2 * y3 - a * x1 * y1^2 * x2 * y3 - a * x1 * y1^2 * y2 * x3
      - a * x1 * x2 * y2^2 * y3 - a * x1 * y2^3 * x3 - a * y1^3 * x2 * x3 + a * y1 * x2^2 * y2 * y3 - a
      * y1 * x2 * y2^2 * x3 + y1^3 * y2 * y3 + y1 * y2^3 * y3 + a * x1 * x2 * y3 + a * x1 * y2 * x3 + a
      * y1 * x2 * x3 - y1 * y2 * y3) * h3

end

/-! ### On the model's points -/

/-- A kind-E curve whose law is complete (00_scope.md R4, 41_curve_group.md R144). -/
structure GoodE (C : Curve) (ea d : Nat) : Prop where
  shape : C.shape = .edwards ea d
  prime : C.p.Prime
  ne_two : C.p ≠ 2
  square : ∃ r, r * r % C.p = ea
  nonsquare : ¬ ∃ r, r * r % C.p = d
  d_lt : d < C.p

variable {C : Curve} {ea d : Nat}

theorem two_ne_E (hg : GoodE C ea d) : (2 : ZMod C.p) ≠ 0 := by
  rw [show (2 : ZMod C.p) = ((2 : Nat) : ZMod C.p) by norm_num, Ne, ZMod.natCast_eq_zero_iff]
  intro h
  exact hg.ne_two (le_antisymm (Nat.le_of_dvd (by decide) h) hg.prime.two_le)

theorem square_E (hg : GoodE C ea d) : ∃ r : ZMod C.p, r * r = ea := by
  obtain ⟨r, hr⟩ := hg.square
  refine ⟨r, ?_⟩
  rw [← hr, ZMod.natCast_mod, Nat.cast_mul]

theorem nonsquare_E (hg : GoodE C ea d) : ¬ ∃ v : ZMod C.p, v * v = d := by
  rintro ⟨v, hv⟩
  have : NeZero C.p := ⟨hg.prime.pos.ne'⟩
  refine hg.nonsquare ⟨v.val, ?_⟩
  rw [← Nat.mod_eq_of_lt hg.d_lt, ← ZMod.natCast_eq_natCast_iff']
  push_cast
  rw [ZMod.natCast_zmod_val, hv]

/-- `OnCurve` says that the coordinates are in range and satisfy the equation over `F_p` (R140). -/
theorem onCurve_iff_E (hg : GoodE C ea d) (x y : Nat) :
    onCurve C x y = true ↔ x < C.p ∧ y < C.p ∧ OnE (ea : ZMod C.p) d x y := by
  unfold onCurve OnE
  rw [hg.shape]
  simp only [Bool.and_eq_true, decide_eq_true_eq, and_assoc]
  refine and_congr_right fun _ => and_congr_right fun _ => ?_
  rw [← ZMod.natCast_eq_natCast_iff']
  push_cast
  constructor <;> intro h <;> linear_combination h

/-- `Add` of R144 in coordinates over `F_p`. -/
theorem add_cast_E [Fact C.p.Prime] (hg : GoodE C ea d) (x1 y1 x2 y2 : Nat) :
    ∃ x y, add C (.aff x1 y1) (.aff x2 y2) = .aff x y ∧ x < C.p ∧ y < C.p
      ∧ (x : ZMod C.p) = addXE (d : ZMod C.p) x1 y1 x2 y2
      ∧ (y : ZMod C.p) = addYE (ea : ZMod C.p) d x1 y1 x2 y2 := by
  have hpos : 0 < C.p := hg.prime.pos
  have hadd : add C (.aff x1 y1) (.aff x2 y2) = addE C.p ea d (.aff x1 y1) (.aff x2 y2) := by
    simp only [add, hg.shape]
  refine ⟨_, _, hadd.trans rfl, Nat.mod_lt _ hpos, Nat.mod_lt _ hpos, ?_, ?_⟩
  · rw [ZMod.natCast_mod, Nat.cast_mul, cast_inv hg.prime hg.ne_two, addXE, div_eq_mul_inv]
    push_cast
    rw [ZMod.natCast_mod]
    push_cast
    rfl
  · rw [ZMod.natCast_mod, Nat.cast_mul, cast_inv hg.prime hg.ne_two, cast_subm hpos, cast_subm hpos,
      addYE, div_eq_mul_inv]
    rw [ZMod.natCast_mod]
    push_cast
    rfl

/-- A point of a kind-E curve has coordinates (R142). -/
theorem valid_E (hg : GoodE C ea d) {P : Point} (hP : validPoint C P = true) :
    ∃ x y, P = .aff x y ∧ x < C.p ∧ y < C.p ∧ OnE (ea : ZMod C.p) d x y := by
  cases P with
  | inf => simp [validPoint, hg.shape] at hP
  | aff x y => exact ⟨x, y, rfl, (onCurve_iff_E hg x y).1 hP⟩

theorem aff_inj_E {x y x' y' : Nat} (hx : x < C.p) (hy : y < C.p) (hx' : x' < C.p) (hy' : y' < C.p)
    (h1 : (x : ZMod C.p) = x') (h2 : (y : ZMod C.p) = y') : Point.aff x y = .aff x' y' := by
  rw [ZMod.natCast_eq_natCast_iff', Nat.mod_eq_of_lt, Nat.mod_eq_of_lt] at h1 h2 <;> simp_all

/-- A sum on a kind-E curve is a point of the curve. -/
theorem add_valid_E (hg : GoodE C ea d) {P Q : Point} (hP : validPoint C P = true)
    (hQ : validPoint C Q = true) : validPoint C (add C P Q) = true := by
  have : Fact C.p.Prime := ⟨hg.prime⟩
  obtain ⟨x1, y1, rfl, _, _, h1⟩ := valid_E hg hP
  obtain ⟨x2, y2, rfl, _, _, h2⟩ := valid_E hg hQ
  obtain ⟨x, y, ha, hx, hy, hX, hY⟩ := add_cast_E hg x1 y1 x2 y2
  obtain ⟨r, hr⟩ := square_E hg
  have hn := edwards_den_ne (two_ne_E hg) hr (nonsquare_E hg) h1 h2
  rw [ha, validPoint_aff, onCurve_iff_E hg]
  refine ⟨hx, hy, ?_⟩
  rw [hX, hY]
  exact edwards_closed h1 h2 hn.1 hn.2

/-- The order of summands does not matter (R144). -/
theorem add_comm_E (hg : GoodE C ea d) {P Q : Point} (hP : validPoint C P = true)
    (hQ : validPoint C Q = true) : add C P Q = add C Q P := by
  have : Fact C.p.Prime := ⟨hg.prime⟩
  obtain ⟨x1, y1, rfl, _, _, _⟩ := valid_E hg hP
  obtain ⟨x2, y2, rfl, _, _, _⟩ := valid_E hg hQ
  obtain ⟨x, y, ha, hx, hy, hX, hY⟩ := add_cast_E hg x1 y1 x2 y2
  obtain ⟨x', y', hb, hx', hy', hX', hY'⟩ := add_cast_E hg x2 y2 x1 y1
  rw [ha, hb]
  exact aff_inj_E hx hy hx' hy' (by rw [hX, hX', addXE_comm]) (by rw [hY, hY', addYE_comm])

/-- The grouping of summands does not matter (R144). -/
theorem add_assoc_E (hg : GoodE C ea d) {P Q R : Point} (hP : validPoint C P = true)
    (hQ : validPoint C Q = true) (hR : validPoint C R = true) :
    add C (add C P Q) R = add C P (add C Q R) := by
  have : Fact C.p.Prime := ⟨hg.prime⟩
  obtain ⟨x1, y1, rfl, _, _, h1⟩ := valid_E hg hP
  obtain ⟨x2, y2, rfl, _, _, h2⟩ := valid_E hg hQ
  obtain ⟨x3, y3, rfl, _, _, h3⟩ := valid_E hg hR
  obtain ⟨u, v, ha, _, _, hU, hV⟩ := add_cast_E hg x1 y1 x2 y2
  obtain ⟨u', v', hb, _, _, hU', hV'⟩ := add_cast_E hg x2 y2 x3 y3
  obtain ⟨w, z, hc, hw, hz, hW, hZ⟩ := add_cast_E hg u v x3 y3
  obtain ⟨w', z', hd, hw', hz', hW', hZ'⟩ := add_cast_E hg x1 y1 u' v'
  obtain ⟨r, hr⟩ := square_E hg
  have h := edwards_assoc (two_ne_E hg) hr (nonsquare_E hg) h1 h2 h3
  rw [ha, hb, hc, hd]
  refine aff_inj_E hw hz hw' hz' ?_ ?_
  · rw [hW, hW', hU, hV, hU', hV']
    exact h.1
  · rw [hZ, hZ', hU, hV, hU', hV']
    exact h.2

theorem identity_E (hg : GoodE C ea d) : identity C = .aff 0 1 := by simp only [identity, hg.shape]

theorem valid_identity_E (hg : GoodE C ea d) : validPoint C (identity C) = true := by
  rw [identity_E hg, validPoint_aff, onCurve_iff_E hg]
  exact ⟨hg.prime.pos, hg.prime.one_lt, by unfold OnE; push_cast; ring⟩

/-- The identity is neutral (R142, R144). -/
theorem identity_add_E (hg : GoodE C ea d) {P : Point} (hP : validPoint C P = true) :
    add C (identity C) P = P := by
  have : Fact C.p.Prime := ⟨hg.prime⟩
  obtain ⟨x, y, rfl, hx, hy, _⟩ := valid_E hg hP
  rw [identity_E hg]
  obtain ⟨x', y', ha, hx', hy', hX, hY⟩ := add_cast_E hg 0 1 x y
  rw [ha]
  refine aff_inj_E hx' hy' hx hy ?_ ?_
  · rw [hX, addXE]; push_cast; simp
  · rw [hY, addYE]; push_cast; simp

/-! ### Multiples (R145) -/

/-- The k-fold sum of P. -/
def repeated (C : Curve) (P : Point) : Nat → Point
  | 0 => identity C
  | k + 1 => add C (repeated C P k) P

theorem repeated_valid_E (hg : GoodE C ea d) {P : Point} (hP : validPoint C P = true) (k : Nat) :
    validPoint C (repeated C P k) = true := by
  induction k with
  | zero => exact valid_identity_E hg
  | succ k ih => exact add_valid_E hg ih hP

theorem repeated_add_E (hg : GoodE C ea d) {P : Point} (hP : validPoint C P = true) (k l : Nat) :
    repeated C P (k + l) = add C (repeated C P k) (repeated C P l) := by
  have hk := repeated_valid_E hg hP k
  induction l with
  | zero =>
    show repeated C P k = add C (repeated C P k) (identity C)
    rw [add_comm_E hg hk (valid_identity_E hg), identity_add_E hg hk]
  | succ l ih =>
    show add C (repeated C P (k + l)) P = _
    rw [ih, add_assoc_E hg hk (repeated_valid_E hg hP l) hP]
    rfl

/-- Double-and-add is repeated addition (41_curve_group.md R145). -/
theorem mul_eq_repeated_E (hg : GoodE C ea d) {P : Point} (hP : validPoint C P = true) (k : Nat) :
    mul C k P = repeated C P k := by
  have key : ∀ n e, e < 2 ^ n → mulBits C P n e = repeated C P e := by
    intro n
    induction n with
    | zero =>
      intro e he
      obtain rfl : e = 0 := by omega
      rfl
    | succ n ih =>
      intro e he
      simp only [mulBits, dbl, ih (e / 2) (by omega), ← repeated_add_E hg hP]
      split
      · conv_rhs => rw [show e = e / 2 + e / 2 + 1 by omega]
        rfl
      · conv_rhs => rw [show e = e / 2 + e / 2 by omega]
  exact key _ k (lt_two_pow_bitlen k)

theorem mul_valid_E (hg : GoodE C ea d) {P : Point} (hP : validPoint C P = true) (k : Nat) :
    validPoint C (mul C k P) = true := by
  rw [mul_eq_repeated_E hg hP]; exact repeated_valid_E hg hP k

theorem mul_zero_E (C : Curve) (P : Point) : mul C 0 P = identity C := rfl

theorem mul_add_E (hg : GoodE C ea d) {P : Point} (hP : validPoint C P = true) (k l : Nat) :
    mul C (k + l) P = add C (mul C k P) (mul C l P) := by
  simp only [mul_eq_repeated_E hg hP, repeated_add_E hg hP]

theorem mul_mul_E (hg : GoodE C ea d) {P : Point} (hP : validPoint C P = true) (k l : Nat) :
    mul C k (mul C l P) = mul C (k * l) P := by
  have hl := mul_valid_E hg hP l
  induction k with
  | zero => rw [Nat.zero_mul]; rfl
  | succ k ih =>
    rw [Nat.succ_mul, mul_add_E hg hP, ← ih, mul_eq_repeated_E hg hl (k + 1), repeated,
      ← mul_eq_repeated_E hg hl]

/-- Multiples of a point of order n depend on the scalar modulo n only. -/
theorem mul_mod_E (hg : GoodE C ea d) {P : Point} (hP : validPoint C P = true) {n : Nat}
    (hn : mul C n P = identity C) (k : Nat) : mul C (k % n) P = mul C k P := by
  have h0 : mul C (k / n * n) P = identity C := by
    rw [← mul_mul_E hg hP, hn, mul_eq_repeated_E hg (valid_identity_E hg)]
    generalize k / n = q
    induction q with
    | zero => rfl
    | succ q ih => rw [repeated, ih, identity_add_E hg (valid_identity_E hg)]
  conv_rhs => rw [← Nat.div_add_mod k n, mul_comm n, mul_add_E hg hP, h0]
  rw [identity_add_E hg (mul_valid_E hg hP _)]

end Sys2Proof.Machine
end

