-- ==== Sys2Proof/Laws/Host.lean ====
section
/-! SUPPORT. The host's inputs one by one: what a step does with each, and what each address reaches
(20_memory.md R61, R62). -/

namespace Sys2Proof.Machine

set_option Elab.async false

theorem step_write {s : State} {w : Width} {a : BitVec 18} {d : Word} {es : List HostEvent}
    (h : s.inputs = .write w a d :: es) :
    step s = .next (State.hostWrite { s with inputs := es } w a d) := by
  unfold step State.advance; rw [h]; rfl

theorem step_read {s : State} {w : Width} {a : BitVec 18} {es : List HostEvent}
    (h : s.inputs = .read w a :: es) :
    step s = .next (State.hostRead { s with inputs := es } w a) := by
  unfold step State.advance; rw [h]; rfl

theorem step_reset {s : State} {es : List HostEvent} (h : s.inputs = .reset :: es) :
    step s = .next (State.resetEngine { s with inputs := es }) := by
  unfold step State.advance; rw [h]; rfl

theorem step_engine {s : State} {es : List HostEvent} (h : s.inputs = .engine :: es) :
    step s = State.engineStep { s with inputs := es } := by
  unfold step State.advance; rw [h]; rfl

theorem step_no_input {s : State} (h : s.inputs = []) : step s = s.engineStep := by
  unfold step State.advance; rw [h]

/-- A write whose target is known. -/
theorem step_write_to {s : State} {w : Width} {a : BitVec 18} {d : Word} {es : List HostEvent}
    {t : Target} (h : s.inputs = .write w a d :: es) (ht : Cfg.target s.cfg w a = t) :
    step s = .next { State.store { s with inputs := es } t d with reply := some t.writeReply } := by
  subst ht; exact step_write h

/-- A read whose target is known. -/
theorem step_read_to {s : State} {w : Width} {a : BitVec 18} {es : List HostEvent} {t : Target}
    (h : s.inputs = .read w a :: es) (ht : Cfg.target s.cfg w a = t) :
    step s = .next
      { s with inputs := es, reply := some (readReply (s.load t)), free := s.free + 4 } := by
  subst ht; rw [step_read h]; rfl

theorem target_ctrl (g : Cfg) : Cfg.target g .bits32 0x000 = .ctrl := by
  simp [Cfg.target, Cfg.mapped, registerAt]
theorem target_cmd (g : Cfg) : Cfg.target g .bits32 0x004 = .cmd := by
  simp [Cfg.target, Cfg.mapped, registerAt]
theorem target_status (g : Cfg) : Cfg.target g .bits32 0x008 = .status := by
  simp [Cfg.target, Cfg.mapped, registerAt]
theorem target_errcode (g : Cfg) : Cfg.target g .bits32 0x00C = .errcode := by
  simp [Cfg.target, Cfg.mapped, registerAt]
theorem target_tblstat (g : Cfg) : Cfg.target g .bits32 0x010 = .tblstat := by
  simp [Cfg.target, Cfg.mapped, registerAt]
theorem target_version (g : Cfg) : Cfg.target g .bits32 0x014 = .version := by
  simp [Cfg.target, Cfg.mapped, registerAt]
theorem target_arg0 (g : Cfg) : Cfg.target g .bits32 0x020 = .arg 0 := by
  simp [Cfg.target, Cfg.mapped, registerAt]
theorem target_arg1 (g : Cfg) : Cfg.target g .bits32 0x024 = .arg 1 := by
  simp [Cfg.target, Cfg.mapped, registerAt]
theorem target_arg2 (g : Cfg) : Cfg.target g .bits32 0x028 = .arg 2 := by
  simp [Cfg.target, Cfg.mapped, registerAt]
theorem target_arg3 (g : Cfg) : Cfg.target g .bits32 0x02C = .arg 3 := by
  simp [Cfg.target, Cfg.mapped, registerAt]
theorem target_res0 (g : Cfg) : Cfg.target g .bits32 0x040 = .res0 := by
  simp [Cfg.target, Cfg.mapped, registerAt]
theorem target_res1 (g : Cfg) : Cfg.target g .bits32 0x044 = .res1 := by
  simp [Cfg.target, Cfg.mapped, registerAt]

/-- An aligned address of IMEM. -/
theorem target_imem {g : Cfg} {a : BitVec 18} (h4 : a.toNat % 4 = 0) (h1 : 0x10000 ≤ a.toNat)
    (h2 : a.toNat < 0x20000) (h3 : a.toNat < 0x10000 + g.imemBytes) :
    Cfg.target g .bits32 a = .imem (a.toNat - 0x10000) := by
  have h5 : ¬ a.toNat < 0x100 := by omega
  have h6 : ¬ a.toNat < 0x10000 := by omega
  have h7 : a.toNat - 0x10000 < g.imemBytes := by omega
  simp only [Cfg.target, Cfg.mapped, h4, h5, h6, h2, h7, if_true, if_false]

/-- An aligned address of OMEM. -/
theorem target_omem {g : Cfg} {a : BitVec 18} (h4 : a.toNat % 4 = 0) (h1 : 0x20000 ≤ a.toNat)
    (h3 : a.toNat < 0x20000 + g.omemBytes) :
    Cfg.target g .bits32 a = .omem (a.toNat - 0x20000) := by
  have h5 : ¬ a.toNat < 0x100 := by omega
  have h6 : ¬ a.toNat < 0x10000 := by omega
  have h8 : ¬ a.toNat < 0x20000 := by omega
  have h7 : a.toNat - 0x20000 < g.omemBytes := by omega
  simp only [Cfg.target, Cfg.mapped, h4, h5, h6, h8, h7, if_true, if_false]

theorem registerAt_ne_busError (a : Nat) : registerAt a ≠ .busError := by
  unfold registerAt
  repeat' split
  all_goals simp

theorem registerAt_status {a : Nat} (h : registerAt a = .status) : a = 0x008 := by
  unfold registerAt at h
  by_cases h0 : a = 0x000
  · rw [if_pos h0] at h; cases h
  rw [if_neg h0] at h
  by_cases h1 : a = 0x004
  · rw [if_pos h1] at h; cases h
  rw [if_neg h1] at h
  by_cases h2 : a = 0x008
  · exact h2
  rw [if_neg h2] at h
  by_cases h3 : a = 0x00C
  · rw [if_pos h3] at h; cases h
  rw [if_neg h3] at h
  by_cases h4 : a = 0x010
  · rw [if_pos h4] at h; cases h
  rw [if_neg h4] at h
  by_cases h5 : a = 0x014
  · rw [if_pos h5] at h; cases h
  rw [if_neg h5] at h
  by_cases h6 : a = 0x020
  · rw [if_pos h6] at h; cases h
  rw [if_neg h6] at h
  by_cases h7 : a = 0x024
  · rw [if_pos h7] at h; cases h
  rw [if_neg h7] at h
  by_cases h8 : a = 0x028
  · rw [if_pos h8] at h; cases h
  rw [if_neg h8] at h
  by_cases h9 : a = 0x02C
  · rw [if_pos h9] at h; cases h
  rw [if_neg h9] at h
  by_cases h10 : a = 0x040
  · rw [if_pos h10] at h; cases h
  rw [if_neg h10] at h
  by_cases h11 : a = 0x044
  · rw [if_pos h11] at h; cases h
  rw [if_neg h11] at h
  cases h

/-- A word of the register space that 10_state.md section 2 does not list. -/
theorem registerAt_unlisted {a : Nat}
    (h : a ∉ [0x000, 0x004, 0x008, 0x00C, 0x010, 0x014, 0x020, 0x024, 0x028, 0x02C, 0x040, 0x044]) :
    registerAt a = .unlisted := by
  simp only [List.mem_cons, List.not_mem_nil, or_false, not_or] at h
  obtain ⟨h0, h1, h2, h3, h4, h5, h6, h7, h8, h9, h10, h11⟩ := h
  unfold registerAt
  rw [if_neg h0, if_neg h1, if_neg h2, if_neg h3, if_neg h4, if_neg h5, if_neg h6, if_neg h7,
    if_neg h8, if_neg h9, if_neg h10, if_neg h11]

/-- An aligned word of the register space. -/
theorem target_register {g : Cfg} {a : BitVec 18} (h4 : a.toNat % 4 = 0) (h1 : a.toNat < 0x100) :
    Cfg.target g .bits32 a = registerAt a.toNat := by
  simp only [Cfg.target, Cfg.mapped, h4, h1, if_true]

/-- STATUS is at one address only. -/
theorem target_status_iff {g : Cfg} {w : Width} {a : BitVec 18} (h : Cfg.target g w a = .status) :
    w = .bits32 ∧ a = 0x008 := by
  cases w with
  | bits8 => cases h
  | bits16 => cases h
  | bits64 => cases h
  | bits32 =>
    refine ⟨rfl, ?_⟩
    by_cases h4 : a.toNat % 4 = 0
    · by_cases h1 : a.toNat < 0x100
      · rw [target_register h4 h1] at h
        exact BitVec.eq_of_toNat_eq (registerAt_status h)
      · simp only [Cfg.target, Cfg.mapped, h4, h1, if_true, if_false] at h
        split_ifs at h
    · simp only [Cfg.target, h4, if_false] at h
      cases h

/-- The port answers with a bus error exactly where the access reaches nothing. -/
theorem target_busError (g : Cfg) (w : Width) (a : BitVec 18) :
    Cfg.target g w a = .busError ↔ ¬ Reaches g w a.toNat := by
  unfold Reaches
  cases w with
  | bits8 => simp [Cfg.target]
  | bits16 => simp [Cfg.target]
  | bits64 => simp [Cfg.target]
  | bits32 =>
    by_cases h4 : a.toNat % 4 = 0
    · simp only [Cfg.target, Cfg.mapped, h4, if_true]
      split
      · next h => simp [registerAt_ne_busError, h]
      · split
        · simp only [true_iff]; omega
        · split
          · split
            · simp only [reduceCtorEq, false_iff, not_not, true_and]; omega
            · simp only [true_iff, true_and]; omega
          · split
            · simp only [reduceCtorEq, false_iff, not_not, true_and]; omega
            · simp only [true_iff, true_and]; omega
    · simp [Cfg.target, h4]

/-! ### Reads with nothing between (20_memory.md R67) -/

/-- The memory offset a target names. -/
def Target.offset? : Target → Option (Bool × Nat)
  | .imem off => some (false, off)
  | .omem off => some (true, off)
  | .ctrl => none
  | .cmd => none
  | .status => none
  | .errcode => none
  | .tblstat => none
  | .version => none
  | .arg _ => none
  | .res0 => none
  | .res1 => none
  | .unlisted => none
  | .busError => none

theorem registerAt_offset? (o : Nat) : (registerAt o).offset? = none := by
  unfold registerAt
  simp only [apply_ite Target.offset?]
  simp only [Target.offset?, ite_self]

/-- Only an address of a memory's window reaches that memory (20_memory.md R61). -/
theorem target_offset? {g : Cfg} {w : Width} {a : BitVec 18} {b : Bool} {off : Nat}
    (h : (Cfg.target g w a).offset? = some (b, off)) :
    off = a.toNat - (if b then 0x20000 else 0x10000)
      ∧ (if b then 0x20000 ≤ a.toNat else 0x10000 ≤ a.toNat ∧ a.toNat < 0x20000) := by
  generalize hn : a.toNat = n at *
  unfold Cfg.target at h
  rw [hn] at h
  generalize h1 : 0x10000 = k1 at *
  generalize h2 : 0x20000 = k2 at *
  cases w with
  | bits32 =>
    simp only [Cfg.mapped, apply_ite Target.offset?, registerAt_offset?] at h
    simp only [Target.offset?] at h
    rw [h1, h2] at h
    split at h
    · split at h
      · cases h
      split at h
      · cases h
      split at h
      · split at h
        · cases h; exact ⟨rfl, by simp only [Bool.false_eq_true, if_false]; omega⟩
        · cases h
      split at h
      · cases h; exact ⟨rfl, by simp only [if_true]; omega⟩
      · cases h
    · cases h
  | bits8 => cases h
  | bits16 => cases h
  | bits64 => cases h
/-- What a read returns does not depend on the free values, where the bytes it names hold values, nor on the
inputs and the last answer (20_memory.md R67). -/
theorem State.load_fixed {s : State} {t : Target}
    (h : ∀ b off, t.offset? = some (b, off) →
      ∀ k < 4, (if b then s.omem else s.imem).get? (off + k) ≠ none)
    (f : Nat) (r : Option Reply) (es : List HostEvent) :
    State.load { s with free := f, reply := r, inputs := es } t = s.load t := by
  cases t with
  | imem off =>
    simp only [State.load]
    rw [Mem.readWord_fixed (m := s.imem) (h false off rfl) f s.free]
  | omem off =>
    have hv : ∀ k < 4, s.visibleOmem.get? (off + k) ≠ none := fun k hk => by
      rw [ne_eq, State.visibleOmem_none]
      exact h true off rfl k hk
    simp only [State.load]
    rw [Mem.readWord_fixed hv s.free f]
    rfl
  | _ => rfl

end Sys2Proof.Machine
end

