-- ==== Sys2Proof/Laws/Nonce.lean ====
section
/-! SUPPORT. The search for a nonce (44_ecdsa.md R232, R233): what it answers after t candidates, and that
`nonceTries` candidates are all there are, so that the bound takes no signature away (log 10). -/

namespace Sys2Proof.Machine

theorem length_fitTo (L : Nat) (B : Bytes) : (fitTo L B).length = L := by
  simp [fitTo]; omega

/-- A digest has HLEN bytes (00_scope.md R7). -/
theorem length_hashC (C : Ctx) (B : Bytes) : (hashC C B).length = C.digest.hlen := length_fitTo _ _

theorem length_hmac (C : Ctx) (K M : Bytes) : (hmac C K M).length = C.digest.hlen := length_hashC _ _

/-- The candidate the generator gives (R232). -/
def nonceOf (C : Ctx) (G : NonceGen) : Nat := bits2int C (nonceFill C G.key C.ssize [] G.v).1

/-- The generator after a candidate that is not accepted (R232). -/
def nonceAfter (C : Ctx) (G : NonceGen) : NonceGen :=
  nonceUpdate C ⟨G.key, (nonceFill C G.key C.ssize [] G.v).2⟩ 0 []

/-- Everything a search of t candidates can answer: the signature of the first one accepted, or none when
none of them is. -/
theorem signSearch_eq_none (C : Ctx) (d e t : Nat) (G : NonceGen) :
    signSearch C d e t G = none ↔ ∀ i < t, signWith C d e (nonceOf C ((nonceAfter C)^[i] G)) = none := by
  induction t generalizing G with
  | zero => simp [signSearch]
  | succ t ih =>
    have h0 : signWith C d e (bits2int C (nonceFill C G.key C.ssize [] G.v).1)
        = signWith C d e (nonceOf C G) := rfl
    rw [signSearch]
    rw [h0]
    cases h : signWith C d e (nonceOf C G) with
    | some sig =>
      simp only [reduceCtorEq, false_iff, not_forall]
      exact ⟨0, Nat.succ_pos t, by simp [h]⟩
    | none =>
      show signSearch C d e t (nonceAfter C G) = none ↔ _
      rw [ih]
      constructor
      · intro hi i hlt
        cases i with
        | zero => exact h
        | succ i => exact hi i (by omega)
      · exact fun hi i hlt => hi (i + 1) (by omega)

theorem signSearch_eq_some (C : Ctx) (d e t : Nat) (G : NonceGen) (sig : Signature) :
    signSearch C d e t G = some sig ↔ ∃ j < t,
      signWith C d e (nonceOf C ((nonceAfter C)^[j] G)) = some sig
        ∧ ∀ i < j, signWith C d e (nonceOf C ((nonceAfter C)^[i] G)) = none := by
  induction t generalizing G with
  | zero => simp [signSearch]
  | succ t ih =>
    have h0 : signWith C d e (bits2int C (nonceFill C G.key C.ssize [] G.v).1)
        = signWith C d e (nonceOf C G) := rfl
    rw [signSearch]
    rw [h0]
    cases h : signWith C d e (nonceOf C G) with
    | some sg =>
      constructor
      · intro hs
        exact ⟨0, Nat.succ_pos t, by rw [← hs]; exact h, by simp⟩
      · rintro ⟨j, -, hj, hlt⟩
        cases j with
        | zero => rw [← hj]; exact h.symm
        | succ j => exact absurd (h.symm.trans (hlt 0 (Nat.succ_pos j))) (by simp)
    | none =>
      show signSearch C d e t (nonceAfter C G) = some sig ↔ _
      rw [ih]
      constructor
      · rintro ⟨j, hj, hs, hlt⟩
        refine ⟨j + 1, by omega, hs, fun i hi => ?_⟩
        cases i with
        | zero => exact h
        | succ i => exact hlt i (by omega)
      · rintro ⟨j, hj, hs, hlt⟩
        cases j with
        | zero => exact absurd (h.symm.trans hs) (by simp)
        | succ j => exact ⟨j, by omega, hs, fun i hi => hlt (i + 1) (by omega)⟩

/-- Both strings of the generator have HLEN bytes (R232). -/
def NonceGen.Sized (C : Ctx) (G : NonceGen) : Prop :=
  G.key.length = C.digest.hlen ∧ G.v.length = C.digest.hlen

theorem sized_nonceUpdate (C : Ctx) (G : NonceGen) (b : Byte) (M : Bytes) :
    NonceGen.Sized C (nonceUpdate C G b M) := ⟨length_hmac _ _ _, length_hmac _ _ _⟩

theorem sized_nonceStart (C : Ctx) (d e : Nat) : NonceGen.Sized C (nonceStart C d e) :=
  sized_nonceUpdate _ _ _ _

theorem sized_iterate (C : Ctx) {G : NonceGen} (hG : NonceGen.Sized C G) (i : Nat) :
    NonceGen.Sized C ((nonceAfter C)^[i] G) := by
  cases i with
  | zero => exact hG
  | succ i => rw [Function.iterate_succ_apply']; exact sized_nonceUpdate _ _ _ _

/-- Byte strings of one length are equal where their numbers are (00_scope.md R9). -/
theorem le2int_inj {A B : Bytes} (hl : A.length = B.length) (h : le2int A = le2int B) : A = B := by
  induction A generalizing B with
  | nil => exact (List.eq_nil_of_length_eq_zero hl.symm).symm
  | cons a A ih =>
    cases B with
    | nil => simp at hl
    | cons b B =>
      simp only [le2int] at h
      have ha := a.isLt
      have hb := b.isLt
      have hab : a = b := BitVec.eq_of_toNat_eq (by omega)
      rw [hab, ih (by simpa using hl) (by omega)]

/-- A function on the numbers below N, iterated, comes to no value it has not had before N steps. -/
theorem iterate_within {α : Type} (f : α → α) (code : α → Nat) (N : Nat) (a : α)
    (hlt : ∀ i, code (f^[i] a) < N)
    (hinj : ∀ i j, code (f^[i] a) = code (f^[j] a) → f^[i] a = f^[j] a) (m : Nat) :
    ∃ k < N, f^[m] a = f^[k] a := by
  obtain ⟨i, hi, j, hj, hne, hij⟩ := Finset.exists_ne_map_eq_of_card_lt_of_maps_to
    (s := Finset.range (N + 1)) (t := Finset.range N) (f := fun i => code (f^[i] a)) (by simp)
    (fun i _ => by simpa using hlt i)
  wlog hlt' : i < j generalizing i j
  · exact this j hj i hi hne.symm hij.symm (by omega)
  have heq := hinj i j hij
  simp only [Finset.mem_range] at hj
  induction m using Nat.strong_induction_on with
  | _ m ih =>
    by_cases hm : m < N
    · exact ⟨m, hm, rfl⟩
    · obtain ⟨k, hk, h⟩ := ih (m - j + i) (by omega)
      refine ⟨k, hk, ?_⟩
      rw [← h, Function.iterate_add_apply, heq, ← Function.iterate_add_apply]
      congr 1
      omega

/-- If none of the first `nonceTries` candidates is accepted, none ever is: the bound is exact (log 10). -/
theorem signSearch_exhausted (C : Ctx) (d e : Nat) {G : NonceGen} (hG : NonceGen.Sized C G)
    (h : signSearch C d e (nonceTries C) G = none) (m : Nat) :
    signWith C d e (nonceOf C ((nonceAfter C)^[m] G)) = none := by
  have hlen (i : Nat) : (((nonceAfter C)^[i] G).key ++ ((nonceAfter C)^[i] G).v).length
      = 2 * C.digest.hlen := by
    obtain ⟨h1, h2⟩ := sized_iterate C hG i
    rw [List.length_append, h1, h2, two_mul]
  obtain ⟨k, hk, hm⟩ := iterate_within (nonceAfter C) (fun H => le2int (H.key ++ H.v)) (nonceTries C) G
    (fun i => by rw [nonceTries, ← hlen i]; exact le2int_lt _)
    (fun i j hij => by
      have hs := le2int_inj ((hlen i).trans (hlen j).symm) hij
      have hk := (sized_iterate C hG i).1.trans (sized_iterate C hG j).1.symm
      obtain ⟨h1, h2⟩ := List.append_inj hs hk
      cases h' : (nonceAfter C)^[i] G
      cases h'' : (nonceAfter C)^[j] G
      simp_all) m
  rw [hm]
  exact (signSearch_eq_none C d e _ G).1 h k hk

end Sys2Proof.Machine
end

