-- ==== Sys2Proof/Laws/PerInstr.lean ====
section
/-! SUPPORT. Per-command statements, each with one lemma per command: `Spelling`, the word of a command
equals its row's `match` under its row's mask (30_encoding.md R91), so that no field of a command leaves
its place. -/

namespace Sys2Proof.Laws

set_option Elab.async false

/-- The word of a command spells it: OP has a row in the opcode table and `w and mask = match` there
(R91, R97). -/
def Spelling.Statement (i : Instr) : Prop :=
  ∃ r, rowFor i.op = some r ∧ encode i &&& r.format.mask = r.pattern

theorem Spelling.madd (c : BitVec 4) (m : Modulus) (x : Bool) :
    Spelling.Statement (.madd c m x) := by
  refine ⟨_, rfl, ?_⟩
  cases m <;> cases x <;> (revert c; decide +kernel)

theorem Spelling.msub (c : BitVec 4) (m : Modulus) (x : Bool) :
    Spelling.Statement (.msub c m x) := by
  refine ⟨_, rfl, ?_⟩
  cases m <;> cases x <;> (revert c; decide +kernel)

theorem Spelling.mmul (c : BitVec 4) (m : Modulus) (x : Bool) :
    Spelling.Statement (.mmul c m x) := by
  refine ⟨_, rfl, ?_⟩
  cases m <;> cases x <;> (revert c; decide +kernel)

theorem Spelling.msqr (c : BitVec 4) (m : Modulus) (x : Bool) :
    Spelling.Statement (.msqr c m x) := by
  refine ⟨_, rfl, ?_⟩
  cases m <;> cases x <;> (revert c; decide +kernel)

theorem Spelling.minv (c : BitVec 4) (m : Modulus) (x : Bool) :
    Spelling.Statement (.minv c m x) := by
  refine ⟨_, rfl, ?_⟩
  cases m <;> cases x <;> (revert c; decide +kernel)

theorem Spelling.msqrt (c : BitVec 4) (x : Bool) :
    Spelling.Statement (.msqrt c x) := by
  refine ⟨_, rfl, ?_⟩
  cases x <;> (revert c; decide +kernel)

theorem Spelling.pchk (c : BitVec 4) :
    Spelling.Statement (.pchk c) := by
  refine ⟨_, rfl, ?_⟩
  revert c; decide +kernel

theorem Spelling.padd (c : BitVec 4) (f : PointForm) :
    Spelling.Statement (.padd c f) := by
  refine ⟨_, rfl, ?_⟩
  cases f <;> (revert c; decide +kernel)

theorem Spelling.pdbl (c : BitVec 4) (f : PointForm) :
    Spelling.Statement (.pdbl c f) := by
  refine ⟨_, rfl, ?_⟩
  cases f <;> (revert c; decide +kernel)

theorem Spelling.pneg (c : BitVec 4) (f : PointForm) :
    Spelling.Statement (.pneg c f) := by
  refine ⟨_, rfl, ?_⟩
  cases f <;> (revert c; decide +kernel)

theorem Spelling.pcomb (c : BitVec 4) (f : PointForm) :
    Spelling.Statement (.pcomb c f) := by
  refine ⟨_, rfl, ?_⟩
  cases f <;> (revert c; decide +kernel)

theorem Spelling.pmulg (c : BitVec 4) (f : PointForm) (x : Bool) :
    Spelling.Statement (.pmulg c f x) := by
  refine ⟨_, rfl, ?_⟩
  cases f <;> cases x <;> (revert c; decide +kernel)

theorem Spelling.pmul (c : BitVec 4) (f : PointForm) (x : Bool) :
    Spelling.Statement (.pmul c f x) := by
  refine ⟨_, rfl, ?_⟩
  cases f <;> cases x <;> (revert c; decide +kernel)

theorem Spelling.penc (c : BitVec 4) (f : PointForm) :
    Spelling.Statement (.penc c f) := by
  refine ⟨_, rfl, ?_⟩
  cases f <;> (revert c; decide +kernel)

theorem Spelling.pdec (c : BitVec 4) :
    Spelling.Statement (.pdec c) := by
  refine ⟨_, rfl, ?_⟩
  revert c; decide +kernel

theorem Spelling.skgen (c : BitVec 4) :
    Spelling.Statement (.skgen c) := by
  refine ⟨_, rfl, ?_⟩
  revert c; decide +kernel

theorem Spelling.skvfy (c : BitVec 4) :
    Spelling.Statement (.skvfy c) := by
  refine ⟨_, rfl, ?_⟩
  revert c; decide +kernel

theorem Spelling.skred (c : BitVec 4) :
    Spelling.Statement (.skred c) := by
  refine ⟨_, rfl, ?_⟩
  revert c; decide +kernel

theorem Spelling.skneg (c : BitVec 4) :
    Spelling.Statement (.skneg c) := by
  refine ⟨_, rfl, ?_⟩
  revert c; decide +kernel

theorem Spelling.skinv (c : BitVec 4) :
    Spelling.Statement (.skinv c) := by
  refine ⟨_, rfl, ?_⟩
  revert c; decide +kernel

theorem Spelling.sktadd (c : BitVec 4) :
    Spelling.Statement (.sktadd c) := by
  refine ⟨_, rfl, ?_⟩
  revert c; decide +kernel

theorem Spelling.sktmul (c : BitVec 4) :
    Spelling.Statement (.sktmul c) := by
  refine ⟨_, rfl, ?_⟩
  revert c; decide +kernel

theorem Spelling.pkcrt (c : BitVec 4) (f : PointForm) :
    Spelling.Statement (.pkcrt c f) := by
  refine ⟨_, rfl, ?_⟩
  cases f <;> (revert c; decide +kernel)

theorem Spelling.pktadd (c : BitVec 4) (f : PointForm) :
    Spelling.Statement (.pktadd c f) := by
  refine ⟨_, rfl, ?_⟩
  cases f <;> (revert c; decide +kernel)

theorem Spelling.pktmul (c : BitVec 4) (f : PointForm) :
    Spelling.Statement (.pktmul c f) := by
  refine ⟨_, rfl, ?_⟩
  cases f <;> (revert c; decide +kernel)

theorem Spelling.pkneg (c : BitVec 4) (f : PointForm) :
    Spelling.Statement (.pkneg c f) := by
  refine ⟨_, rfl, ?_⟩
  cases f <;> (revert c; decide +kernel)

theorem Spelling.pkadd (c : BitVec 4) (f : PointForm) :
    Spelling.Statement (.pkadd c f) := by
  refine ⟨_, rfl, ?_⟩
  cases f <;> (revert c; decide +kernel)

theorem Spelling.pkvfy (c : BitVec 4) :
    Spelling.Statement (.pkvfy c) := by
  refine ⟨_, rfl, ?_⟩
  revert c; decide +kernel

theorem Spelling.sigtoder (c : BitVec 4) :
    Spelling.Statement (.sigtoder c) := by
  refine ⟨_, rfl, ?_⟩
  revert c; decide +kernel

theorem Spelling.sigfromder (c : BitVec 4) :
    Spelling.Statement (.sigfromder c) := by
  refine ⟨_, rfl, ?_⟩
  revert c; decide +kernel

theorem Spelling.siglows (c : BitVec 4) :
    Spelling.Statement (.siglows c) := by
  refine ⟨_, rfl, ?_⟩
  revert c; decide +kernel

theorem Spelling.siglowder (c : BitVec 4) :
    Spelling.Statement (.siglowder c) := by
  refine ⟨_, rfl, ?_⟩
  revert c; decide +kernel

theorem Spelling.signorm (c : BitVec 4) :
    Spelling.Statement (.signorm c) := by
  refine ⟨_, rfl, ?_⟩
  revert c; decide +kernel

theorem Spelling.signormder (c : BitVec 4) :
    Spelling.Statement (.signormder c) := by
  refine ⟨_, rfl, ?_⟩
  revert c; decide +kernel

theorem Spelling.ecsign (c : BitVec 4) (d : Bool) :
    Spelling.Statement (.ecsign c d) := by
  refine ⟨_, rfl, ?_⟩
  cases d <;> (revert c; decide +kernel)

theorem Spelling.ecsignr (c : BitVec 4) (d : Bool) :
    Spelling.Statement (.ecsignr c d) := by
  refine ⟨_, rfl, ?_⟩
  cases d <;> (revert c; decide +kernel)

theorem Spelling.ecvfy (c : BitVec 4) (d : Bool) :
    Spelling.Statement (.ecvfy c d) := by
  refine ⟨_, rfl, ?_⟩
  cases d <;> (revert c; decide +kernel)

theorem Spelling.ecrcv (c : BitVec 4) (f : PointForm) (d : Bool) (r : BitVec 2) :
    Spelling.Statement (.ecrcv c f d r) := by
  refine ⟨_, rfl, ?_⟩
  cases f <;> cases d <;> (revert c r; decide +kernel)

theorem Spelling.schvfy (c : BitVec 4) :
    Spelling.Statement (.schvfy c) := by
  refine ⟨_, rfl, ?_⟩
  revert c; decide +kernel

theorem Spelling.schvfyb (c : BitVec 4) :
    Spelling.Statement (.schvfyb c) := by
  refine ⟨_, rfl, ?_⟩
  revert c; decide +kernel

theorem Spelling.h2sswu (c : BitVec 4) (f : PointForm) :
    Spelling.Statement (.h2sswu c f) := by
  refine ⟨_, rfl, ?_⟩
  cases f <;> (revert c; decide +kernel)

theorem Spelling.h2icart (c : BitVec 4) (f : PointForm) :
    Spelling.Statement (.h2icart c f) := by
  refine ⟨_, rfl, ?_⟩
  cases f <;> (revert c; decide +kernel)

theorem Spelling.h2svdw (c : BitVec 4) (f : PointForm) :
    Spelling.Statement (.h2svdw c f) := by
  refine ⟨_, rfl, ?_⟩
  cases f <;> (revert c; decide +kernel)

theorem Spelling.h2hash (c : BitVec 4) (f : PointForm) :
    Spelling.Statement (.h2hash c f) := by
  refine ⟨_, rfl, ?_⟩
  cases f <;> (revert c; decide +kernel)

theorem Spelling.edexp (c : BitVec 4) :
    Spelling.Statement (.edexp c) := by
  refine ⟨_, rfl, ?_⟩
  revert c; decide +kernel

theorem Spelling.edpub (c : BitVec 4) :
    Spelling.Statement (.edpub c) := by
  refine ⟨_, rfl, ?_⟩
  revert c; decide +kernel

theorem Spelling.edsign (c : BitVec 4) :
    Spelling.Statement (.edsign c) := by
  refine ⟨_, rfl, ?_⟩
  revert c; decide +kernel

theorem Spelling.edvfy (c : BitVec 4) :
    Spelling.Statement (.edvfy c) := by
  refine ⟨_, rfl, ?_⟩
  revert c; decide +kernel

theorem Spelling.edpktadd (c : BitVec 4) :
    Spelling.Statement (.edpktadd c) := by
  refine ⟨_, rfl, ?_⟩
  revert c; decide +kernel

theorem Spelling.edsignt (c : BitVec 4) :
    Spelling.Statement (.edsignt c) := by
  refine ⟨_, rfl, ?_⟩
  revert c; decide +kernel

theorem Spelling.edtomont (c : BitVec 4) :
    Spelling.Statement (.edtomont c) := by
  refine ⟨_, rfl, ?_⟩
  revert c; decide +kernel

theorem Spelling.edfrommont (c : BitVec 4) (g : Bool) :
    Spelling.Statement (.edfrommont c g) := by
  refine ⟨_, rfl, ?_⟩
  cases g <;> (revert c; decide +kernel)

end Sys2Proof.Laws
end

