-- ==== Sys2Proof/Laws/Script.lean ====
section
/-! SUPPORT. What a host script ends in (30_encoding.md R110, 70_reset_and_hazards.md R361), and what its
accesses are. -/

namespace Sys2Proof.Machine

set_option Elab.async false

/-- A sequence is over when both its pieces are. -/
theorem ScriptEnd.andThen_done {r : ScriptEnd} {k : State → ScriptEnd} {t : State} {as : List Reply}
    (h : r.andThen k = .done t as) : ∃ u bs cs, r = .done u bs ∧ k u = .done t cs := by
  cases r with
  | done u bs =>
    simp only [ScriptEnd.andThen] at h
    split at h
    · next v cs hk => cases h; exact ⟨u, bs, cs, rfl, hk⟩
    all_goals cases h
  | waiting u => cases h
  | malformed => cases h
  | fault f => cases h
  | refused f => cases h

/-- What one input leaves of a piece: the state `handle` answers. -/
theorem State.runEvent_done {s t : State} {e : HostEvent} {as : List Reply}
    (h : s.runEvent e = .done t as) : s.handle e = .next t := by
  unfold State.runEvent at h
  split at h
  · cases h
  · cases h
  · next u hu => cases e <;> cases h <;> exact hu

/-- No input changes the list of coming inputs. -/
theorem State.handle_inputs {s t : State} {e : HostEvent} (h : s.handle e = .next t) :
    t.inputs = s.inputs := by
  cases e with
  | read w a => cases h; rfl
  | write w a d =>
    cases h
    rw [State.hostWrite_inputs]
    exact (State.store_frame _ _ _).2.2.2.1
  | reset => cases h; rfl
  | engine =>
    rcases engineStep_next h with ⟨-, rfl⟩ | ⟨c, -, e, rfl, -⟩
    · rfl
    · rfl

theorem State.runEvent_inputs {s t : State} {e : HostEvent} {as : List Reply}
    (h : s.runEvent e = .done t as) : t.inputs = s.inputs :=
  State.handle_inputs (State.runEvent_done h)

theorem State.runEvents_inputs {es : List HostEvent} {s t : State} {as : List Reply}
    (h : s.runEvents es = .done t as) : t.inputs = s.inputs := by
  induction es generalizing s as with
  | nil => cases h; rfl
  | cons e es ih =>
    obtain ⟨u, bs, cs, h1, h2⟩ := ScriptEnd.andThen_done h
    exact (ih h2).trans (State.runEvent_inputs h1)

theorem State.runWait_inputs {n : Nat} {s t : State} {as : List Reply}
    (h : s.runWait n = .done t as) : t.inputs = s.inputs := by
  induction n generalizing s as with
  | zero =>
    obtain ⟨u, bs, cs, h1, h2⟩ := ScriptEnd.andThen_done h
    obtain ⟨v, ds, es, h3, h4⟩ := ScriptEnd.andThen_done h2
    split at h4
    · cases h4
      exact (State.runEvent_inputs h3).trans (State.runEvent_inputs h1)
    · cases h4
  | succ n ih =>
    obtain ⟨u, bs, cs, h1, h2⟩ := ScriptEnd.andThen_done h
    split at h2
    · cases h2
      exact State.runEvent_inputs h1
    · exact (ih h2).trans (State.runEvent_inputs h1)

theorem State.runLine_inputs {p : Pseudo} {s t : State} {as : List Reply}
    (h : s.runLine p = .done t as) : t.inputs = s.inputs := by
  have key : ∀ o : Option (List HostEvent), s.runAccesses o = .done t as → t.inputs = s.inputs := by
    rintro (_ | es) h
    · cases h
    · exact State.runEvents_inputs h
  cases p with
  | wait n => exact State.runWait_inputs h
  | wr a v => exact key (Pseudo.expand? s (.wr a v)) h
  | rd a => exact key (Pseudo.expand? s (.rd a)) h
  | put off B => exact key (Pseudo.expand? s (.put off B)) h
  | arg i off len => exact key (Pseudo.expand? s (.arg i off len)) h
  | command w => exact key (Pseudo.expand? s (.command w)) h
  | get b => exact key (Pseudo.expand? s (.get b)) h
  | ack => exact key (Pseudo.expand? s (.ack)) h

theorem State.runLines_inputs {ps : List Pseudo} {s t : State} {as : List Reply}
    (h : s.runLines ps = .done t as) : t.inputs = s.inputs := by
  induction ps generalizing s as with
  | nil => cases h; rfl
  | cons p ps ih =>
    obtain ⟨u, bs, cs, h1, h2⟩ := ScriptEnd.andThen_done h
    exact (ih h2).trans (State.runLine_inputs h1)

/-- A script that is over left nothing pending: a command on its last line has completed
(70_reset_and_hazards.md R361). -/
theorem runScript_final {ps : List Pseudo} {s t : State} {as : List Reply} (hi : s.inputs = [])
    (h : s.runScript ps = .done t as) : t.final = true := by
  obtain ⟨u, bs, cs, h1, h2⟩ := ScriptEnd.andThen_done h
  have hu : t.inputs = [] :=
    (State.runEvent_inputs h2).trans ((State.runLines_inputs h1).trans hi)
  have hp : t.pend = none := by
    rcases engineStep_next (State.runEvent_done h2) with ⟨hp, rfl⟩ | ⟨c, -, e, rfl, -⟩
    · exact hp
    · rfl
  simp [State.final, hu, hp]

/-- Every access of a `put` reaches the address it names: none wraps round (30_encoding.md R110,
log 29). -/
theorem putEvents_fit (B : Bytes) (a : Nat) (h4 : a % 4 = 0) (h : a + B.length ≤ 0x40000) :
    ∀ e ∈ putEvents a B, ∃ b d, e = .write .bits32 (BitVec.ofNat 18 b) d ∧ a ≤ b ∧ b < 0x40000
      ∧ b % 4 = 0 := by
  induction a, B using putEvents.induct with
  | case1 a => intro e he; simp [putEvents] at he
  | case2 a b0 =>
    intro e he
    simp only [putEvents, List.mem_singleton] at he
    simp only [List.length_cons, List.length_nil] at h
    exact ⟨a, _, he, Nat.le_refl a, by omega, h4⟩
  | case3 a b0 b1 =>
    intro e he
    simp only [putEvents, List.mem_singleton] at he
    simp only [List.length_cons, List.length_nil] at h
    exact ⟨a, _, he, Nat.le_refl a, by omega, h4⟩
  | case4 a b0 b1 b2 =>
    intro e he
    simp only [putEvents, List.mem_singleton] at he
    simp only [List.length_cons, List.length_nil] at h
    exact ⟨a, _, he, Nat.le_refl a, by omega, h4⟩
  | case5 a b0 b1 b2 b3 B ih =>
    intro e he
    simp only [putEvents, List.mem_cons] at he
    simp only [List.length_cons] at h
    rcases he with he | he
    · exact ⟨a, _, he, Nat.le_refl a, by omega, h4⟩
    · obtain ⟨b, d, hb, h1, h2, h3⟩ := ih (by omega) (by omega) e he
      exact ⟨b, d, hb, by omega, h2, h3⟩

end Sys2Proof.Machine
end

