-- ==== Sys2Proof/Tests/Slice0.lean ====
section
/-! SUPPORT. Tests of one step each, on the toy curves of 95_test_vectors.md section 1 and with the expected
values of 95_test_vectors.md and 96_test_vectors_protocols.md (the name of a test carries the row's name
there); words written out from 30_encoding.md; and for every statement with hypotheses a witness that meets
them. -/

namespace Sys2Proof.Tests

set_option Elab.async false

open Sys2Proof.Machine

/-! ### The configuration CfgT (95_test_vectors.md section 1) -/

/-- SHA-256 of the inputs the tests below hash (standard values, computed outside the model). -/
def shaKnown : List (Bytes × Bytes) :=
  [ ([0x60, 0x02, 0x42],
      int2be 0x9d2cd13fd7a7219fbe1b7eaf9feab0ad55c2bc03fbff7812becac8f55668b53a 32),
    ([0x0A, 0x03, 0x93, 0x61, 0x62, 0x63],
      int2be 0x053d9bdd1724b5a8f8aa408b0dd67b50db6953a018cd5cac678eeaef481d836f 32),
    (int2be 0x0009102766a5e1540a6331bceba8fb9bab6d6ae727b67a1030211613f0b37f655c5c5c5c5c5c5c5c5c5c5c5c5c5c5c5c5c5c5c5c5c5c5c5c5c5c5c5c5c5c5c5c6ec0477544a304ca823d71fd768404a36158d20d108ac7584b0091c68282b477 96,
      int2be 0x7e3b36b99c6515db76a4a37038b6e69072446f667e7c434f29e3474e737b379f 32),
    (int2be 0x0009102766a5e1540a6331bceba8fb9bab6d6ae727b67a1030211613f0b37f655c5c5c5c5c5c5c5c5c5c5c5c5c5c5c5c5c5c5c5c5c5c5c5c5c5c5c5c5c5c5c5cdf58a24502da921422092273fa82a1405199fd8ad2a551d7f6e4f2f009dd716b 96,
      int2be 0xc5848f3c19d501befe030a1daa4e57169f13a56a23f689289cd0f8d7be945fc1 32),
    (int2be 0x09965db8423dc6485ed7fc9c44258c26e84fee809da9b59966d48390144217365c5c5c5c5c5c5c5c5c5c5c5c5c5c5c5c5c5c5c5c5c5c5c5c5c5c5c5c5c5c5c5c3b2a44eff31f610c3ecec76ef06c809deb6f951f78061688ae97aa524dec2c87 96,
      int2be 0x8f2b55dbacf4498ab653a6e655845ed58a6b12719be4522fb4f3b23d4f04239a 32),
    (int2be 0x09965db8423dc6485ed7fc9c44258c26e84fee809da9b59966d48390144217365c5c5c5c5c5c5c5c5c5c5c5c5c5c5c5c5c5c5c5c5c5c5c5c5c5c5c5c5c5c5c5c598b1ae7746eae120b1f057c8c99cce632cd2ce6e5a83248e7c6fd159c83dd0f 96,
      int2be 0x6413886ac875513201936bb37376eda7a2b8b0050a514f28d16b1b14ae57534c 32),
    (int2be 0x22676ae5c03949872af8ff2c64eabacc2e18333a22201f1375bf1b122f276bc35c5c5c5c5c5c5c5c5c5c5c5c5c5c5c5c5c5c5c5c5c5c5c5c5c5c5c5c5c5c5c5c474c3228dacbe84dd40db32663ceda4a65caed8c2834773430cf861a056feecb 96,
      int2be 0xeb68f060c464f78b323561529b3a361fc78d9647686d82871199ec562474a627 32),
    (int2be 0x22676ae5c03949872af8ff2c64eabacc2e18333a22201f1375bf1b122f276bc35c5c5c5c5c5c5c5c5c5c5c5c5c5c5c5c5c5c5c5c5c5c5c5c5c5c5c5c5c5c5c5cfd6cec9e382003e607e40e5b265bfe6f7800725d17830858aec53721b062c297 96,
      int2be 0xab1a8c6a790f9de422b7724b3e3d605ed185f06304141d70e04240eef2e811da 32),
    (int2be 0x480d008faa5323ed409295460e80d0a644725950484a75791fd57178454d01a93636363636363636363636363636363636363636363636363636363636363636c5848f3c19d501befe030a1daa4e57169f13a56a23f689289cd0f8d7be945fc1 96,
      int2be 0x474c3228dacbe84dd40db32663ceda4a65caed8c2834773430cf861a056feecb 32),
    (int2be 0x480d008faa5323ed409295460e80d0a644725950484a75791fd57178454d01a93636363636363636363636363636363636363636363636363636363636363636eb68f060c464f78b323561529b3a361fc78d9647686d82871199ec562474a627 96,
      int2be 0xfd6cec9e382003e607e40e5b265bfe6f7800725d17830858aec53721b062c297 32),
    (int2be 0x5c5c5c5c5c5c5c5c5c5c5c5c5c5c5c5c5c5c5c5c5c5c5c5c5c5c5c5c5c5c5c5c5c5c5c5c5c5c5c5c5c5c5c5c5c5c5c5c5c5c5c5c5c5c5c5c5c5c5c5c5c5c5c5cf118c75ff2d02af329d3f8a46c4a38dde38dd6f5f5a2985fac8f3062b9627f96 96,
      int2be 0x5c554c7b3af9bd08563f6de0b7f4a7c7f73136bb7bea264c6c7d4a4facef2339 32),
    (int2be 0x5c5c5c5c5c5c5c5c5c5c5c5c5c5c5c5c5c5c5c5c5c5c5c5c5c5c5c5c5c5c5c5c5c5c5c5c5c5c5c5c5c5c5c5c5c5c5c5c5c5c5c5c5c5c5c5c5c5c5c5c5c5c5c5cfa4fde91a86d85faf2e42309947fcc1d97a87e021b46789cf90b96150665daf1 96,
      int2be 0x896431f3ac220d074ea03ec7f9e9b54ca15fa32bf538aa3db666b4513916db2f 32),
    (int2be 0x63fc37d22857ac2234bd96f62e4fe64c822584eaf7c3dff30cbee9fa7e287d5c363636363636363636363636363636363636363636363636363636363636363617cff0d30663d07cf5bcab355872d4d8e9b9d488afeb1e4ebb34a8f7c20ecc79 96,
      int2be 0x598b1ae7746eae120b1f057c8c99cce632cd2ce6e5a83248e7c6fd159c83dd0f 32),
    (int2be 0x63fc37d22857ac2234bd96f62e4fe64c822584eaf7c3dff30cbee9fa7e287d5c36363636363636363636363636363636363636363636363636363636363636366413886ac875513201936bb37376eda7a2b8b0050a514f28d16b1b14ae57534c 96,
      int2be 0x3b2a44eff31f610c3ecec76ef06c809deb6f951f78061688ae97aa524dec2c87 32),
    (int2be 0x6a637a4d0ccf8b3e60095bd681c291f1c107008d4ddc107a5a4b7c799ad9150f36363636363636363636363636363636363636363636363636363636363636360101010101010101010101010101010101010101010101010101010101010101 96,
      int2be 0xdf58a24502da921422092273fa82a1405199fd8ad2a551d7f6e4f2f009dd716b 32),
    (int2be 0xbf5207c59a143b31789608f1cfdf837a9769951dc30e9c0b805082670f20ed1936363636363636363636363636363636363636363636363636363636363636360101010101010101010101010101010101010101010101010101010101010101 96,
      int2be 0x9c103aca761d7ef49a8b971590b3df5f828db7d0b93cc167561088eb593142c8 32),
    (int2be 0xd5386daff07e515b12fc629ba5b5e910fd03ff77a964f661ea3ae80d654a87735c5c5c5c5c5c5c5c5c5c5c5c5c5c5c5c5c5c5c5c5c5c5c5c5c5c5c5c5c5c5c5c4f8c489cb895c48162037db8602db24c83f59485ad13363a91fa8da807dffc01 96,
      int2be 0x55ca01e41e619a14028ba0c01879d07ab413b2dcc1f5e9c53a88dfcc481e4b6a 32),
    (int2be 0xd5386daff07e515b12fc629ba5b5e910fd03ff77a964f661ea3ae80d654a87735c5c5c5c5c5c5c5c5c5c5c5c5c5c5c5c5c5c5c5c5c5c5c5c5c5c5c5c5c5c5c5c9c103aca761d7ef49a8b971590b3df5f828db7d0b93cc167561088eb593142c8 96,
      int2be 0x17cff0d30663d07cf5bcab355872d4d8e9b9d488afeb1e4ebb34a8f7c20ecc79 32),
    (int2be 0x363636363636363636363636363636363636363636363636363636363636363636363636363636363636363636363636363636363636363636363636363636360101010101010101010101010101010101010101010101010101010101010101000103 99,
      int2be 0xfa4fde91a86d85faf2e42309947fcc1d97a87e021b46789cf90b96150665daf1 32),
    (int2be 0x363636363636363636363636363636363636363636363636363636363636363636363636363636363636363636363636363636363636363636363636363636360101010101010101010101010101010101010101010101010101010101010101000561 99,
      int2be 0xf118c75ff2d02af329d3f8a46c4a38dde38dd6f5f5a2985fac8f3062b9627f96 32),
    (int2be 0x6a637a4d0ccf8b3e60095bd681c291f1c107008d4ddc107a5a4b7c799ad9150f3636363636363636363636363636363636363636363636363636363636363636c5848f3c19d501befe030a1daa4e57169f13a56a23f689289cd0f8d7be945fc1010561 99,
      int2be 0x6ec0477544a304ca823d71fd768404a36158d20d108ac7584b0091c68282b477 32),
    (int2be 0xbf5207c59a143b31789608f1cfdf837a9769951dc30e9c0b805082670f20ed19363636363636363636363636363636363636363636363636363636363636363617cff0d30663d07cf5bcab355872d4d8e9b9d488afeb1e4ebb34a8f7c20ecc79010103 99,
      int2be 0x4f8c489cb895c48162037db8602db24c83f59485ad13363a91fa8da807dffc01 32) ]

/-- The first two bytes of SHA-256 of the inputs the tests below hash. -/
def shortKnown : List (Bytes × Bytes) :=
  [ ([0x00], [0x6E, 0x34]),
    ([0x01], [0x4B, 0xF5]),
    ([0xF5], [0x27, 0xAB]),
    ([0x01, 0x02], [0xA1, 0x28]),
    ([0x5A, 0x51], [0x65, 0x28]),
    ([0xF5, 0x05], [0x1A, 0xBC]),
    ([0x1A, 0x61, 0x62, 0x63], [0x6B, 0xCB]),
    ([0xF5, 0x61, 0x62, 0x63], [0x95, 0x34]),
    ([0x4A, 0x03, 0x61, 0x62, 0x63], [0x6D, 0x09]),
    ([0xD1, 0x51, 0x61, 0x62, 0x63], [0xE7, 0x0E]) ]
/-- A curve whose numbers take one byte. -/
def toy (shape : Shape) (p gx gy n h : Nat) (h2c : MapKind) (z hash : Nat) : Curve where
  shape := shape
  p := p
  gx := gx
  gy := gy
  n := n
  h := h
  fsize := 1
  ssize := 1
  h2c := h2c
  z := z
  hash := hash

def toyK : Curve := toy (.weierstrass 0 7) 211 3 178 199 1 .svdw 3 0

def toyN : Curve := toy (.weierstrass 164 7) 167 2 3 151 1 .sswu 163 0

def toyE : Curve := toy (.edwards 96 7) 97 45 3 13 8 .none 0 1

def toyI : Curve := toy (.weierstrass 164 7) 167 2 3 151 1 .icart 0 0

/-- CfgT. -/
def toyCfg : Cfg :=
  { Config.suggested with
    curves := [toyK, toyN, toyE, toyI]
    hashes := [⟨32, 64, shaKnown⟩, ⟨2, 64, shortKnown⟩] }

/-- The four curves as commands see them. -/
def ctxK : Ctx := ⟨toyK, .big, ⟨32, 64, shaKnown⟩, .suggested, .suggested⟩

def ctxN : Ctx := ⟨toyN, .big, ⟨32, 64, shaKnown⟩, .suggested, .suggested⟩

def ctxE : Ctx := ⟨toyE, .little, ⟨2, 64, shortKnown⟩, .suggested, .suggested⟩

def ctxI : Ctx := ⟨toyI, .big, ⟨32, 64, shaKnown⟩, .suggested, .suggested⟩

/-- ARG0, ARG1 and ARG2 for strings at the offsets 0, 64 and 128 of IMEM. -/
def argsFor (A B C : Bytes) : Args :=
  ⟨.ofNat 0 A.length, .ofNat 64 B.length, .ofNat 128 C.length, .zero⟩

/-- IMEM with three strings of at most 64 bytes. -/
def imemFor (A B C : Bytes) : Mem := Mem.ofBytes 0 A ++ Mem.ofBytes 64 B ++ Mem.ofBytes 128 C

/-- The state after reset with three strings put into IMEM and described by ARG0 to ARG2. -/
def given (A B C : Bytes) (rng : Bytes := []) : State :=
  { State.resetWith toyCfg with args := argsFor A B C, imem := imemFor A B C, rng := rng }

/-- The state with a command word accepted. -/
def busy (w : Word) (A B C : Bytes) (rng : Bytes := []) : State := (given A B C rng).presented w

/-- The latch of that state. -/
def latch (w : Word) (A B C : Bytes) : Pending := ⟨w, argsFor A B C, imemFor A B C⟩

/-- The step that runs a command word. -/
def run (w : Nat) (A B C : Bytes) (rng : Bytes := []) : Host.Outcome State Fault Refusal :=
  step ((given A B C rng).withFetchWord 32 w)

/-- The bytes a result descriptor names. -/
def resultBytes (s : State) (d : Desc) : Bytes :=
  (List.range d.len.toNat).filterMap fun k => s.omem.get? (d.off.toNat + k)

/-- What a host sees of a completion: STATUS, ERRCODE and the two results. -/
structure Seen where
  status : Word
  errcode : BitVec 8
  res0 : Bytes
  res1 : Bytes
  deriving DecidableEq, Repr

/-- What a host sees after a step. -/
def seen : Host.Outcome State Fault Refusal → Option Seen
  | .next s => some ⟨s.status.word, s.errcode.value, resultBytes s s.res0, resultBytes s s.res1⟩
  | .fault _ => none
  | .refused _ => none

/-! ### One step of every command -/

theorem test_M3_madd :
    seen (run 0x00001001 [0xC6] [0x01] []) = some ⟨0x002, 0, [0x00], []⟩ := by
  decide +kernel

theorem test_M5_madd :
    seen (run 0x00000001 [0xD3] [0x01] []) = some ⟨0x006, 6, [], []⟩ := by
  decide +kernel

theorem test_M8_msub :
    seen (run 0x00000002 [0x05] [0x0A] []) = some ⟨0x002, 0, [0xCE], []⟩ := by
  decide +kernel

theorem test_M11_msub :
    seen (run 0x00001002 [0x00] [0x01] []) = some ⟨0x002, 0, [0xC6], []⟩ := by
  decide +kernel

theorem test_M13_mmul :
    seen (run 0x00000003 [0xD2] [0xD2] []) = some ⟨0x002, 0, [0x01], []⟩ := by
  decide +kernel

theorem test_M15_mmul :
    seen (run 0x00003003 [0xC6] [0xC6] []) = some ⟨0x002, 0, [0x01], []⟩ := by
  decide +kernel

theorem test_M16_msqr :
    seen (run 0x00000004 [0xC8] [] []) = some ⟨0x002, 0, [0x79], []⟩ := by
  decide +kernel

theorem test_M17_msqr :
    seen (run 0x00001004 [0x64] [] []) = some ⟨0x002, 0, [0x32], []⟩ := by
  decide +kernel

theorem test_M19_minv :
    seen (run 0x00002005 [0x02] [] []) = some ⟨0x002, 0, [0x6A], []⟩ := by
  decide +kernel

theorem test_M22_minv :
    seen (run 0x00000005 [0x00] [] []) = some ⟨0x006, 6, [], []⟩ := by
  decide +kernel

theorem test_M26_msqrt :
    seen (run 0x00000006 [0x05] [] []) = some ⟨0x002, 0, [0x41], []⟩ := by
  decide +kernel

theorem test_M29_msqrt :
    seen (run 0x00000006 [0x02] [] []) = some ⟨0x006, 6, [], []⟩ := by
  decide +kernel

theorem test_P1_pchk :
    seen (run 0x00000010 [0x03] [0xB2] []) = some ⟨0x00A, 0, [], []⟩ := by
  decide +kernel

theorem test_P3_pchk :
    seen (run 0x00000010 [0xD6] [0xB2] []) = some ⟨0x002, 0, [], []⟩ := by
  decide +kernel

theorem test_P9_padd :
    seen (run 0x00000011 [0x02, 0x03] [0x02, 0x03] []) = some ⟨0x002, 0, [0x04, 0x5E, 0x63], []⟩ := by
  decide +kernel

theorem test_Q1_padd :
    seen (run 0x00000211 [0x83] [0x83] []) = some ⟨0x002, 0, [0x29], []⟩ := by
  decide +kernel

theorem test_P11_pdbl :
    seen (run 0x00004012 [0x02, 0x03] [] []) = some ⟨0x002, 0, [0x03, 0x5E], []⟩ := by
  decide +kernel

theorem test_Q4_pdbl :
    seen (run 0x00000212 [0x60] [] []) = some ⟨0x002, 0, [0x01], []⟩ := by
  decide +kernel

theorem test_P13_pneg :
    seen (run 0x00000013 [0x02, 0x03] [] []) = some ⟨0x002, 0, [0x04, 0x03, 0x21], []⟩ := by
  decide +kernel

theorem test_Q6_pneg :
    seen (run 0x00000213 [0x83] [] []) = some ⟨0x002, 0, [0x03], []⟩ := by
  decide +kernel

theorem test_P15_pcomb :
    seen (run 0x00004014 [0x00, 0x02, 0x02, 0x03, 0x00, 0x02, 0x03, 0x5E] [] [])
      = some ⟨0x002, 0, [0x02, 0x5C], []⟩ := by
  decide +kernel

theorem test_P18_pcomb :
    seen (run 0x00000014 [0x00, 0x02, 0x02, 0x03, 0x00, 0x02, 0x03, 0x5E, 0x00, 0x03, 0x04, 0x5C, 0xB0] [] [])
      = some ⟨0x006, 2, [], []⟩ := by
  decide +kernel

theorem test_P28_pmulg :
    seen (run 0x00002015 [0xC6] [] []) = some ⟨0x002, 0, [0x04, 0x03, 0x21], []⟩ := by
  decide +kernel

theorem test_Q8_pmulg :
    seen (run 0x00000215 [0x0C] [] []) = some ⟨0x002, 0, [0x03], []⟩ := by
  decide +kernel

theorem test_P36_pmul :
    seen (run 0x00006016 [0x05] [0x02, 0x03] []) = some ⟨0x002, 0, [0x03, 0x93], []⟩ := by
  decide +kernel

theorem test_Q11_pmul :
    seen (run 0x00000216 [0x08] [0x80] []) = some ⟨0x002, 0, [0x01], []⟩ := by
  decide +kernel

theorem test_P37_penc :
    seen (run 0x00008017 [0x03] [0xB2] []) = some ⟨0x002, 0, [0x06, 0x03, 0xB2], []⟩ := by
  decide +kernel

theorem test_Q18_penc :
    seen (run 0x00000217 [0x2D] [0x03] []) = some ⟨0x002, 0, [0x83], []⟩ := by
  decide +kernel

theorem test_P46_pdec :
    seen (run 0x00000018 [0x06, 0x03, 0xB3] [] []) = some ⟨0x006, 3, [], []⟩ := by
  decide +kernel

theorem test_Q12_pdec :
    seen (run 0x00000218 [0x83] [] []) = some ⟨0x002, 0, [0x2D], [0x03]⟩ := by
  decide +kernel

theorem test_K2_skgen :
    seen (run 0x00000020 [] [] [] (rng := [0x00, 0xC7, 0x05])) = some ⟨0x002, 0, [0x05], []⟩ := by
  decide +kernel

theorem test_K3_skgen :
    seen (run 0x00000220 [] [] [] (rng := [0x0D, 0xFF])) = some ⟨0x002, 0, [0x08], []⟩ := by
  decide +kernel

theorem test_K4_skvfy :
    seen (run 0x00000021 [0xC6] [] []) = some ⟨0x00A, 0, [], []⟩ := by
  decide +kernel

theorem test_K5_skvfy :
    seen (run 0x00000021 [0xC7] [] []) = some ⟨0x002, 0, [], []⟩ := by
  decide +kernel

theorem test_K9_skred :
    seen (run 0x00000022 [0x01, 0x00] [] []) = some ⟨0x002, 0, [0x39], []⟩ := by
  decide +kernel

theorem test_K12_skred :
    seen (run 0x00000022 [0xFF, 0xFF, 0xFF, 0xFF] [] []) = some ⟨0x002, 0, [0x2D], []⟩ := by
  decide +kernel

theorem test_K13_skneg :
    seen (run 0x00000023 [0x05] [] []) = some ⟨0x002, 0, [0xC2], []⟩ := by
  decide +kernel

theorem test_K14_skneg :
    seen (run 0x00000023 [0x00] [] []) = some ⟨0x002, 0, [0x00], []⟩ := by
  decide +kernel

theorem test_K16_skinv :
    seen (run 0x00000024 [0x02] [] []) = some ⟨0x002, 0, [0x64], []⟩ := by
  decide +kernel

theorem test_K18_skinv :
    seen (run 0x00000024 [0x00] [] []) = some ⟨0x006, 1, [], []⟩ := by
  decide +kernel

theorem test_K19_sktadd :
    seen (run 0x00000025 [0x05] [0x07] []) = some ⟨0x002, 0, [0x0C], []⟩ := by
  decide +kernel

theorem test_K21_sktadd :
    seen (run 0x00000025 [0xC6] [0x01] []) = some ⟨0x006, 1, [], []⟩ := by
  decide +kernel

theorem test_K24_sktmul :
    seen (run 0x00000026 [0x05] [0x32] []) = some ⟨0x002, 0, [0x33], []⟩ := by
  decide +kernel

theorem test_K25_sktmul :
    seen (run 0x00000026 [0x05] [0x00] []) = some ⟨0x006, 1, [], []⟩ := by
  decide +kernel

theorem test_K27_pkcrt :
    seen (run 0x00004027 [0x05] [] []) = some ⟨0x002, 0, [0x03, 0x93], []⟩ := by
  decide +kernel

theorem test_K30_pkcrt :
    seen (run 0x00000227 [0x07] [] []) = some ⟨0x002, 0, [0x51], []⟩ := by
  decide +kernel

theorem test_K31_pktadd :
    seen (run 0x00000028 [0x04, 0x93, 0x91] [0x07] []) = some ⟨0x002, 0, [0x04, 0xCA, 0x84], []⟩ := by
  decide +kernel

theorem test_K32_pktadd :
    seen (run 0x00000028 [0x02, 0x03] [0xC6] []) = some ⟨0x006, 2, [], []⟩ := by
  decide +kernel

theorem test_K36_pktmul :
    seen (run 0x00000029 [0x03, 0x5E] [0x03] []) = some ⟨0x002, 0, [0x04, 0xB2, 0xB7], []⟩ := by
  decide +kernel

theorem test_K37_pktmul :
    seen (run 0x00000029 [0x03, 0x5E] [0x00] []) = some ⟨0x006, 2, [], []⟩ := by
  decide +kernel

theorem test_K38_pkneg :
    seen (run 0x0000402A [0x02, 0x03] [] []) = some ⟨0x002, 0, [0x03, 0x03], []⟩ := by
  decide +kernel

theorem test_K39_pkneg :
    seen (run 0x0000002A [0x00] [] []) = some ⟨0x006, 2, [], []⟩ := by
  decide +kernel

theorem test_K40_pkadd :
    seen (run 0x0000002B [0x02, 0x03] [0x03, 0x5E] []) = some ⟨0x002, 0, [0x04, 0x5C, 0x98], []⟩ := by
  decide +kernel

theorem test_K41_pkadd :
    seen (run 0x0000002B [0x02, 0x03] [0x03, 0x03] []) = some ⟨0x006, 2, [], []⟩ := by
  decide +kernel

theorem test_K43_pkvfy :
    seen (run 0x0000002C [0x02, 0x03] [] []) = some ⟨0x00A, 0, [], []⟩ := by
  decide +kernel

theorem test_K45_pkvfy :
    seen (run 0x0000002C [0x07, 0x03, 0xB2] [] []) = some ⟨0x002, 0, [], []⟩ := by
  decide +kernel

theorem test_S2_sigtoder :
    seen (run 0x00000030 [0x80, 0x63] [] [])
      = some ⟨0x002, 0, [0x30, 0x07, 0x02, 0x02, 0x00, 0x80, 0x02, 0x01, 0x63], []⟩ := by
  decide +kernel

theorem test_S4_sigtoder :
    seen (run 0x00000030 [0x00, 0x07] [] []) = some ⟨0x006, 1, [], []⟩ := by
  decide +kernel

theorem test_S9_sigfromder :
    seen (run 0x00000031 [0x30, 0x07, 0x02, 0x02, 0x00, 0x80, 0x02, 0x01, 0x63] [] [])
      = some ⟨0x002, 0, [0x80, 0x63], []⟩ := by
  decide +kernel

theorem test_S18_sigfromder :
    seen (run 0x00000031 [0x30, 0x06, 0x02, 0x81, 0x01, 0x05, 0x02, 0x01, 0x07] [] [])
      = some ⟨0x006, 3, [], []⟩ := by
  decide +kernel

theorem test_S30_siglows :
    seen (run 0x00000032 [0x05, 0x63] [] []) = some ⟨0x00A, 0, [], []⟩ := by
  decide +kernel

theorem test_S31_siglows :
    seen (run 0x00000032 [0x05, 0x64] [] []) = some ⟨0x002, 0, [], []⟩ := by
  decide +kernel

theorem test_S35_siglowder :
    seen (run 0x00000033 [0x30, 0x06, 0x02, 0x01, 0x05, 0x02, 0x01, 0x63] [] [])
      = some ⟨0x00A, 0, [], []⟩ := by
  decide +kernel

theorem test_S36_siglowder :
    seen (run 0x00000033 [0x30, 0x06, 0x02, 0x01, 0x05, 0x02, 0x01, 0x64] [] [])
      = some ⟨0x002, 0, [], []⟩ := by
  decide +kernel

theorem test_S40_signorm :
    seen (run 0x00000034 [0x05, 0xC6] [] []) = some ⟨0x002, 0, [0x05, 0x01], []⟩ := by
  decide +kernel

theorem test_S42_signorm :
    seen (run 0x00000034 [0x05, 0xC7] [] []) = some ⟨0x006, 1, [], []⟩ := by
  decide +kernel

theorem test_S43_signormder :
    seen (run 0x00000035 [0x30, 0x07, 0x02, 0x01, 0x05, 0x02, 0x02, 0x00, 0xC6] [] [])
      = some ⟨0x002, 0, [0x30, 0x06, 0x02, 0x01, 0x05, 0x02, 0x01, 0x01], []⟩ := by
  decide +kernel

theorem test_S45_signormder :
    seen (run 0x00000035 [0x30, 0x07, 0x02, 0x02, 0x00, 0x05, 0x02, 0x01, 0x07] [] [])
      = some ⟨0x006, 3, [], []⟩ := by
  decide +kernel

theorem test_E1a_ecsign :
    seen (run 0x00000040 [0x61, 0x62, 0x63] [0x05] []) = some ⟨0x002, 0, [0x3D, 0x39], []⟩ := by
  decide +kernel

theorem test_E7_ecsign :
    seen (run 0x00000040 [0x61, 0x62, 0x63] [0x00] []) = some ⟨0x006, 1, [], []⟩ := by
  decide +kernel

theorem test_E1c_ecsignr :
    seen (run 0x00010041 [0x61, 0x62, 0x63] [0x05] [])
      = some ⟨0x002, 0, [0x30, 0x06, 0x02, 0x01, 0x3D, 0x02, 0x01, 0x39], []⟩ := by
  decide +kernel

theorem test_E6a_ecsignr :
    seen (run 0x00000041 [0x03] [0x01] []) = some ⟨0x202, 0, [0x0B, 0x32], []⟩ := by
  decide +kernel

theorem test_E11_ecvfy :
    seen (run 0x00010042 [0x61, 0x62, 0x63] [0x30, 0x06, 0x02, 0x01, 0x3D, 0x02, 0x01, 0x39] [0x04, 0x93, 0x91])
      = some ⟨0x00A, 0, [], []⟩ := by
  decide +kernel

theorem test_E14b_ecvfy :
    seen (run 0x00000042 [0x62, 0x62, 0x63] [0x3D, 0x39] [0x03, 0x93]) = some ⟨0x002, 4, [], []⟩ := by
  decide +kernel

theorem test_R1_ecrcv :
    seen (run 0x00004043 [0x61, 0x62, 0x63] [0x3D, 0x39] []) = some ⟨0x002, 0, [0x03, 0x93], []⟩ := by
  decide +kernel

theorem test_R3_ecrcv :
    seen (run 0x00044043 [0x61, 0x62, 0x63] [0x3D, 0x39] []) = some ⟨0x012, 5, [], []⟩ := by
  decide +kernel

theorem test_B1_schvfy :
    seen (run 0x00000050 [0x61, 0x62, 0x63] [0x0A, 0x87] [0x03, 0x93]) = some ⟨0x00A, 0, [], []⟩ := by
  decide +kernel

theorem test_B4_schvfy :
    seen (run 0x00000050 [0x61, 0x62, 0x63] [0x0A, 0x88] [0x03, 0x93]) = some ⟨0x002, 4, [], []⟩ := by
  decide +kernel

theorem test_B22_schvfyb :
    seen (run 0x00000051 [0x00, 0x03, 0x61, 0x62, 0x63, 0x00, 0x02, 0x0A, 0x87, 0x00, 0x02, 0x03, 0x93, 0x00, 0x00, 0x00, 0x02, 0x60, 0x98, 0x00, 0x02, 0x02, 0x42] [] [] (rng := [0x03]))
      = some ⟨0x00A, 0, [], []⟩ := by
  decide +kernel

theorem test_B27_schvfyb :
    seen (run 0x00000051 [0x00, 0x03, 0x61, 0x62, 0x63, 0x00, 0x02, 0x0A, 0x87, 0x00, 0x02, 0x03, 0x93, 0x00, 0x00, 0x00, 0x01, 0x60, 0x00, 0x02, 0x02, 0x42] [] [])
      = some ⟨0x002, 4, [], []⟩ := by
  decide +kernel

theorem test_H4_h2sswu :
    seen (run 0x00004160 [0x03] [] []) = some ⟨0x002, 0, [0x03, 0x58], []⟩ := by
  decide +kernel

theorem test_H10_h2sswu :
    seen (run 0x00000060 [0x02] [] []) = some ⟨0x006, 7, [], []⟩ := by
  decide +kernel

theorem test_H15_h2icart :
    seen (run 0x00004361 [0x03] [] []) = some ⟨0x002, 0, [0x02, 0xA3], []⟩ := by
  decide +kernel

theorem test_H12_h2icart :
    seen (run 0x00000361 [0x00] [] []) = some ⟨0x002, 0, [0x04, 0x7C, 0x0B], []⟩ := by
  decide +kernel

theorem test_H20_h2svdw :
    seen (run 0x00004062 [0x03] [] []) = some ⟨0x002, 0, [0x03, 0xAB], []⟩ := by
  decide +kernel

theorem test_H19_h2svdw :
    seen (run 0x00000062 [0x02] [] []) = some ⟨0x002, 0, [0x04, 0x9B, 0x18], []⟩ := by
  decide +kernel

theorem test_H30_h2hash :
    seen (run 0x00000063 [0x01, 0xD2] [] []) = some ⟨0x006, 2, [], []⟩ := by
  decide +kernel

theorem test_H36_h2hash :
    seen (run 0x00000363 [0x02, 0x03] [] []) = some ⟨0x002, 0, [0x04, 0x3F, 0x82], []⟩ := by
  decide +kernel

theorem test_D10_edexp :
    seen (run 0x00000270 [0x01] [] []) = some ⟨0x002, 0, [0x48], [0xF5]⟩ := by
  decide +kernel

theorem test_D11_edexp :
    seen (run 0x00000270 [0x01, 0x02] [] []) = some ⟨0x006, 3, [], []⟩ := by
  decide +kernel

theorem test_D13_edpub :
    seen (run 0x00000271 [0x01] [] []) = some ⟨0x002, 0, [0x51], []⟩ := by
  decide +kernel

theorem test_D14_edpub :
    seen (run 0x00000271 [0x00] [] []) = some ⟨0x006, 2, [], []⟩ := by
  decide +kernel

theorem test_D17_edsign :
    seen (run 0x00000272 [0x61, 0x62, 0x63] [0x01] []) = some ⟨0x002, 0, [0xD1, 0x09], []⟩ := by
  decide +kernel

theorem test_D18_edsign :
    seen (run 0x00000272 [0x61, 0x62, 0x63] [0x00] []) = some ⟨0x006, 2, [], []⟩ := by
  decide +kernel

theorem test_D21_edvfy :
    seen (run 0x00000273 [0x61, 0x62, 0x63] [0xD1, 0x09] [0x51]) = some ⟨0x00A, 0, [], []⟩ := by
  decide +kernel

theorem test_D22_edvfy :
    seen (run 0x00000273 [0x61, 0x62, 0x63] [0xD1, 0x0A] [0x51]) = some ⟨0x002, 4, [], []⟩ := by
  decide +kernel

theorem test_D31_edpktadd :
    seen (run 0x00000274 [0x51] [0x05] []) = some ⟨0x002, 0, [0x03], []⟩ := by
  decide +kernel

theorem test_D32_edpktadd :
    seen (run 0x00000274 [0x51] [0x06] []) = some ⟨0x006, 2, [], []⟩ := by
  decide +kernel

theorem test_D37_edsignt :
    seen (run 0x00000275 [0x61, 0x62, 0x63] [0x01] [0x05]) = some ⟨0x002, 0, [0x4A, 0x02], []⟩ := by
  decide +kernel

theorem test_D40_edsignt :
    seen (run 0x00000275 [0x61, 0x62, 0x63] [0x01] [0x06]) = some ⟨0x006, 1, [], []⟩ := by
  decide +kernel

theorem test_D43_edtomont :
    seen (run 0x00000276 [0x83] [] []) = some ⟨0x002, 0, [0x5F], []⟩ := by
  decide +kernel

theorem test_D47_edtomont :
    seen (run 0x00000276 [0x01] [] []) = some ⟨0x006, 2, [], []⟩ := by
  decide +kernel

theorem test_D49_edfrommont :
    seen (run 0x00080277 [0x5F] [] []) = some ⟨0x002, 0, [0x83], []⟩ := by
  decide +kernel

theorem test_D52_edfrommont :
    seen (run 0x00080277 [0x00] [] []) = some ⟨0x006, 2, [], []⟩ := by
  decide +kernel
/-! ### Words, well-formedness, command text -/

/-- FORM = 3 is ill formed in every command that has the field (30_encoding.md R96 step 5). -/
theorem test_illFormed_form :
    [Instr.padd 0 .reserved, .pdbl 0 .reserved, .pneg 0 .reserved, .pcomb 0 .reserved,
      .pmulg 0 .reserved true, .pmul 0 .reserved true, .penc 0 .reserved, .pkcrt 0 .reserved,
      .pktadd 0 .reserved, .pktmul 0 .reserved, .pkneg 0 .reserved, .pkadd 0 .reserved,
      .ecrcv 0 .reserved true 3, .h2sswu 0 .reserved, .h2icart 0 .reserved, .h2svdw 0 .reserved,
      .h2hash 0 .reserved].all (fun i => !i.wellFormed) = true := by
  decide

theorem test_wellFormed : (Instr.padd 15 .hybrid).wellFormed = true := by decide

theorem test_words_modular :
    decodeWord 0b00000000000000000011010100000001 = .ok (.madd 5 .order true)
    ∧ decodeWord 0b00000000000000000011101000000010 = .ok (.msub 10 .order true)
    ∧ decodeWord 0b00000000000000000011111100000011 = .ok (.mmul 15 .order true)
    ∧ decodeWord 0b00000000000000000011000100000100 = .ok (.msqr 1 .order true)
    ∧ decodeWord 0b00000000000000000011010100000101 = .ok (.minv 5 .order true)
    ∧ decodeWord 0b00000000000000000010101000000110 = .ok (.msqrt 10 true) := by
  decide +kernel

theorem test_words_group :
    decodeWord 0b00000000000000000000111100010000 = .ok (.pchk 15)
    ∧ decodeWord 0b00000000000000001100000100010001 = .ok (.padd 1 .reserved)
    ∧ decodeWord 0b00000000000000000100010100010010 = .ok (.pdbl 5 .compressed)
    ∧ decodeWord 0b00000000000000001000101000010011 = .ok (.pneg 10 .hybrid)
    ∧ decodeWord 0b00000000000000001100111100010100 = .ok (.pcomb 15 .reserved)
    ∧ decodeWord 0b00000000000000000110000100010101 = .ok (.pmulg 1 .compressed true)
    ∧ decodeWord 0b00000000000000001010010100010110 = .ok (.pmul 5 .hybrid true)
    ∧ decodeWord 0b00000000000000001100101000010111 = .ok (.penc 10 .reserved)
    ∧ decodeWord 0b00000000000000000000111100011000 = .ok (.pdec 15) := by
  decide +kernel

theorem test_words_key :
    decodeWord 0b00000000000000000000000100100000 = .ok (.skgen 1)
    ∧ decodeWord 0b00000000000000000000010100100001 = .ok (.skvfy 5)
    ∧ decodeWord 0b00000000000000000000101000100010 = .ok (.skred 10)
    ∧ decodeWord 0b00000000000000000000111100100011 = .ok (.skneg 15)
    ∧ decodeWord 0b00000000000000000000000100100100 = .ok (.skinv 1)
    ∧ decodeWord 0b00000000000000000000010100100101 = .ok (.sktadd 5)
    ∧ decodeWord 0b00000000000000000000101000100110 = .ok (.sktmul 10)
    ∧ decodeWord 0b00000000000000001100111100100111 = .ok (.pkcrt 15 .reserved)
    ∧ decodeWord 0b00000000000000000100000100101000 = .ok (.pktadd 1 .compressed)
    ∧ decodeWord 0b00000000000000001000010100101001 = .ok (.pktmul 5 .hybrid)
    ∧ decodeWord 0b00000000000000001100101000101010 = .ok (.pkneg 10 .reserved)
    ∧ decodeWord 0b00000000000000000100111100101011 = .ok (.pkadd 15 .compressed)
    ∧ decodeWord 0b00000000000000000000000100101100 = .ok (.pkvfy 1) := by
  decide +kernel

theorem test_words_codec :
    decodeWord 0b00000000000000000000010100110000 = .ok (.sigtoder 5)
    ∧ decodeWord 0b00000000000000000000101000110001 = .ok (.sigfromder 10)
    ∧ decodeWord 0b00000000000000000000111100110010 = .ok (.siglows 15)
    ∧ decodeWord 0b00000000000000000000000100110011 = .ok (.siglowder 1)
    ∧ decodeWord 0b00000000000000000000010100110100 = .ok (.signorm 5)
    ∧ decodeWord 0b00000000000000000000101000110101 = .ok (.signormder 10) := by
  decide +kernel

theorem test_words_ecdsa :
    decodeWord 0b00000000000000010000111101000000 = .ok (.ecsign 15 true)
    ∧ decodeWord 0b00000000000000010000000101000001 = .ok (.ecsignr 1 true)
    ∧ decodeWord 0b00000000000000010000010101000010 = .ok (.ecvfy 5 true)
    ∧ decodeWord 0b00000000000001011100101001000011 = .ok (.ecrcv 10 .reserved true 2) := by
  decide +kernel

theorem test_words_schnorr :
    decodeWord 0b00000000000000000000111101010000 = .ok (.schvfy 15)
    ∧ decodeWord 0b00000000000000000000000101010001 = .ok (.schvfyb 1) := by
  decide +kernel

theorem test_words_map :
    decodeWord 0b00000000000000001100010101100000 = .ok (.h2sswu 5 .reserved)
    ∧ decodeWord 0b00000000000000000100101001100001 = .ok (.h2icart 10 .compressed)
    ∧ decodeWord 0b00000000000000001000111101100010 = .ok (.h2svdw 15 .hybrid)
    ∧ decodeWord 0b00000000000000001100000101100011 = .ok (.h2hash 1 .reserved) := by
  decide +kernel

theorem test_words_eddsa :
    decodeWord 0b00000000000000000000010101110000 = .ok (.edexp 5)
    ∧ decodeWord 0b00000000000000000000101001110001 = .ok (.edpub 10)
    ∧ decodeWord 0b00000000000000000000111101110010 = .ok (.edsign 15)
    ∧ decodeWord 0b00000000000000000000000101110011 = .ok (.edvfy 1)
    ∧ decodeWord 0b00000000000000000000010101110100 = .ok (.edpktadd 5)
    ∧ decodeWord 0b00000000000000000000101001110101 = .ok (.edsignt 10)
    ∧ decodeWord 0b00000000000000000000111101110110 = .ok (.edtomont 15)
    ∧ decodeWord 0b00000000000010000000000101110111 = .ok (.edfrommont 1 true) := by
  decide +kernel

/-- OP 0x07 is in no row; MSQRT has no MOD field; bit 20 is reserved (vectors X3, X6, X8). -/
theorem test_words_refused :
    decodeWord 0x00000007 = .error (.unknownOp 0x07)
    ∧ decodeWord 0x00001006 = .error (.unusedBitsSet "MSQRT")
    ∧ decodeWord 0x00100001 = .error (.unusedBitsSet "MADD") := by
  decide +kernel

/-- The example of 30_encoding.md R109. -/
theorem test_assemble : assemble "MMUL c=5 mod=n sec".toList = some 0x00003503 := by
  decide +kernel

/-- MSQR has no FORM field (30_encoding.md R91, R109). -/
theorem test_assemble_refused : assemble "MSQR c=0 form=c".toList = none := by
  decide +kernel

/-- 30_encoding.md R110: `put` pads with 00 and `arg` puts the length into the upper half. -/
theorem test_script_expansion :
    (Pseudo.put 8 [1, 2, 3, 4, 5]).expand? State.reset
      = some [.write .bits32 0x10008 0x04030201, .write .bits32 0x1000C 0x00000005]
    ∧ (Pseudo.put 6 [1]).expand? State.reset = none
    ∧ (Pseudo.put 0x2FFFC [1]).expand? State.reset = some [.write .bits32 0x3FFFC 0x00000001]
    ∧ (Pseudo.put 0x2FFFC [1, 2, 3, 4, 5]).expand? State.reset = none
    ∧ (Pseudo.put 0x30000 [1]).expand? State.reset = none
    ∧ (Pseudo.get false).expand? State.reset = some [.read .bits32 0x040]
    ∧ (Pseudo.arg 1 8 5).expand? State.reset = some [.write .bits32 0x024 0x00050008]
    ∧ Pseudo.ack.expand? State.reset = some [.write .bits32 0x008 0x00000002] := by
  decide +kernel

/-- The words a script's reads gave, where it comes to its end. -/
def answersOf : ScriptEnd → Option (List Reply)
  | .done _ as => some as
  | .waiting _ => none
  | .malformed => none
  | .fault _ => none
  | .refused _ => none

/-- 30_encoding.md R110, 97_test_programs.md 5.1: `wait` ends at the first read that sees DONE, and not before;
with nothing pending and DONE = 0 it never ends. -/
theorem test_script_wait :
    answersOf ((busy 0x00000001 [5] [7] []).runLine (.wait 0)) = some [.data 0x00000002]
    ∧ answersOf ((busy 0x00000001 [5] [7] []).runLine (.wait 1)) = some [.data 0x00000001, .data 0x00000002]
    ∧ answersOf ((busy 0x00000001 [5] [7] []).runScript [.wait 0, .wait 5])
      = some [.data 0x00000002, .data 0x00000002]
    ∧ (given [] [] []).runLine (.wait 0) ≠ .malformed
    ∧ answersOf ((given [] [] []).runLine (.wait 0)) = none := by
  decide +kernel

/-- STATUS, and whether something is pending, where a script comes to its end. -/
def endOf : ScriptEnd → Option (Word × Bool)
  | .done s _ => some (s.status.word, s.pend.isSome)
  | .waiting _ => none
  | .malformed => none
  | .fault _ => none
  | .refused _ => none

/-- 70_reset_and_hazards.md R361: a script that ends in a command text has not ended before that command
completes, here MADD on curve 0, with success. -/
theorem test_script_end :
    endOf ((given [5] [7] []).runScript [.command 0x00000001]) = some (0x00000002, false)
    ∧ endOf ((given [5] [7] []).runScript []) = some (0x00000000, false)
    ∧ endOf ((given [5] [7] []).runLine (.command 0x00000001)) = some (0x00000001, true) := by
  decide +kernel

/-- Which of some bytes of OMEM hold a value after a step. -/
def valuedAfter (xs : List Nat) : Host.Outcome State Fault Refusal → Option (List Bool)
  | .next t => some (xs.map fun x => (t.omem.get? x).isSome)
  | .fault _ => none
  | .refused _ => none

/-- 20_memory.md R67, R71; 10_state.md R29: behind the one byte MADD writes, a byte an earlier command wrote
still holds a value, and a byte never written does not. -/
theorem test_leftover_omem :
    valuedAfter [0, 1, 2, 3, 200, 201]
        (step { busy 0x00000001 [5] [7] [] with omem := [(0, 1), (3, 9), (200, 7)] })
      = some [true, false, false, true, true, false]
    ∧ valuedAfter [0, 200] (step { busy 0x00000001 [5] [] [] with omem := [(0, 1), (200, 7)] })
      = some [true, true] := by
  decide +kernel

/-- The curve `y² = x³ + 7` modulo 11 with z = 2: `g(2) = 15 = 4` is a non-zero square, so the side conditions
of 46_hash_to_curve.md R278 hold, and `−3·z² = −12 = 10` has no root, 10 being none of 0, 1, 4, 9, 5, 3. -/
def noRootC : Curve := toy (.weierstrass 0 7) 11 0 0 1 1 .svdw 2 0

/-- Log 33: where R278's c does not exist the suggested formula gives no image. -/
theorem test_svdw_without_root :
    svdwApplies noRootC 0 = true ∧ sqrt? 11 10 = none
      ∧ ∀ u ∈ List.range 11, suggestedMap noRootC u = .inf := by
  decide +kernel

/-- The curves of the suggested configuration that carry a map meet the side conditions of its formula
(46_hash_to_curve.md R276 to R278; 93_implementation_defined.md G1), and R278's c exists. -/
theorem test_suggested_maps_apply :
    sswuApplies Config.p256 (2 ^ 256 - 2 ^ 224 + 2 ^ 192 + 2 ^ 96 - 1 - 3)
        0x5AC635D8AA3A93E7B3EBBD55769886BC651D06B0CC53B0F63BCE3C3E27D2604B = true
      ∧ Config.p384.p % 3 = 2
      ∧ svdwApplies Config.secp256k1 0 = true ∧ isSquare Config.secp256k1.p (Config.secp256k1.p - 3) = true := by
  decide +kernel

/-- z = 0 is no non-zero field constant (00_scope.md R5), where the curve's map uses z. -/
theorem test_illFormed_z :
    mapOk { toyK with z := 0 } = false ∧ mapOk { toyK with z := 211 } = false
      ∧ mapOk { toyN with z := 0 } = false ∧ mapOk { toyI with z := 0 } = true := by
  decide +kernel

/-- BC's vector (46_hash_to_curve.md R279) on the Koblitz curve of the suggested configuration. -/
def ctxKoblitz : Ctx := ⟨Config.secp256k1, .big, ⟨32, 64, []⟩, .suggested, .suggested⟩

theorem test_R279 : svdwVectorOk ctxKoblitz := fun _ _ => by decide +kernel

/-! ### The host port (10_state.md R22, R26, R37; 20_memory.md R62, R63) -/

/-- The state with one input to come. -/
def withInput (s : State) (e : HostEvent) : State := { s with inputs := [e] }

/-- The word write `0x04030201` puts byte 01 at the lowest offset (20_memory.md R63). -/
theorem test_write_imem :
    (match step (withInput (given [] [] []) (.write .bits32 0x10004 0x04030201)) with
      | .next s => some (s.imem, s.reply)
      | .fault _ => none
      | .refused _ => none)
      = some ([(4, 0x01), (5, 0x02), (6, 0x03), (7, 0x04)], some .written) := by
  decide +kernel

/-- A write to CMD while BUSY = 1 is dropped and sets HAZ (10_state.md R37). -/
theorem test_write_busy :
    (match step (withInput (busy 0x00000001 [5] [7] []) (.write .bits32 0x004 0x00000002)) with
      | .next s => some (s.cmd, s.status.word)
      | .fault _ => none
      | .refused _ => none) = some (0x00000001, 0x00000021) := by
  decide +kernel

/-- A byte access is a bus error (20_memory.md R62). -/
theorem test_bus_error :
    (match step (withInput (given [] [] []) (.read .bits8 0x10000)) with
      | .next s => s.reply
      | .fault _ => none
      | .refused _ => none) = some .busError := by
  decide +kernel

/-- Legality comes before the descriptors: reserved bit 20 and a descriptor past the end of IMEM
(vectors Y8 and Y1). -/
theorem test_priority :
    seen (step { (given [] [] []).presented 0x00100001 with
        pend := some ⟨0x00100001, ⟨⟨1020, 8⟩, ⟨1, 1⟩, .zero, .zero⟩, []⟩ }) = some ⟨0x006, 7, [], []⟩
    ∧ seen (step { (given [] [] []).presented 0x00000001 with
        pend := some ⟨0x00000001, ⟨⟨1020, 8⟩, ⟨1, 1⟩, .zero, .zero⟩, []⟩ })
      = some ⟨0x006, 8, [], []⟩ := by
  decide +kernel

/-! ### States the witnesses below use -/

/-- An accepted command: its word, its three strings and the RNG port's known answers. -/
structure Case where
  word : Word
  a : Bytes := []
  b : Bytes := []
  c : Bytes := []
  rng : Bytes := []
  deriving DecidableEq, Repr

/-- The state with that command pending. -/
def Case.s (k : Case) : State := busy k.word k.a k.b k.c k.rng

/-- Its latch. -/
def Case.p (k : Case) : Pending := latch k.word k.a k.b k.c

/-- Its operands. -/
def Case.o (k : Case) : Operands := k.s.operands k.p

/-- The strings fit their places. -/
def Case.fits (k : Case) : Bool :=
  decide (k.a.length ≤ 64) && decide (k.b.length ≤ 64) && decide (k.c.length ≤ 64)

/-- Such a state is ready on every curve of CfgT, whatever the command reads. -/
theorem Case.ready (k : Case) (h : k.fits = true) (c : BitVec 4) (n : Nat) (C : Ctx)
    (hc : toyCfg.ctx? c.toNat = some C) : Ready k.s c n k.p C := by
  simp only [Case.fits, Bool.and_eq_true, decide_eq_true_eq] at h
  have h0 : (BitVec.ofNat 16 k.a.length).toNat = k.a.length := by
    rw [BitVec.toNat_ofNat]; omega
  have h1 : (BitVec.ofNat 16 k.b.length).toNat = k.b.length := by
    rw [BitVec.toNat_ofNat]; omega
  have h2 : (BitVec.ofNat 16 k.c.length).toNat = k.c.length := by
    rw [BitVec.toNat_ofNat]; omega
  refine ⟨rfl, hc, fun _ => ?_, fun _ => ?_, fun _ => ?_⟩
  · show (0#16).toNat + (BitVec.ofNat 16 k.a.length).toNat ≤ 1024
    rw [h0]; simp; omega
  · show (64#16).toNat + (BitVec.ofNat 16 k.b.length).toNat ≤ 1024
    rw [h1]; simp; omega
  · show (128#16).toNat + (BitVec.ofNat 16 k.c.length).toNat ≤ 1024
    rw [h2]; simp; omega

theorem Case.readyK (k : Case) (h : k.fits = true) (n : Nat) : Ready k.s 0 n k.p ctxK :=
  k.ready h 0 n ctxK rfl

theorem Case.readyN (k : Case) (h : k.fits = true) (n : Nat) : Ready k.s 1 n k.p ctxN :=
  k.ready h 1 n ctxN rfl

theorem Case.readyE (k : Case) (h : k.fits = true) (n : Nat) : Ready k.s 2 n k.p ctxE :=
  k.ready h 2 n ctxE rfl

theorem Case.readyI (k : Case) (h : k.fits = true) (n : Nat) : Ready k.s 3 n k.p ctxI :=
  k.ready h 3 n ctxI rfl

/-- A check of every member of a list, as a proposition. -/
theorem all_of {α : Type} {p : α → Prop} [DecidablePred p] {l : List α}
    (h : l.all (fun a => decide (p a)) = true) : ∀ a ∈ l, p a := by
  simpa using h

/-- An outcome that is a next state. -/
def isNext : Host.Outcome State Fault Refusal → Bool
  | .next _ => true
  | .fault _ => false
  | .refused _ => false

theorem next_of {o : Host.Outcome State Fault Refusal} (h : isNext o = true) : ∃ t, o = .next t := by
  cases o with
  | next t => exact ⟨t, rfl⟩
  | fault f => cases h
  | refused r => cases h

theorem kindW_K : kindW toyK := ⟨0, 7, rfl⟩
theorem kindW_N : kindW toyN := ⟨164, 7, rfl⟩
theorem kindW_I : kindW toyI := ⟨164, 7, rfl⟩
theorem kindE_E : kindE toyE := ⟨96, 7, rfl⟩

theorem not_kindE_K : ¬ kindE toyK := by rintro ⟨ea, d, h⟩; cases h
theorem not_kindE_N : ¬ kindE toyN := by rintro ⟨ea, d, h⟩; cases h
theorem not_kindW_E : ¬ kindW toyE := by rintro ⟨a, b, h⟩; cases h

theorem formOk_K (f : PointForm) (h : f ≠ .reserved) : FormOk toyK f :=
  ⟨h, fun hE => absurd hE not_kindE_K⟩
theorem formOk_N (f : PointForm) (h : f ≠ .reserved) : FormOk toyN f :=
  ⟨h, fun hE => absurd hE not_kindE_N⟩
theorem formOk_E : FormOk toyE .uncompressed := ⟨by decide, fun _ => rfl⟩

theorem prime_211 : Nat.Prime 211 := by norm_num
theorem prime_199 : Nat.Prime 199 := by norm_num
theorem prime_167 : Nat.Prime 167 := by norm_num
theorem prime_151 : Nat.Prime 151 := by norm_num
theorem prime_97 : Nat.Prime 97 := by norm_num
theorem prime_13 : Nat.Prime 13 := by norm_num

/-- A number that is no square modulo m below m is none at all. -/
theorem no_root {m v : Nat} (hm : 0 < m) (h : ∀ x < m, x * x % m ≠ v) : ¬ ∃ x, x * x % m = v := by
  rintro ⟨x, hx⟩
  exact h (x % m) (Nat.mod_lt _ hm) (by rw [← Nat.mul_mod]; exact hx)

theorem soundK : SoundCurve toyK :=
  ⟨by decide +kernel, prime_211, by decide, prime_199, by decide,
    ⟨by decide, by decide, by decide⟩, by decide +kernel, by decide +kernel, by decide⟩

theorem soundN : SoundCurve toyN :=
  ⟨by decide +kernel, prime_167, by decide, prime_151, by decide,
    ⟨by decide, by decide, by decide⟩, by decide +kernel, by decide +kernel, by decide⟩

theorem soundE : SoundCurve toyE :=
  ⟨by decide +kernel, prime_97, by decide, prime_13, by decide,
    ⟨by decide, by decide, by decide, ⟨22, by decide⟩, no_root (by decide) (by decide +kernel)⟩,
    by decide +kernel, by decide +kernel, by decide⟩

/-- CfgT and the suggested configuration are well formed as to their sizes (00_scope.md R3 to R8). -/
theorem test_shapeOk : Cfg.shapeOk toyCfg = true ∧ Cfg.shapeOk Config.suggested = true := by
  decide +kernel

/-- The suggested generators lie on their curves (93_implementation_defined.md G1). -/
theorem test_suggested_generators :
    Config.suggested.curves.all (fun C => onCurve C C.gx C.gy) = true := by
  decide +kernel

/-! ### Witnesses: reset, host accesses, the engine's step -/

theorem witness_ResetValues :
    (withInput (busy 0x00000001 [5] [7] []) .reset).inputs = .reset :: [] := rfl

theorem witness_Acceptance :
    (withInput (given [5] [7] []) (.write .bits32 0x004 0x00000001)).inputs
        = .write .bits32 0x004 0x00000001 :: []
      ∧ (withInput (given [5] [7] []) (.write .bits32 0x004 0x00000001)).status.busy = false :=
  ⟨rfl, rfl⟩

/-- Every register of the list, and the first and the last word of IMEM. -/
theorem witness_HazardFlag_write :
    ∀ a ∈ ([0x004, 0x020, 0x024, 0x028, 0x02C, 0x10000, 0x103FC] : List (BitVec 18)),
      (withInput (busy 0x00000001 [5] [7] []) (.write .bits32 a 0)).inputs
          = .write .bits32 a 0 :: []
        ∧ (withInput (busy 0x00000001 [5] [7] []) (.write .bits32 a 0)).status.busy = true
        ∧ (a = 0x004 ∨ a = 0x020 ∨ a = 0x024 ∨ a = 0x028 ∨ a = 0x02C
          ∨ (a.toNat % 4 = 0 ∧ 0x10000 ≤ a.toNat ∧ a.toNat < 0x20000
            ∧ a.toNat < 0x10000 + toyCfg.imemBytes)) :=
  fun a ha => ⟨rfl, rfl, all_of (p := fun a : BitVec 18 => a = 0x004 ∨ a = 0x020 ∨ a = 0x024 ∨ a = 0x028 ∨ a = 0x02C
    ∨ (a.toNat % 4 = 0 ∧ 0x10000 ≤ a.toNat ∧ a.toNat < 0x20000
      ∧ a.toNat < 0x10000 + toyCfg.imemBytes)) (by decide +kernel) a ha⟩

theorem witness_HazardFlag_exec :
    ∃ t, exec (.madd 0 .field false) (busy 0x00000001 [200] [100] []) = .next t :=
  next_of (by decide +kernel)

theorem witness_HazardFlag_stays :
    (withInput { given [] [] [] with status := { Status.zero with haz := true } } .engine).status.haz
        = true
      ∧ ∃ t, step (withInput { given [] [] [] with status := { Status.zero with haz := true } } .engine)
        = .next t :=
  ⟨rfl, next_of (by decide +kernel)⟩

theorem witness_ControlRegister :
    (withInput (given [] [] []) (.write .bits32 0x000 0xFFFFFFFF)).inputs
        = .write .bits32 0x000 0xFFFFFFFF :: []
      ∧ (withInput (given [] [] []) (.read .bits32 0x000)).inputs = .read .bits32 0x000 :: []
      ∧ ∃ t, step (withInput { given [] [] [] with ctrl := 1 } .engine) = .next t :=
  ⟨rfl, rfl, next_of (by decide +kernel)⟩

theorem witness_RegisterWrites_arg (i : BitVec 2) :
    (withInput (given [] [] [])
        (.write .bits32 (BitVec.ofNat 18 (0x020 + 4 * i.toNat)) 0x00080004)).inputs
        = .write .bits32 (BitVec.ofNat 18 (0x020 + 4 * i.toNat)) 0x00080004 :: []
      ∧ (given [] [] []).status.busy = false
      ∧ (withInput (given [] [] [])
          (.read .bits32 (BitVec.ofNat 18 (0x020 + 4 * i.toNat)))).inputs
        = .read .bits32 (BitVec.ofNat 18 (0x020 + 4 * i.toNat)) :: [] :=
  ⟨rfl, rfl, rfl⟩

theorem witness_RegisterWrites_status :
    (withInput (busy 0x00000001 [] [] []) (.write .bits32 0x008 0x00000022)).inputs
      = .write .bits32 0x008 0x00000022 :: [] := rfl

/-- The first and the last address of every range. -/
theorem witness_RegisterWrites_ignored :
    ∀ a ∈ ([0x00C, 0x01C, 0x030, 0x0FC, 0x20000, 0x203FC] : List (BitVec 18)),
      (withInput (given [] [] []) (.write .bits32 a 7)).inputs = .write .bits32 a 7 :: []
        ∧ a.toNat % 4 = 0
        ∧ ((0x00C ≤ a.toNat ∧ a.toNat ≤ 0x01C) ∨ (0x030 ≤ a.toNat ∧ a.toNat ≤ 0x0FC)
          ∨ (0x20000 ≤ a.toNat ∧ a.toNat < 0x20000 + toyCfg.omemBytes)) :=
  fun a ha => ⟨rfl, all_of (p := fun a : BitVec 18 => a.toNat % 4 = 0
    ∧ ((0x00C ≤ a.toNat ∧ a.toNat ≤ 0x01C) ∨ (0x030 ≤ a.toNat ∧ a.toNat ≤ 0x0FC)
      ∨ (0x20000 ≤ a.toNat ∧ a.toNat < 0x20000 + toyCfg.omemBytes))) (by decide +kernel) a ha⟩

/-- The first and the last word of IMEM. -/
theorem witness_HostMemory_imem :
    ∀ a ∈ ([0x10000, 0x103FC] : List (BitVec 18)),
      (withInput (given [] [] []) (.write .bits32 a 7)).inputs = .write .bits32 a 7 :: []
        ∧ (withInput (given [] [] []) (.read .bits32 a)).inputs = .read .bits32 a :: []
        ∧ (given [] [] []).status.busy = false ∧ a.toNat % 4 = 0 ∧ 0x10000 ≤ a.toNat
        ∧ a.toNat < 0x20000 ∧ a.toNat < 0x10000 + toyCfg.imemBytes :=
  fun a ha => ⟨rfl, rfl, rfl, all_of (p := fun a : BitVec 18 => a.toNat % 4 = 0 ∧ 0x10000 ≤ a.toNat
    ∧ a.toNat < 0x20000 ∧ a.toNat < 0x10000 + toyCfg.imemBytes) (by decide +kernel) a ha⟩

theorem witness_HostMemory_imem_value :
    (given [5] [] []).imem.get? ((0x10000 : BitVec 18).toNat - 0x10000 + 0) = some 5 := by
  decide +kernel

/-- Two reads of an IMEM word, of an OMEM word while BUSY = 1, of RES0 while BUSY = 1. -/
theorem witness_HostMemory_twice :
    let s := { busy 0x00000001 [1, 2, 3, 4] [] [] with
      omem := [(0, 9), (1, 8), (2, 7), (3, 6)], inputs := [.read .bits32 0x10000, .read .bits32 0x10000] }
    (∀ a ∈ ([0x10000, 0x20000, 0x040] : List (BitVec 18)),
      (0x10000 ≤ a.toNat → a.toNat < 0x20000 → ∀ k < 4, s.imem.get? (a.toNat - 0x10000 + k) ≠ none)
      ∧ (0x20000 ≤ a.toNat → ∀ k < 4, s.omem.get? (a.toNat - 0x20000 + k) ≠ none))
    ∧ s.status.busy = true ∧ s.inputs = .read .bits32 0x10000 :: .read .bits32 0x10000 :: [] :=
  ⟨all_of (by decide +kernel), by decide +kernel, rfl⟩

/-- The first and the last word of OMEM, with a value in the first. -/
theorem witness_HostMemory_omem :
    (∀ a ∈ ([0x20000, 0x203FC] : List (BitVec 18)),
      a.toNat % 4 = 0 ∧ 0x20000 ≤ a.toNat ∧ a.toNat < 0x20000 + toyCfg.omemBytes)
    ∧ ({ given [] [] [] with omem := [(0, 9)] } : State).status.busy = false
    ∧ ({ given [] [] [] with omem := [(0, 9)] } : State).omem.get?
        ((0x20000 : BitVec 18).toNat - 0x20000 + 0) = some 9 := by
  refine ⟨all_of (by decide +kernel), by decide +kernel, by decide +kernel⟩

/-- Every listed register, and the first and the last of every range of unlisted ones. -/
theorem witness_RegisterRead :
    ∀ aw ∈ ([(0x000, 0), (0x020, 0), (0x02C, 0), (0x004, 0), (0x008, 0), (0x00C, 0), (0x010, 0), (0x014, 1), (0x018, 0), (0x01C, 0),
        (0x030, 0), (0x03C, 0), (0x040, 0), (0x044, 0), (0x048, 0), (0x0FC, 0)]
        : List (BitVec 18 × Word)),
      let s := withInput (given [] [] []) (.read .bits32 aw.1)
      s.inputs = .read .bits32 aw.1 :: []
        ∧ (aw.1 = 0x000 ∧ aw.2 = s.ctrl ∨ aw.1 = 0x004 ∧ aw.2 = s.cmd ∨ aw.1 = 0x008 ∧ aw.2 = s.status.word
          ∨ (∃ i : BitVec 2, aw.1 = BitVec.ofNat 18 (0x020 + 4 * i.toNat) ∧ aw.2 = (s.args.get i).word)
          ∨ aw.1 = 0x00C ∧ aw.2 = s.errcode.value.setWidth 32 ∨ aw.1 = 0x010 ∧ aw.2 = s.tblstat
          ∨ aw.1 = 0x014 ∧ aw.2 = 1
          ∨ aw.1 = 0x040 ∧ s.status.busy = false ∧ aw.2 = s.res0.len ++ s.res0.off
          ∨ aw.1 = 0x044 ∧ s.status.busy = false ∧ aw.2 = s.res1.len ++ s.res1.off
          ∨ aw.1.toNat % 4 = 0 ∧ (aw.1.toNat = 0x018 ∨ aw.1.toNat = 0x01C
            ∨ (0x030 ≤ aw.1.toNat ∧ aw.1.toNat ≤ 0x03C)
            ∨ (0x048 ≤ aw.1.toNat ∧ aw.1.toNat ≤ 0x0FC)) ∧ aw.2 = 0) :=
  all_of (by decide +kernel)

theorem witness_RegisterRead_busy :
    (withInput (busy 0x00000001 [5] [7] []) (.read .bits32 0x040)).inputs = .read .bits32 0x040 :: []
      ∧ (withInput (busy 0x00000001 [5] [7] []) (.read .bits32 0x044)).status.busy = true :=
  ⟨rfl, rfl⟩

/-- Each wrong width, a misaligned address, and the first and the last address of every unmapped
range. -/
theorem witness_BusErrors :
    ∀ wa ∈ ([(.bits8, 0x000), (.bits16, 0x004), (.bits64, 0x10000), (.bits32, 0x002),
        (.bits32, 0x00100), (.bits32, 0x0FFFC), (.bits32, 0x10400), (.bits32, 0x1FFFC),
        (.bits32, 0x20400), (.bits32, 0x3FFFC)] : List (Width × BitVec 18)),
      ¬ Reaches (given [] [] []).cfg wa.1 wa.2.toNat
        ∧ (withInput (given [] [] []) (.write wa.1 wa.2 7)).inputs = .write wa.1 wa.2 7 :: []
        ∧ (withInput (given [] [] []) (.read wa.1 wa.2)).inputs = .read wa.1 wa.2 :: [] := by
  unfold Reaches
  exact all_of (by decide +kernel)

theorem witness_StepRunsCommand :
    (busy 0x00000001 [5] [7] []).pend = some (latch 0x00000001 [5] [7] [])
      ∧ decodeWord (latch 0x00000001 [5] [7] []).word = .ok (.madd 0 .field false)
      ∧ (busy 0x00000001 [5] [7] []).inputs = []
      ∧ (withInput (busy 0x00000001 [5] [7] []) .engine).inputs = .engine :: []
      ∧ (given [] [] []).pend = none ∧ (given [] [] []).inputs = [] :=
  ⟨rfl, by decide +kernel, rfl, rfl, rfl, rfl⟩

theorem witness_IllegalCommands_word :
    (busy 0x00000000 [] [] []).pend = some (latch 0x00000000 [] [] [])
      ∧ decodeWord (latch 0x00000000 [] [] []).word = .error (.unknownOp 0x00)
      ∧ decodeWord 0x00100001 = .error (.unusedBitsSet "MADD") :=
  ⟨rfl, by decide +kernel, by decide +kernel⟩

/-- Legality on a curve that exists. -/
theorem legalOn_of {g : Cfg} {i : Instr} {C : Ctx} (h : g.ctx? i.fields.curve.toNat = some C)
    (hi : LegalOn g i) :
    (0x30 ≤ i.op.toNat ∧ i.op.toNat ≤ 0x63 → kindW C.toCurve)
      ∧ (0x70 ≤ i.op.toNat → kindE C.toCurve) ∧ FormOk C.toCurve i.fields.form
      ∧ (i.op = 0x60 → C.h2c = .sswu) ∧ (i.op = 0x61 → C.h2c = .icart)
      ∧ (i.op = 0x62 → C.h2c = .svdw) ∧ (i.op = 0x63 → C.h2c ≠ .none) := by
  obtain ⟨D, hD, hrest⟩ := hi
  rw [h] at hD
  cases hD
  exact hrest

/-- The first curve that does not exist; each kind on the other; both kinds of wrong form; each map. -/
theorem witness_IllegalCommands_legal :
    (busy 0x00000401 [] [] []).pend.isSome = true
      ∧ ¬ LegalOn toyCfg (.madd 4 .field false) ∧ ¬ LegalOn toyCfg (.sigtoder 2)
      ∧ ¬ LegalOn toyCfg (.edexp 0) ∧ ¬ LegalOn toyCfg (.padd 0 .reserved)
      ∧ ¬ LegalOn toyCfg (.padd 2 .compressed) ∧ ¬ LegalOn toyCfg (.h2sswu 0 .compressed)
      ∧ ¬ LegalOn toyCfg (.h2icart 0 .compressed) ∧ ¬ LegalOn toyCfg (.h2svdw 1 .compressed)
      ∧ ¬ LegalOn toyCfg (.h2hash 2 .uncompressed) := by
  refine ⟨rfl, ?_, ?_, ?_, ?_, ?_, ?_, ?_, ?_, ?_⟩
  · rintro ⟨C, hC, -⟩; cases hC
  · intro h
    exact not_kindW_E ((legalOn_of (C := ctxE) rfl h).1 (by decide))
  · intro h
    exact not_kindE_K ((legalOn_of (C := ctxK) rfl h).2.1 (by decide))
  · intro h
    exact (legalOn_of (C := ctxK) rfl h).2.2.1.1 rfl
  · intro h
    have := (legalOn_of (C := ctxE) rfl h).2.2.1.2 kindE_E
    cases this
  · intro h
    have := (legalOn_of (C := ctxK) rfl h).2.2.2.1 rfl
    cases this
  · intro h
    have := (legalOn_of (C := ctxK) rfl h).2.2.2.2.1 rfl
    cases this
  · intro h
    have := (legalOn_of (C := ctxN) rfl h).2.2.2.2.2.1 rfl
    cases this
  · intro h
    exact not_kindW_E ((legalOn_of (C := ctxE) rfl h).1 (by decide))

/-- A pending command with descriptors at the edge of IMEM. -/
def edgeArgs (d0 d1 d2 : Desc) : State :=
  { given [] [] [] with pend := some ⟨0x00000042, ⟨d0, d1, d2, .zero⟩, []⟩ }

/-- ECVFY with one byte too much in each of its three descriptors, two of them with an `off` inside. -/
theorem witness_Descriptors_edge :
    LegalOn toyCfg (.ecvfy 0 false)
      ∧ (1 ≤ argCount (.ecvfy 0 false)
        ∧ toyCfg.imemBytes < (⟨1023, 2⟩ : Desc).off.toNat + (⟨1023, 2⟩ : Desc).len.toNat)
      ∧ (2 ≤ argCount (.ecvfy 0 false)
        ∧ toyCfg.imemBytes < (⟨1024, 1⟩ : Desc).off.toNat + (⟨1024, 1⟩ : Desc).len.toNat)
      ∧ (3 ≤ argCount (.ecvfy 0 false)
        ∧ toyCfg.imemBytes < (⟨1020, 8⟩ : Desc).off.toNat + (⟨1020, 8⟩ : Desc).len.toNat)
      ∧ (edgeArgs ⟨1023, 2⟩ ⟨1024, 1⟩ ⟨1020, 8⟩).pend
        = some ⟨0x00000042, ⟨⟨1023, 2⟩, ⟨1024, 1⟩, ⟨1020, 8⟩, .zero⟩, []⟩ := by
  refine ⟨⟨ctxK, rfl, fun _ => kindW_K, fun h => absurd h (by decide), formOk_K _ (by decide),
    fun h => absurd h (by decide), fun h => absurd h (by decide), fun h => absurd h (by decide),
    fun h => absurd h (by decide)⟩, by decide, by decide, by decide, rfl⟩

theorem witness_Descriptors_bytes :
    ([1, 2, 3] : Bytes).length = (latch 0x00000001 [1, 2, 3] [] []).args.a0.len.toNat
      ∧ ∀ k < ([1, 2, 3] : Bytes).length,
        (latch 0x00000001 [1, 2, 3] [] []).imem.get?
          ((latch 0x00000001 [1, 2, 3] [] []).args.a0.off.toNat + k) = ([1, 2, 3] : Bytes)[k]? := by
  decide +kernel

/-- Also the witness of `ResultsFit`, `OutcomeIndependence` and, with `inputs = []`, `TableBitStays`: PDEC
with two results. -/
theorem witness_CommandFrame :
    Cfg.shapeOk (busy 0x00000018 [0x02, 0x03] [] []).cfg = true
      ∧ ∃ t, exec (.pdec 0) (busy 0x00000018 [0x02, 0x03] [] []) = .next t :=
  ⟨test_shapeOk.1, next_of (by decide +kernel)⟩

theorem witness_OutcomeIndependence :
    let s := busy 0x00000018 [0x02, 0x03] [] []
    let s' : State := { s with ctrl := 1, cmd := 5, tblstat := 2, args := .zero, imem := [], omem := [(3, 4)] }
    s'.cfg = s.cfg ∧ s'.pend = s.pend ∧ s'.rng = s.rng ∧ s'.free = s.free
      ∧ ∃ t, exec (.pdec 0) s = .next t :=
  ⟨rfl, rfl, rfl, rfl, witness_CommandFrame.2⟩

theorem witness_TableBitStays :
    ({ given [] [] [] with tblstat := 1 } : State).tblstat.getLsbD 0 = true
      ∧ ∃ t, step ({ given [] [] [] with tblstat := 1 } : State) = .next t :=
  ⟨by decide, next_of (by decide +kernel)⟩

/-- After reset, and with a command pending. -/
theorem witness_InvariantKept :
    State.reset.Inv ∧ (∃ t, step State.reset = .next t)
      ∧ State.Inv (busy 0x00000018 [0x02, 0x03] [] [])
      ∧ ∃ t, step (busy 0x00000018 [0x02, 0x03] [] []) = .next t :=
  ⟨by decide +kernel, next_of (by decide +kernel), by decide +kernel, next_of (by decide +kernel)⟩

/-! ### Witnesses: encoding -/

/-- The first and the last value of every gap of the opcode table, and the lowest and the highest
reserved bit. -/
theorem witness_WordsSpellOneCommand :
    decodeWord 0x00000001 = .ok (.madd 0 .field false)
      ∧ (∀ w ∈ ([0x00, 0x07, 0x0F, 0x19, 0x1F, 0x2D, 0x2F, 0x36, 0x3F, 0x44, 0x4F, 0x52, 0x5F, 0x64,
          0x6F, 0x78, 0xFF] : List Word),
        let op := w.toNat % 256
        op = 0x00 ∨ (0x07 ≤ op ∧ op ≤ 0x0F) ∨ (0x19 ≤ op ∧ op ≤ 0x1F) ∨ (0x2D ≤ op ∧ op ≤ 0x2F)
          ∨ (0x36 ≤ op ∧ op ≤ 0x3F) ∨ (0x44 ≤ op ∧ op ≤ 0x4F) ∨ (0x52 ≤ op ∧ op ≤ 0x5F)
          ∨ (0x64 ≤ op ∧ op ≤ 0x6F) ∨ 0x78 ≤ op)
      ∧ (0x00100001 : Word).extractLsb' 20 12 ≠ 0 ∧ (0x80000001 : Word).extractLsb' 20 12 ≠ 0 :=
  ⟨by decide +kernel, all_of (by decide +kernel), by decide +kernel, by decide +kernel⟩

/-! ### Witnesses: operand classes, numbers, points -/

/-- Both ends of every class, and the first value outside each. -/
theorem witness_OperandClasses :
    Canonical ctxK .field [0] ∧ Canonical ctxK .field [210] ∧ ¬ Canonical ctxK .field [211]
      ∧ ¬ Canonical ctxK .order [0, 1]
      ∧ (([198] : Bytes).length = ctxK.ssize ∧ os2iC ctxK [198] < ctxK.n)
      ∧ ¬ (([199] : Bytes).length = ctxK.ssize ∧ os2iC ctxK [199] < ctxK.n)
      ∧ (([1] : Bytes).length = ctxK.ssize ∧ os2iC ctxK [1] < ctxK.n ∧ 1 ≤ os2iC ctxK [1])
      ∧ ¬ (([0] : Bytes).length = ctxK.ssize ∧ os2iC ctxK [0] < ctxK.n ∧ 1 ≤ os2iC ctxK [0])
      ∧ getPT ctxK [0x02, 0x03] = .ok (.aff 3 178) ∧ Point.aff 3 178 ≠ identity toyK
      ∧ getPT ctxK [0x00] = .ok (identity toyK) ∧ getPT ctxK [] = .error .invalidEncoding := by
  unfold Canonical
  decide +kernel

theorem witness_NumberBytes :
    255 < 256 ^ 1 ∧ ctxK.order = .big ∧ ctxE.order = .little ∧ toyCfg.ctx? 0 = some ctxK
      ∧ kindW ctxK.toCurve ∧ toyCfg.ctx? 2 = some ctxE ∧ kindE ctxE.toCurve :=
  ⟨by decide, rfl, rfl, rfl, kindW_K, rfl, kindE_E⟩

theorem witness_DecodedPointsValid :
    SoundCurve ctxK.toCurve ∧ getPT ctxK [0x00] = .ok .inf ∧ getPT ctxK [0x03, 0x03] = .ok (.aff 3 33)
      ∧ SoundCurve ctxE.toCurve ∧ getPT ctxE [0x83] = .ok (.aff 45 3) :=
  ⟨soundK, by decide +kernel, by decide +kernel, soundE, by decide +kernel⟩

/-- No point of TOYK has x = 5 (vector P49). -/
theorem noPoint5 : ¬ ∃ y, Equation toyK 5 y := by
  rintro ⟨y, h⟩
  have h1 : y * y % 211 = 132 := by
    have : y ^ 2 % 211 = (5 ^ 3 + 0 * 5 + 7) % 211 := h
    rw [pow_two] at this
    simpa using this
  exact no_root (by decide) (by decide +kernel) ⟨y, h1⟩

/-- A curve with the point (1, 0): the string `03 01` asks for an odd root there. -/
def ctxZero : Ctx := { ctxK with shape := .weierstrass 0 210 }

/-- No point of TOYE has y = 2. -/
theorem noPointE : ¬ ∃ x, x < ctxE.p ∧ Equation ctxE.toCurve x 2 := by
  rintro ⟨x, hx, h⟩
  have all : ∀ x < 97, ¬ (96 * x ^ 2 + 2 ^ 2) % 97 = (1 + 7 * x ^ 2 * 2 ^ 2) % 97 := by decide +kernel
  exact all x hx h

/-- The string `03 01` on that curve; on TOYE two bytes, y = 97, a y of no point, and x = 0 with sign 1
(41_curve_group.md R150, R151). -/
theorem witness_PointFailures_root :
    kindW ctxZero.toCurve ∧ ([1] : Bytes).length = ctxZero.fsize
      ∧ (¬ ∃ y, y < ctxZero.p ∧ y % 2 = (0x03 : Byte).toNat % 2
        ∧ Equation ctxZero.toCurve (be2int [1]) y)
      ∧ kindE ctxE.toCurve ∧ SoundCurve ctxE.toCurve
      ∧ ([0, 0] : Bytes).length ≠ ctxE.fsize ∧ ([97] : Bytes).length = ctxE.fsize
      ∧ ctxE.p ≤ os2iC ctxE [97] % 2 ^ (8 * ctxE.fsize - 1)
      ∧ os2iC ctxE [2] % 2 ^ (8 * ctxE.fsize - 1) = 2
      ∧ (¬ ∃ x, x < ctxE.p ∧ Equation ctxE.toCurve x 2)
      ∧ os2iC ctxE [0x81] % 2 ^ (8 * ctxE.fsize - 1) < ctxE.p
      ∧ os2iC ctxE [0x81] / 2 ^ (8 * ctxE.fsize - 1) = 1
      ∧ Equation ctxE.toCurve 0 (os2iC ctxE [0x81] % 2 ^ (8 * ctxE.fsize - 1)) := by
  refine ⟨⟨0, 210, rfl⟩, by decide, ?_, kindE_E, soundE, by decide, by decide, by decide, by decide, noPointE,
    by decide, by decide, ?_⟩
  · rintro ⟨y, hy, hp, h⟩
    have all : ∀ y < 211, ¬ (y % 2 = 1 ∧ y ^ 2 % 211 = (1 ^ 3 + 0 * 1 + 210) % 211) := by decide +kernel
    exact all y hy ⟨hp, h⟩
  · show (96 * 0 ^ 2 + 1 ^ 2) % 97 = (1 + 7 * 0 ^ 2 * 1 ^ 2) % 97
    decide

/-- One string for every way to be malformed on kind W. -/
theorem witness_PointFailures :
    kindW ctxK.toCurve ∧ (0x05 : Byte).toNat ∉ [0x00, 0x02, 0x03, 0x04, 0x06, 0x07]
      ∧ ([0x00] : Bytes) ≠ []
      ∧ ([3, 0] : Bytes).length ≠ ctxK.fsize
      ∧ (([211] : Bytes).length = ctxK.fsize ∧ ctxK.p ≤ be2int [211])
      ∧ (([5] : Bytes).length = ctxK.fsize
        ∧ ¬ ∃ y, y < ctxK.p ∧ y % 2 = (0x02 : Byte).toNat % 2 ∧ Equation ctxK.toCurve (be2int [5]) y)
      ∧ ([3] : Bytes).length ≠ 2 * ctxK.fsize
      ∧ (([211, 0] : Bytes).length = 2 * ctxK.fsize ∧ ctxK.p ≤ be2int (([211, 0] : Bytes).take ctxK.fsize))
      ∧ ctxK.p ≤ be2int (([0, 211] : Bytes).drop ctxK.fsize)
      ∧ ((0x06 : Byte) ≠ 0x04
        ∧ be2int (([3, 33] : Bytes).drop ctxK.fsize) % 2 ≠ (0x06 : Byte).toNat % 2)
      ∧ (be2int (([3, 179] : Bytes).drop ctxK.fsize) % 2 = (0x07 : Byte).toNat % 2
        ∧ ¬ Equation ctxK.toCurve 3 179) := by
  refine ⟨kindW_K, by decide, by decide, by decide, by decide, ⟨by decide, fun h => noPoint5 (h.imp fun _ h => h.2.2)⟩, by decide,
    by decide, by decide, by decide, by decide, ?_⟩
  show ¬ 179 ^ 2 % 211 = (3 ^ 3 + 0 * 3 + 7) % 211
  decide

theorem witness_PointRoundTrip :
    SoundCurve ctxK.toCurve ∧ FormOk ctxK.toCurve .uncompressed ∧ FormOk ctxK.toCurve .compressed
      ∧ FormOk ctxK.toCurve .hybrid ∧ (kindE ctxK.toCurve → bitlen ctxK.p < 8 * ctxK.fsize)
      ∧ validPoint ctxK.toCurve .inf = true ∧ validPoint ctxK.toCurve (.aff 3 33) = true
      ∧ SoundCurve ctxE.toCurve ∧ FormOk ctxE.toCurve .uncompressed
      ∧ (kindE ctxE.toCurve → bitlen ctxE.p < 8 * ctxE.fsize)
      ∧ validPoint ctxE.toCurve (.aff 45 3) = true :=
  ⟨soundK, formOk_K _ (by decide), formOk_K _ (by decide), formOk_K _ (by decide),
    fun h => absurd h not_kindE_K, rfl, by decide +kernel, soundE, formOk_E,
    fun _ => by decide +kernel, by decide +kernel⟩

/-! ### Witnesses: modular arithmetic and the curve group -/

/-- Two canonical residues; a first operand equal to p (vectors M1, M5). -/
theorem witness_ModularSums :
    let k : Case := { word := 0x00000001, a := [200], b := [100] }
    let x : Case := { word := 0x00000001, a := [211], b := [1] }
    Ready k.s 0 2 k.p ctxK ∧ Canonical ctxK .field k.o.a0 ∧ Canonical ctxK .field k.o.a1
      ∧ Ready x.s 0 2 x.p ctxK
      ∧ ¬ (Canonical ctxK .field x.o.a0 ∧ Canonical ctxK .field x.o.a1) :=
  ⟨Case.readyK _ rfl 2, by unfold Canonical; decide +kernel, by unfold Canonical; decide +kernel,
    Case.readyK _ rfl 2, by unfold Canonical; decide +kernel⟩

/-- The operands 2, 0 and 211 (vectors M18, M22), and both moduli. -/
theorem witness_ModularSquareInverse :
    let k : Case := { word := 0x00000005, a := [2] }
    let z : Case := { word := 0x00000005, a := [0] }
    let x : Case := { word := 0x00000005, a := [211] }
    Ready k.s 0 1 k.p ctxK ∧ Canonical ctxK .field k.o.a0 ∧ os2iC ctxK k.o.a0 ≠ 0
      ∧ (modulusC ctxK .field).Prime ∧ (modulusC ctxK .order).Prime
      ∧ Ready z.s 0 1 z.p ctxK ∧ Canonical ctxK .field z.o.a0 ∧ os2iC ctxK z.o.a0 = 0
      ∧ Ready x.s 0 1 x.p ctxK ∧ ¬ Canonical ctxK .field x.o.a0 :=
  ⟨Case.readyK _ rfl 1, by unfold Canonical; decide +kernel, by decide +kernel, prime_211, prime_199,
    Case.readyK _ rfl 1, by unfold Canonical; decide +kernel, by decide +kernel,
    Case.readyK _ rfl 1, by unfold Canonical; decide +kernel⟩

/-- A square, a non-square and p on TOYK, and a square on TOYE, where p is 1 modulo 4 (vectors M25, M29,
M30). -/
theorem witness_ModularSquareRoot :
    let k : Case := { word := 0x00000006, a := [4] }
    let y : Case := { word := 0x00000006, a := [2] }
    let x : Case := { word := 0x00000006, a := [211] }
    let e : Case := { word := 0x00000206, a := [4] }
    Ready k.s 0 1 k.p ctxK ∧ ctxK.p.Prime ∧ 2 < ctxK.p ∧ Canonical ctxK .field k.o.a0
      ∧ (∃ r, r * r % ctxK.p = os2iC ctxK k.o.a0)
      ∧ Ready y.s 0 1 y.p ctxK ∧ Canonical ctxK .field y.o.a0
      ∧ (¬ ∃ r, r * r % ctxK.p = os2iC ctxK y.o.a0)
      ∧ Ready x.s 0 1 x.p ctxK ∧ ¬ Canonical ctxK .field x.o.a0
      ∧ Ready e.s 2 1 e.p ctxE ∧ ctxE.p.Prime ∧ Canonical ctxE .field e.o.a0
      ∧ ∃ r, r * r % ctxE.p = os2iC ctxE e.o.a0 := by
  refine ⟨Case.readyK _ rfl 1, prime_211, by decide, by unfold Canonical; decide +kernel,
    ⟨2, by decide +kernel⟩, Case.readyK _ rfl 1, by unfold Canonical; decide +kernel, ?_,
    Case.readyK _ rfl 1, by unfold Canonical; decide +kernel, Case.readyE _ rfl 1, prime_97,
    by unfold Canonical; decide +kernel, ⟨2, by decide +kernel⟩⟩
  have h : os2iC ctxK (Case.o { word := 0x00000006, a := [2] }).a0 = 2 := by decide +kernel
  rw [h]
  exact no_root (by decide) (by decide +kernel)

/-- Two points; a first and a second operand that is none. -/
theorem witness_PointSums :
    let k : Case := { word := 0x00000011, a := [0x02, 0x03], b := [0x03, 0x5E] }
    let x : Case := { word := 0x00000011, a := [0x02, 0x05], b := [0x03, 0x5E] }
    let y : Case := { word := 0x00000011, a := [0x02, 0x03], b := [] }
    FormOk ctxK.toCurve .hybrid
      ∧ Ready k.s 0 2 k.p ctxK ∧ Ready k.s 0 1 k.p ctxK ∧ getPT ctxK k.o.a0 = .ok (.aff 3 178)
      ∧ getPT ctxK k.o.a1 = .ok (.aff 94 99)
      ∧ Ready x.s 0 2 x.p ctxK ∧ Ready x.s 0 1 x.p ctxK ∧ getPT ctxK x.o.a0 = .error .invalidPoint
      ∧ Ready y.s 0 2 y.p ctxK ∧ getPT ctxK y.o.a0 = .ok (.aff 3 178)
      ∧ getPT ctxK y.o.a1 = .error .invalidEncoding :=
  ⟨formOk_K _ (by decide), Case.readyK _ rfl 2, Case.readyK _ rfl 1, by decide +kernel,
    by decide +kernel, Case.readyK _ rfl 2, Case.readyK _ rfl 1, by decide +kernel,
    Case.readyK _ rfl 2, by decide +kernel, by decide +kernel⟩

/-- A point, another one, and itself again. -/
theorem witness_GroupLawW :
    SoundCurve toyK ∧ toyK.shape = .weierstrass 0 7 ∧ validPoint toyK (.aff 3 178) = true
      ∧ onCurve toyK 3 178 = true ∧ onCurve toyK 94 99 = true
      ∧ ¬ (3 = 94 ∧ (178 + 99) % toyK.p = 0) ∧ ¬ (3 = 3 ∧ (178 + 178) % toyK.p = 0) :=
  ⟨soundK, rfl, by decide +kernel, by decide +kernel, by decide +kernel, by decide, by decide⟩

theorem witness_GroupLawE :
    SoundCurve toyE ∧ toyE.shape = .edwards 96 7 ∧ onCurve toyE 45 3 = true
      ∧ onCurve toyE 0 1 = true :=
  ⟨soundE, rfl, by decide +kernel, by decide +kernel⟩

theorem witness_ScalarMultiples :
    SoundCurve toyK ∧ validPoint toyK (.aff 3 178) = true ∧ validPoint toyK .inf = true
      ∧ SoundCurve toyE ∧ validPoint toyE (.aff 45 3) = true :=
  ⟨soundK, by decide +kernel, rfl, soundE, by decide +kernel⟩

/-- The scalars n − 1 and n, and a string that is no point (vectors P28, P29, P35). -/
theorem witness_ScalarMultiplications :
    let k : Case := { word := 0x00000016, a := [198], b := [0x03, 0x5E] }
    let x : Case := { word := 0x00000016, a := [199], b := [0x03, 0x5E] }
    let y : Case := { word := 0x00000016, a := [5], b := [0x02, 0x05] }
    FormOk ctxK.toCurve .compressed
      ∧ Ready k.s 0 1 k.p ctxK ∧ Ready k.s 0 2 k.p ctxK ∧ getSC ctxK k.o.a0 = .ok 198
      ∧ getPT ctxK k.o.a1 = .ok (.aff 94 99)
      ∧ Ready x.s 0 1 x.p ctxK ∧ Ready x.s 0 2 x.p ctxK ∧ getSC ctxK x.o.a0 = .error .invalidScalar
      ∧ Ready y.s 0 2 y.p ctxK ∧ getSC ctxK y.o.a0 = .ok 5
      ∧ getPT ctxK y.o.a1 = .error .invalidPoint :=
  ⟨formOk_K _ (by decide), Case.readyK _ rfl 1, Case.readyK _ rfl 2, by decide +kernel,
    by decide +kernel, Case.readyK _ rfl 1, Case.readyK _ rfl 2, by decide +kernel,
    Case.readyK _ rfl 2, by decide +kernel, by decide +kernel⟩

/-- A broken framing, the empty list, two keys that sum to the identity, two that do not, and a key that
does not decode after one that does (vectors P22, P20, P16, P15, P24). -/
theorem witness_Combine :
    let x : Case := { word := 0x00000014, a := [0x00] }
    let e : Case := { word := 0x00000014 }
    let z : Case := { word := 0x00000014, a := [0, 2, 2, 3, 0, 2, 3, 3] }
    let k : Case := { word := 0x00000014, a := [0, 2, 2, 3, 0, 2, 3, 0x5E] }
    let y : Case := { word := 0x00000014, a := [0, 2, 2, 3, 0, 2, 2, 5] }
    FormOk ctxK.toCurve .uncompressed
      ∧ Ready x.s 0 1 x.p ctxK ∧ parseList x.o.a0 = .error .invalidEncoding
      ∧ Ready e.s 0 1 e.p ctxK ∧ parseList e.o.a0 = .ok []
      ∧ List.Forall₂ (fun B P => getPK ctxK B = .ok P) [] []
      ∧ Ready z.s 0 1 z.p ctxK ∧ parseList z.o.a0 = .ok [[2, 3], [3, 3]]
      ∧ List.Forall₂ (fun B P => getPK ctxK B = .ok P) [[2, 3], [3, 3]] [.aff 3 178, .aff 3 33]
      ∧ identity ctxK.toCurve ∈ (List.range 2).map (fun k =>
        (([.aff 3 178, .aff 3 33] : List Point).take (k + 1)).foldl (add ctxK.toCurve)
          (identity ctxK.toCurve))
      ∧ Ready k.s 0 1 k.p ctxK ∧ parseList k.o.a0 = .ok [[2, 3], [3, 0x5E]]
      ∧ List.Forall₂ (fun B P => getPK ctxK B = .ok P) [[2, 3], [3, 0x5E]] [.aff 3 178, .aff 94 99]
      ∧ identity ctxK.toCurve ∉ (List.range 2).map (fun k =>
        (([.aff 3 178, .aff 94 99] : List Point).take (k + 1)).foldl (add ctxK.toCurve)
          (identity ctxK.toCurve))
      ∧ Ready y.s 0 1 y.p ctxK ∧ parseList y.o.a0 = .ok ([[2, 3]] ++ [2, 5] :: [])
      ∧ (∀ G ∈ ([[2, 3]] : List Bytes), ∃ P, getPK ctxK G = .ok P)
      ∧ getPK ctxK [2, 5] = .error .invalidPoint :=
  ⟨formOk_K _ (by decide), Case.readyK _ rfl 1, by decide +kernel, Case.readyK _ rfl 1,
    by decide +kernel, .nil, Case.readyK _ rfl 1, by decide +kernel,
    .cons (by decide +kernel) (.cons (by decide +kernel) .nil), by decide +kernel,
    Case.readyK _ rfl 1, by decide +kernel,
    .cons (by decide +kernel) (.cons (by decide +kernel) .nil), by decide +kernel,
    Case.readyK _ rfl 1, by decide +kernel,
    fun G hG => by simp only [List.mem_singleton] at hG; subst hG; exact ⟨.aff 3 178, by decide +kernel⟩,
    by decide +kernel⟩

theorem witness_ListFraming :
    parseList [0x00] = .error .invalidEncoding ∧ parseList [0, 1, 7] = .ok [[7]] := by
  decide +kernel

/-- The equation of TOYK. -/
theorem equationK (x y : Nat) : Equation toyK x y ↔ y ^ 2 % 211 = (x ^ 3 + 0 * x + 7) % 211 := Iff.rfl

/-- A point, one off the curve, a length that is wrong; a point with and one without coordinates, and
none (vectors P38, P39, P41, P43, P56, P55). -/
theorem witness_Coordinates :
    let k : Case := { word := 0x00000017, a := [3], b := [33] }
    let x : Case := { word := 0x00000017, a := [3], b := [179] }
    let y : Case := { word := 0x00000017, a := [3], b := [0, 178] }
    let d : Case := { word := 0x00000018, a := [2, 3] }
    let i : Case := { word := 0x00000018, a := [0] }
    let m : Case := { word := 0x00000018 }
    FormOk ctxK.toCurve .compressed
      ∧ Ready k.s 0 2 k.p ctxK ∧ k.o.a0.length = ctxK.fsize ∧ k.o.a1.length = ctxK.fsize
      ∧ (os2iC ctxK k.o.a0 < ctxK.p ∧ os2iC ctxK k.o.a1 < ctxK.p
        ∧ Equation ctxK.toCurve (os2iC ctxK k.o.a0) (os2iC ctxK k.o.a1))
      ∧ Ready x.s 0 2 x.p ctxK ∧ x.o.a0.length = ctxK.fsize ∧ x.o.a1.length = ctxK.fsize
      ∧ ¬ (os2iC ctxK x.o.a0 < ctxK.p ∧ os2iC ctxK x.o.a1 < ctxK.p
        ∧ Equation ctxK.toCurve (os2iC ctxK x.o.a0) (os2iC ctxK x.o.a1))
      ∧ Ready y.s 0 2 y.p ctxK ∧ ¬ (y.o.a0.length = ctxK.fsize ∧ y.o.a1.length = ctxK.fsize)
      ∧ Ready d.s 0 1 d.p ctxK ∧ getPT ctxK d.o.a0 = .ok (.aff 3 178)
      ∧ Ready i.s 0 1 i.p ctxK ∧ getPT ctxK i.o.a0 = .ok .inf
      ∧ Ready m.s 0 1 m.p ctxK ∧ getPT ctxK m.o.a0 = .error .invalidEncoding :=
  ⟨formOk_K _ (by decide), Case.readyK _ rfl 2, by decide +kernel, by decide +kernel,
    ⟨by decide +kernel, by decide +kernel, (equationK _ _).2 (by decide +kernel)⟩,
    Case.readyK _ rfl 2, by decide +kernel, by decide +kernel,
    fun h => absurd ((equationK _ _).1 h.2.2) (by decide +kernel),
    Case.readyK _ rfl 2, by decide +kernel, Case.readyK _ rfl 1, by decide +kernel,
    Case.readyK _ rfl 1, by decide +kernel, Case.readyK _ rfl 1, by decide +kernel⟩

/-! ### Witnesses: keys -/

/-- A draw that is 0 modulo n, one that is not, and no known answer at all (vectors K1, Y11). -/
theorem witness_KeyGeneration :
    let z : Case := { word := 0x00000020, rng := [199, 200] }
    let k : Case := { word := 0x00000020, rng := [9] }
    let e : Case := { word := 0x00000020 }
    Ready z.s 0 0 z.p ctxK ∧ 2 ≤ ctxK.n ∧ 1 ≤ ctxK.ssize ∧ ctxK.ssize ≤ z.s.rng.length
      ∧ os2iC ctxK (z.s.rng.take ctxK.ssize) % ctxK.n = 0
      ∧ Ready k.s 0 0 k.p ctxK ∧ ctxK.ssize ≤ k.s.rng.length
      ∧ os2iC ctxK (k.s.rng.take ctxK.ssize) % ctxK.n ≠ 0 ∧ Ready e.s 0 0 e.p ctxK :=
  ⟨Case.readyK _ rfl 0, by decide, by decide, by decide +kernel, by decide +kernel,
    Case.readyK _ rfl 0, by decide +kernel, by decide +kernel, Case.readyK _ rfl 0⟩

theorem witness_KeyChecks :
    let k : Case := { word := 0x00000021, a := [198] }
    Ready k.s 0 1 k.p ctxK :=
  Case.readyK _ rfl 1

/-- Scalars and keys at both ends of their ranges and just outside, one tweak that cancels its key, and a
zero factor. -/
theorem witness_PrivateKeys :
    let k : Case := { word := 0x00000025, a := [198], b := [1] }
    let y : Case := { word := 0x00000025, a := [198], b := [0] }
    let x : Case := { word := 0x00000025, a := [199], b := [0] }
    let z : Case := { word := 0x00000025, a := [0], b := [0] }
    let w : Case := { word := 0x00000025, a := [5], b := [199] }
    1 < ctxK.n ∧ ctxK.n.Prime
      ∧ Ready k.s 0 1 k.p ctxK ∧ Ready k.s 0 2 k.p ctxK ∧ getSC ctxK k.o.a0 = .ok 198
      ∧ getSK ctxK k.o.a0 = .ok 198 ∧ getSC ctxK k.o.a1 = .ok 1 ∧ (198 + 1) % ctxK.n = 0
      ∧ Ready y.s 0 2 y.p ctxK ∧ getSK ctxK y.o.a0 = .ok 198 ∧ getSC ctxK y.o.a1 = .ok 0
      ∧ (198 + 0) % ctxK.n ≠ 0
      ∧ Ready x.s 0 1 x.p ctxK ∧ getSC ctxK x.o.a0 = .error .invalidScalar
      ∧ Ready z.s 0 1 z.p ctxK ∧ Ready z.s 0 2 z.p ctxK
      ∧ (∃ e, getSK ctxK z.o.a0 = .error e)
      ∧ Ready w.s 0 2 w.p ctxK ∧ ∃ e, getSC ctxK w.o.a1 = .error e :=
  ⟨by decide, prime_199, Case.readyK _ rfl 1, Case.readyK _ rfl 2, by decide +kernel,
    by decide +kernel, by decide +kernel, by decide, Case.readyK _ rfl 2, by decide +kernel,
    by decide +kernel, by decide, Case.readyK _ rfl 1, by decide +kernel, Case.readyK _ rfl 1,
    Case.readyK _ rfl 2, ⟨.invalidScalar, by decide +kernel⟩, Case.readyK _ rfl 2,
    ⟨.invalidScalar, by decide +kernel⟩⟩

/-- A private key and none; a public key and none. -/
theorem witness_PublicKeys :
    let k : Case := { word := 0x00000027, a := [198] }
    let x : Case := { word := 0x00000027, a := [0] }
    let q : Case := { word := 0x0000002A, a := [2, 3] }
    let i : Case := { word := 0x0000002A, a := [0] }
    FormOk ctxK.toCurve .compressed
      ∧ Ready k.s 0 1 k.p ctxK ∧ getSK ctxK k.o.a0 = .ok 198
      ∧ Ready x.s 0 1 x.p ctxK ∧ getSK ctxK x.o.a0 = .error .invalidScalar
      ∧ Ready q.s 0 1 q.p ctxK ∧ getPK ctxK q.o.a0 = .ok (.aff 3 178)
      ∧ Ready i.s 0 1 i.p ctxK ∧ getPK ctxK i.o.a0 = .error .invalidPoint :=
  ⟨formOk_K _ (by decide), Case.readyK _ rfl 1, by decide +kernel, Case.readyK _ rfl 1,
    by decide +kernel, Case.readyK _ rfl 1, by decide +kernel, Case.readyK _ rfl 1,
    by decide +kernel⟩

/-- A key and a tweak, two keys, and a failure in each place, on both kinds of curve. -/
theorem witness_PublicKeyTweaks :
    let k : Case := { word := 0x00000028, a := [2, 3], b := [198] }
    let q : Case := { word := 0x0000002B, a := [2, 3], b := [3, 0x5E] }
    let x : Case := { word := 0x00000028, a := [0], b := [1] }
    let y : Case := { word := 0x00000028, a := [2, 3], b := [199] }
    let z : Case := { word := 0x0000002B, a := [2, 3], b := [0] }
    let e : Case := { word := 0x00000274, a := [0x51], b := [5] }
    FormOk ctxK.toCurve .uncompressed
      ∧ Ready k.s 0 2 k.p ctxK ∧ getPK ctxK k.o.a0 = .ok (.aff 3 178) ∧ getSC ctxK k.o.a1 = .ok 198
      ∧ Ready q.s 0 2 q.p ctxK ∧ getPK ctxK q.o.a0 = .ok (.aff 3 178)
      ∧ getPK ctxK q.o.a1 = .ok (.aff 94 99)
      ∧ Ready x.s 0 2 x.p ctxK ∧ getPK ctxK x.o.a0 = .error .invalidPoint
      ∧ Ready y.s 0 2 y.p ctxK ∧ getPK ctxK y.o.a0 = .ok (.aff 3 178)
      ∧ getSC ctxK y.o.a1 = .error .invalidScalar
      ∧ Ready z.s 0 2 z.p ctxK ∧ getPK ctxK z.o.a0 = .ok (.aff 3 178)
      ∧ getPK ctxK z.o.a1 = .error .invalidPoint
      ∧ FormOk ctxE.toCurve .uncompressed ∧ kindE ctxE.toCurve ∧ Ready e.s 2 2 e.p ctxE
      ∧ (∃ P, getPK ctxE e.o.a0 = .ok P) ∧ getSC ctxE e.o.a1 = .ok 5 :=
  ⟨formOk_K _ (by decide), Case.readyK _ rfl 2, by decide +kernel, by decide +kernel,
    Case.readyK _ rfl 2, by decide +kernel, by decide +kernel, Case.readyK _ rfl 2,
    by decide +kernel, Case.readyK _ rfl 2, by decide +kernel, by decide +kernel,
    Case.readyK _ rfl 2, by decide +kernel, by decide +kernel, formOk_E, kindE_E,
    Case.readyE _ rfl 2, ⟨.aff 86 81, by decide +kernel⟩, by decide +kernel⟩

/-- The key 5 with the tweak 7. -/
theorem witness_KeyHomomorphism :
    let s : Case := { word := 0x00000027, a := [12] }
    let s2 : Case := { word := 0x00000027, a := [35] }
    let k : Case := { word := 0x00000028, a := [0x04, 0x93, 0x91], b := [7] }
    SoundCurve ctxK.toCurve ∧ (kindE ctxK.toCurve → bitlen ctxK.p < 8 * ctxK.fsize)
      ∧ FormOk ctxK.toCurve .compressed
      ∧ FormOk ctxK.toCurve .uncompressed ∧ 1 ≤ 5 ∧ 5 < ctxK.n ∧ 7 < ctxK.n
      ∧ Ready s.s 0 1 s.p ctxK ∧ Ready s2.s 0 1 s2.p ctxK ∧ Ready k.s 0 2 k.p ctxK
      ∧ k.o.a0 = putPT ctxK (mulG ctxK.toCurve 5) .uncompressed ∧ k.o.a1 = putSC ctxK 7
      ∧ (5 + 7) % ctxK.n ≠ 0 ∧ s.o.a0 = putSC ctxK ((5 + 7) % ctxK.n)
      ∧ 7 ≠ 0 ∧ s2.o.a0 = putSC ctxK (5 * 7 % ctxK.n) :=
  ⟨soundK, fun h => absurd h not_kindE_K, formOk_K _ (by decide), formOk_K _ (by decide), by decide,
    by decide, by decide, Case.readyK _ rfl 1, Case.readyK _ rfl 1, Case.readyK _ rfl 2,
    by decide +kernel, by decide +kernel, by decide, by decide +kernel, by decide, by decide +kernel⟩

/-- The key 7 of TOYE with the tweak 5: `7·G = 51` and `12·G = 03` in one byte each (vectors D13, D31). -/
theorem witness_KeyHomomorphism_E :
    let s : Case := { word := 0x00000227, a := [12] }
    let s2 : Case := { word := 0x00000227, a := [9] }
    let k : Case := { word := 0x00000228, a := [0x51], b := [5] }
    SoundCurve ctxE.toCurve ∧ (kindE ctxE.toCurve → bitlen ctxE.p < 8 * ctxE.fsize)
      ∧ FormOk ctxE.toCurve .uncompressed ∧ 1 ≤ 7 ∧ 7 < ctxE.n ∧ 5 < ctxE.n
      ∧ Ready s.s 2 1 s.p ctxE ∧ Ready s2.s 2 1 s2.p ctxE ∧ Ready k.s 2 2 k.p ctxE
      ∧ k.o.a0 = putPT ctxE (mulG ctxE.toCurve 7) .uncompressed ∧ k.o.a1 = putSC ctxE 5
      ∧ (7 + 5) % ctxE.n ≠ 0 ∧ s.o.a0 = putSC ctxE ((7 + 5) % ctxE.n)
      ∧ 5 ≠ 0 ∧ s2.o.a0 = putSC ctxE (7 * 5 % ctxE.n)
      ∧ seen (step s.s) = some ⟨0x002, 0, [0x03], []⟩ ∧ seen (step k.s) = some ⟨0x002, 0, [0x03], []⟩ :=
  ⟨soundE, fun _ => by decide +kernel, formOk_E, by decide, by decide, by decide,
    Case.readyE _ rfl 1, Case.readyE _ rfl 1, Case.readyE _ rfl 2, by decide +kernel,
    by decide +kernel, by decide, by decide +kernel, by decide, by decide +kernel, by decide +kernel,
    by decide +kernel⟩

/-! ### Witnesses: signatures -/

/-- A compact and a DER signature, and none (vectors S30, S35). -/
theorem witness_SignatureCodec :
    let k : Case := { word := 0x00000030, a := [5, 7] }
    let d : Case := { word := 0x00000031, a := [0x30, 0x06, 0x02, 0x01, 0x05, 0x02, 0x01, 0x63] }
    let x : Case := { word := 0x00000030 }
    kindW ctxK.toCurve ∧ ctxK.n % 2 = 1
      ∧ Ready k.s 0 1 k.p ctxK ∧ getSigC ctxK k.o.a0 = .ok (5, 7)
      ∧ Ready d.s 0 1 d.p ctxK ∧ decodeDER ctxK d.o.a0 = .ok (5, 99)
      ∧ Ready x.s 0 1 x.p ctxK ∧ getSigC ctxK x.o.a0 = .error .invalidEncoding
      ∧ decodeDER ctxK x.o.a0 = .error .invalidEncoding :=
  ⟨kindW_K, by decide, Case.readyK _ rfl 1, by decide +kernel, Case.readyK _ rfl 1,
    by decide +kernel, Case.readyK _ rfl 1, by decide +kernel, by decide +kernel⟩

/-- A layout with r = 0 and one with r = n, and a compact string out of range and of a wrong length (vectors of
43_signature_codec.md R215). -/
theorem witness_SignatureEncodings :
    ctxK.n ≤ 256 ^ ctxK.ssize ∧ ctxK.ssize ≤ 66
      ∧ ([0x30, 0x06, 0x02, 0x01, 0x00, 0x02, 0x01, 0x07] : Bytes) = encodeDER 0 7
      ∧ ([0x30, 0x07, 0x02, 0x02, 0x00, 0xC7, 0x02, 0x01, 0x07] : Bytes) = encodeDER 199 7
      ∧ ¬ 199 < ctxK.n ∧ (encodeDER 199 7).length ≤ 258
      ∧ ([0, 7] : Bytes).length = 2 * ctxK.ssize
      ∧ ¬ 0 < be2int (([0, 7] : Bytes).take ctxK.ssize) ∧ ([7] : Bytes).length ≠ 2 * ctxK.ssize := by
  decide +kernel

/-- The empty string is no DER encoding. -/
theorem witness_SignatureEncodings_layout : ¬ ∃ r v, ([] : Bytes) = encodeDER r v ∧ ([] : Bytes).length ≤ 258 := by
  rintro ⟨r, v, h, -⟩
  simp [encodeDER] at h

/-- The private key 5 signs "abc"; 0 is no private key (vectors E1b, E7). -/
theorem witness_EcdsaSign :
    let k : Case := { word := 0x00000041, a := [0x61, 0x62, 0x63], b := [5] }
    let x : Case := { word := 0x00000041, a := [0x61, 0x62, 0x63], b := [0] }
    kindW ctxK.toCurve ∧ Ready k.s 0 2 k.p ctxK ∧ getSK ctxK k.o.a1 = .ok 5
      ∧ signCore ctxK k.o.a0 5 = some ⟨61, 57, 0⟩
      ∧ Ready x.s 0 2 x.p ctxK ∧ getSK ctxK x.o.a1 = .error .invalidScalar :=
  ⟨kindW_K, Case.readyK _ rfl 2, by decide +kernel, by decide +kernel, Case.readyK _ rfl 2,
    by decide +kernel⟩

/-- A hash without output gives the nonce candidate 0 for ever (93_implementation_defined.md U7). -/
def noHash (s : State) : State := { s with cfg := { toyCfg with hashes := [⟨0, 64, []⟩, ⟨0, 64, []⟩] } }

def ctxNoHash : Ctx := { ctxK with digest := ⟨0, 64, []⟩ }

theorem noHash_none (msg : Bytes) (d : Nat) : signCore ctxNoHash msg d = none := by
  have h (K M : Bytes) : hmac ctxNoHash K M = [] := List.eq_nil_of_length_eq_zero (length_hmac _ _ _)
  have hG (G : NonceGen) : nonceOf ctxNoHash G = 0 := by
    simp [nonceOf, nonceFill, show ctxNoHash.ssize = 1 from rfl, h, bits2int, be2int, le2int]
  exact (signSearch_eq_none _ _ _ _ _).2 fun i _ => by rw [hG]; rfl

theorem witness_EcdsaSign_stuck :
    let k : Case := { word := 0x00000040, a := [0x61, 0x62, 0x63], b := [5] }
    kindW ctxNoHash.toCurve ∧ Ready (noHash k.s) 0 2 k.p ctxNoHash
      ∧ getSK ctxNoHash ((noHash k.s).operands k.p).a1 = .ok 5
      ∧ signCore ctxNoHash ((noHash k.s).operands k.p).a0 5 = none :=
  ⟨kindW_K, ⟨rfl, rfl, by decide, by decide, by decide⟩, by decide +kernel, noHash_none _ _⟩

/-- A key of the length of a block and one that is shorter. -/
theorem witness_MessageAndHmac :
    ([] : Bytes).length ≤ ctxK.digest.hblock
      ∧ (List.replicate 64 (0x36 : Byte)).length = ctxK.digest.hblock
      ∧ (∀ i < ctxK.digest.hblock,
        (List.replicate 64 (0x36 : Byte))[i]? = some (([] : Bytes).getD i 0x00 ^^^ 0x36)
          ∧ (List.replicate 64 (0x5c : Byte))[i]? = some (([] : Bytes).getD i 0x00 ^^^ 0x5c))
      ∧ bitlen ctxK.n ≤ 8 * ([0xFF] : Bytes).length ∧ 8 * ([] : Bytes).length ≤ bitlen ctxK.n := by
  decide +kernel

/-- Vector E1b, and vector E6a, whose recovery id has the overflow bit. -/
theorem witness_SignatureEquation :
    ctxK.n.Prime ∧ ctxK.n % 2 = 1 ∧ 1 ≤ ctxK.digest.hlen ∧ signCore ctxK [0x61, 0x62, 0x63] 5 = some ⟨61, 57, 0⟩
      ∧ signCore ctxK [3] 1 = some ⟨11, 50, 2⟩ :=
  ⟨prime_199, by decide, by decide, by decide +kernel, by decide +kernel⟩

/-- A signature with its key; a signature and a key that do not decode (vectors E10, E16, E17). -/
theorem witness_EcdsaVerify :
    let k : Case := { word := 0x00000042, a := [0x61, 0x62, 0x63], b := [61, 57], c := [0x03, 0x93] }
    let x : Case := { word := 0x00000042, a := [0x61, 0x62, 0x63], c := [0x03, 0x93] }
    let y : Case := { word := 0x00000042, a := [0x61, 0x62, 0x63], b := [61, 57] }
    kindW ctxK.toCurve ∧ ctxK.n.Prime
      ∧ Ready k.s 0 3 k.p ctxK ∧ getSigC ctxK k.o.a1 = .ok (61, 57)
      ∧ getPK ctxK k.o.a2 = .ok (.aff 147 145)
      ∧ Ready x.s 0 3 x.p ctxK ∧ getSigC ctxK x.o.a1 = .error .invalidEncoding
      ∧ Ready y.s 0 3 y.p ctxK ∧ getPK ctxK y.o.a2 = .error .invalidEncoding :=
  ⟨kindW_K, prime_199, Case.readyK _ rfl 3, by decide +kernel, by decide +kernel,
    Case.readyK _ rfl 3, by decide +kernel, Case.readyK _ rfl 3, by decide +kernel⟩

/-- A signature that recovers; one whose x has no point; one whose x is not below p with RID = 2; one
that does not decode (vectors R1, R9, R3, R14). -/
theorem witness_EcdsaRecover :
    let k : Case := { word := 0x00004043, a := [0x61, 0x62, 0x63], b := [61, 57] }
    let y : Case := { word := 0x00000043, a := [0x61, 0x62, 0x63], b := [5, 5] }
    let x : Case := { word := 0x00000043, a := [0x61, 0x62, 0x63], b := [61] }
    kindW ctxK.toCurve ∧ FormOk ctxK.toCurve .compressed ∧ SoundCurve ctxK.toCurve
      ∧ Ready k.s 0 2 k.p ctxK ∧ getSigC ctxK k.o.a1 = .ok (61, 57)
      ∧ (61 + (0 : BitVec 2).toNat / 2 * ctxK.n < ctxK.p ∧ 116 < ctxK.p
        ∧ 116 % 2 = (0 : BitVec 2).toNat % 2
        ∧ Equation ctxK.toCurve (61 + (0 : BitVec 2).toNat / 2 * ctxK.n) 116)
      ∧ ctxK.p ≤ 61 + (2 : BitVec 2).toNat / 2 * ctxK.n
      ∧ Ready y.s 0 2 y.p ctxK ∧ getSigC ctxK y.o.a1 = .ok (5, 5)
      ∧ (¬ ∃ t, t < ctxK.p ∧ t % 2 = (0 : BitVec 2).toNat % 2
        ∧ Equation ctxK.toCurve (5 + (0 : BitVec 2).toNat / 2 * ctxK.n) t)
      ∧ Ready x.s 0 2 x.p ctxK ∧ getSigC ctxK x.o.a1 = .error .invalidEncoding :=
  ⟨kindW_K, formOk_K _ (by decide), soundK, Case.readyK _ rfl 2, by decide +kernel,
    ⟨by decide, by decide, by decide, (equationK _ _).2 (by decide +kernel)⟩, by decide,
    Case.readyK _ rfl 2, by decide +kernel, fun ⟨t, _, _, h⟩ => noPoint5 ⟨t, h⟩,
    Case.readyK _ rfl 2, by decide +kernel⟩

/-- Every point of TOYK is killed by its order. -/
theorem order_kills_K (P : Point) (h : validPoint toyK P = true) : mul toyK toyK.n P = .inf := by
  cases P with
  | inf => decide +kernel
  | aff x y =>
    have all : (List.range 211).all (fun x => (List.range 211).all fun y =>
        !onCurve toyK x y || decide (mul toyK toyK.n (.aff x y) = .inf)) = true := by
      decide +kernel
    have hx : x < 211 ∧ y < 211 := by
      simp only [validPoint, onCurve, Bool.and_eq_true, decide_eq_true_eq] at h
      exact h.1
    have h1 := List.all_eq_true.1 (List.all_eq_true.1 all x (List.mem_range.2 hx.1)) y
      (List.mem_range.2 hx.2)
    have h2 : onCurve toyK x y = true := h
    simpa [h2] using h1

/-- The key 5, the message "abc", its signature of vector E1b. -/
theorem witness_SignedMessagesVerify :
    let v : Case := { word := 0x00000042, a := [0x61, 0x62, 0x63], b := [61, 57], c := [0x03, 0x93] }
    let r : Case := { word := 0x00000043, a := [0x61, 0x62, 0x63], b := [61, 57] }
    let l : Case := { word := 0x00000032, a := [61, 57] }
    SoundCurve ctxK.toCurve ∧ kindW ctxK.toCurve ∧ FormOk ctxK.toCurve .uncompressed
      ∧ FormOk ctxK.toCurve .compressed ∧ ctxK.p ≤ 2 * ctxK.n ∧ 1 ≤ 5 ∧ 5 < ctxK.n
      ∧ signCore ctxK [0x61, 0x62, 0x63] 5 = some ⟨61, 57, 0⟩
      ∧ Ready v.s 0 3 v.p ctxK ∧ v.o.a0 = [0x61, 0x62, 0x63]
      ∧ v.o.a1 = int2be 61 ctxK.ssize ++ int2be 57 ctxK.ssize
      ∧ v.o.a2 = putPT ctxK (mulG ctxK.toCurve 5) .compressed
      ∧ Ready r.s 0 2 r.p ctxK ∧ r.o.a0 = [0x61, 0x62, 0x63]
      ∧ r.o.a1 = int2be 61 ctxK.ssize ++ int2be 57 ctxK.ssize
      ∧ (∀ P, validPoint ctxK.toCurve P = true → mul ctxK.toCurve ctxK.n P = .inf) ∧ (1 : BitVec 2) ≠ 0
      ∧ Ready l.s 0 1 l.p ctxK ∧ l.o.a0 = int2be 61 ctxK.ssize ++ int2be 57 ctxK.ssize :=
  ⟨soundK, kindW_K, formOk_K _ (by decide), formOk_K _ (by decide), by decide, by decide, by decide,
    by decide +kernel, Case.readyK _ rfl 3, by decide +kernel, by decide +kernel, by decide +kernel,
    Case.readyK _ rfl 2, by decide +kernel, by decide +kernel, order_kills_K, by decide,
    Case.readyK _ rfl 1, by decide +kernel⟩

/-- The same key, message and signature in DER. -/
theorem witness_SignedMessagesVerify_der :
    let r : Case := { word := 0x00010043, a := [0x61, 0x62, 0x63], b := encodeDER 61 57 }
    let l : Case := { word := 0x00000033, a := encodeDER 61 57 }
    Ready r.s 0 2 r.p ctxK ∧ r.o.a0 = [0x61, 0x62, 0x63] ∧ r.o.a1 = encodeDER 61 57
      ∧ Ready l.s 0 1 l.p ctxK ∧ l.o.a0 = encodeDER 61 57 :=
  ⟨Case.readyK _ (by decide +kernel) 2, by decide +kernel, by decide +kernel,
    Case.readyK _ (by decide +kernel) 1, by decide +kernel⟩

/-- A signature with its key; a wrong length, an s equal to n, no key, and a commitment that lifts to
nothing (vectors B1, B9, B10). -/
theorem witness_SchnorrVerify :
    let k : Case := { word := 0x00000050, a := [0x61, 0x62, 0x63], b := [0x0A, 0x87], c := [0x03, 0x93] }
    let x : Case := { word := 0x00000050, a := [0x61, 0x62, 0x63], c := [0x03, 0x93] }
    let n : Case := { word := 0x00000050, a := [0x61, 0x62, 0x63], b := [0x0A, 199], c := [0x03, 0x93] }
    let y : Case := { word := 0x00000050, a := [0x61, 0x62, 0x63], b := [0x0A, 0x87] }
    let l : Case := { word := 0x00000050, a := [0x61, 0x62, 0x63], b := [0x05, 0x87], c := [0x03, 0x93] }
    kindW ctxK.toCurve
      ∧ Ready k.s 0 3 k.p ctxK ∧ k.o.a1.length = ctxK.fsize + ctxK.ssize
      ∧ be2int (k.o.a1.drop ctxK.fsize) < ctxK.n ∧ getPK ctxK k.o.a2 = .ok (.aff 147 145)
      ∧ schnorrLift ctxK (k.o.a1.take ctxK.fsize) = some (.aff 10 95)
      ∧ Ready x.s 0 3 x.p ctxK ∧ x.o.a1.length ≠ ctxK.fsize + ctxK.ssize
      ∧ Ready n.s 0 3 n.p ctxK ∧ ctxK.n ≤ be2int (n.o.a1.drop ctxK.fsize)
      ∧ Ready y.s 0 3 y.p ctxK ∧ getPK ctxK y.o.a2 = .error .invalidEncoding
      ∧ Ready l.s 0 3 l.p ctxK ∧ schnorrLift ctxK (l.o.a1.take ctxK.fsize) = none :=
  ⟨kindW_K, Case.readyK _ rfl 3, by decide +kernel, by decide +kernel, by decide +kernel,
    by decide +kernel, Case.readyK _ rfl 3, by decide +kernel, Case.readyK _ rfl 3,
    by decide +kernel, Case.readyK _ rfl 3, by decide +kernel, Case.readyK _ rfl 3,
    by decide +kernel⟩

/-- A broken framing, two items, no item, a triple that does not parse, and one that does. -/
theorem witness_SchnorrBatch :
    let x : Case := { word := 0x00000051, a := [0] }
    let y : Case := { word := 0x00000051, a := [0, 0, 0, 0] }
    let e : Case := { word := 0x00000051 }
    let m : Case := { word := 0x00000051, a := [0, 0, 0, 0, 0, 0] }
    let k : Case :=
      { word := 0x00000051, a := [0, 3, 0x61, 0x62, 0x63, 0, 2, 0x0A, 0x87, 0, 2, 0x03, 0x93] }
    kindW ctxK.toCurve
      ∧ Ready x.s 0 1 x.p ctxK ∧ parseList x.o.a0 = .error .invalidEncoding
      ∧ Ready y.s 0 1 y.p ctxK ∧ parseList y.o.a0 = .ok [[], []]
      ∧ ([[], []] : List Bytes).length % 3 ≠ 0
      ∧ Ready e.s 0 1 e.p ctxK ∧ parseList e.o.a0 = .ok []
      ∧ Ready m.s 0 1 m.p ctxK ∧ parseList m.o.a0 = .ok ([] ++ [] :: [] :: [] :: [])
      ∧ ([[], [], []] : List Bytes).length % 3 = 0 ∧ schnorrParse ctxK [] [] [] = none
      ∧ Ready k.s 0 1 k.p ctxK
      ∧ parseList k.o.a0 = .ok [[0x61, 0x62, 0x63], [0x0A, 0x87], [0x03, 0x93]]
      ∧ schnorrParse ctxK [0x61, 0x62, 0x63] [0x0A, 0x87] [0x03, 0x93]
        = some ⟨.aff 10 95, 143, 135, .aff 147 145⟩
      ∧ 0 < ctxK.n :=
  ⟨kindW_K, Case.readyK _ rfl 1, by decide +kernel, Case.readyK _ rfl 1, by decide +kernel,
    by decide, Case.readyK _ rfl 1, by decide +kernel, Case.readyK _ rfl 1, by decide +kernel,
    by decide, by decide +kernel, Case.readyK _ rfl 1, by decide +kernel, by decide +kernel,
    by decide⟩

/-- A batch of two triples that parse, the second with a wrong s; the port knows the coefficient 3. -/
theorem witness_SchnorrBatch_combined :
    let k : Case :=
      { word := 0x00000051,
        a := [0, 3, 0x61, 0x62, 0x63, 0, 2, 0x0A, 0x87, 0, 2, 0x03, 0x93, 0, 0, 0, 2, 0x60, 0x99, 0, 2,
          0x02, 0x42],
        rng := [3] }
    let triples : List (Bytes × Bytes × Bytes) :=
      [([0x61, 0x62, 0x63], [0x0A, 0x87], [0x03, 0x93]), ([], [0x60, 0x99], [0x02, 0x42])]
    kindW ctxK.toCurve ∧ Ready k.s 0 1 k.p ctxK
      ∧ parseList k.o.a0 = .ok (triples.flatMap fun t => [t.1, t.2.1, t.2.2]) ∧ triples ≠ []
      ∧ 2 ≤ ctxK.n
      ∧ List.Forall₂ (fun t T => schnorrParse ctxK t.1 t.2.1 t.2.2 = some T) triples
        [⟨.aff 10 95, 143, 135, .aff 147 145⟩, ⟨.aff 96 81, 189, 153, .aff 66 200⟩]
      ∧ 1 ≤ ctxK.ssize ∧ 1 * ctxK.ssize ≤ k.s.rng.length
      ∧ be2int ((k.s.rng.drop (0 * ctxK.ssize)).take ctxK.ssize) % ctxK.n ≠ 0
      ∧ seen (step k.s) = some ⟨0x002, 4, [], []⟩ :=
  ⟨kindW_K, Case.readyK _ rfl 1, by decide +kernel, by decide, by decide,
    .cons (by decide +kernel) (.cons (by decide +kernel) .nil), by decide, by decide +kernel,
    by decide +kernel, by decide +kernel⟩

/-- Two valid triples (vector B22). -/
theorem witness_SchnorrBatchAccepts :
    let k : Case :=
      { word := 0x00000051,
        a := [0, 3, 0x61, 0x62, 0x63, 0, 2, 0x0A, 0x87, 0, 2, 0x03, 0x93, 0, 0, 0, 2, 0x60, 0x98, 0, 2,
          0x02, 0x42],
        rng := [3] }
    let ts : List (Bytes × Bytes × Bytes) :=
      [([0x61, 0x62, 0x63], [0x0A, 0x87], [0x03, 0x93]), ([], [0x60, 0x98], [0x02, 0x42])]
    kindW ctxK.toCurve ∧ SoundCurve ctxK.toCurve
      ∧ (∀ P, validPoint ctxK.toCurve P = true → mul ctxK.toCurve ctxK.n P = .inf)
      ∧ Ready k.s 0 1 k.p ctxK
      ∧ parseList k.o.a0 = .ok (ts.flatMap fun t => [t.1, t.2.1, t.2.2])
      ∧ (∀ t ∈ ts, ∃ T, schnorrParse ctxK t.1 t.2.1 t.2.2 = some T
        ∧ mulG ctxK.toCurve T.s = add ctxK.toCurve T.R (mul ctxK.toCurve T.e T.P))
      ∧ ts ≠ [] := by
  refine ⟨kindW_K, soundK, order_kills_K, Case.readyK _ rfl 1, by decide +kernel, ?_, by decide⟩
  intro t ht
  simp only [List.mem_cons, List.not_mem_nil, or_false] at ht
  rcases ht with rfl | rfl
  · exact ⟨⟨.aff 10 95, 143, 135, .aff 147 145⟩, by decide +kernel, by decide +kernel⟩
  · exact ⟨⟨.aff 96 81, 189, 152, .aff 66 200⟩, by decide +kernel, by decide +kernel⟩

/-! ### Witnesses: hash to curve and EdDSA -/

/-- The three maps, each on its curve. -/
theorem witness_CurveMaps :
    let k : Case := { word := 0x00000062, a := [2] }
    kindW ctxK.toCurve ∧ FormOk ctxK.toCurve .compressed ∧ onCurve ctxK.toCurve ctxK.gx ctxK.gy = true
      ∧ Ready k.s 0 1 k.p ctxK ∧ ctxK.h2c = .svdw
      ∧ kindW ctxN.toCurve ∧ FormOk ctxN.toCurve .compressed
      ∧ onCurve ctxN.toCurve ctxN.gx ctxN.gy = true ∧ Ready k.s 1 1 k.p ctxN ∧ ctxN.h2c = .sswu
      ∧ kindW ctxI.toCurve ∧ onCurve ctxI.toCurve ctxI.gx ctxI.gy = true ∧ Ready k.s 3 1 k.p ctxI
      ∧ ctxI.h2c = .icart :=
  ⟨kindW_K, formOk_K _ (by decide), by decide +kernel, Case.readyK _ rfl 1, rfl, kindW_N,
    formOk_N _ (by decide), by decide +kernel, Case.readyN _ rfl 1, rfl, kindW_I, by decide +kernel,
    Case.readyI _ rfl 1, rfl⟩

theorem witness_FromHash :
    let k : Case := { word := 0x00000063, a := [2, 2] }
    kindW ctxK.toCurve ∧ FormOk ctxK.toCurve .uncompressed ∧ Ready k.s 0 1 k.p ctxK
      ∧ ctxK.h2c ≠ .none :=
  ⟨kindW_K, formOk_K _ (by decide), Case.readyK _ rfl 1, by decide⟩

/-- H2HASH of BC's digest on the suggested Koblitz curve. -/
theorem witness_FromHash_vector :
    let s := State.presented
      { State.reset with args := ⟨.ofNat 0 64, .zero, .zero, .zero⟩, imem := Mem.ofBytes 0 vectorDigest }
      0x00004563
    let p : Pending := ⟨0x00004563, s.args, s.imem⟩
    Ready s 5 1 p ctxKoblitz ∧ svdwVectorOk ctxKoblitz ∧ isKoblitz ctxKoblitz.toCurve
      ∧ ctxKoblitz.h2c = .svdw ∧ (s.operands p).a0 = vectorDigest ∧ ctxKoblitz.z = 1
      ∧ ctxKoblitz.maps = .suggested :=
  ⟨⟨rfl, rfl, by decide, by decide, by decide⟩, test_R279, ⟨rfl, rfl, rfl⟩, rfl, by decide +kernel, rfl, rfl⟩

/-- The lowest and the highest bit a clamp keeps, for strings of one byte and of 32. -/
theorem witness_Clamping :
    1 ≤ 1 ∧ (3 ≤ 3 ∧ 3 < 8 * 1 - 2) ∧ (3 ≤ 5 ∧ 5 < 8 * 1 - 2) ∧ (3 ≤ 253 ∧ 253 < 8 * 32 - 2) := by
  decide

/-- A seed, one whose key is the identity, and one that is too long (vectors D13, D14, D11, D17, D18,
D19). -/
theorem witness_EdwardsKeys :
    let k : Case := { word := 0x00000271, a := [1] }
    let i : Case := { word := 0x00000271, a := [0] }
    let x : Case := { word := 0x00000271, a := [1, 2] }
    let ks : Case := { word := 0x00000272, a := [0x61, 0x62, 0x63], b := [1] }
    let is : Case := { word := 0x00000272, a := [0x61, 0x62, 0x63], b := [0] }
    let xs : Case := { word := 0x00000272, a := [0x61, 0x62, 0x63], b := [1, 2] }
    let key := fun seed : Bytes => mulG ctxE.toCurve
      (clamp ctxE.fsize (os2iC ctxE ((hashC ctxE seed).take ctxE.fsize)) % ctxE.n)
    kindE ctxE.toCurve
      ∧ Ready k.s 2 1 k.p ctxE ∧ k.o.a0.length = ctxE.fsize ∧ key k.o.a0 ≠ identity ctxE.toCurve
      ∧ Ready i.s 2 1 i.p ctxE ∧ i.o.a0.length = ctxE.fsize ∧ key i.o.a0 = identity ctxE.toCurve
      ∧ Ready x.s 2 1 x.p ctxE ∧ x.o.a0.length ≠ ctxE.fsize
      ∧ Ready ks.s 2 2 ks.p ctxE ∧ ks.o.a1.length = ctxE.fsize
      ∧ key ks.o.a1 ≠ identity ctxE.toCurve
      ∧ Ready is.s 2 2 is.p ctxE ∧ is.o.a1.length = ctxE.fsize
      ∧ key is.o.a1 = identity ctxE.toCurve
      ∧ Ready xs.s 2 2 xs.p ctxE ∧ xs.o.a1.length ≠ ctxE.fsize :=
  ⟨kindE_E, Case.readyE _ rfl 1, by decide +kernel, by decide +kernel, Case.readyE _ rfl 1,
    by decide +kernel, by decide +kernel, Case.readyE _ rfl 1, by decide +kernel,
    Case.readyE _ rfl 2, by decide +kernel, by decide +kernel, Case.readyE _ rfl 2,
    by decide +kernel, by decide +kernel, Case.readyE _ rfl 2, by decide +kernel⟩

/-- A tweak, one that cancels the key, one equal to n, and a seed that is too long (vectors D37, D40,
D41). -/
theorem witness_EdwardsTweakedSign :
    let k : Case := { word := 0x00000275, a := [0x61, 0x62, 0x63], b := [1], c := [5] }
    let z : Case := { word := 0x00000275, a := [0x61, 0x62, 0x63], b := [1], c := [6] }
    let n : Case := { word := 0x00000275, a := [0x61, 0x62, 0x63], b := [1], c := [13] }
    let x : Case := { word := 0x00000275, a := [0x61, 0x62, 0x63], b := [1, 2], c := [5] }
    let scalar := fun seed : Bytes => clamp ctxE.fsize (os2iC ctxE ((hashC ctxE seed).take ctxE.fsize))
    kindE ctxE.toCurve
      ∧ Ready k.s 2 3 k.p ctxE ∧ k.o.a1.length = ctxE.fsize ∧ getSC ctxE k.o.a2 = .ok 5
      ∧ (scalar k.o.a1 + 5) % ctxE.n ≠ 0
      ∧ Ready z.s 2 3 z.p ctxE ∧ z.o.a1.length = ctxE.fsize ∧ getSC ctxE z.o.a2 = .ok 6
      ∧ (scalar z.o.a1 + 6) % ctxE.n = 0
      ∧ Ready n.s 2 3 n.p ctxE ∧ n.o.a1.length = ctxE.fsize
      ∧ getSC ctxE n.o.a2 = .error .invalidScalar
      ∧ Ready x.s 2 3 x.p ctxE ∧ x.o.a1.length ≠ ctxE.fsize :=
  ⟨kindE_E, Case.readyE _ rfl 3, by decide +kernel, by decide +kernel, by decide +kernel,
    Case.readyE _ rfl 3, by decide +kernel, by decide +kernel, by decide +kernel,
    Case.readyE _ rfl 3, by decide +kernel, by decide +kernel, Case.readyE _ rfl 3,
    by decide +kernel⟩

/-- A signature with its key; a wrong length, an S equal to n, an R and a key that do not decode. -/
theorem witness_EdwardsVerify :
    let k : Case := { word := 0x00000273, a := [0x61, 0x62, 0x63], b := [0xD1, 9], c := [0x51] }
    let x : Case := { word := 0x00000273, a := [0x61, 0x62, 0x63], c := [0x51] }
    let n : Case := { word := 0x00000273, a := [0x61, 0x62, 0x63], b := [0xD1, 13], c := [0x51] }
    let r : Case := { word := 0x00000273, a := [0x61, 0x62, 0x63], b := [97, 9], c := [0x51] }
    let y : Case := { word := 0x00000273, a := [0x61, 0x62, 0x63], b := [0xD1, 9], c := [1] }
    kindE ctxE.toCurve
      ∧ Ready k.s 2 3 k.p ctxE ∧ k.o.a1.length = 2 * ctxE.fsize
      ∧ os2iC ctxE (k.o.a1.drop ctxE.fsize) < ctxE.n
      ∧ getPT ctxE (k.o.a1.take ctxE.fsize) = .ok (.aff 11 81) ∧ getPK ctxE k.o.a2 = .ok (.aff 86 81)
      ∧ Ready x.s 2 3 x.p ctxE ∧ x.o.a1.length ≠ 2 * ctxE.fsize
      ∧ Ready n.s 2 3 n.p ctxE ∧ ctxE.n ≤ os2iC ctxE (n.o.a1.drop ctxE.fsize)
      ∧ Ready r.s 2 3 r.p ctxE ∧ getPT ctxE (r.o.a1.take ctxE.fsize) = .error .invalidPoint
      ∧ Ready y.s 2 3 y.p ctxE ∧ getPK ctxE y.o.a2 = .error .invalidPoint :=
  ⟨kindE_E, Case.readyE _ rfl 3, by decide +kernel, by decide +kernel, by decide +kernel,
    by decide +kernel, Case.readyE _ rfl 3, by decide +kernel, Case.readyE _ rfl 3,
    by decide +kernel, Case.readyE _ rfl 3, by decide +kernel, Case.readyE _ rfl 3,
    by decide +kernel⟩

/-- The seed 1 signs "abc", without a tweak and with the tweak 5 (vectors D13, D17, D21, D31, D37, D38). -/
theorem witness_EdwardsVerify_signed :
    let e : Case := { word := 0x00000271, a := [1] }
    let g : Case := { word := 0x00000272, a := [0x61, 0x62, 0x63], b := [1] }
    let v : Case := { word := 0x00000273, a := [0x61, 0x62, 0x63], b := [0xD1, 9], c := [0x51] }
    let w : Case := { word := 0x00000274, a := [0x51], b := [5] }
    let t : Case := { word := 0x00000275, a := [0x61, 0x62, 0x63], b := [1], c := [5] }
    let u : Case := { word := 0x00000273, a := [0x61, 0x62, 0x63], b := [0x4A, 2], c := [0x03] }
    let a := clamp ctxE.fsize (os2iC ctxE ((hashC ctxE [1]).take ctxE.fsize))
    (SoundCurve ctxE.toCurve ∧ kindE ctxE.toCurve ∧ bitlen ctxE.p < 8 * ctxE.fsize
      ∧ ctxE.ssize ≤ ctxE.fsize ∧ [(1 : Byte)].length = ctxE.fsize
      ∧ mulG ctxE.toCurve (a % ctxE.n) ≠ identity ctxE.toCurve)
    ∧ (getSC ctxE [5] = .ok 5 ∧ (a + 5) % ctxE.n ≠ 0)
    ∧ (Ready e.s 2 1 e.p ctxE ∧ e.o.a0 = [1] ∧ Ready g.s 2 2 g.p ctxE
      ∧ g.o.a0 = [0x61, 0x62, 0x63] ∧ g.o.a1 = [1])
    ∧ (Ready w.s 2 2 w.p ctxE ∧ w.o.a0 = [0x51] ∧ w.o.a1 = [5] ∧ Ready t.s 2 3 t.p ctxE
      ∧ t.o.a0 = [0x61, 0x62, 0x63] ∧ t.o.a1 = [1] ∧ t.o.a2 = [5])
    ∧ (Ready v.s 2 3 v.p ctxE ∧ v.o.a0 = [0x61, 0x62, 0x63] ∧ v.o.a1 = [0xD1, 9] ∧ v.o.a2 = [0x51])
    ∧ Ready u.s 2 3 u.p ctxE ∧ u.o.a0 = [0x61, 0x62, 0x63] ∧ u.o.a1 = [0x4A, 2] ∧ u.o.a2 = [0x03] :=
  ⟨⟨soundE, kindE_E, by decide +kernel, by decide, by decide, by decide +kernel⟩,
    ⟨by decide +kernel, by decide +kernel⟩,
    ⟨Case.readyE _ rfl 1, by decide +kernel, Case.readyE _ rfl 2, by decide +kernel, by decide +kernel⟩,
    ⟨Case.readyE _ rfl 2, by decide +kernel, by decide +kernel, Case.readyE _ rfl 3,
      by decide +kernel, by decide +kernel, by decide +kernel⟩,
    ⟨Case.readyE _ rfl 3, by decide +kernel, by decide +kernel, by decide +kernel⟩,
    Case.readyE _ rfl 3, by decide +kernel, by decide +kernel, by decide +kernel⟩

/-- No point of TOYE with an even x belongs to u = 6 (vector D55). -/
theorem noMont6 : ¬ ∃ x y, onCurve toyE x y = true ∧ x % 2 = false.toNat
    ∧ (y : ZMod 97) * (((6 : Nat) : ZMod 97) + 1) = ((6 : Nat) : ZMod 97) - 1 := by
  rintro ⟨x, y, h, h2, h3⟩
  have all : (List.range 97).all (fun x => (List.range 97).all fun y =>
      !(onCurve toyE x y && decide (x % 2 = 0) && decide (y * 7 % 97 = 5))) = true := by
    decide +kernel
  have hxy : x < 97 ∧ y < 97 := by
    have h' := h
    simp only [onCurve, Bool.and_eq_true, decide_eq_true_eq] at h'
    exact h'.1
  have h4 : y * 7 % 97 = 5 := by
    have e : ((y * 7 : Nat) : ZMod 97) = ((5 : Nat) : ZMod 97) := by
      push_cast
      have a : ((6 : Nat) : ZMod 97) + 1 = 7 := by decide
      have b : ((6 : Nat) : ZMod 97) - 1 = 5 := by decide
      rw [a, b] at h3
      exact h3
    exact (ZMod.natCast_eq_natCast_iff _ _ _).1 e
  have h5 := List.all_eq_true.1 (List.all_eq_true.1 all x (List.mem_range.2 hxy.1)) y
    (List.mem_range.2 hxy.2)
  have h6 : x % 2 = 0 := h2
  simp [h, h4, h6] at h5

/-- A key and its u back; u of no point of the parity asked for; u equal to p and to p − 1; a wrong
length; a key that does not decode (vectors D43, D49, D55, D54, D53, D56, D47). -/
theorem witness_MontgomeryForm :
    let k : Case := { word := 0x00000276, a := [0x83] }
    let u : Case := { word := 0x00080277, a := [95] }
    let m : Case := { word := 0x00000277, a := [6] }
    let q : Case := { word := 0x00000277, a := [97] }
    let l : Case := { word := 0x00000277, a := [96] }
    let x : Case := { word := 0x00000277, a := [95, 0] }
    let y : Case := { word := 0x00000276, a := [1] }
    kindE ctxE.toCurve ∧ SoundCurve ctxE.toCurve ∧ bitlen ctxE.p < 8 * ctxE.fsize
      ∧ Ready k.s 2 1 k.p ctxE ∧ getPK ctxE k.o.a0 = .ok (.aff 45 3)
      ∧ Ready u.s 2 1 u.p ctxE ∧ u.o.a0 = i2osC ctxE 95 ctxE.fsize
      ∧ u.o.a0.length = ctxE.fsize ∧ os2iC ctxE u.o.a0 < ctxE.p
      ∧ onCurve ctxE.toCurve 45 3 = true ∧ 45 % 2 = true.toNat
      ∧ ((3 : Nat) : ZMod 97) * ((os2iC ctxE u.o.a0 : ZMod 97) + 1) = (os2iC ctxE u.o.a0 : ZMod 97) - 1
      ∧ Ready m.s 2 1 m.p ctxE ∧ m.o.a0.length = ctxE.fsize ∧ os2iC ctxE m.o.a0 < ctxE.p
      ∧ (¬ ∃ a b, onCurve ctxE.toCurve a b = true ∧ a % 2 = false.toNat
        ∧ (b : ZMod 97) * ((os2iC ctxE m.o.a0 : ZMod 97) + 1) = (os2iC ctxE m.o.a0 : ZMod 97) - 1)
      ∧ Ready q.s 2 1 q.p ctxE ∧ q.o.a0.length = ctxE.fsize ∧ ctxE.p ≤ os2iC ctxE q.o.a0
      ∧ Ready l.s 2 1 l.p ctxE ∧ l.o.a0.length = ctxE.fsize ∧ os2iC ctxE l.o.a0 = ctxE.p - 1
      ∧ Ready x.s 2 1 x.p ctxE ∧ x.o.a0.length ≠ ctxE.fsize
      ∧ Ready y.s 2 1 y.p ctxE ∧ getPK ctxE y.o.a0 = .error .invalidPoint := by
  have h95 : os2iC ctxE (Case.o { word := 0x00080277, a := [95] }).a0 = 95 := by decide +kernel
  have h6 : os2iC ctxE (Case.o { word := 0x00000277, a := [6] }).a0 = 6 := by decide +kernel
  refine ⟨kindE_E, soundE, by decide +kernel, Case.readyE _ rfl 1, by decide +kernel,
    Case.readyE _ rfl 1, by decide +kernel, by decide +kernel, by decide +kernel, by decide +kernel,
    rfl, ?_, Case.readyE _ rfl 1, by decide +kernel, by decide +kernel, ?_, Case.readyE _ rfl 1,
    by decide +kernel, by decide +kernel, Case.readyE _ rfl 1, by decide +kernel, by decide +kernel,
    Case.readyE _ rfl 1, by decide +kernel, Case.readyE _ rfl 1, by decide +kernel⟩
  · rw [h95]
    decide
  · rw [h6]
    exact noMont6

end Sys2Proof.Tests
end

section
/-! PROOFS. Numbers in byte strings (00_scope.md R9, 20_memory.md R64): the way from a string to its
number and back, the weight of each byte, and the byte order a configuration gives a curve. -/

namespace Sys2Proof.Machine

/-- `int2le(le2int(B), len(B)) = B` (R9). -/
theorem int2le_le2int (B : Bytes) : int2le (le2int B) B.length = B := by
  induction B with
  | nil => rfl
  | cons b B ih =>
    have hlow : BitVec.ofNat 8 (b.toNat + 256 * le2int B) = b := by
      apply BitVec.eq_of_toNat_eq
      rw [BitVec.toNat_ofNat]
      omega
    have hrest : (b.toNat + 256 * le2int B) / 256 = le2int B := by omega
    simp only [le2int, List.length_cons, int2le, hlow, hrest, ih]

theorem int2be_be2int (B : Bytes) : int2be (be2int B) B.length = B := by
  have h := int2le_le2int B.reverse
  rw [List.length_reverse] at h
  rw [int2be, be2int, h, List.reverse_reverse]

/-- `i2os(os2i(B), len(B)) = B` (R9). -/
theorem i2os_os2i (o : ByteOrder) (B : Bytes) : i2os o (os2i o B) B.length = B := by
  cases o with
  | little => exact int2le_le2int B
  | big => exact int2be_be2int B

/-- The bytes of the second string weigh `256^len` of the first more (R9). -/
theorem le2int_append (A B : Bytes) : le2int (A ++ B) = le2int A + 256 ^ A.length * le2int B := by
  induction A with
  | nil => simp [le2int]
  | cons a A ih =>
    simp only [List.cons_append, le2int, ih, List.length_cons, Nat.pow_succ]
    ring

/-- The first byte is the most significant one (R9). -/
theorem be2int_cons (b : Byte) (B : Bytes) :
    be2int (b :: B) = b.toNat * 256 ^ B.length + be2int B := by
  simp only [be2int, List.reverse_cons, le2int_append, List.length_reverse, le2int]
  ring

theorem os2iC_cons_of_big {C : Ctx} (h : C.order = .big) (b : Byte) (B : Bytes) :
    os2iC C (b :: B) = b.toNat * 256 ^ B.length + os2iC C B := by
  simpa only [os2iC, h, os2i] using be2int_cons b B

theorem os2iC_cons_of_little {C : Ctx} (h : C.order = .little) (b : Byte) (B : Bytes) :
    os2iC C (b :: B) = b.toNat + 256 * os2iC C B := by
  simp only [os2iC, h, os2i, le2int]

theorem byteOrder_of_kindW (g : Cfg) {C : Curve} (h : kindW C) : g.byteOrder C = .big := by
  obtain ⟨a, b, hs⟩ := h
  simp only [Cfg.byteOrder, hs]

theorem byteOrder_of_kindE (g : Cfg) {C : Curve} (h : kindE C) : g.byteOrder C = g.edEndian := by
  obtain ⟨ea, d, hs⟩ := h
  simp only [Cfg.byteOrder, hs]

/-- A curve's byte order is the one R9 gives its kind in the configuration it comes from. -/
theorem order_of_ctx? {g : Cfg} {c : Nat} {C : Ctx} (h : g.ctx? c = some C) :
    C.order = g.byteOrder C.toCurve := by
  unfold Cfg.ctx? at h
  split at h
  · cases h
  · cases h
    rfl

/-- Settles O22, by induction on the byte string. -/
theorem numberBytes : Obligations.NumberBytes := by
  unfold Obligations.NumberBytes
  intro C
  refine ⟨fun v L hv => ⟨length_i2osC C v L, os2i_i2os C.order hv⟩, i2os_os2i C.order,
    os2iC_cons_of_big, os2iC_cons_of_little, fun g c hC => ⟨fun hW => ?_, fun hE => ?_⟩⟩
  · exact (order_of_ctx? hC).trans (byteOrder_of_kindW g hW)
  · exact (order_of_ctx? hC).trans (byteOrder_of_kindE g hE)

end Sys2Proof.Machine
end

section
/-! PROOFS. Rules the proofs about registers, completions and steps share: the descriptor registers, the
table bits (10_state.md R33), and CTRL as a word (R22). -/

namespace Sys2Proof.Machine

/-! ### The descriptor registers (10_state.md R24) -/

@[simp] theorem Desc.word_ofWord (w : Word) : (Desc.ofWord w).word = w := by
  unfold Desc.word Desc.ofWord
  rw [BitVec.extractLsb'_append_extractLsb'_eq_extractLsb' (by rfl)]
  exact BitVec.extractLsb'_eq_self

theorem argIndex_cases (i : BitVec 2) : i = 0 ∨ i = 1 ∨ i = 2 ∨ i = 3 := by
  revert i; decide

/-- A write of ARGi sets that register and no other. -/
theorem Args.get_set (a : Args) (i j : BitVec 2) (d : Desc) :
    (a.set i d).get j = if j = i then d else a.get j := by
  rcases argIndex_cases i with rfl | rfl | rfl | rfl <;>
    rcases argIndex_cases j with rfl | rfl | rfl | rfl <;> rfl

/-! ### The table bits (10_state.md R33) -/

/-- The word a completion sets in TBLSTAT is a single bit. -/
theorem tableBit_eq (k : Nat) : ((1 <<< k : Nat) : Word) = BitVec.twoPow 32 k := by
  apply BitVec.eq_of_toNat_eq
  rw [BitVec.toNat_twoPow, Nat.one_shiftLeft]
  exact BitVec.toNat_ofNat _ _

/-- Bit k of TBLSTAT after a completion on curve c. -/
theorem getLsbD_tableAfter (g : Cfg) (t : Word) (c : BitVec 4) (evaluated : Bool) (k : Nat) :
    (tableAfter g t c evaluated).getLsbD k
      = (t.getLsbD k || (evaluated && g.tables && decide (k = c.toNat))) := by
  have hc : c.toNat < 32 := by omega
  unfold tableAfter
  split
  · next h =>
    rw [h, Bool.true_and, BitVec.getLsbD_or, tableBit_eq, BitVec.getLsbD_twoPow]
    simp only [hc, decide_true, Bool.true_and, eq_comm]
  · next h => simp [h]

theorem tableAfter_without_tables {g : Cfg} (h : g.tables = false) (t : Word) (c : BitVec 4)
    (evaluated : Bool) : tableAfter g t c evaluated = t := by
  simp [tableAfter, h]

/-- A completion sets bits of existing curves only (R28, R33). -/
theorem tableAfter_lt {g : Cfg} {t : Word} {c : BitVec 4} {evaluated : Bool} {n : Nat}
    (ht : t.toNat < 2 ^ n) (hc : evaluated = true → c.toNat < n) :
    (tableAfter g t c evaluated).toNat < 2 ^ n := by
  unfold tableAfter
  split
  · next h =>
    have hcn : c.toNat < n := hc (Bool.and_eq_true_iff.1 h).1
    rw [BitVec.toNat_or, tableBit_eq, BitVec.toNat_twoPow]
    exact Nat.or_lt_two_pow ht
      ((Nat.mod_le _ _).trans_lt (Nat.pow_lt_pow_right (by decide) hcn))
  · exact ht

/-! ### CTRL as a word (10_state.md R22) -/

theorem and_one_eq_ite (d : Word) : d &&& 1 = if d.getLsbD 0 then 1 else 0 :=
  BitVec.and_twoPow d 0

theorem and_one_reserved (d : Word) : d &&& 1 &&& 0xFFFFFFFE = 0 := by
  rw [BitVec.and_assoc]
  exact BitVec.and_zero

end Sys2Proof.Machine
end

section
/-! PROOFS. What the host port does, said once for the proofs about registers: the addresses of each
register (10_state.md section 2) and what a host write can change (R22 to R26, R37). -/

namespace Sys2Proof.Machine

/-! ### Which addresses reach which register -/

theorem registerAt_ctrl {a : Nat} : registerAt a = .ctrl → a = 0x000 := by
  contrapose
  intro hne
  rw [registerAt, if_neg hne]
  iterate 11
    refine iteInduction (motive := (· ≠ Target.ctrl)) (fun _ => Target.noConfusion) fun _ => ?_
  exact Target.noConfusion

/-- A register is reached by an aligned word access of its offset and by nothing else. -/
theorem registerAt_of_target {g : Cfg} {w : Width} {a : BitVec 18} {t : Target}
    (h : Cfg.target g w a = t) (hmem : t.offset? = none) (hbus : t ≠ .busError) :
    w = .bits32 ∧ registerAt a.toNat = t := by
  cases w with
  | bits8 => exact absurd h.symm hbus
  | bits16 => exact absurd h.symm hbus
  | bits64 => exact absurd h.symm hbus
  | bits32 =>
    refine ⟨rfl, ?_⟩
    by_cases h4 : a.toNat % 4 = 0
    · by_cases h1 : a.toNat < 0x100
      · exact (target_register h4 h1).symm.trans h
      · simp only [Cfg.target, Cfg.mapped, h4, h1, if_true, if_false] at h
        split_ifs at h
        · exact absurd h.symm hbus
        · subst h; cases hmem
        · exact absurd h.symm hbus
        · subst h; cases hmem
        · exact absurd h.symm hbus
    · rw [Cfg.target, if_neg h4] at h
      exact absurd h.symm hbus

/-- CTRL is at one address only. -/
theorem target_eq_ctrl {g : Cfg} {w : Width} {a : BitVec 18} (h : Cfg.target g w a = .ctrl) :
    w = .bits32 ∧ a = 0x000 := by
  obtain ⟨hw, ha⟩ := registerAt_of_target h rfl Target.noConfusion
  exact ⟨hw, BitVec.eq_of_toNat_eq (registerAt_ctrl ha)⟩

theorem target_arg (g : Cfg) (i : BitVec 2) :
    Cfg.target g .bits32 (BitVec.ofNat 18 (0x020 + 4 * i.toNat)) = .arg i := by
  rcases argIndex_cases i with rfl | rfl | rfl | rfl
  · exact target_arg0 g
  · exact target_arg1 g
  · exact target_arg2 g
  · exact target_arg3 g

/-! ### Targets that ignore writes (20_memory.md R61, R66) -/

/-- A target whose write is answered and has no effect. -/
def Target.ReadOnly (t : Target) : Prop :=
  t.writeReply = .written ∧ ∀ (s : State) (d : Word), s.store t d = s

theorem registerAt_readOnly {a : Nat} (h : a ∉ [0x000, 0x004, 0x008, 0x020, 0x024, 0x028, 0x02C]) :
    (registerAt a).ReadOnly := by
  simp only [List.mem_cons, List.not_mem_nil, or_false, not_or] at h
  obtain ⟨h0, h1, h2, h3, h4, h5, h6⟩ := h
  rw [registerAt, if_neg h0, if_neg h1, if_neg h2, if_neg h3, if_neg h4, if_neg h5, if_neg h6]
  iterate 5
    refine iteInduction (motive := Target.ReadOnly) (fun _ => ⟨rfl, fun _ _ => rfl⟩) fun _ => ?_
  exact ⟨rfl, fun _ _ => rfl⟩

theorem omem_readOnly (off : Nat) : (Target.omem off).ReadOnly := ⟨rfl, fun _ _ => rfl⟩

/-! ### Targets that BUSY protects (10_state.md R37) -/

/-- A target whose write while BUSY = 1 is a hazard: CMD, ARGi and IMEM. -/
def Target.Guarded (t : Target) : Prop :=
  t.writeReply = .written ∧ ∀ (s : State) (d : Word), s.status.busy = true → s.store t d = s.hazard

theorem cmd_guarded : Target.cmd.Guarded := ⟨rfl, State.writeCmd_busy⟩

theorem arg_guarded (i : BitVec 2) : (Target.arg i).Guarded := ⟨rfl, fun s d => s.writeArg_busy i d⟩

theorem imem_guarded (off : Nat) : (Target.imem off).Guarded :=
  ⟨rfl, fun s d => s.writeImem_busy off d⟩

/-! ### What a host write leaves in CTRL and HAZ -/

/-- Only a write to CTRL changes CTRL. -/
theorem State.store_ctrl (s : State) {t : Target} (h : t ≠ .ctrl) (d : Word) :
    (s.store t d).ctrl = s.ctrl := by
  cases t with
  | ctrl => exact absurd rfl h
  | cmd => simp only [State.store, State.writeCmd]; split <;> rfl
  | arg i => simp only [State.store, State.writeArg]; split <;> rfl
  | imem off => simp only [State.store, State.writeImem]; split <;> rfl
  | _ => rfl

/-- Only a write to STATUS with bit 5 clears HAZ (R26, R37). -/
theorem State.store_haz {s : State} (hz : s.status.haz = true) {t : Target} {d : Word}
    (h : t = .status → d.getLsbD 5 = false) : (s.store t d).status.haz = true := by
  cases t with
  | status => simp only [State.store, State.acknowledge, Status.clear, hz, h rfl]; rfl
  | cmd => simp only [State.store, State.writeCmd]; split <;> [rfl; exact hz]
  | arg i => simp only [State.store, State.writeArg]; split <;> [rfl; exact hz]
  | imem off => simp only [State.store, State.writeImem]; split <;> [rfl; exact hz]
  | _ => exact hz

/-! ### What a step keeps -/

/-- A property of the engine that reads neither the inputs, the answer nor the free values, and that every
completion keeps, is kept by every step, a host write and a reset apart. -/
theorem step_keeps {P : State → Prop} {s t : State} (hs : P s) (h : step s = .next t)
    (hinputs : ∀ u es, P u → P { u with inputs := es })
    (hread : ∀ u w a, P u → P (State.hostRead u w a))
    (hcompletes : ∀ u c v, P u → completes u c v → P v) :
    P t ∨ (∃ w a d es, s.inputs = .write w a d :: es ∧ t = State.hostWrite { s with inputs := es } w a d)
      ∨ ∃ es, s.inputs = .reset :: es ∧ t = State.resetEngine { s with inputs := es } := by
  obtain ⟨-, -, rfl⟩ | ⟨-, c, hc⟩ | ⟨e, es, u, hin, rfl, hu⟩ := step_next h
  · exact .inl hs
  · exact .inl (hcompletes s c t hs hc)
  obtain ⟨w, a, -, rfl⟩ | ⟨w, a, d, rfl, rfl⟩ | ⟨rfl, rfl⟩ | ⟨-, -, rfl⟩ | ⟨-, c, hc⟩ := hu
  · exact .inl (hread _ w a (hinputs s es hs))
  · exact .inr (.inl ⟨w, a, d, es, hin, rfl⟩)
  · exact .inr (.inr ⟨es, hin, rfl⟩)
  · exact .inl (hinputs s es hs)
  · exact .inl (hcompletes _ c t (hinputs s es hs) hc)

end Sys2Proof.Machine
end

section
/-! PROOFS. The invariant of the machine (10_state.md R22 to R31, R33; 60_exceptions.md R320): it holds after
every reset, each update of the state keeps it, and so does every step. -/

namespace Sys2Proof.Machine

/-- The invariant holds after a reset, from any state (R35). -/
theorem resetEngine_inv (s : State) : s.resetEngine.Inv := by
  have idle : ¬ s.resetEngine.status.busy = true := Bool.false_ne_true
  exact ⟨⟨rfl, rfl⟩, ⟨rfl, fun h => idle h.1⟩, .inl rfl, fun h => absurd h idle,
    ⟨rfl, rfl, fun _ => rfl, fun _ => ⟨rfl, rfl⟩⟩, fun _ => ⟨rfl, rfl⟩,
    BitVec.zero_and, Nat.two_pow_pos _, fun _ => rfl⟩

/-! ### The outcome of a completion (60_exceptions.md R320 to R324) -/

theorem Failure.isError_code (f : Failure) : f.code.isError = true := by cases f <;> rfl

theorem Failure.code_ne_recoveryFailure (f : Failure) : f.code ≠ .recoveryFailure := by
  cases f <;> exact Code.noConfusion

/-- The flags and the code of a report tell one outcome (R26, R320). -/
theorem complete_outcomeOk (s : State) (c : BitVec 4) (e : Ending) : (s.complete c e).OutcomeOk := by
  unfold State.OutcomeOk
  rw [State.complete_status, State.complete_errcode]
  cases e.report with
  | results b0 b1 id => exact ⟨rfl, rfl, fun _ => rfl, fun _ => ⟨rfl, rfl⟩⟩
  | predicate b => exact ⟨rfl, rfl, fun _ => rfl, fun h => absurd rfl h⟩
  | verified b =>
    cases b with
    | true => exact ⟨rfl, rfl, fun _ => rfl, fun h => absurd rfl h⟩
    | false => exact ⟨rfl, rfl, fun h => absurd h Bool.false_ne_true, fun h => absurd rfl h⟩
  | null => exact ⟨rfl, rfl, fun h => absurd h Bool.false_ne_true, fun h => absurd rfl h⟩
  | failure f =>
    exact ⟨f.isError_code.symm, (decide_eq_false f.code_ne_recoveryFailure).symm,
      fun h => absurd h Bool.false_ne_true, fun h => absurd rfl h⟩

/-- Only a success without a boolean has results (20_memory.md R71). -/
theorem complete_resultsOk (s : State) (c : BitVec 4) (e : Ending) : (s.complete c e).ResultsOk := by
  unfold State.ResultsOk
  rw [State.complete_status, State.complete_errcode, State.complete_res0, State.complete_res1]
  cases e.report with
  | results b0 b1 id => simp [Report.code, Report.status, Report.result]
  | _ => exact fun _ => ⟨rfl, rfl⟩

/-! ### Each update keeps the invariant -/

theorem completes_inv {s t : State} {c : BitVec 4} (hi : s.Inv) (h : completes s c t) : t.Inv := by
  obtain ⟨-, e, rfl, ht⟩ := h
  obtain ⟨⟨himem, homem⟩, -, -, -, -, -, hctrl, htbl, hnot⟩ := hi
  refine ⟨⟨himem, State.omemAfter_wf homem _⟩, ⟨rfl, by simp [Report.status]⟩, .inl rfl,
    by simp [Report.status], complete_outcomeOk s c e, complete_resultsOk s c e, hctrl,
    tableAfter_lt htbl ht, fun hg => ?_⟩
  exact (tableAfter_without_tables hg _ _ _).trans (hnot hg)

theorem hazard_inv {s : State} (h : s.Inv) : s.hazard.Inv := h

theorem accept_inv {s : State} (h : s.Inv) (w : Word) : (s.accept w).Inv := by
  obtain ⟨hm, -, -, -, -, -, hr⟩ := h
  exact ⟨hm, ⟨rfl, by simp [Status.accepted]⟩, .inr rfl,
    fun _ => ⟨rfl, rfl, rfl, rfl, rfl, rfl, rfl⟩, ⟨rfl, rfl, fun _ => rfl, fun _ => ⟨rfl, rfl⟩⟩,
    fun _ => ⟨rfl, rfl⟩, hr⟩

theorem acknowledge_inv {s : State} (h : s.Inv) (d : Word) : (s.acknowledge d).Inv := by
  obtain ⟨hm, ⟨hb, hd⟩, hrest⟩ := h
  refine ⟨hm, ⟨hb, fun ⟨hbusy, hdone⟩ => hd ⟨hbusy, ?_⟩⟩, hrest⟩
  exact (Bool.and_eq_true_iff.1 hdone).1

theorem writeCtrl_inv {s : State} (h : s.Inv) (d : Word) : (s.writeCtrl d).Inv := by
  obtain ⟨hm, hb, hp, hc, ho, hr, -, ht⟩ := h
  exact ⟨hm, hb, hp, hc, ho, hr, and_one_reserved d, ht⟩

/-- While BUSY = 0 nothing is pending, so ARGi and IMEM may change (R30, R37). -/
theorem idleWrite_inv {s : State} (h : s.Inv) (hb : s.status.busy = false) (A : Args) {m : Mem}
    (hm : m.wf = true) : State.Inv { s with args := A, imem := m } := by
  obtain ⟨⟨-, homem⟩, ⟨hbusy, hd⟩, -, hrest⟩ := h
  have hp : s.pend = none := by rw [← Option.not_isSome_iff_eq_none, ← hbusy, hb]; decide
  exact ⟨⟨hm, homem⟩, ⟨hbusy, hd⟩, .inl hp, hrest⟩

/-- Every host write keeps the invariant. -/
theorem store_inv {s : State} (h : s.Inv) (t : Target) (d : Word) : (s.store t d).Inv := by
  obtain ⟨⟨himem, -⟩, -⟩ := id h
  cases t with
  | ctrl => exact writeCtrl_inv h d
  | cmd =>
    cases hb : s.status.busy with
    | true => rw [State.store, s.writeCmd_busy d hb]; exact hazard_inv h
    | false => rw [State.store, s.writeCmd_idle d hb]; exact accept_inv h d
  | status => exact acknowledge_inv h d
  | arg i =>
    cases hb : s.status.busy with
    | true => rw [State.store, s.writeArg_busy i d hb]; exact hazard_inv h
    | false => rw [State.store, s.writeArg_idle i d hb]; exact idleWrite_inv h hb _ himem
  | imem off =>
    cases hb : s.status.busy with
    | true => rw [State.store, s.writeImem_busy off d hb]; exact hazard_inv h
    | false =>
      rw [State.store, s.writeImem_idle off d hb]
      exact idleWrite_inv h hb _ (Mem.wf_writeWord himem off d)
  | _ => exact h

/-- Settles O16. -/
theorem invariantAtReset : Obligations.InvariantAtReset := resetEngine_inv State.reset

/-- Settles O17: each of the things a step can do keeps the invariant. -/
theorem invariantKept : Obligations.InvariantKept := by
  intro s t hi h
  obtain ht | ⟨w, a, d, es, -, rfl⟩ | ⟨es, -, rfl⟩ :=
    step_keeps (P := State.Inv) hi h (fun _ _ hu => hu) (fun _ _ _ hu => hu) fun _ _ _ => completes_inv
  · exact ht
  · exact store_inv (s := { s with inputs := es }) hi _ d
  · exact resetEngine_inv _

end Sys2Proof.Machine
end

section
/-! PROOFS. The completion of a command (10_state.md R31 to R34): its frame, and that nothing but the latch,
the configuration, the RNG port's answers and the free values decides what it gives. -/

namespace Sys2Proof.Machine

/-! ### What a report leaves in RES0, RES1 and OMEM (20_memory.md R71) -/

/-- The bytes of a report are the strings RES0 and RES1 name, packed from offset 0. -/
theorem Report.exists_strings (r : Report) : ∃ B0 B1 : Bytes, r.bytes = B0 ++ B1
    ∧ r.res0 = ⟨0, BitVec.ofNat 16 B0.length⟩
    ∧ (r.res1 = ⟨0, 0⟩ ∧ B1 = [] ∨ r.res1 = ⟨BitVec.ofNat 16 B0.length, BitVec.ofNat 16 B1.length⟩) := by
  cases r with
  | results b0 b1 id =>
    cases b1 with
    | none => exact ⟨b0, [], (List.append_nil b0).symm, rfl, .inl ⟨rfl, rfl⟩⟩
    | some b1 => exact ⟨b0, b1, rfl, rfl, .inr rfl⟩
  | _ => exact ⟨[], [], rfl, rfl, .inl ⟨rfl, rfl⟩⟩

/-- RES0 and RES1 name no byte beyond those written; a length that overflows its field names fewer. -/
theorem Report.named_le (r : Report) : r.res0.len.toNat + r.res1.len.toNat ≤ r.bytes.length := by
  obtain ⟨B0, B1, hB, h0, h1⟩ := r.exists_strings
  have hlen (B : Bytes) : (BitVec.ofNat 16 B.length).toNat ≤ B.length := by
    rw [BitVec.toNat_ofNat]
    exact Nat.mod_le _ _
  rw [hB, h0, List.length_append]
  obtain ⟨h1, -⟩ | h1 := h1
  · rw [h1]
    exact (hlen B0).trans (Nat.le_add_right _ _)
  · rw [h1]
    exact Nat.add_le_add (hlen B0) (hlen B1)

theorem complete_omem_written (s : State) (c : BitVec 4) (e : Ending) {x : Nat}
    (h : x < e.report.bytes.length) : (s.complete c e).omem.get? x = e.report.bytes[x]? := by
  rw [State.complete_omem, State.omemAfter_get?, if_pos h]

/-- Behind the results a byte holds a value exactly where one did (log 6). -/
theorem complete_omem_valueless (s : State) (c : BitVec 4) (e : Ending) {x : Nat}
    (h : e.report.bytes.length ≤ x) :
    (s.complete c e).omem.get? x = none ↔ s.omem.get? x = none := by
  rw [State.complete_omem, State.omemAfter_get?, if_neg (Nat.not_lt.2 h), Option.map_eq_none_iff]

/-- Settles O12: every command is one completion, and a completion has this frame. -/
theorem commandFrame : Obligations.CommandFrame := by
  intro i s t h
  obtain ⟨hp, e, rfl, -⟩ := exec_next h
  obtain ⟨B0, B1, hB, h0, h1⟩ := e.report.exists_strings
  have hlen : e.report.bytes.length = B0.length + B1.length := by rw [hB, List.length_append]
  refine ⟨hp, rfl, rfl, rfl, rfl, rfl, rfl, rfl, rfl, rfl, rfl, rfl, fun k hk => ?_, fun k hk => ?_,
    fun hg => tableAfter_without_tables hg _ _ _, ⟨e.rngUsed, rfl⟩, B0, B1, fun x hx => ?_,
    fun x hx => complete_omem_valueless s _ e (hlen ▸ hx), h0, h1⟩
  · simp [getLsbD_tableAfter, hk]
  · simp [getLsbD_tableAfter, hk]
  · rw [← hB]
    exact complete_omem_written s _ e (hlen ▸ hx)

/-! ### What the outcome of a command depends on (10_state.md R32) -/

/-- Two states with the same configuration, latch, RNG answers and free values. -/
structure State.SameCommand (s s' : State) : Prop where
  cfg : s'.cfg = s.cfg
  pend : s'.pend = s.pend
  rng : s'.rng = s.rng
  free : s'.free = s.free

theorem State.SameCommand.operands {s s' : State} (h : s.SameCommand s') (p : Pending) :
    s'.operands p = s.operands p := by
  simp only [State.operands, h.rng, h.free]

/-- Two such states complete with the same ending. -/
theorem runCommand_same {s s' t : State} (hs : s.SameCommand s') {c : BitVec 4} {d : Demand}
    {rule : Ctx → Operands → Option Ending} (h : runCommand s c d rule = .next t) :
    ∃ c' e, t = s.complete c' e ∧ runCommand s' c d rule = .next (s'.complete c' e) := by
  cases hp : s.pend with
  | none => simp [runCommand, hp] at h
  | some p =>
    have hp' : s'.pend = some p := hs.pend.trans hp
    cases hc : d.curve? s.cfg c with
    | none =>
      rw [runCommand_illegal rule hp hc] at h
      cases h
      exact ⟨0, _, rfl, runCommand_illegal rule hp' (hs.cfg ▸ hc)⟩
    | some C =>
      have hc' : d.curve? s'.cfg c = some C := hs.cfg ▸ hc
      cases ha : p.args.inImem s.cfg d.nargs with
      | false =>
        rw [runCommand_badDescriptor rule hp hc ha] at h
        cases h
        exact ⟨0, _, rfl, runCommand_badDescriptor rule hp' hc' (hs.cfg ▸ ha)⟩
      | true =>
        rw [runCommand_rule rule hp hc ha] at h
        rw [runCommand_rule rule hp' hc' (hs.cfg ▸ ha), hs.operands]
        cases hr : rule C (s.operands p) with
        | none => rw [hr] at h; cases h
        | some e => rw [hr] at h; cases h; exact ⟨c, e, rfl, rfl⟩

theorem exec_same {i : Instr} {s s' t : State} (hs : s.SameCommand s') (h : exec i s = .next t) :
    ∃ c e, t = s.complete c e ∧ exec i s' = .next (s'.complete c e) := by
  obtain ⟨d, rule, hr, -⟩ := exec_runs i
  rw [hr] at h ⊢
  exact runCommand_same hs h

/-- HAZ is kept by a completion and read by none (R37). -/
theorem exec_with_haz {i : Instr} {s t : State} (b : Bool) (h : exec i s = .next t) :
    exec i { s with status := { s.status with haz := b } }
      = .next { t with status := { t.status with haz := b } } := by
  obtain ⟨c, e, rfl, h'⟩ := exec_same (s := s) (s' := { s with status := { s.status with haz := b } })
    ⟨rfl, rfl, rfl, rfl⟩ h
  exact h'

/-- Settles O15: two states that agree on what a command is given end with the same report, and no meaning
reads SEC. -/
theorem outcomeIndependence : Obligations.OutcomeIndependence := by
  refine ⟨fun i s s' t hcfg hpend hrng hfree h => ?_,
    fun c m f s => ⟨rfl, rfl, rfl, rfl, rfl, rfl, rfl, rfl⟩⟩
  obtain ⟨c, e, rfl, h'⟩ := exec_same ⟨hcfg, hpend, hrng, hfree⟩ h
  refine ⟨_, h', rfl, rfl, fun x hx => ?_, rfl, rfl, rfl, rfl, rfl⟩
  have hw : x < e.report.bytes.length := hx.trans_le e.report.named_le
  rw [complete_omem_written s' c e hw, complete_omem_written s c e hw]

end Sys2Proof.Machine
end

section
/-! PROOFS. What every step keeps of CTRL, of HAZ and of the table bits (10_state.md R22, R33, R37). -/

namespace Sys2Proof.Machine

/-- A completion only sets bits of TBLSTAT. -/
theorem completes_tblstat {s t : State} {c : BitVec 4} {k : Nat} (hk : s.tblstat.getLsbD k = true)
    (h : completes s c t) : t.tblstat.getLsbD k = true := by
  obtain ⟨-, e, rfl, -⟩ := h
  simp [getLsbD_tableAfter, hk]

theorem completes_ctrl {s t : State} {c : BitVec 4} (h : completes s c t) : t.ctrl = s.ctrl := by
  obtain ⟨-, e, rfl, -⟩ := h
  rfl

theorem completes_haz {s t : State} {c : BitVec 4} (h : completes s c t) :
    t.status.haz = s.status.haz := by
  obtain ⟨-, e, rfl, -⟩ := h
  rfl

/-- Settles O14: a host write leaves TBLSTAT alone and a completion only sets bits of it. -/
theorem tableBitStays : Obligations.TableBitStays := by
  intro s t k hk h
  obtain ht | ⟨w, a, d, es, -, rfl⟩ | ⟨es, hin, -⟩ :=
    step_keeps (P := fun u => u.tblstat.getLsbD k = true) hk h (fun _ _ hu => hu) (fun _ _ _ hu => hu)
      fun _ _ _ => completes_tblstat
  · exact .inl ht
  · obtain ⟨-, htbl, -⟩ := State.store_frame { s with inputs := es } (Cfg.target s.cfg w a) d
    exact .inl ((congrArg (BitVec.getLsbD · k) htbl).trans hk)
  · exact .inr ⟨es, hin⟩

/-- A step changes CTRL only where it is a write to CTRL or a reset (R22). -/
theorem step_ctrl {s t : State} (h : step s = .next t) : t.ctrl = s.ctrl
    ∨ (∃ d es, s.inputs = .write .bits32 0x000 d :: es) ∨ ∃ es, s.inputs = .reset :: es := by
  obtain ht | ⟨w, a, d, es, hin, rfl⟩ | ⟨es, hin, -⟩ :=
    step_keeps (P := fun u => u.ctrl = s.ctrl) rfl h (fun _ _ hu => hu) (fun _ _ _ hu => hu)
      fun _ _ _ hu hc => (completes_ctrl hc).trans hu
  · exact .inl ht
  · by_cases htarget : Cfg.target s.cfg w a = .ctrl
    · obtain ⟨rfl, rfl⟩ := target_eq_ctrl htarget
      exact .inr (.inl ⟨d, es, hin⟩)
    · exact .inl (State.store_ctrl { s with inputs := es } htarget d)
  · exact .inr (.inr ⟨es, hin⟩)

/-- Settles O4. -/
theorem controlRegister : Obligations.ControlRegister := by
  refine ⟨fun s d es h => ?_, fun s es h => ?_, fun s t => step_ctrl, fun s => Bool.and_eq_true_iff⟩
  · rw [step_write_to h (target_ctrl s.cfg), ← and_one_eq_ite]
    rfl
  · exact ⟨_, step_read_to h (target_ctrl s.cfg), rfl⟩

/-- HAZ stays 1 until a STATUS write with bit 5 or a reset (R37). -/
theorem step_haz {s t : State} (hz : s.status.haz = true) (h : step s = .next t) :
    t.status.haz = true
      ∨ (∃ d es, s.inputs = .write .bits32 0x008 d :: es ∧ d.getLsbD 5 = true)
      ∨ ∃ es, s.inputs = .reset :: es := by
  obtain ht | ⟨w, a, d, es, hin, rfl⟩ | ⟨es, hin, -⟩ :=
    step_keeps (P := fun u => u.status.haz = true) hz h (fun _ _ hu => hu) (fun _ _ _ hu => hu)
      fun _ _ _ hu hc => (completes_haz hc).trans hu
  · exact .inl ht
  · by_cases hclear : Cfg.target s.cfg w a = .status ∧ d.getLsbD 5 = true
    · obtain ⟨htarget, hbit⟩ := hclear
      obtain ⟨rfl, rfl⟩ := target_status_iff htarget
      exact .inr (.inl ⟨d, es, hin, hbit⟩)
    · exact .inl (State.store_haz (s := { s with inputs := es }) hz fun htarget =>
        Bool.eq_false_of_not_eq_true fun hbit => hclear ⟨htarget, hbit⟩)
  · exact .inr (.inr ⟨es, hin⟩)

/-- A write that reaches CMD, ARGi or IMEM while BUSY = 1 only sets HAZ (R37). -/
theorem step_guarded_write {s : State} {a : BitVec 18} {d : Word} {es : List HostEvent} {t : Target}
    (h : s.inputs = .write .bits32 a d :: es) (hb : s.status.busy = true)
    (ht : Cfg.target s.cfg .bits32 a = t) (hg : t.Guarded) :
    step s = .next
      { s with inputs := es, reply := some .written, status := { s.status with haz := true } } := by
  obtain ⟨hreply, hstore⟩ := hg
  rw [step_write_to h ht, hreply, hstore { s with inputs := es } d hb]
  rfl

/-- Settles O3. -/
theorem hazardFlag : Obligations.HazardFlag := by
  refine ⟨fun s a d es h hb ha => ?_, fun i s t b => exec_with_haz b, fun s t => step_haz⟩
  obtain rfl | rfl | rfl | rfl | rfl | ⟨h4, h1, h2, h3⟩ := ha
  · exact step_guarded_write h hb (target_cmd s.cfg) cmd_guarded
  · exact step_guarded_write h hb (target_arg0 s.cfg) (arg_guarded 0)
  · exact step_guarded_write h hb (target_arg1 s.cfg) (arg_guarded 1)
  · exact step_guarded_write h hb (target_arg2 s.cfg) (arg_guarded 2)
  · exact step_guarded_write h hb (target_arg3 s.cfg) (arg_guarded 3)
  · exact step_guarded_write h hb (target_imem h4 h1 h2 h3) (imem_guarded _)

end Sys2Proof.Machine
end

section
/-! PROOFS. Reset, acceptance, the host's reads and writes of the registers, and the engine's turn
(10_state.md R22 to R31, R35; 20_memory.md R61, R66). -/

namespace Sys2Proof.Machine

/-! ### Reset and acceptance -/

theorem resetEngine_asAfterReset (s : State) : s.resetEngine.AsAfterReset := by
  have hargs (i : BitVec 2) : (Args.zero.get i).word = 0 := by
    rcases argIndex_cases i with rfl | rfl | rfl | rfl <;> rfl
  have hres : Desc.zero.word = 0 := by decide
  have hstatus : Status.zero.word = 0 := by decide
  exact ⟨rfl, rfl, hstatus, rfl, rfl, rfl, hargs, hres, hres, rfl, fun _ => rfl, fun _ => rfl⟩

/-- Settles O1. -/
theorem resetValues : Obligations.ResetValues :=
  ⟨resetEngine_asAfterReset State.reset,
    fun _ _ h => ⟨_, step_reset h, resetEngine_asAfterReset _, rfl, rfl⟩⟩

/-- Settles O2. -/
theorem acceptance : Obligations.Acceptance := by
  intro s w es h hb
  rw [step_write_to h (target_cmd s.cfg), State.store, State.writeCmd_idle { s with inputs := es } w hb]
  rfl

/-! ### Writes of registers -/

/-- A write that reaches a read-only target changes nothing of the engine (20_memory.md R61, R66). -/
theorem step_readOnly_write {s : State} {a : BitVec 18} {d : Word} {es : List HostEvent} {t : Target}
    (h : s.inputs = .write .bits32 a d :: es) (ht : Cfg.target s.cfg .bits32 a = t) (hr : t.ReadOnly) :
    step s = .next { s with inputs := es, reply := some .written } := by
  obtain ⟨hreply, hstore⟩ := hr
  rw [step_write_to h ht, hreply, hstore { s with inputs := es }]

theorem Status.clear_eq (t : Status) (d : Word) : t.clear d =
    { t with
      done := if d.getLsbD 1 then false else t.done
      haz := if d.getLsbD 5 then false else t.haz } := by
  unfold Status.clear
  cases d.getLsbD 1 <;> cases d.getLsbD 5 <;> simp

/-- ERRCODE to the unlisted words behind VERSION, and everything behind ARG3, ignores writes (R61). -/
theorem target_readOnly {g : Cfg} {a : BitVec 18} (h4 : a.toNat % 4 = 0)
    (h : (0x00C ≤ a.toNat ∧ a.toNat ≤ 0x01C) ∨ (0x030 ≤ a.toNat ∧ a.toNat ≤ 0x0FC)) :
    (Cfg.target g .bits32 a).ReadOnly := by
  rw [target_register h4 (by omega)]
  refine registerAt_readOnly ?_
  simp only [List.mem_cons, List.not_mem_nil, or_false, not_or]
  omega

/-- Settles O5. -/
theorem registerWrites : Obligations.RegisterWrites := by
  refine ⟨fun s i d es h hb => ?_, fun s i es h => ?_, fun s d es h => ?_, fun s a d es h h4 ha => ?_⟩
  · refine ⟨s.args.set i (.ofWord d), ?_, ?_, fun j hj => ?_⟩
    · rw [step_write_to h (target_arg s.cfg i), State.store,
        State.writeArg_idle { s with inputs := es } i d hb]
      rfl
    · rw [Args.get_set, if_pos rfl, Desc.word_ofWord]
    · rw [Args.get_set, if_neg hj]
  · exact ⟨_, step_read_to h (target_arg s.cfg i), rfl⟩
  · rw [step_write_to h (target_status s.cfg), State.store, State.acknowledge, Status.clear_eq]
    rfl
  · obtain hlow | hhigh | ⟨h1, h2⟩ := ha
    · exact step_readOnly_write h rfl (target_readOnly h4 (.inl hlow))
    · exact step_readOnly_write h rfl (target_readOnly h4 (.inr hhigh))
    · exact step_readOnly_write h (target_omem h4 h1 h2) (omem_readOnly _)

/-! ### Reads of registers -/

/-- A read whose target and value are known. -/
theorem step_read_value {s : State} {a : BitVec 18} {es : List HostEvent} {t : Target} {w : Word}
    (h : s.inputs = .read .bits32 a :: es) (ht : Cfg.target s.cfg .bits32 a = t)
    (hw : s.load t = some w) :
    step s = .next { s with inputs := es, reply := some (.data w), free := s.free + 4 } := by
  rw [step_read_to h ht, hw]
  rfl

theorem State.readRes_idle {s : State} (hb : s.status.busy = false) (d : Desc) (k : Nat) :
    s.readRes d k = d.len ++ d.off := by
  rw [State.readRes, hb]
  rfl

/-- An unlisted word of the register space reads 0 (20_memory.md R61). -/
theorem target_unlisted {g : Cfg} {a : BitVec 18} (h4 : a.toNat % 4 = 0)
    (h : a.toNat = 0x018 ∨ a.toNat = 0x01C ∨ (0x030 ≤ a.toNat ∧ a.toNat ≤ 0x03C)
      ∨ (0x048 ≤ a.toNat ∧ a.toNat ≤ 0x0FC)) :
    Cfg.target g .bits32 a = .unlisted := by
  rw [target_register h4 (by omega)]
  refine registerAt_unlisted ?_
  simp only [List.mem_cons, List.not_mem_nil, or_false, not_or]
  omega

theorem getLsbD_append_ofBool_zero {n : Nat} (x : BitVec n) (b : Bool) :
    (x ++ BitVec.ofBool b).getLsbD 0 = b := by
  rw [BitVec.getLsbD_append, if_pos Nat.one_pos, BitVec.getLsbD_ofBool, decide_eq_true rfl,
    Bool.true_and]

theorem getLsbD_append_ofBool_succ {n : Nat} (x : BitVec n) (b : Bool) (i : Nat) :
    (x ++ BitVec.ofBool b).getLsbD (i + 1) = x.getLsbD i := by
  rw [BitVec.getLsbD_append, if_neg (by omega), Nat.add_sub_cancel]

theorem extractLsb'_append_ofBool {n : Nat} (x : BitVec n) (b : Bool) (i len : Nat) :
    (x ++ BitVec.ofBool b).extractLsb' (i + 1) len = x.extractLsb' i len := by
  rw [BitVec.extractLsb'_append_eq_of_le (by omega), Nat.add_sub_cancel]

/-- Behind its six one-bit flags STATUS holds two zero bits, RECID and zero bits (R26). -/
theorem Status.extractLsb'_word (t : Status) (i len : Nat) :
    t.word.extractLsb' (i + 6) len
      = ((0 : BitVec 22) ++ t.recid ++ (0 : BitVec 2)).extractLsb' i len := by
  unfold Status.word
  iterate 5 refine (extractLsb'_append_ofBool _ _ _ _).trans ?_
  exact extractLsb'_append_ofBool _ _ _ _

/-- The flags of STATUS (R26), bit 0 first: each lies behind the ones before it. -/
theorem Status.word_flags (t : Status) : t.word.getLsbD 0 = t.busy ∧ t.word.getLsbD 1 = t.done
    ∧ t.word.getLsbD 2 = t.err ∧ t.word.getLsbD 3 = t.result ∧ t.word.getLsbD 4 = t.null
    ∧ t.word.getLsbD 5 = t.haz := by
  refine ⟨?_, ?_, ?_, ?_, ?_, ?_⟩
  all_goals
    repeat refine (getLsbD_append_ofBool_succ _ _ _).trans ?_
    exact getLsbD_append_ofBool_zero _ _

/-- RECID and the bits of STATUS that read 0 (R26). -/
theorem Status.word_fields (t : Status) : t.word.extractLsb' 6 2 = 0
    ∧ t.word.extractLsb' 8 2 = t.recid ∧ t.word.extractLsb' 10 22 = 0 := by
  refine ⟨(t.extractLsb'_word 0 2).trans ?_, (t.extractLsb'_word 2 2).trans ?_,
    (t.extractLsb'_word 4 22).trans ?_⟩
  · exact BitVec.extractLsb'_append_eq_right
  · exact (BitVec.extractLsb'_append_eq_of_le (by decide)).trans BitVec.extractLsb'_append_eq_right
  · exact (BitVec.extractLsb'_append_eq_of_le (by decide)).trans BitVec.extractLsb'_append_eq_left

/-- Settles O7. -/
theorem registerRead : Obligations.RegisterRead := by
  refine ⟨fun s a es h w ha => ?_, fun s a es h _ ha => ?_, fun t => ?_⟩
  · obtain ⟨rfl, rfl⟩ | ⟨rfl, rfl⟩ | ⟨rfl, rfl⟩ | ⟨i, rfl, rfl⟩ | ⟨rfl, rfl⟩ | ⟨rfl, rfl⟩ | ⟨rfl, rfl⟩
      | ⟨rfl, hb, rfl⟩ | ⟨rfl, hb, rfl⟩ | ⟨h4, ha, rfl⟩ := ha
    · exact step_read_value h (target_ctrl s.cfg) rfl
    · exact step_read_value h (target_cmd s.cfg) rfl
    · exact step_read_value h (target_status s.cfg) rfl
    · exact step_read_value h (target_arg s.cfg i) rfl
    · exact step_read_value h (target_errcode s.cfg) rfl
    · exact step_read_value h (target_tblstat s.cfg) rfl
    · exact step_read_value h (target_version s.cfg) rfl
    · exact step_read_value h (target_res0 s.cfg) (congrArg some (State.readRes_idle hb s.res0 0))
    · exact step_read_value h (target_res1 s.cfg) (congrArg some (State.readRes_idle hb s.res1 1))
    · exact step_read_value h (target_unlisted h4 ha) rfl
  · obtain rfl | rfl := ha
    · exact ⟨_, step_read_value h (target_res0 s.cfg) rfl⟩
    · exact ⟨_, step_read_value h (target_res1 s.cfg) rfl⟩
  · obtain ⟨h0, h1, h2, h3, h4, h5⟩ := t.word_flags
    exact ⟨h0, h1, h2, h3, h4, h5, t.word_fields⟩

/-! ### The engine's turn (10_state.md R31) -/

theorem engineStep_decoded {s : State} {p : Pending} {i : Instr} (hp : s.pend = some p)
    (hi : decodeWord p.word = .ok i) : s.engineStep = exec i s := by
  rw [State.engineStep, hp]
  simp only [hi]

theorem engineStep_idle {s : State} (hp : s.pend = none) : s.engineStep = .next s := by
  rw [State.engineStep, hp]

theorem withFetchWord_pend (s : State) (w : Word) :
    (s.withFetchWord 32 w.toNat).pend = some ⟨w, s.args, s.imem⟩ := by
  have hw : BitVec.ofNat 32 (w.toNat % 2 ^ 32) = w := by
    rw [Nat.mod_eq_of_lt w.isLt, BitVec.ofNat_toNat, BitVec.setWidth_eq]
  rw [State.withFetchWord, hw, State.presented_pend]

/-- Settles O9. -/
theorem stepRunsCommand : Obligations.StepRunsCommand := by
  refine ⟨fun s p i hp hi => ⟨fun h => ?_, fun es h => ?_⟩, fun s w i hi => ?_,
    fun s hp => ⟨fun h => ?_, fun es h => ?_⟩⟩
  · exact (step_no_input h).trans (engineStep_decoded hp hi)
  · exact (step_engine h).trans (engineStep_decoded (s := { s with inputs := es }) hp hi)
  · exact (step_no_input (State.presented_inputs s _)).trans
      (engineStep_decoded (withFetchWord_pend s w) hi)
  · exact (step_no_input h).trans (engineStep_idle hp)
  · exact (step_engine h).trans (engineStep_idle (s := { s with inputs := es }) hp)

end Sys2Proof.Machine
end

section
/-! PROOFS. What the host's word accesses do to the memories and what they return: byte lanes, and two reads
with nothing between (20_memory.md R63, R65 to R67). -/

namespace Sys2Proof.Machine

/-! ### Byte lanes (20_memory.md R63) -/

/-- A word write puts lane k of the word into the k-th of its four bytes. -/
theorem Mem.get?_writeWord_lane (m : Mem) (x : Nat) (w : Word) {k : Nat} (hk : k < 4) :
    (m.writeWord x w).get? (x + k) = some (lane w k) := by
  rw [Mem.get?_writeWord]
  obtain rfl | rfl | rfl | rfl : k = 0 ∨ k = 1 ∨ k = 2 ∨ k = 3 := by omega
  all_goals simp

/-- A word write leaves every byte beside its four as it was. -/
theorem Mem.get?_writeWord_outside (m : Mem) {x y : Nat} (w : Word) (h : y < x ∨ x + 4 ≤ y) :
    (m.writeWord x w).get? y = m.get? y := by
  rw [Mem.get?_writeWord, if_neg (by omega), if_neg (by omega), if_neg (by omega), if_neg (by omega)]

/-- Lane k of a word read is the k-th of the four bytes read. -/
theorem Mem.lane_readWord (m : Mem) (x f : Nat) {k : Nat} (hk : k < 4) :
    lane (m.readWord x f) k = m.readByte (x + k) (f + k) := by
  unfold lane Mem.readWord wordOfLanes
  obtain rfl | rfl | rfl | rfl : k = 0 ∨ k = 1 ∨ k = 2 ∨ k = 3 := by omega
  · exact BitVec.extractLsb'_append_eq_right
  · exact (BitVec.extractLsb'_append_eq_of_le (by decide)).trans BitVec.extractLsb'_append_eq_right
  · refine (BitVec.extractLsb'_append_eq_of_le (by decide)).trans ?_
    exact (BitVec.extractLsb'_append_eq_of_le (by decide)).trans BitVec.extractLsb'_append_eq_right
  · refine (BitVec.extractLsb'_append_eq_of_le (by decide)).trans ?_
    refine (BitVec.extractLsb'_append_eq_of_le (by decide)).trans ?_
    exact (BitVec.extractLsb'_append_eq_of_le (by decide)).trans BitVec.extractLsb'_eq_self

/-- A word read returns every byte that holds a value in its lane. -/
theorem Mem.lane_readWord_of_some {m : Mem} {x k : Nat} {b : Byte} (hk : k < 4)
    (h : m.get? (x + k) = some b) (f : Nat) : lane (m.readWord x f) k = b :=
  (m.lane_readWord x f hk).trans (Mem.readByte_of_some h)

/-! ### Host accesses of the memories -/

theorem State.visibleOmem_idle {s : State} (h : s.status.busy = false) : s.visibleOmem = s.omem := by
  rw [State.visibleOmem, h]
  rfl

/-- Two reads of one address, with nothing between, give the same answer where the bytes of the memory it
names hold values (20_memory.md R67). -/
theorem step_read_twice {s : State} {w : Width} {a : BitVec 18} {es : List HostEvent}
    (h : s.inputs = .read w a :: .read w a :: es)
    (hvalues : ∀ b off, (Cfg.target s.cfg w a).offset? = some (b, off) →
      ∀ k < 4, (if b then s.omem else s.imem).get? (off + k) ≠ none) :
    ∃ t u, step s = .next t ∧ step t = .next u ∧ u.reply = t.reply := by
  refine ⟨_, _, step_read_to h rfl, step_read_to rfl rfl, ?_⟩
  exact congrArg (fun r => some (readReply r)) (State.load_fixed hvalues _ _ _)

/-- Settles O6. -/
theorem hostMemory : Obligations.HostMemory := by
  refine ⟨fun s a d es h hb h4 h1 h2 h3 => ?_, fun s w a es h hi ho => ?_,
    fun s a es h h4 => ⟨fun h1 h2 h3 => ?_, fun h1 h3 => ?_⟩⟩
  · refine ⟨s.imem.writeWord (a.toNat - 0x10000) d, ?_, fun k hk => s.imem.get?_writeWord_lane _ d hk,
      fun x hx => s.imem.get?_writeWord_outside d hx⟩
    rw [step_write_to h (target_imem h4 h1 h2 h3), State.store,
      State.writeImem_idle { s with inputs := es } _ d hb]
    rfl
  · refine step_read_twice h fun b off ht => ?_
    obtain ⟨rfl, hrange⟩ := target_offset? ht
    cases b with
    | false => exact hi hrange.1 hrange.2
    | true => exact ho hrange
  · exact ⟨_, step_read_value h (target_imem h4 h1 h2 h3) rfl,
      fun k hk b hv => Mem.lane_readWord_of_some hk hv s.free⟩
  · refine ⟨_, step_read_value h (target_omem h4 h1 h3) rfl, fun hb k hk b hv => ?_⟩
    rw [State.visibleOmem_idle hb]
    exact Mem.lane_readWord_of_some hk hv s.free

end Sys2Proof.Machine
end

section
/-! PROOFS. The framing of lists: parsing inverts it and accepts nothing else (20_memory.md R72). -/

namespace Sys2Proof.Machine

/-- The framing of a list: of each item its length in two bytes, and its bytes (R72). -/
def frameList (items : List Bytes) : Bytes := items.flatMap fun B => int2be B.length 2 ++ B

theorem frameList_cons (I : Bytes) (items : List Bytes) :
    frameList (I :: items) = int2be I.length 2 ++ I ++ frameList items := List.flatMap_cons

theorem length_frameList_cons (I : Bytes) (items : List Bytes) :
    (frameList (I :: items)).length = 2 + I.length + (frameList items).length := by
  simp only [frameList_cons, List.length_append, length_int2be]

theorem parseItems_nil (k : Nat) : parseItems k [] = some [] := by
  cases k <;> rfl

/-- A string starts with the frame of an item exactly where its first two bytes are a length it has room for
and the item is that many bytes behind them. -/
theorem frame_start_iff (b1 b0 : Byte) (B I R : Bytes) :
    (I.length < 65536 ∧ b1 :: b0 :: B = int2be I.length 2 ++ I ++ R) ↔
      be2int [b1, b0] ≤ B.length ∧ I = B.take (be2int [b1, b0]) ∧ R = B.drop (be2int [b1, b0]) := by
  constructor
  · rintro ⟨hlt, hB⟩
    rw [List.append_assoc] at hB
    obtain ⟨hhead, rfl⟩ : [b1, b0] = int2be I.length 2 ∧ B = I ++ R :=
      List.append_inj (s₁ := [b1, b0]) hB (length_int2be _ 2).symm
    have hn : be2int [b1, b0] = I.length := by rw [hhead, be2int_int2be hlt]
    rw [hn, List.take_left, List.drop_left]
    exact ⟨by simp, rfl, rfl⟩
  · rintro ⟨hle, rfl, rfl⟩
    have hlen : (B.take (be2int [b1, b0])).length = be2int [b1, b0] := List.length_take_of_le hle
    have hhead : int2be (be2int [b1, b0]) 2 = [b1, b0] := int2be_be2int [b1, b0]
    rw [hlen, hhead, List.append_assoc, List.take_append_drop]
    exact ⟨lt_of_lt_of_eq (be2int_lt [b1, b0]) (by simp), rfl⟩

/-- One round of parsing takes the first item. -/
theorem parseItems_cons_eq_some_iff (k : Nat) (b1 b0 : Byte) (B I : Bytes) (items : List Bytes) :
    parseItems (k + 1) (b1 :: b0 :: B) = some (I :: items) ↔
      be2int [b1, b0] ≤ B.length ∧ I = B.take (be2int [b1, b0])
        ∧ parseItems k (B.drop (be2int [b1, b0])) = some items := by
  rw [parseItems]
  split
  · next h => simp [h, and_comm, eq_comm (a := I)]
  · next h => simp [h]

theorem parseItems_eq_some_nil_iff (k : Nat) (L : Bytes) : parseItems k L = some [] ↔ L = [] := by
  match k, L with
  | k, [] => simp [parseItems_nil]
  | 0, b :: L => simp [parseItems]
  | k + 1, [b] => simp [parseItems]
  | k + 1, b1 :: b0 :: B =>
    rw [parseItems]
    split <;> simp

/-- With a round for each byte, parsing gives the items exactly where the string is their framing. -/
theorem parseItems_eq_some_iff {k : Nat} {L : Bytes} (hk : L.length ≤ k) (items : List Bytes) :
    parseItems k L = some items ↔ (∀ B ∈ items, B.length < 65536) ∧ L = frameList items := by
  induction items generalizing k L with
  | nil => simp [parseItems_eq_some_nil_iff, frameList]
  | cons I items ih =>
    have hlen (h : L = frameList (I :: items)) : 2 ≤ L.length := by
      rw [h, length_frameList_cons]
      omega
    match k, L with
    | k, [] => exact iff_of_false (by simp [parseItems_nil]) fun h => absurd (hlen h.2) (by simp)
    | k + 1, [b] => exact iff_of_false (by simp [parseItems]) fun h => absurd (hlen h.2) (by simp)
    | k + 1, b1 :: b0 :: B =>
      have hdrop : (B.drop (be2int [b1, b0])).length ≤ k := by
        simp only [List.length_cons] at hk
        rw [List.length_drop]
        omega
      rw [parseItems_cons_eq_some_iff, ih hdrop, List.forall_mem_cons, frameList_cons]
      have hframe := frame_start_iff b1 b0 B I (frameList items)
      constructor
      · rintro ⟨hle, hI, hitems, hR⟩
        obtain ⟨hlt, hL⟩ := hframe.2 ⟨hle, hI, hR.symm⟩
        exact ⟨⟨hlt, hitems⟩, hL⟩
      · rintro ⟨⟨hlt, hitems⟩, hL⟩
        obtain ⟨hle, hI, hR⟩ := hframe.1 ⟨hlt, hL⟩
        exact ⟨hle, hI, hitems, hR.symm⟩

theorem parseList_eq_ok_iff (L : Bytes) (items : List Bytes) :
    parseList L = .ok items ↔ parseItems L.length L = some items := by
  unfold parseList
  split
  · next h => simp [h]
  · next h => simp [h]

/-- Settles O35, by induction on the items. -/
theorem listFraming : Obligations.ListFraming := by
  refine ⟨fun items L => ?_, fun L e h => ?_, rfl⟩
  · exact (parseList_eq_ok_iff L items).trans (parseItems_eq_some_iff le_rfl items)
  · unfold parseList at h
    split at h
    · cases h
    · cases h
      rfl

end Sys2Proof.Machine
end

section
/-! PROOFS. When a command is legal, and what becomes of its descriptors: every command is completed under the
demand the opcode table lists for it (20_memory.md R69, R70; 30_encoding.md R96, R97). -/

namespace Sys2Proof.Machine

/-! ### What the opcode table asks of a command (30_encoding.md R96, R97) -/

/-- The kinds of curve a command is for: what lies at 0x30 to 0x63 is for kind W, what lies from 0x70 on
for kind E (R97, column "kinds"). -/
def kindsOf (i : Instr) : Kinds :=
  if 0x30 ≤ i.op.toNat ∧ i.op.toNat ≤ 0x63 then .onlyW
  else if 0x70 ≤ i.op.toNat then .onlyE
  else .both

/-- The map a command asks of its curve (R96 step 6). -/
def mapNeedOf (i : Instr) : MapNeed :=
  if i.op = 0x60 then .exactly .sswu
  else if i.op = 0x61 then .exactly .icart
  else if i.op = 0x62 then .exactly .svdw
  else if i.op = 0x63 then .some
  else .nothing

/-- What R96 and R97 ask of a command besides its word. -/
def demandOf (i : Instr) : Demand := ⟨kindsOf i, i.fields.form, mapNeedOf i, argCount i⟩

/-- What `exec` does with a command: one completion, under the demand the opcode table lists for it. -/
def MeetsDemand (i : Instr) : Prop :=
  ∃ rule, ∀ s, exec i s = runCommand s i.fields.curve (demandOf i) rule

theorem meetsDemand_of_total {i : Instr} {rule : Ctx → Operands → Ending}
    (h : ∀ s, exec i s = runTotal s i.fields.curve (demandOf i) rule) : MeetsDemand i :=
  ⟨_, h⟩

/-- Every command is completed under its own demand (30_encoding.md R97). -/
theorem exec_meetsDemand (i : Instr) : MeetsDemand i := by
  cases i with
  | ecsign c der => exact ⟨_, fun _ => by unfold exec execEcsign; rfl⟩
  | ecsignr c der => exact ⟨_, fun _ => by unfold exec execEcsignr; rfl⟩
  | _ => exact meetsDemand_of_total fun _ => by unfold exec; rfl

theorem Kinds.allows_onlyW_iff (C : Curve) : Kinds.onlyW.allows C = true ↔ kindW C := by
  refine ⟨fun h => ?_, allows_onlyW⟩
  cases hs : C.shape with
  | weierstrass a b => exact ⟨a, b, hs⟩
  | edwards ea d => simp [Kinds.allows, hs] at h

theorem Kinds.allows_onlyE_iff (C : Curve) : Kinds.onlyE.allows C = true ↔ kindE C := by
  refine ⟨fun h => ?_, allows_onlyE⟩
  cases hs : C.shape with
  | weierstrass a b => simp [Kinds.allows, hs] at h
  | edwards ea d => exact ⟨ea, d, hs⟩

/-- R96 step 4, by OP. -/
theorem kindsOf_allows_iff (i : Instr) (C : Curve) : (kindsOf i).allows C = true ↔
    (0x30 ≤ i.op.toNat ∧ i.op.toNat ≤ 0x63 → kindW C) ∧ (0x70 ≤ i.op.toNat → kindE C) := by
  unfold kindsOf
  split
  · next h => simp [Kinds.allows_onlyW_iff, h, show ¬ 0x70 ≤ i.op.toNat by omega]
  · next h =>
    split
    · next hE => simp [Kinds.allows_onlyE_iff, h, hE]
    · next hE => simp [allows_both, h, hE]

/-- R96 step 6, by OP. -/
theorem mapNeedOf_met_iff (i : Instr) (C : Curve) : (mapNeedOf i).met C = true ↔
    (i.op = 0x60 → C.h2c = .sswu) ∧ (i.op = 0x61 → C.h2c = .icart)
      ∧ (i.op = 0x62 → C.h2c = .svdw) ∧ (i.op = 0x63 → C.h2c ≠ .none) := by
  unfold mapNeedOf
  split
  · next h => rw [h]; simp [MapNeed.met]
  split
  · next h => rw [h]; simp [MapNeed.met]
  split
  · next h => rw [h]; simp [MapNeed.met]
  split
  · next h => rw [h]; simp [MapNeed.met]
  · next h0 h1 h2 h3 =>
    exact iff_of_true rfl ⟨(absurd · h0), (absurd · h1), (absurd · h2), (absurd · h3)⟩

/-- Steps 3 to 6 of R96, passed by a curve. -/
theorem Demand.curve?_eq_some_iff (d : Demand) (g : Cfg) (c : BitVec 4) (C : Ctx) :
    d.curve? g c = some C ↔ g.ctx? c.toNat = some C ∧ d.kinds.allows C.toCurve = true
      ∧ FormOk C.toCurve d.form ∧ d.map.met C.toCurve = true := by
  unfold Demand.curve?
  cases hC : g.ctx? c.toNat with
  | none => simp
  | some C' =>
    simp only [Option.some.injEq, Option.ite_none_right_eq_some, Bool.and_eq_true, formAllowed_iff,
      and_assoc]
    constructor
    · rintro ⟨hk, hf, hm, rfl⟩
      exact ⟨rfl, hk, hf, hm⟩
    · rintro ⟨rfl, hk, hf, hm⟩
      exact ⟨hk, hf, hm, rfl⟩

/-- A command is legal exactly where its demand is met. -/
theorem legalOn_iff (g : Cfg) (i : Instr) :
    LegalOn g i ↔ ∃ C, (demandOf i).curve? g i.fields.curve = some C := by
  unfold LegalOn
  simp only [Demand.curve?_eq_some_iff, demandOf, kindsOf_allows_iff, mapNeedOf_met_iff, and_assoc]

/-! ### The arguments of a command (20_memory.md R69, R70) -/

theorem Desc.inImem_eq_false_iff (d : Desc) (g : Cfg) :
    d.inImem g = false ↔ g.imemBytes < d.off.toNat + d.len.toNat := by
  rw [Desc.inImem, decide_eq_false_iff_not, Nat.not_le]

/-- The descriptor check fails where one of the descriptors it is about reaches beyond IMEM (R69). -/
theorem Args.inImem_eq_false_iff (a : Args) (g : Cfg) (n : Nat) : a.inImem g n = false ↔
    1 ≤ n ∧ g.imemBytes < a.a0.off.toNat + a.a0.len.toNat
      ∨ 2 ≤ n ∧ g.imemBytes < a.a1.off.toNat + a.a1.len.toNat
      ∨ 3 ≤ n ∧ g.imemBytes < a.a2.off.toNat + a.a2.len.toNat := by
  simp only [Args.inImem, Bool.and_eq_false_iff, Bool.or_eq_false_iff, Desc.inImem_eq_false_iff,
    decide_eq_false_iff_not, Nat.not_lt, or_assoc]

/-- An argument whose bytes all hold values is those bytes (R70). -/
theorem Pending.fetch_of_values (p : Pending) {d : Desc} {B : Bytes} (hlen : B.length = d.len.toNat)
    (h : ∀ k < B.length, p.imem.get? (d.off.toNat + k) = B[k]?) (f : Nat) : p.fetch d f = B := by
  rw [Pending.fetch, ← hlen]
  exact Mem.read_of_values p.imem B d.off.toNat f h

/-- Settles O11. -/
theorem descriptors : Obligations.Descriptors := by
  refine ⟨fun i s p hp hlegal harg => ?_, fun s p B => ⟨?_, ?_, ?_⟩⟩
  · obtain ⟨rule, hrun⟩ := exec_meetsDemand i
    obtain ⟨C, hC⟩ := (legalOn_iff s.cfg i).1 hlegal
    rw [hrun, runCommand_badDescriptor rule hp hC ((Args.inImem_eq_false_iff _ _ _).2 harg)]
    rfl
  · exact fun hlen h => p.fetch_of_values hlen h _
  · exact fun hlen h => p.fetch_of_values hlen h _
  · exact fun hlen h => p.fetch_of_values hlen h _

end Sys2Proof.Machine
end

section
/-! PROOFS. How long a command's results can be under a configuration of the sizes 00_scope.md allows
(20_memory.md R71; 00_scope.md R4, R8). -/

namespace Sys2Proof.Machine

/-! ### What a computation that may raise yields -/

/-- Whatever the computation gives, where it does not raise, has the property. -/
def Yields {α : Type} (P : α → Prop) (x : Except Failure α) : Prop := ∀ a, x = .ok a → P a

theorem Yields.ok {α : Type} {P : α → Prop} {a : α} (h : P a) : Yields P (.ok a) := by
  rintro _ ⟨⟩
  exact h

theorem Yields.error {α : Type} {P : α → Prop} {f : Failure} : Yields P (.error f) := by
  rintro _ ⟨⟩

/-- A first computation that yields Q, and a second that yields P from every such value. -/
theorem Yields.andThen {α β : Type} {P : β → Prop} {Q : α → Prop} {x : Except Failure α}
    {f : α → Except Failure β} (hx : Yields Q x) (hf : ∀ a, Q a → Yields P (f a)) :
    Yields P (x >>= f) := by
  cases x with
  | error e => exact .error
  | ok a => exact hf a (hx a rfl)

/-- A first computation of which nothing needs to be known. -/
theorem Yields.bind {α β : Type} {P : β → Prop} {x : Except Failure α} {f : α → Except Failure β}
    (hf : ∀ a, Yields P (f a)) : Yields P (x >>= f) :=
  .andThen (Q := fun _ => True) (fun _ _ => trivial) fun a _ => hf a

theorem yields_require (b : Bool) (f : Failure) : Yields (fun _ => b = true) (require b f) := by
  cases b with
  | false => exact .error
  | true => exact .ok rfl

/-! ### The sizes of a curve and of its strings (00_scope.md R4) -/

/-- The sizes 00_scope.md R4 allows a curve: neither a coordinate nor a scalar takes more than 66 bytes. -/
structure SmallSizes (C : Curve) : Prop where
  fsize : C.fsize ≤ 66
  ssize : C.ssize ≤ 66
  orderSize : byteSize C.n ≤ 66

theorem smallSizes_of_sizesOk {C : Curve} (h : sizesOk C = true) : SmallSizes C := by
  simp only [sizesOk, Bool.and_eq_true, decide_eq_true_eq, and_assoc] at h
  obtain ⟨-, hn, hf, hs, -⟩ := h
  exact ⟨hf, hs, hn ▸ hs⟩

theorem mem_curves_of_ctx? {g : Cfg} {c : Nat} {C : Ctx} (h : g.ctx? c = some C) :
    C.toCurve ∈ g.curves := by
  unfold Cfg.ctx? at h
  split at h
  · cases h
  · next hC =>
    cases h
    exact List.mem_of_getElem? hC

theorem smallSizes_of_shapeOk {g : Cfg} {c : Nat} {C : Ctx} (hg : Cfg.shapeOk g = true)
    (h : g.ctx? c = some C) : SmallSizes C.toCurve := by
  simp only [Cfg.shapeOk, Bool.and_eq_true, List.all_eq_true, and_assoc] at hg
  obtain ⟨-, -, hcurves, -⟩ := hg
  obtain ⟨hsizes, -, -⟩ := hcurves C.toCurve (mem_curves_of_ctx? h)
  exact smallSizes_of_sizesOk hsizes

theorem length_encodePoint_le (C : Ctx) (P : Point) (f : PointForm) :
    (encodePoint C P f).length ≤ 1 + 2 * C.fsize := by
  unfold encodePoint
  split
  · simp
  · split <;> simp <;> omega
  · simp; omega
  · simp; omega

/-- On kind E an encoding is one coordinate long (41_curve_group.md R152). -/
theorem length_encodePoint_of_kindE {C : Ctx} (h : kindE C.toCurve) (P : Point) (f : PointForm) :
    (encodePoint C P f).length = C.fsize := by
  obtain ⟨ea, d, hs⟩ := h
  cases P <;> simp [encodePoint, hs]

/-! ### DER (43_signature_codec.md R212) -/

theorem bitlen_mono {v n : Nat} (h : v ≤ n) : bitlen v ≤ bitlen n := by
  unfold bitlen
  split
  · exact Nat.zero_le _
  · next hv =>
    rw [if_neg (by omega), Nat.log2_eq_log_two, Nat.log2_eq_log_two]
    exact Nat.succ_le_succ (Nat.log_mono_right h)

theorem byteSize_mono {v n : Nat} (h : v ≤ n) : byteSize v ≤ byteSize n :=
  Nat.div_le_div_right (Nat.add_le_add_right (bitlen_mono h) 7)

theorem length_shortest (v : Nat) : (shortest v).length = max 1 (byteSize v) := length_int2be _ _

theorem length_derContent_le {v : Nat} (h : byteSize v ≤ 66) : (derContent v).length ≤ 67 := by
  have hM : (shortest v).length ≤ 66 := (length_shortest v).trans_le (max_le (by decide) h)
  unfold derContent
  dsimp only
  split
  · exact Nat.succ_le_succ hM
  · exact hM.trans (by decide)

theorem length_derLen_le (k : Nat) : (derLen k).length ≤ 2 := by
  unfold derLen
  split <;> simp

theorem length_derLen_of_lt {k : Nat} (h : k < 128) : (derLen k).length = 1 := by
  rw [derLen, if_pos h]
  rfl

theorem length_derInt_le {v : Nat} (h : byteSize v ≤ 66) : (derInt v).length ≤ 69 := by
  have hM := length_derContent_le h
  have hL := length_derLen_of_lt (k := (derContent v).length) (by omega)
  simp only [derInt, List.length_append, List.length_cons, hL]
  omega

/-- Two components of at most 66 bytes take at most 141 bytes. -/
theorem length_encodeDER_le {r s : Nat} (hr : byteSize r ≤ 66) (hs : byteSize s ≤ 66) :
    (encodeDER r s).length ≤ 141 := by
  have hR := length_derInt_le hr
  have hS := length_derInt_le hs
  have hL := length_derLen_le (derInt r ++ derInt s).length
  simp only [encodeDER, List.length_append, List.length_cons] at hL ⊢
  omega

/-! ### Signatures -/

/-- Both components of a signature are below the group order. -/
def BelowOrder (C : Curve) (rs : Nat × Nat) : Prop := rs.1 < C.n ∧ rs.2 < C.n

theorem lt_of_sigRange {C : Ctx} {v : Nat} (h : sigRange C v = true) : v < C.n := by
  simp only [sigRange, Bool.and_eq_true, decide_eq_true_eq] at h
  exact h.2

/-- Both components were tested (43_signature_codec.md R210, R213). -/
theorem yields_of_sigRange (C : Ctx) (rs : Nat × Nat) :
    Yields (BelowOrder C.toCurve) (do
      require (sigRange C rs.1) .invalidScalar
      require (sigRange C rs.2) .invalidScalar
      .ok rs) :=
  .andThen (yields_require _ _) fun _ hr => .andThen (yields_require _ _) fun _ hs =>
    .ok ⟨lt_of_sigRange hr, lt_of_sigRange hs⟩

theorem getSigC_belowOrder (C : Ctx) (B : Bytes) : Yields (BelowOrder C.toCurve) (getSigC C B) :=
  .bind fun _ => yields_of_sigRange C (_, _)

theorem decodeDER_belowOrder (C : Ctx) (B : Bytes) : Yields (BelowOrder C.toCurve) (decodeDER C B) := by
  cases B with
  | nil => exact .error
  | cons t B =>
    exact .bind fun _ => .bind fun _ => .bind fun _ => .bind fun r => .bind fun s => .bind fun _ =>
      yields_of_sigRange C (r.1, s.1)

theorem normalS_lt {C : Ctx} {s : Nat} (h : s < C.n) : normalS C s < C.n := by
  unfold normalS lowS
  split
  · exact h
  · next hlow =>
    rw [decide_eq_true_eq] at hlow
    omega

/-- A signature with components below the order, in either form (43_signature_codec.md R210, R212). -/
theorem SmallSizes.length_encodeDER {C : Curve} (h : SmallSizes C) {r s : Nat} (hrs : BelowOrder C (r, s)) :
    (encodeDER r s).length ≤ 141 :=
  length_encodeDER_le ((byteSize_mono hrs.1.le).trans h.orderSize) ((byteSize_mono hrs.2.le).trans h.orderSize)

theorem SmallSizes.length_putSigC {C : Ctx} (h : SmallSizes C.toCurve) (r s : Nat) :
    (putSigC C r s).length ≤ 141 := by
  have hs := h.ssize
  simp only [putSigC, List.length_append, length_int2be]
  omega

theorem SmallSizes.length_writeSig {C : Ctx} (h : SmallSizes C.toCurve) (der : Bool) {r s : Nat}
    (hrs : BelowOrder C.toCurve (r, s)) : (writeSig C der r s).length ≤ 141 := by
  cases der with
  | false => exact h.length_putSigC r s
  | true => exact h.length_encodeDER hrs

theorem signWith_belowOrder {C : Ctx} {d e k : Nat} {sig : Signature} (h : signWith C d e k = some sig) :
    BelowOrder C.toCurve (sig.r, sig.s) := by
  unfold signWith at h
  split at h
  · cases h
  next hk =>
  have hn : 0 < C.n := by omega
  split at h
  · cases h
  dsimp only at h
  split at h
  · cases h
  next hrs =>
  split at h
  · cases h
    exact ⟨Nat.mod_lt _ hn, Nat.mod_lt _ hn⟩
  · cases h
    exact ⟨Nat.mod_lt _ hn, by dsimp only; omega⟩

theorem signSearch_belowOrder {C : Ctx} {d e t : Nat} {G : NonceGen} {sig : Signature}
    (h : signSearch C d e t G = some sig) : BelowOrder C.toCurve (sig.r, sig.s) := by
  induction t generalizing G with
  | zero => cases h
  | succ t ih =>
    rw [signSearch] at h
    split at h
    · next hsig =>
      cases h
      exact signWith_belowOrder hsig
    · exact ih h

/-! ### Reports of at most 141 bytes -/

/-- A report that writes at most 141 bytes of OMEM (20_memory.md R71). -/
def Report.Short (r : Report) : Prop := r.bytes.length ≤ 141

theorem Report.short_of_bytes_nil {r : Report} (h : r.bytes = []) : r.Short := by
  rw [Report.Short, h]
  exact Nat.zero_le _

theorem short_fail (f : Failure) : (Ending.fail f).report.Short := Report.short_of_bytes_nil rfl

theorem short_ofOne {x : Except Failure Bytes} (h : Yields (fun B => B.length ≤ 141) x) :
    (Ending.ofOne x).report.Short := by
  cases x with
  | error e => exact short_fail e
  | ok B => exact h B rfl

theorem short_ofTwo {x : Except Failure (Bytes × Bytes)}
    (h : Yields (fun B => B.1.length + B.2.length ≤ 141) x) : (Ending.ofTwo x).report.Short := by
  cases x with
  | error e => exact short_fail e
  | ok B => exact List.length_append.trans_le (h B rfl)

/-! ### The results of each rule -/

theorem length_i2osC_le (C : Ctx) (v : Nat) {L : Nat} (hL : L ≤ 66) : (i2osC C v L).length ≤ 141 := by
  rw [length_i2osC]
  omega

section
variable {C : Ctx} (h : SmallSizes C.toCurve)
include h

theorem SmallSizes.widthC_le (m : Modulus) : widthC C m ≤ 66 := by
  cases m with
  | field => exact h.fsize
  | order => exact h.ssize

theorem SmallSizes.length_putSC (v : Nat) : (putSC C v).length ≤ 141 := length_i2osC_le C v h.ssize

theorem SmallSizes.length_putFE (v : Nat) : (putFE C v).length ≤ 141 := length_i2osC_le C v h.fsize

theorem SmallSizes.length_putPT (P : Point) (f : PointForm) : (putPT C P f).length ≤ 141 := by
  have hf := h.fsize
  have hP := length_encodePoint_le C P f
  rw [putPT]
  omega

/-- Two coordinates. -/
theorem SmallSizes.length_pair {A B : Bytes} (hA : A.length ≤ C.fsize) (hB : B.length ≤ C.fsize) :
    A.length + B.length ≤ 141 := by
  have hf := h.fsize
  omega

theorem short_alu2 (m : Modulus) (f : Nat → Nat → Nat) (A B : Bytes) :
    (Ending.ofOne (alu2 C m f A B)).report.Short :=
  short_ofOne (.bind fun _ => .bind fun _ => .ok (length_i2osC_le C _ (h.widthC_le m)))

theorem short_publicKeyReport (R : Point) (f : PointForm) : (publicKeyReport C R f).Short := by
  unfold publicKeyReport
  split
  · exact Report.short_of_bytes_nil rfl
  · exact h.length_putPT R f

theorem short_tweakAddRule (f : PointForm) (A B : Bytes) : (tweakAddRule C f A B).report.Short := by
  unfold tweakAddRule
  split
  · exact short_fail _
  · exact short_fail _
  · exact short_publicKeyReport h _ f

theorem short_mapRule (f : PointForm) (B : Bytes) : (mapRule C f B).report.Short :=
  short_ofOne (.bind fun _ => .ok (h.length_putPT _ f))

theorem short_signRule {der id : Bool} {msg priv : Bytes} {e : Ending}
    (he : signRule C der id msg priv = some e) : e.report.Short := by
  unfold signRule at he
  split at he
  · cases he
    exact short_fail _
  split at he
  · cases he
  next hsig =>
  cases he
  exact h.length_writeSig der (signSearch_belowOrder hsig)

theorem short_recoverRule (f : PointForm) (der : Bool) (rid : BitVec 2) (msg sig : Bytes) :
    (recoverRule C f der rid msg sig).report.Short := by
  unfold recoverRule
  split
  · exact Report.short_of_bytes_nil rfl
  split
  · exact Report.short_of_bytes_nil rfl
  dsimp only [Ending.afterMulG]
  split
  · exact Report.short_of_bytes_nil rfl
  · exact h.length_putPT _ f

/-- A kind-E signature is an encoded point and a coordinate (47_eddsa.md R301). -/
theorem SmallSizes.length_edSignCore (hE : kindE C.toCurve) (msg Ab : Bytes) (K : EdKey) :
    (edSignCore C msg K Ab).length ≤ 141 := by
  have hf := h.fsize
  simp only [edSignCore, edEncode, List.length_append, length_encodePoint_of_kindE hE, length_i2osC]
  omega

theorem short_edSignRule (hE : kindE C.toCurve) (msg seed : Bytes) :
    (edSignRule C msg seed).report.Short := by
  unfold edSignRule
  split
  · exact short_fail _
  dsimp only [Ending.afterMulG]
  split
  · exact Report.short_of_bytes_nil rfl
  · exact h.length_edSignCore hE _ _ _

theorem short_edSignTweakRule (hE : kindE C.toCurve) (msg seed tweak : Bytes) :
    (edSignTweakRule C msg seed tweak).report.Short := by
  unfold edSignTweakRule
  split
  · exact short_fail _
  · exact short_fail _
  dsimp only
  split
  · exact short_fail _
  · exact h.length_edSignCore hE _ _ _

end

theorem edExpand_nonceKey (C : Ctx) (seed : Bytes) :
    Yields (fun K => K.nonceKey.length ≤ C.fsize) (edExpand C seed) :=
  .bind fun _ => .ok (List.length_take_le _ _)

/-! A verification writes no byte. -/

theorem verifyRule_bytes (C : Ctx) (der : Bool) (msg sig pub : Bytes) :
    (verifyRule C der msg sig pub).report.bytes = [] := by
  unfold verifyRule
  split
  · rfl
  · rfl
  split <;> rfl

theorem schnorrRule_bytes (C : Ctx) (msg sig pub : Bytes) :
    (schnorrRule C msg sig pub).report.bytes = [] := by
  unfold schnorrRule
  split <;> rfl

theorem batchRule_bytes (C : Ctx) (L : Bytes) (draw : Nat) (rng : Bytes) :
    (batchRule C L draw rng).report.bytes = [] := by
  unfold batchRule
  split
  · rfl
  split
  · rfl
  · rfl
  split <;> rfl

theorem edVerifyRule_bytes (C : Ctx) (msg sig pub : Bytes) :
    (edVerifyRule C msg sig pub).report.bytes = [] := by
  unfold edVerifyRule
  dsimp only
  split
  · rfl
  split <;> rfl

/-! ### Every command -/

/-- Everything a command that answers a next state has done: raised a failure before its own rule, or ended
as its rule says on the curve its demand found. -/
theorem runCommand_next_cases {s t : State} {c : BitVec 4} {d : Demand}
    {rule : Ctx → Operands → Option Ending} (h : runCommand s c d rule = .next t) :
    (∃ f, t = s.raise f) ∨ ∃ p C e, d.curve? s.cfg c = some C ∧ rule C (s.operands p) = some e
      ∧ t = s.complete c e := by
  unfold runCommand at h
  split at h
  · cases h
  next p _ =>
  split at h
  · cases h
    exact .inl ⟨_, rfl⟩
  next C hC =>
  split at h
  · split at h
    · cases h
    next e he =>
    cases h
    exact .inr ⟨p, C, e, hC, he, rfl⟩
  · cases h
    exact .inl ⟨_, rfl⟩

/-- A command's completion writes at most 141 bytes of OMEM under a configuration of allowed sizes. -/
def CompletesShort (i : Instr) : Prop := ∀ s t : State, Cfg.shapeOk s.cfg = true → exec i s = .next t →
  ∃ c e, t = s.complete c e ∧ e.report.Short

/-- It is enough that the command's own rule ends so on a curve of its kinds and of small sizes. -/
theorem completesShort_of_command {i : Instr} {c : BitVec 4} {d : Demand}
    {rule : Ctx → Operands → Option Ending} (hrun : ∀ s, exec i s = runCommand s c d rule)
    (hrule : ∀ C o e, SmallSizes C.toCurve → d.kinds.allows C.toCurve = true → rule C o = some e →
      e.report.Short) : CompletesShort i := by
  intro s t hg h
  rw [hrun] at h
  obtain ⟨f, rfl⟩ | ⟨p, C, e, hc, he, rfl⟩ := runCommand_next_cases h
  · exact ⟨0, .fail f, rfl, short_fail f⟩
  · obtain ⟨hC, hk, -, -⟩ := (Demand.curve?_eq_some_iff d s.cfg c C).1 hc
    exact ⟨c, e, rfl, hrule C _ e (smallSizes_of_shapeOk hg hC) hk he⟩

theorem completesShort_of_total {i : Instr} {c : BitVec 4} {d : Demand} {rule : Ctx → Operands → Ending}
    (hrun : ∀ s, exec i s = runTotal s c d rule)
    (hrule : ∀ C o, SmallSizes C.toCurve → d.kinds.allows C.toCurve = true → (rule C o).report.Short) :
    CompletesShort i :=
  completesShort_of_command hrun fun C o _ hC hk he => Option.some.inj he ▸ hrule C o hC hk

/-- A command that ends with a boolean. -/
theorem completesShort_of_bytes_nil {i : Instr} {c : BitVec 4} {d : Demand}
    {rule : Ctx → Operands → Ending} (hrun : ∀ s, exec i s = runTotal s c d rule)
    (hrule : ∀ C o, (rule C o).report.bytes = []) : CompletesShort i :=
  completesShort_of_total hrun fun C o _ _ => Report.short_of_bytes_nil (hrule C o)

/-- A command that gives at most one string. -/
theorem completesShort_of_one {i : Instr} {c : BitVec 4} {d : Demand}
    {rule : Ctx → Operands → Except Failure Bytes}
    (hrun : ∀ s, exec i s = runTotal s c d fun C o => .ofOne (rule C o))
    (hrule : ∀ C o, SmallSizes C.toCurve → Yields (fun B => B.length ≤ 141) (rule C o)) :
    CompletesShort i :=
  completesShort_of_total hrun fun C o hC _ => short_ofOne (hrule C o hC)

/-- No command of the table writes more than 141 bytes of OMEM (20_memory.md R71). -/
theorem exec_completesShort (i : Instr) : CompletesShort i := by
  cases i with
  | madd c m x | msub c m x | mmul c m x =>
    refine completesShort_of_total (fun _ => by unfold exec; rfl) fun C o hC _ => ?_
    exact short_alu2 hC m _ _ _
  | msqr c m x =>
    refine completesShort_of_one (fun _ => by unfold exec; rfl) fun C o hC => ?_
    exact .bind fun _ => .ok (length_i2osC_le C _ (hC.widthC_le m))
  | minv c m x =>
    refine completesShort_of_one (fun _ => by unfold exec; rfl) fun C o hC => ?_
    exact .bind fun _ => .bind fun _ => .ok (length_i2osC_le C _ (hC.widthC_le m))
  | msqrt c x =>
    refine completesShort_of_one (fun _ => by unfold exec; rfl) fun C o hC => ?_
    refine .bind fun _ => ?_
    split
    · exact .error
    · exact .ok (hC.length_putFE _)
  | pchk c | skvfy c | siglows c | siglowder c | pkvfy c =>
    refine completesShort_of_bytes_nil (fun _ => by unfold exec; rfl) fun C o => ?_
    rfl
  | pdbl c f | pneg c f | pkneg c f =>
    refine completesShort_of_one (fun _ => by unfold exec; rfl) fun C o hC => ?_
    exact .bind fun _ => .ok (hC.length_putPT _ f)
  | padd c f | pmul c f x | h2hash c f =>
    refine completesShort_of_one (fun _ => by unfold exec; rfl) fun C o hC => ?_
    exact .bind fun _ => .bind fun _ => .ok (hC.length_putPT _ f)
  | pcomb c f | penc c f =>
    refine completesShort_of_one (fun _ => by unfold exec; rfl) fun C o hC => ?_
    exact .bind fun _ => .bind fun _ => .bind fun _ => .bind fun _ => .ok (hC.length_putPT _ f)
  | pmulg c f x | pkcrt c f =>
    refine completesShort_of_total (fun _ => by unfold exec; rfl) fun C o hC _ => ?_
    split
    · exact short_fail _
    · exact hC.length_putPT _ f
  | pdec c =>
    refine completesShort_of_total (fun _ => by unfold exec; rfl) fun C o hC _ => ?_
    refine short_ofTwo (.bind fun P => ?_)
    cases P with
    | inf => exact .error
    | aff x y => exact .ok (hC.length_pair (length_putFE C x).le (length_putFE C y).le)
  | skgen c | skred c =>
    refine completesShort_of_total (fun _ => by unfold exec; rfl) fun C o hC _ => ?_
    exact hC.length_putSC _
  | skneg c | skinv c =>
    refine completesShort_of_one (fun _ => by unfold exec; rfl) fun C o hC => ?_
    exact .bind fun _ => .ok (hC.length_putSC _)
  | sktadd c | sktmul c =>
    refine completesShort_of_one (fun _ => by unfold exec; rfl) fun C o hC => ?_
    exact .bind fun _ => .bind fun _ => .bind fun _ => .ok (hC.length_putSC _)
  | pktadd c f =>
    refine completesShort_of_total (fun _ => by unfold exec; rfl) fun C o hC _ => ?_
    exact short_tweakAddRule hC f _ _
  | pktmul c f | pkadd c f =>
    refine completesShort_of_total (fun _ => by unfold exec; rfl) fun C o hC _ => ?_
    split
    · exact short_fail _
    · exact short_fail _
    · exact short_publicKeyReport hC _ f
  | sigtoder c =>
    refine completesShort_of_one (fun _ => by unfold exec; rfl) fun C o hC => ?_
    exact .andThen (getSigC_belowOrder C _) fun _ hrs => .ok (hC.length_encodeDER hrs)
  | sigfromder c | signorm c =>
    refine completesShort_of_one (fun _ => by unfold exec; rfl) fun C o hC => ?_
    exact .bind fun _ => .ok (hC.length_putSigC _ _)
  | signormder c =>
    refine completesShort_of_one (fun _ => by unfold exec; rfl) fun C o hC => ?_
    exact .andThen (decodeDER_belowOrder C _) fun _ ⟨hr, hs⟩ =>
      .ok (hC.length_encodeDER ⟨hr, normalS_lt hs⟩)
  | ecsign c der | ecsignr c der =>
    refine completesShort_of_command (fun _ => by unfold exec; rfl) fun C o e hC _ he => ?_
    exact short_signRule hC he
  | ecvfy c der =>
    refine completesShort_of_bytes_nil (fun _ => by unfold exec; rfl) fun C o => ?_
    exact verifyRule_bytes C der _ _ _
  | ecrcv c f der rid =>
    refine completesShort_of_total (fun _ => by unfold exec; rfl) fun C o hC _ => ?_
    exact short_recoverRule hC f der rid _ _
  | schvfy c =>
    refine completesShort_of_bytes_nil (fun _ => by unfold exec; rfl) fun C o => ?_
    exact schnorrRule_bytes C _ _ _
  | schvfyb c =>
    refine completesShort_of_bytes_nil (fun _ => by unfold exec; rfl) fun C o => ?_
    exact batchRule_bytes C _ _ _
  | h2sswu c f | h2icart c f | h2svdw c f =>
    refine completesShort_of_total (fun _ => by unfold exec; rfl) fun C o hC _ => ?_
    exact short_mapRule hC f _
  | edexp c =>
    refine completesShort_of_total (fun _ => by unfold exec; rfl) fun C o hC _ => ?_
    exact short_ofTwo (.andThen (edExpand_nonceKey C _) fun _ hK =>
      .ok (hC.length_pair (length_i2osC C _ _).le hK))
  | edpub c =>
    refine completesShort_of_total (fun _ => by unfold exec; rfl) fun C o hC _ => ?_
    split
    · exact short_fail _
    · exact short_publicKeyReport hC _ _
  | edsign c =>
    refine completesShort_of_total (fun _ => by unfold exec; rfl) fun C o hC hk => ?_
    exact short_edSignRule hC ((Kinds.allows_onlyE_iff _).1 hk) _ _
  | edvfy c =>
    refine completesShort_of_bytes_nil (fun _ => by unfold exec; rfl) fun C o => ?_
    exact edVerifyRule_bytes C _ _ _
  | edpktadd c =>
    refine completesShort_of_total (fun _ => by unfold exec; rfl) fun C o hC _ => ?_
    exact short_tweakAddRule hC _ _ _
  | edsignt c =>
    refine completesShort_of_total (fun _ => by unfold exec; rfl) fun C o hC hk => ?_
    exact short_edSignTweakRule hC ((Kinds.allows_onlyE_iff _).1 hk) _ _ _
  | edtomont c =>
    refine completesShort_of_one (fun _ => by unfold exec; rfl) fun C o hC => ?_
    refine .bind fun P => ?_
    cases P with
    | inf => exact .error
    | aff x y => exact .ok (length_i2osC_le C _ hC.fsize)
  | edfrommont c g =>
    refine completesShort_of_one (fun _ => by unfold exec; rfl) fun C o hC => ?_
    refine .bind fun _ => .bind fun _ => .bind fun _ => ?_
    dsimp only
    split
    · exact .error
    · exact .error
    · exact .ok (hC.length_putPT _ .uncompressed)

/-! ### RES0, RES1 and OMEM -/

/-- The lengths of a short report fit their fields: RES0 and RES1 name exactly the bytes written. -/
theorem Report.Short.named_eq {r : Report} (h : r.Short) : r.res0.off = 0
    ∧ r.res0.len.toNat + r.res1.len.toNat = r.bytes.length
    ∧ (r.res1.len ≠ 0 → r.res1.off = r.res0.len) := by
  obtain ⟨B0, B1, hB, h0, h1⟩ := r.exists_strings
  have hsum : B0.length + B1.length ≤ 141 := by
    rw [← List.length_append, ← hB]
    exact h
  have hfield {B : Bytes} (hlen : B.length ≤ 141) : (BitVec.ofNat 16 B.length).toNat = B.length :=
    (BitVec.toNat_ofNat _ _).trans (Nat.mod_eq_of_lt (by omega))
  rw [hB, h0, List.length_append]
  refine ⟨rfl, ?_⟩
  obtain ⟨h1, rfl⟩ | h1 := h1
  · rw [h1]
    exact ⟨hfield (by omega), fun hne => absurd rfl hne⟩
  · rw [h1]
    exact ⟨congrArg₂ (· + ·) (hfield (by omega)) (hfield (by omega)), fun _ => rfl⟩

theorem omemBytes_of_shapeOk {g : Cfg} (h : Cfg.shapeOk g = true) : 1024 ≤ g.omemBytes := by
  simp only [Cfg.shapeOk, Bool.and_eq_true, decide_eq_true_eq, and_assoc] at h
  obtain ⟨-, -, -, -, -, -, homem, -⟩ := h
  exact homem

/-- Settles O13: every command ends with a report of at most 141 bytes. -/
theorem resultsFit : Obligations.ResultsFit := by
  intro i s t hg h
  obtain ⟨c, e, rfl, hshort⟩ := exec_completesShort i s t hg h
  obtain ⟨hoff, hnamed, hpacked⟩ := hshort.named_eq
  have hlen : e.report.bytes.length ≤ 141 := hshort
  have homem := omemBytes_of_shapeOk hg
  rw [State.complete_res0, State.complete_res1, hnamed]
  refine ⟨hoff, hlen, hpacked, by omega, fun x hx => ?_, fun x ht hs => ?_⟩
  · rw [complete_omem_written s c e hx, List.getElem?_eq_getElem hx]
    exact Option.some_ne_none _
  · by_contra hx
    exact ht ((complete_omem_valueless s c e (Nat.not_lt.1 hx)).2 hs)

end Sys2Proof.Machine
end

section
/-! PROOFS. The command word and its command (30_encoding.md R90, R91, R96 to R98): a word is its OP, its
fields and bits 31:20, and the mask of a format asks that every part the format does not use is 0. -/

namespace Sys2Proof

open Laws

/-! ### The parts of a word (30_encoding.md R90) -/

/-- Bits 31:20, which every format reserves (R91). -/
def reservedOf (w : Word) : BitVec 12 := w.extractLsb' 20 12

theorem modulus_bit_ofBit (b : Bool) : (Modulus.ofBit b).bit = b := by cases b <;> rfl

theorem form_bits_ofBits (b : BitVec 2) : (PointForm.ofBits b).bits = b := by
  revert b; decide

/-- The number of a word, by its parts. -/
theorem toNat_eq_parts (w : Word) :
    w.toNat = (wordOf (opOf w) (fieldsOf w)).toNat + (reservedOf w).toNat * 2 ^ 20 := by
  have bit (k : Nat) : (w.getLsbD k).toNat = w.toNat / 2 ^ k % 2 := by
    rw [BitVec.getLsbD, Nat.toNat_testBit]
  have hw := w.isLt
  simp only [toNat_wordOf, opOf, fieldsOf, reservedOf, modulus_bit_ofBit, form_bits_ofBits, bit,
    BitVec.extractLsb'_toNat, Nat.shiftRight_eq_div_pow]
  omega

/-- Two words with the same parts are one word. -/
theorem eq_iff_parts (w v : Word) : w = v ↔
    opOf w = opOf v ∧ fieldsOf w = fieldsOf v ∧ reservedOf w = reservedOf v := by
  constructor
  · rintro rfl
    exact ⟨rfl, rfl, rfl⟩
  · rintro ⟨hop, hf, hr⟩
    apply BitVec.eq_of_toNat_eq
    rw [toNat_eq_parts w, toNat_eq_parts v, hop, hf, hr]

/-- The word of R109 has no reserved bit. -/
theorem reservedOf_wordOf (op : BitVec 8) (f : Fields) : reservedOf (wordOf op f) = 0 := by
  have h := toNat_eq_parts (wordOf op f)
  rw [opOf_wordOf, fieldsOf_wordOf] at h
  apply BitVec.eq_of_toNat_eq
  change _ = 0
  omega

/-- A word without reserved bits is the word of R109 of its parts. -/
theorem wordOf_parts {w : Word} (h : reservedOf w = 0) : wordOf (opOf w) (fieldsOf w) = w := by
  rw [eq_iff_parts, opOf_wordOf, fieldsOf_wordOf, reservedOf_wordOf, h]
  exact ⟨rfl, rfl, rfl⟩

/-! ### What the mask of a format asks (30_encoding.md R91, R96 step 2) -/

/-- The fields a format uses, the others at 0 (R91). -/
def Fields.usedBy (f : Fields) : Format → Fields
  | .n => { curve := f.curve }
  | .a => { curve := f.curve, modulus := f.modulus, sec := f.sec }
  | .c => { curve := f.curve, sec := f.sec }
  | .p => { curve := f.curve, form := f.form }
  | .ps => { curve := f.curve, form := f.form, sec := f.sec }
  | .s => { curve := f.curve, der := f.der }
  | .sr => { curve := f.curve, form := f.form, der := f.der, rid := f.rid }
  | .m => { curve := f.curve, sign := f.sign }

theorem opOf_and_mask (w : Word) (F : Format) : opOf (w &&& F.mask) = opOf w := by
  have hmask : F.mask.extractLsb' 0 8 = BitVec.allOnes 8 := by cases F <;> rfl
  rw [opOf, BitVec.extractLsb'_and, hmask, BitVec.and_allOnes, opOf]

theorem reservedOf_and_mask (w : Word) (F : Format) : reservedOf (w &&& F.mask) = reservedOf w := by
  have hmask : F.mask.extractLsb' 20 12 = BitVec.allOnes 12 := by cases F <;> rfl
  rw [reservedOf, BitVec.extractLsb'_and, hmask, BitVec.and_allOnes, reservedOf]

theorem pattern_eq_wordOf (r : Row) : r.pattern = wordOf r.op {} := by
  simp [Row.pattern, wordOf, Modulus.bit, PointForm.bits]

/-- Under its mask a word has no fields exactly where it has none but those of the format. -/
theorem fieldsOf_and_mask_eq_zero_iff (w : Word) (F : Format) :
    fieldsOf (w &&& F.mask) = {} ↔ fieldsOf w = (fieldsOf w).usedBy F := by
  have kept (x : BitVec 2) : x &&& 3#2 = x := BitVec.and_allOnes
  have hmodulus : Modulus.ofBit false = .field := rfl
  have hform : PointForm.ofBits 0#2 = .uncompressed := rfl
  cases F <;>
    simp [fieldsOf, Fields.usedBy, Format.mask, BitVec.extractLsb'_and, kept, hmodulus, hform]

/-- `w and mask = match` (R91): the word has the row's OP, no field but those of its format, and no
reserved bit. -/
theorem and_mask_eq_pattern_iff (w : Word) (r : Row) : w &&& r.format.mask = r.pattern ↔
    opOf w = r.op ∧ fieldsOf w = (fieldsOf w).usedBy r.format ∧ reservedOf w = 0 := by
  rw [pattern_eq_wordOf, eq_iff_parts, opOf_wordOf, fieldsOf_wordOf, reservedOf_wordOf,
    opOf_and_mask, reservedOf_and_mask, fieldsOf_and_mask_eq_zero_iff]

/-! ### The rows of the opcode table (30_encoding.md R97) -/

/-- The row of a command: it is found by the command's OP, uses the command's fields, and builds the command
from them. -/
theorem exists_row (i : Instr) :
    ∃ r, rowFor i.op = some r ∧ i.fields = i.fields.usedBy r.format ∧ r.build i.fields = i := by
  cases i <;> exact ⟨_, rfl, rfl, rfl⟩

/-- A row builds commands with its own OP and the fields of its own format. -/
theorem build_op_fields {r : Row} (hr : r ∈ opcodeTable) (f : Fields) :
    (r.build f).op = r.op ∧ (r.build f).fields = f.usedBy r.format := by
  fin_cases hr <;> exact ⟨rfl, rfl⟩

theorem op_of_rowFor {op : BitVec 8} {r : Row} (h : rowFor op = some r) : r.op = op :=
  eq_of_beq (List.find?_some (p := fun r : Row => r.op == op) h)

/-- The gaps of the opcode table (R98). -/
theorem rowFor_gap : ∀ op : BitVec 8,
    (op.toNat = 0x00 ∨ (0x07 ≤ op.toNat ∧ op.toNat ≤ 0x0F) ∨ (0x19 ≤ op.toNat ∧ op.toNat ≤ 0x1F)
      ∨ (0x2D ≤ op.toNat ∧ op.toNat ≤ 0x2F) ∨ (0x36 ≤ op.toNat ∧ op.toNat ≤ 0x3F)
      ∨ (0x44 ≤ op.toNat ∧ op.toNat ≤ 0x4F) ∨ (0x52 ≤ op.toNat ∧ op.toNat ≤ 0x5F)
      ∨ (0x64 ≤ op.toNat ∧ op.toNat ≤ 0x6F) ∨ 0x78 ≤ op.toNat) → (rowFor op).isNone = true := by
  decide +kernel

/-! ### The decoder (30_encoding.md R96 steps 1 and 2) -/

/-- The decoder gives what the row of the word's OP builds, where the word has no field but those of the
row's format and no reserved bit. -/
theorem decodeWord_eq_ok_iff (w : Word) (i : Instr) : decodeWord w = .ok i ↔
    ∃ r, rowFor (opOf w) = some r ∧ fieldsOf w = (fieldsOf w).usedBy r.format ∧ reservedOf w = 0
      ∧ r.build (fieldsOf w) = i := by
  unfold decodeWord
  cases hr : rowFor (opOf w) with
  | none => simp
  | some r =>
    simp only [and_mask_eq_pattern_iff, op_of_rowFor hr, true_and, Option.some.injEq, exists_eq_left']
    split
    · next h => simp only [and_iff_right h, ← and_assoc, Except.ok.injEq]
    · next h => simp only [h, ← and_assoc, false_and, reduceCtorEq]

theorem decodeWord_of_rowFor_none {w : Word} (h : rowFor (opOf w) = none) :
    decodeWord w = .error (.unknownOp (opOf w)) := by
  unfold decodeWord
  rw [h]

/-- Settles O18: the row of a command's OP builds the command back from its fields. -/
theorem decodeEncode : Obligations.DecodeEncode := by
  intro i
  obtain ⟨r, hr, hused, hbuild⟩ := exists_row i
  rw [decodeWord_eq_ok_iff, encode, opOf_wordOf, fieldsOf_wordOf, reservedOf_wordOf]
  exact ⟨r, hr, hused, rfl, hbuild⟩

/-- No bit of a word that decodes is ignored: the command spells the word back. -/
theorem encode_of_decodeWord {w : Word} {i : Instr} (h : decodeWord w = .ok i) : encode i = w := by
  obtain ⟨r, hr, hused, hres, rfl⟩ := (decodeWord_eq_ok_iff w i).1 h
  obtain ⟨hop, hfields⟩ := build_op_fields (List.mem_of_find?_eq_some hr) (fieldsOf w)
  rw [encode, hop, hfields, ← hused, op_of_rowFor hr, wordOf_parts hres]

/-- Settles O19. -/
theorem wordsSpellOneCommand : Obligations.WordsSpellOneCommand := by
  refine ⟨fun w i => encode_of_decodeWord, fun w hop => ?_, fun w hw => ?_⟩
  · have hmod : (opOf w).toNat = w.toNat % 256 := BitVec.extractLsb'_toNat ..
    exact ⟨_, decodeWord_of_rowFor_none (Option.isNone_iff_eq_none.1 (rowFor_gap _ (hmod ▸ hop)))⟩
  · cases h : decodeWord w with
    | error e => exact ⟨e, rfl⟩
    | ok i =>
      obtain ⟨r, -, -, hres, -⟩ := (decodeWord_eq_ok_iff w i).1 h
      exact absurd hres hw

/-- Read as a number, the word of a command decodes to it too. -/
theorem decodeTableWord_encode (i : Instr) : decodeTableWord 32 (encode i).toNat = some i := by
  rw [decodeTableWord, Nat.mod_eq_of_lt (encode i).isLt, BitVec.ofNat_toNat, BitVec.setWidth_eq,
    decodeEncode]

/-- Settles O20: each word is the word of its command. -/
theorem specWords : Obligations.SpecWords :=
  ⟨decodeEncode (.mmul 5 .order true), decodeEncode (.pmul 0 .compressed true),
    decodeEncode (.pkadd 0 .hybrid), decodeEncode (.sigtoder 1),
    decodeEncode (.ecrcv 0 .compressed true 3), decodeEncode (.schvfyb 5),
    decodeEncode (.h2hash 5 .compressed), decodeEncode (.edfrommont 2 true),
    decodeTableWord_encode (.mmul 5 .order true)⟩

end Sys2Proof
end

section
/-! PROOFS. Illegal words and illegal commands (30_encoding.md R96; 60_exceptions.md R325). -/

namespace Sys2Proof.Machine

theorem engineStep_undecoded {s : State} {p : Pending} {e : DecodeError} (hp : s.pend = some p)
    (he : decodeWord p.word = .error e) : s.engineStep = .next (s.failWith .illegalCommand) := by
  rw [State.engineStep, hp]
  simp only [he]
  rfl

/-- Steps 3 to 6 of R96 find no curve for a command that is not legal. -/
theorem curve?_eq_none_of_not_legalOn {g : Cfg} {i : Instr} (h : ¬ LegalOn g i) :
    (demandOf i).curve? g i.fields.curve = none :=
  Option.eq_none_iff_forall_ne_some.2 fun C hC => h ((legalOn_iff g i).2 ⟨C, hC⟩)

/-- Settles O10. -/
theorem illegalCommands : Obligations.IllegalCommands := by
  refine ⟨fun s p e hp he => ⟨fun h => ?_, fun es h => ?_⟩, fun i s hs hlegal => ?_⟩
  · exact (step_no_input h).trans (engineStep_undecoded hp he)
  · exact (step_engine h).trans (engineStep_undecoded (s := { s with inputs := es }) hp he)
  · obtain ⟨rule, hrun⟩ := exec_meetsDemand i
    obtain ⟨p, hp⟩ := Option.isSome_iff_exists.1 hs
    rw [hrun, runCommand_illegal rule hp (curve?_eq_none_of_not_legalOn hlegal)]
    rfl

end Sys2Proof.Machine
end

section
/-! PROOFS. The operand classes (30_encoding.md R100 to R104). -/

namespace Sys2Proof.Machine

/-- What `getPK` accepts: a point that is not the identity (R104). -/
theorem getPK_ok {C : Ctx} {B : Bytes} {P : Point} (hP : getPT C B = .ok P)
    (hid : P ≠ identity C.toCurve) : getPK C B = .ok P := by
  simp [getPK, hP, isId, hid, require, bind, Except.bind]

/-- What `getPK` refuses of its own (R104). -/
theorem getPK_identity {C : Ctx} {B : Bytes} (h : getPT C B = .ok (identity C.toCurve)) :
    getPK C B = .error .invalidPoint := by
  simp [getPK, h, isId, require, bind, Except.bind]

/-- `getPK` fails as the decoding of the point does (R104). -/
theorem getPK_error {C : Ctx} {B : Bytes} {e : Failure} (h : getPT C B = .error e) :
    getPK C B = .error e := by
  simp [getPK, h, bind, Except.bind]

/-- Settles O21. -/
theorem operandClasses : Obligations.OperandClasses := by
  refine fun C m B => ⟨fun ⟨hl, hv⟩ => getRes_ok hl hv, fun h => getRes_error ?_,
    fun ⟨hl, hv⟩ => getSC_ok hl hv, fun h => getSC_error ?_,
    fun ⟨hl, hv, h1⟩ => getSK_ok hl h1 hv, fun h => getSK_error ?_,
    fun P => getPK_ok, getPK_identity, fun e => getPK_error⟩
  · unfold Canonical at h; omega
  · omega
  · omega

end Sys2Proof.Machine
end

section
/-! PROOFS. The commands of the modular ALU (40_modular_arithmetic.md R120 to R128): what each one answers
for canonical residues, and Domain for every other operand. -/

namespace Sys2Proof.Machine

/-! ### Rules that start by reading residues -/

theorem getRes_of_canonical {C : Ctx} {m : Modulus} {B : Bytes} (h : Canonical C m B) :
    getRes C m B = .ok (os2iC C B) := (operandClasses C m B).1 h

theorem getRes_of_not_canonical {C : Ctx} {m : Modulus} {B : Bytes} (h : ¬ Canonical C m B) :
    getRes C m B = .error .domain := (operandClasses C m B).2.1 h

theorem Canonical.getRes_bind {α : Type} {C : Ctx} {m : Modulus} {B : Bytes} (h : Canonical C m B)
    (k : Nat → Except Failure α) : (getRes C m B >>= k) = k (os2iC C B) := by
  rw [getRes_of_canonical h]
  rfl

theorem getRes_bind_of_not_canonical {α : Type} {C : Ctx} {m : Modulus} {B : Bytes}
    (h : ¬ Canonical C m B) (k : Nat → Except Failure α) : (getRes C m B >>= k) = .error .domain := by
  rw [getRes_of_not_canonical h]
  rfl

theorem alu2_of_canonical {C : Ctx} {m : Modulus} {A B : Bytes} (hA : Canonical C m A)
    (hB : Canonical C m B) (f : Nat → Nat → Nat) :
    alu2 C m f A B = .ok (i2osC C (f (os2iC C A) (os2iC C B)) (widthC C m)) := by
  rw [alu2, hA.getRes_bind, hB.getRes_bind]

theorem alu2_of_not_canonical {C : Ctx} {m : Modulus} {A B : Bytes}
    (h : ¬ (Canonical C m A ∧ Canonical C m B)) (f : Nat → Nat → Nat) :
    alu2 C m f A B = .error .domain := by
  rw [alu2]
  by_cases hA : Canonical C m A
  · rw [hA.getRes_bind, getRes_bind_of_not_canonical fun hB => h ⟨hA, hB⟩]
  · exact getRes_bind_of_not_canonical hA _

/-! ### The meaning each command has -/

section
variable (c : BitVec 4) (m : Modulus) (sec : Bool) (s : State)

theorem exec_madd : exec (.madd c m sec) s = execMadd c m sec s := rfl

theorem exec_msub : exec (.msub c m sec) s = execMsub c m sec s := rfl

theorem exec_mmul : exec (.mmul c m sec) s = execMmul c m sec s := rfl

theorem exec_msqr : exec (.msqr c m sec) s = execMsqr c m sec s := rfl

theorem exec_minv : exec (.minv c m sec) s = execMinv c m sec s := rfl

theorem exec_msqrt : exec (.msqrt c sec) s = execMsqrt c sec s := rfl

end

/-! ### Commands with one result on both kinds of curve -/

section
variable {s : State} {c : BitVec 4} {n : Nat} {p : Pending} {C : Ctx} {i : Instr}
  {rule : Ctx → Operands → Except Failure Bytes} (h : Ready s c n p C)
  (hi : exec i s = runTotal s c ⟨.both, .uncompressed, .nothing, n⟩ fun C o => .ofOne (rule C o))
include h hi

theorem Ready.exec_ofOne_ok {B : Bytes} (hr : rule C (s.operands p) = .ok B) :
    exec i s = .next (s.succeed B) := by
  rw [hi, runTotal_ready h _ (allows_both _) (formOk_uncompressed _) rfl, hr]
  rfl

theorem Ready.exec_ofOne_error {f : Failure} (hr : rule C (s.operands p) = .error f) :
    exec i s = .next (s.failWith f.code) := by
  rw [hi, runTotal_ready h _ (allows_both _) (formOk_uncompressed _) rfl, hr]
  rfl

end

/-! ### Sums, differences and products -/

/-- A difference below zero wraps modulo m (R123). -/
theorem subm_eq_toNat {m b : Nat} (hb : b < m) (a : Nat) :
    subm m a b = (((a : Int) - b) % m).toNat := by
  have hcast : ((a + (m - b) : Nat) : Int) = a - b + m := by omega
  rw [subm, Nat.mod_eq_of_lt hb, ← Int.toNat_natCast ((a + (m - b)) % m), Int.natCast_emod, hcast,
    Int.add_emod_right]

/-- Settles O26. -/
theorem modularSums : Obligations.ModularSums := by
  intro s c m sec p C h A B a b M
  refine ⟨fun hA hB => ?_, fun hAB => ?_⟩
  · have hsum : (os2iC C A + os2iC C B) % modulusC C m = ((a + b) % M).toNat := rfl
    have hdiff : subm (modulusC C m) (os2iC C A) (os2iC C B) = ((a - b) % M).toNat :=
      subm_eq_toNat hB.2 _
    have hprod : os2iC C A * os2iC C B % modulusC C m = ((a * b) % M).toNat := rfl
    rw [← hsum, ← hdiff, ← hprod]
    exact ⟨h.exec_ofOne_ok (exec_madd c m sec s) (alu2_of_canonical hA hB _),
      h.exec_ofOne_ok (exec_msub c m sec s) (alu2_of_canonical hA hB _),
      h.exec_ofOne_ok (exec_mmul c m sec s) (alu2_of_canonical hA hB _)⟩
  · exact ⟨h.exec_ofOne_error (exec_madd c m sec s) (alu2_of_not_canonical hAB _),
      h.exec_ofOne_error (exec_msub c m sec s) (alu2_of_not_canonical hAB _),
      h.exec_ofOne_error (exec_mmul c m sec s) (alu2_of_not_canonical hAB _)⟩

/-! ### Squares and inverses -/

/-- The inverse modulo a prime of a residue other than 0 lies in `[1, p)` (R126). -/
theorem one_le_inv {p a : Nat} (hp : p.Prime) (h : a % p ≠ 0) : 1 ≤ inv p a := by
  refine Nat.one_le_iff_ne_zero.2 fun h0 => ?_
  have hmul := inv_mul_mod hp h
  rw [h0] at hmul
  simp at hmul

/-- Settles O27. -/
theorem modularSquareInverse : Obligations.ModularSquareInverse := by
  intro s c m sec p C h A a M
  have hsqr := exec_msqr c m sec s
  have hinv := exec_minv c m sec s
  refine ⟨fun hA => ⟨?_, fun ha hM => ?_, fun ha => ?_⟩, fun hA => ⟨?_, ?_⟩⟩
  · rw [pow_two]
    exact h.exec_ofOne_ok hsqr (hA.getRes_bind _)
  · have ha' : a % M ≠ 0 := by rwa [Nat.mod_eq_of_lt hA.2]
    refine ⟨inv M a, one_le_inv hM ha', inv_lt hM.pos a, inv_mul_mod hM ha', ?_⟩
    refine h.exec_ofOne_ok hinv ((hA.getRes_bind _).trans ?_)
    rw [require, if_pos (decide_eq_true ha)]
    rfl
  · refine h.exec_ofOne_error (f := .domain) hinv ((hA.getRes_bind _).trans ?_)
    rw [show os2iC C (s.operands p).a0 = 0 from ha]
    rfl
  · exact h.exec_ofOne_error hsqr (getRes_bind_of_not_canonical hA _)
  · exact h.exec_ofOne_error hinv (getRes_bind_of_not_canonical hA _)

/-! ### Square roots -/

theorem tonelliLoop_lt {p : Nat} (hp : 0 < p) {k r : Nat} (hr : r < p) (t c : Nat) :
    tonelliLoop p k r t c < p := by
  induction k generalizing r t c with
  | zero => exact hr
  | succ k ih =>
    rw [tonelliLoop]
    split
    · exact ih hr _ _
    · exact ih (Nat.mod_lt _ hp) _ _

theorem rootCandidate_lt {p : Nat} (hp : 0 < p) (a : Nat) : rootCandidate p a < p := by
  rw [rootCandidate]
  split
  · exact powMod_lt hp _ _
  · exact tonelliLoop_lt hp (powMod_lt hp _ _) _ _

theorem sqrt?_eq_some_iff {p a r : Nat} :
    sqrt? p a = some r ↔ rootCandidate p a = r ∧ r * r % p = a % p := by
  rw [sqrt?, Option.ite_none_right_eq_some, Option.some.injEq, and_comm]
  exact and_congr_right fun h => by rw [h]

theorem sqrt?_lt {p a r : Nat} (hp : 0 < p) (h : sqrt? p a = some r) : r < p :=
  (sqrt?_eq_some_iff.1 h).1 ▸ rootCandidate_lt hp a

/-- For `p ≡ 3 (mod 4)` the root is the power R127 names. -/
theorem sqrt?_eq_pow {p a r : Nat} (h3 : p % 4 = 3) (h : sqrt? p a = some r) :
    r = a ^ ((p + 1) / 4) % p := by
  rw [← (sqrt?_eq_some_iff.1 h).1, rootCandidate, if_pos h3, powMod_eq]

/-- The search finds nothing where there is no root (R127). -/
theorem sqrt?_eq_none {p a : Nat} (h : ¬ ∃ x, x * x % p = a % p) : sqrt? p a = none :=
  Option.eq_none_iff_forall_ne_some.2 fun r hr => h ⟨r, sqrt?_sound hr⟩

/-- The other root `p − r` has the same square (R127). -/
theorem sub_mul_sub_mod {p r : Nat} (hr : r ≤ p) :
    (p - r) % p * ((p - r) % p) % p = r * r % p := by
  refine (ZMod.natCast_eq_natCast_iff' _ _ p).1 ?_
  simp [Nat.cast_sub hr]

theorem chosenRoot_lt {p r : Nat} (hr : r < p) (first : Bool) : chosenRoot p r first < p := by
  rw [chosenRoot]
  split
  · exact hr
  · exact Nat.mod_lt _ (by omega)

/-- Whichever root is chosen, it is a root of the same number (R127). -/
theorem chosenRoot_mul_self {p r : Nat} (hr : r < p) (first : Bool) :
    chosenRoot p r first * chosenRoot p r first % p = r * r % p := by
  rw [chosenRoot]
  split
  · rfl
  · exact sub_mul_sub_mod hr.le

theorem chosenRoot_of_three {p : Nat} (h3 : p % 4 = 3) (r : Nat) (first : Bool) :
    chosenRoot p r first = r := if_pos (.inl h3)

/-- Settles O28. -/
theorem modularSquareRoot : Obligations.ModularSquareRoot := by
  intro s c sec p C h hp h2 A a
  have hsqrt := exec_msqrt c sec s
  refine ⟨fun hA hx => ?_, fun hA hx => ?_, fun hA => ?_⟩
  · have hmod : a % C.p = a := Nat.mod_eq_of_lt hA.2
    obtain ⟨x, hx⟩ := hx
    obtain ⟨r, hr, hroot⟩ := sqrt?_complete hp (by omega) (hx.trans hmod.symm)
    have hlt := sqrt?_lt hp.pos hr
    refine ⟨chosenRoot C.p r (Config.freeBit (s.operands p).draw), chosenRoot_lt hlt _,
      (chosenRoot_mul_self hlt _).trans (hroot.trans hmod), fun h3 => ?_, ?_⟩
    · rw [chosenRoot_of_three h3]
      exact sqrt?_eq_pow h3 hr
    · refine h.exec_ofOne_ok hsqrt ((hA.getRes_bind _).trans ?_)
      rw [show sqrt? C.p (os2iC C (s.operands p).a0) = some r from hr]
      rfl
  · have hmod : a % C.p = a := Nat.mod_eq_of_lt hA.2
    refine h.exec_ofOne_error (f := .domain) hsqrt ((hA.getRes_bind _).trans ?_)
    rw [show sqrt? C.p (os2iC C (s.operands p).a0) = none from sqrt?_eq_none (by rwa [hmod])]
  · exact h.exec_ofOne_error hsqrt (getRes_bind_of_not_canonical hA _)

end Sys2Proof.Machine
end

section
/-! PROOFS. What 00_scope.md R4 gives of a curve; its equation (41_curve_group.md R140) as the model's test and
as a root: of `g(x)` on kind W (R150), of the square `x²` of R151 on kind E; and the search for a root of a
given parity. -/

namespace Sys2Proof.Machine

/-! ### What R4 gives -/

theorem SoundCurve.prime {C : Curve} (h : SoundCurve C) : C.p.Prime := by
  obtain ⟨-, hp, -⟩ := h
  exact hp

theorem SoundCurve.three_lt {C : Curve} (h : SoundCurve C) : 3 < C.p := by
  obtain ⟨-, -, h3, -⟩ := h
  exact h3

theorem SoundCurve.ne_two {C : Curve} (h : SoundCurve C) : C.p ≠ 2 := by
  have := h.three_lt
  omega

theorem SoundCurve.constants {C : Curve} (h : SoundCurve C) : shapeConstantsOk C := by
  obtain ⟨-, -, -, -, -, hc, -⟩ := h
  exact hc

theorem SoundCurve.base_valid {C : Curve} (h : SoundCurve C) : validPoint C (base C) = true := by
  obtain ⟨-, -, -, -, -, -, hG, -⟩ := h
  exact hG

theorem SoundCurve.mulG_order {C : Curve} (h : SoundCurve C) : mul C C.n (base C) = identity C := by
  obtain ⟨-, -, -, -, -, -, -, hn, -⟩ := h
  exact hn

theorem SoundCurve.fsize_eq {C : Curve} (h : SoundCurve C) : C.fsize = byteSize C.p := by
  obtain ⟨hsizes, -⟩ := h
  simp only [sizesOk, Bool.and_eq_true, decide_eq_true_eq, and_assoc] at hsizes
  obtain ⟨hf, -⟩ := hsizes
  exact hf

theorem SoundCurve.goodW {C : Curve} {a b : Nat} (h : SoundCurve C) (hs : C.shape = .weierstrass a b) :
    GoodW C a b := by
  have hc := h.constants
  simp only [shapeConstantsOk, hs] at hc
  obtain ⟨-, -, hdisc⟩ := hc
  exact ⟨hs, h.prime, h.three_lt, hdisc⟩

theorem SoundCurve.goodE {C : Curve} {ea d : Nat} (h : SoundCurve C) (hs : C.shape = .edwards ea d) :
    GoodE C ea d := by
  have hc := h.constants
  simp only [shapeConstantsOk, hs] at hc
  obtain ⟨-, hd, -, hsquare, hnonsquare⟩ := hc
  exact ⟨hs, h.prime, h.ne_two, hsquare, hnonsquare, hd⟩

theorem SoundCurve.ea_ne_zero {C : Curve} {ea d : Nat} (h : SoundCurve C)
    (hs : C.shape = .edwards ea d) : (ea : ZMod C.p) ≠ 0 := by
  have hc := h.constants
  simp only [shapeConstantsOk, hs] at hc
  obtain ⟨hlt, -, hne, -⟩ := hc
  rw [Ne, ZMod.natCast_eq_zero_iff]
  exact fun hd => hne (Nat.eq_zero_of_dvd_of_lt hd hlt)

/-- Every curve is of kind W or of kind E (R3). -/
theorem kindW_or_kindE (C : Curve) : kindW C ∨ kindE C := by
  unfold kindW kindE
  cases C.shape with
  | weierstrass a b => exact .inl ⟨a, b, rfl⟩
  | edwards ea d => exact .inr ⟨ea, d, rfl⟩

/-! ### The equation -/

/-- The model's test is the equation with both coordinates in range (R140). -/
theorem onCurve_iff_equation (C : Curve) (x y : Nat) :
    onCurve C x y = true ↔ x < C.p ∧ y < C.p ∧ Equation C x y := by
  unfold onCurve Equation
  cases C.shape with
  | weierstrass a b =>
    simp only [Bool.and_eq_true, decide_eq_true_eq, and_assoc, Nat.ModEq]
    rw [show y ^ 2 = y * y by ring, show x ^ 3 = x * x * x by ring]
  | edwards ea d =>
    simp only [Bool.and_eq_true, decide_eq_true_eq, and_assoc, Nat.ModEq]
    rw [show ea * x * x + y * y = ea * x ^ 2 + y ^ 2 by ring,
      show d * (x * x) * (y * y) = d * x ^ 2 * y ^ 2 by ring]

/-- On kind W, y is a root of `g(x)` (R140, R150). -/
theorem equation_iff_root_W {C : Curve} (h : kindW C) (x y : Nat) :
    Equation C x y ↔ y * y % C.p = rhsW C x % C.p := by
  obtain ⟨a, b, hs⟩ := h
  simp only [Equation, rhsW, hs, Nat.ModEq, Nat.mod_mod]
  rw [show y ^ 2 = y * y by ring, show x ^ 3 = x * x * x by ring]

theorem equation_iff_onE {C : Curve} {ea d : Nat} (hs : C.shape = .edwards ea d) (x y : Nat) :
    Equation C x y ↔ OnE (ea : ZMod C.p) d x y := by
  simp only [Equation, hs, OnE, ← ZMod.natCast_eq_natCast_iff]
  push_cast
  rfl

/-- The denominator of R151 is not 0 where `ea` is a square other than 0 and `d` is none. -/
theorem edwards_root_den_ne {F : Type} [Field F] {ea d r : F} (hea : ea ≠ 0) (hr : r * r = ea)
    (hd : ¬ ∃ v, v * v = d) (y : F) : d * (y * y) - ea ≠ 0 := by
  intro h0
  have hyea : d * (y * y) = ea := sub_eq_zero.1 h0
  have hy : y ≠ 0 := by
    rintro rfl
    exact hea (by simpa using hyea.symm)
  refine hd ⟨r / y, ?_⟩
  rw [div_mul_div_comm, hr, ← hyea]
  exact mul_div_cancel_right₀ d (mul_ne_zero hy hy)

/-- On kind E, x is a root of the square R151 reads it from. -/
theorem equation_iff_root_E {C : Curve} (hC : SoundCurve C) (hE : kindE C) (x y : Nat) :
    Equation C x y ↔ x * x % C.p = xSquaredE C y % C.p := by
  obtain ⟨ea, d, hs⟩ := hE
  have hg := hC.goodE hs
  have : Fact C.p.Prime := ⟨hC.prime⟩
  obtain ⟨r, hr⟩ := square_E hg
  have hden := edwards_root_den_ne (hC.ea_ne_zero hs) hr (nonsquare_E hg) y
  rw [equation_iff_onE hs, ← ZMod.natCast_eq_natCast_iff']
  simp only [xSquaredE, hs, ZMod.natCast_mod, Nat.cast_mul, cast_inv hC.prime hC.ne_two,
    cast_subm hC.prime.pos, Nat.cast_one]
  rw [eq_mul_inv_iff_mul_eq₀ hden, OnE]
  constructor <;> intro h <;> linear_combination -h

/-! ### The points of a curve -/

/-- A point of the curve is the identity of kind W or has coordinates (R141, R142). -/
theorem validPoint_iff (C : Curve) (P : Point) :
    validPoint C P = true ↔
      (P = .inf ∧ kindW C) ∨ ∃ x y, P = .aff x y ∧ x < C.p ∧ y < C.p ∧ Equation C x y := by
  cases P with
  | inf => cases hs : C.shape <;> simp [validPoint, kindW, hs]
  | aff x y => simp [validPoint_aff, onCurve_iff_equation, and_assoc]

theorem validPoint_inf_of_kindW {C : Curve} (h : kindW C) : validPoint C .inf = true :=
  (validPoint_iff C .inf).2 (.inl ⟨rfl, h⟩)

theorem validPoint_aff_of_equation {C : Curve} {x y : Nat} (hx : x < C.p) (hy : y < C.p)
    (h : Equation C x y) : validPoint C (.aff x y) = true :=
  (onCurve_iff_equation C x y).2 ⟨hx, hy, h⟩

/-! ### Roots of a given parity (R150, R151) -/

/-- Modulo a prime two numbers with one square are equal or opposite. -/
theorem eq_or_eq_neg_of_mul_self_mod {p r y : Nat} (hp : p.Prime) (hr : r < p) (hy : y < p)
    (h : y * y % p = r * r % p) : y = r ∨ y = (p - r) % p := by
  have : Fact p.Prime := ⟨hp⟩
  have hsq : (y : ZMod p) * y = (r : ZMod p) * r := by
    have := (ZMod.natCast_eq_natCast_iff' (y * y) (r * r) p).2 h
    simpa using this
  rcases mul_self_eq_mul_self_iff.1 hsq with hyr | hyr
  · rw [ZMod.natCast_eq_natCast_iff', Nat.mod_eq_of_lt hy, Nat.mod_eq_of_lt hr] at hyr
    exact .inl hyr
  · have hneg : (y : ZMod p) = ((p - r : Nat) : ZMod p) := by simp [Nat.cast_sub hr.le, hyr]
    rw [ZMod.natCast_eq_natCast_iff', Nat.mod_eq_of_lt hy] at hneg
    exact .inr hneg

/-- What is found is a root below p of the parity asked for. -/
theorem rootOfParity_found_spec {p a t y : Nat} (hp : 0 < p) (h : rootOfParity p a t = .found y) :
    y < p ∧ y % 2 = t ∧ y * y % p = a % p := by
  unfold rootOfParity at h
  split at h
  · cases h
  · next r hr =>
    have hlt := sqrt?_lt hp hr
    have hsq := sqrt?_sound hr
    by_cases hpar : r % 2 = t
    · simp only [hpar, if_true] at h
      cases h
      exact ⟨hlt, hpar, hsq⟩
    · simp only [hpar, if_false] at h
      split at h
      · next hneg =>
        cases h
        exact ⟨Nat.mod_lt _ hp, hneg, (sub_mul_sub_mod hlt.le).trans hsq⟩
      · cases h

/-- A root below p of the parity asked for is what is found. -/
theorem rootOfParity_eq_found {p a t y : Nat} (hp : p.Prime) (h2 : p ≠ 2) (hy : y < p)
    (hpar : y % 2 = t) (hsq : y * y % p = a % p) : rootOfParity p a t = .found y := by
  obtain ⟨r, hr, hrsq⟩ := sqrt?_complete hp h2 hsq
  have hlt := sqrt?_lt hp.pos hr
  have hodd : p % 2 = 1 := hp.eq_two_or_odd.resolve_left h2
  have hroot : (if r % 2 = t then r else (p - r) % p) = y := by
    rcases eq_or_eq_neg_of_mul_self_mod hp hlt hy (hsq.trans hrsq.symm) with rfl | hneg
    · rw [if_pos hpar]
    · split
      · next hrt =>
        rcases Nat.eq_zero_or_pos r with rfl | hpos
        · rw [hneg, Nat.sub_zero, Nat.mod_self]
        · rw [Nat.mod_eq_of_lt (by omega)] at hneg
          omega
      · exact hneg.symm
  simp only [rootOfParity, hr, hroot, hpar, if_true]

theorem rootOfParity_eq_missing {p a t : Nat} (h : ¬ ∃ x, x < p ∧ x * x % p = a % p) (hp : 0 < p) :
    rootOfParity p a t = .missing := by
  unfold rootOfParity
  split
  · rfl
  · next r hr => exact absurd ⟨r, sqrt?_lt hp hr, sqrt?_sound hr⟩ h

/-- Of 0 there is no odd root (R150, R151). -/
theorem rootOfParity_zero_one {p a : Nat} (hp : p.Prime) (h2 : p ≠ 2) (ha : a % p = 0) :
    rootOfParity p a 1 = .otherParity := by
  obtain ⟨r, hr, hrsq⟩ := sqrt?_complete (x := 0) hp h2 (by simpa using ha.symm)
  have hdvd : p ∣ r := by
    have := Nat.dvd_of_mod_eq_zero (hrsq.trans ha)
    exact (hp.dvd_mul.1 this).elim id id
  obtain rfl : r = 0 := Nat.eq_zero_of_dvd_of_lt hdvd (sqrt?_lt hp.pos hr)
  simp [rootOfParity, hr]

end Sys2Proof.Machine
end

section
/-! PROOFS. Point encodings (41_curve_group.md R150 to R152): what decodes is a point of the curve, how each
malformed string fails, and that every encoding decodes. -/

namespace Sys2Proof.Machine

/-! ### Checks in a computation that may raise -/

section
variable {α β : Type}

@[simp] theorem require_true_bind (f : Failure) (k : Unit → Except Failure α) :
    (require true f >>= k) = k () := rfl

@[simp] theorem require_false_bind (f : Failure) (k : Unit → Except Failure α) :
    (require false f >>= k) = .error f := rfl

theorem bind_of_ok {x : Except Failure α} {a : α} (h : x = .ok a) (k : α → Except Failure β) :
    (x >>= k) = k a := by
  rw [h]
  rfl

theorem bind_of_error {x : Except Failure α} {e : Failure} (h : x = .error e)
    (k : α → Except Failure β) : (x >>= k) = .error e := by
  rw [h]
  rfl

end

/-! ### The compressed form (R150) -/

section
variable {C : Ctx} {t : Nat} {X : Bytes}

theorem decodeCompressed_wrong_length (h : X.length ≠ C.fsize) :
    decodeCompressed C t X = .error .invalidEncoding := by
  simp [decodeCompressed, h]

/-- Where no root is found, whether there is none or only one of the other parity. -/
theorem decodeCompressed_no_root (hl : X.length = C.fsize)
    (h : be2int X < C.p → ∀ y, rootOfParity C.p (rhsW C.toCurve (be2int X)) t ≠ .found y) :
    decodeCompressed C t X = .error .invalidPoint := by
  by_cases hx : be2int X < C.p
  · cases hr : rootOfParity C.p (rhsW C.toCurve (be2int X)) t with
    | missing => simp [decodeCompressed, hl, hx, hr]
    | otherParity => simp [decodeCompressed, hl, hx, hr]
    | found y => exact absurd hr (h hx y)
  · simp [decodeCompressed, hl, hx]

theorem decodeCompressed_root {y : Nat} (hl : X.length = C.fsize) (hx : be2int X < C.p)
    (h : rootOfParity C.p (rhsW C.toCurve (be2int X)) t = .found y) :
    decodeCompressed C t X = .ok (.aff (be2int X) y) := by
  simp [decodeCompressed, hl, hx, h]

theorem decodeCompressed_yields (hW : kindW C.toCurve) (t : Nat) (X : Bytes) :
    Yields (fun P => validPoint C.toCurve P = true) (decodeCompressed C t X) := by
  refine .bind fun _ => .andThen (yields_require _ _) fun _ hx => ?_
  have hx' : be2int X < C.p := of_decide_eq_true hx
  split
  · exact .error
  · exact .error
  · next y hr =>
    obtain ⟨hy, -, hsq⟩ := rootOfParity_found_spec (by omega) hr
    exact .ok (validPoint_aff_of_equation hx' hy ((equation_iff_root_W hW _ _).2 hsq))

end

/-! ### The forms with both coordinates (R150) -/

/-- The parity y has is the one a hybrid form claims; the uncompressed form claims none. -/
def ParityOk (parity : Option Nat) (y : Nat) : Prop := ∀ t ∈ parity, y % 2 = t

section
variable {C : Ctx} {parity : Option Nat} {XY : Bytes}

theorem decodeBoth_wrong_length (h : XY.length ≠ 2 * C.fsize) :
    decodeBoth C parity XY = .error .invalidEncoding := by
  simp [decodeBoth, h]

variable (hl : XY.length = 2 * C.fsize)
include hl

theorem decodeBoth_out_of_range
    (h : C.p ≤ be2int (XY.take C.fsize) ∨ C.p ≤ be2int (XY.drop C.fsize)) :
    decodeBoth C parity XY = .error .invalidPoint := by
  by_cases hx : be2int (XY.take C.fsize) < C.p
  · have hy : ¬ be2int (XY.drop C.fsize) < C.p := by omega
    simp [decodeBoth, hl, hx, hy]
  · simp [decodeBoth, hl, hx]

variable (hx : be2int (XY.take C.fsize) < C.p) (hy : be2int (XY.drop C.fsize) < C.p)
include hx hy

theorem decodeBoth_wrong_parity {t : Nat} (h : be2int (XY.drop C.fsize) % 2 ≠ t) :
    decodeBoth C (some t) XY = .error .invalidEncoding := by
  simp [decodeBoth, hl, hx, hy, h]

/-- With the length, the range and the parity right, the curve decides. -/
theorem decodeBoth_of_parity (h : ParityOk parity (be2int (XY.drop C.fsize))) :
    decodeBoth C parity XY =
      if onCurve C.toCurve (be2int (XY.take C.fsize)) (be2int (XY.drop C.fsize))
      then .ok (.aff (be2int (XY.take C.fsize)) (be2int (XY.drop C.fsize))) else .error .invalidPoint := by
  have hpar : ∀ t, parity = some t → be2int (XY.drop C.fsize) % 2 = t := h
  cases ho : onCurve C.toCurve (be2int (XY.take C.fsize)) (be2int (XY.drop C.fsize)) <;> cases parity with
  | none => simp [decodeBoth, hl, hx, hy, ho]
  | some t => simp [decodeBoth, hl, hx, hy, ho, hpar t rfl]

end

theorem decodeBoth_yields (C : Ctx) (parity : Option Nat) (XY : Bytes) :
    Yields (fun P => validPoint C.toCurve P = true) (decodeBoth C parity XY) :=
  .bind fun _ => .bind fun _ => .bind fun _ => .bind fun _ => .andThen (yields_require _ _) fun _ h => .ok h

/-! ### What the first byte selects on kind W (R150) -/

theorem getPT_of_kindW {C : Ctx} (h : kindW C.toCurve) (B : Bytes) : getPT C B = decodePointW C B := by
  obtain ⟨a, b, hs⟩ := h
  simp only [getPT, decodePoint, hs]

theorem getPT_of_kindE {C : Ctx} (h : kindE C.toCurve) (B : Bytes) : getPT C B = decodePointE C B := by
  obtain ⟨ea, d, hs⟩ := h
  simp only [getPT, decodePoint, hs]

theorem decodePointW_compressed (C : Ctx) {t : Byte} (h : t = 0x02 ∨ t = 0x03) (B : Bytes) :
    decodePointW C (t :: B) = decodeCompressed C (t.toNat % 2) B := by
  rcases h with rfl | rfl <;> rfl

/-- The first byte of a hybrid form claims a parity, that of the uncompressed form claims none. -/
theorem decodePointW_both (C : Ctx) {t : Byte} (h : t = 0x04 ∨ t = 0x06 ∨ t = 0x07) (B : Bytes) :
    decodePointW C (t :: B) = decodeBoth C (if t = 0x04 then none else some (t.toNat % 2)) B := by
  rcases h with rfl | rfl | rfl <;> rfl

theorem decodePointW_unknown_first (C : Ctx) {t : Byte}
    (h : t.toNat ∉ [0x00, 0x02, 0x03, 0x04, 0x06, 0x07]) (B : Bytes) :
    decodePointW C (t :: B) = .error .invalidEncoding := by
  simp only [List.mem_cons, List.not_mem_nil, or_false, not_or] at h
  obtain ⟨h0, h2, h3, h4, h6, h7⟩ := h
  simp [decodePointW, BitVec.toNat_eq, h0, h2, h3, h4, h6, h7]

theorem decodePointW_zero_cons (C : Ctx) {B : Bytes} (h : B ≠ []) :
    decodePointW C (0x00 :: B) = .error .invalidEncoding := by
  simp [decodePointW, h]

theorem firstByte_cases (t : Byte) :
    (t = 0x02 ∨ t = 0x03) ∨ (t = 0x04 ∨ t = 0x06 ∨ t = 0x07) ∨ t = 0x00
      ∨ t.toNat ∉ [0x00, 0x02, 0x03, 0x04, 0x06, 0x07] := by
  decide +revert

theorem decodePointW_yields {C : Ctx} (hW : kindW C.toCurve) (B : Bytes) :
    Yields (fun P => validPoint C.toCurve P = true) (decodePointW C B) := by
  cases B with
  | nil => exact .error
  | cons t B =>
    rcases firstByte_cases t with ht | ht | rfl | ht
    · rw [decodePointW_compressed C ht]
      exact decodeCompressed_yields hW _ _
    · rw [decodePointW_both C ht]
      exact decodeBoth_yields C _ _
    · by_cases hB : B = []
      · subst hB
        exact .ok (validPoint_inf_of_kindW hW)
      · rw [decodePointW_zero_cons C hB]
        exact .error
    · rw [decodePointW_unknown_first C ht]
      exact .error

/-! ### Kind E (R151) -/

/-- The bits of a kind-E encoding below the sign: `y`. -/
def lowBitsE (C : Ctx) (B : Bytes) : Nat := os2iC C B % 2 ^ (8 * C.fsize - 1)

/-- The bit above them: the parity of `x`. -/
def signBitE (C : Ctx) (B : Bytes) : Nat := os2iC C B / 2 ^ (8 * C.fsize - 1)

section
variable {C : Ctx} {B : Bytes}

theorem decodePointE_wrong_length (h : B.length ≠ C.fsize) :
    decodePointE C B = .error .invalidEncoding := by
  simp [decodePointE, h]

variable (hl : B.length = C.fsize)
include hl

theorem decodePointE_out_of_range (h : C.p ≤ lowBitsE C B) : decodePointE C B = .error .invalidPoint := by
  have hy : ¬ os2iC C B % 2 ^ (8 * C.fsize - 1) < C.p := Nat.not_lt.2 h
  simp [decodePointE, hl, hy]

variable (hy : lowBitsE C B < C.p)
include hy

theorem decodePointE_missing
    (h : rootOfParity C.p (xSquaredE C.toCurve (lowBitsE C B)) (signBitE C B) = .missing) :
    decodePointE C B = .error .invalidPoint := by
  simp only [lowBitsE, signBitE] at hy h
  simp [decodePointE, hl, hy, h]

theorem decodePointE_otherParity
    (h : rootOfParity C.p (xSquaredE C.toCurve (lowBitsE C B)) (signBitE C B) = .otherParity) :
    decodePointE C B = .error .invalidEncoding := by
  simp only [lowBitsE, signBitE] at hy h
  simp [decodePointE, hl, hy, h]

theorem decodePointE_found {x : Nat}
    (h : rootOfParity C.p (xSquaredE C.toCurve (lowBitsE C B)) (signBitE C B) = .found x) :
    decodePointE C B = .ok (.aff x (lowBitsE C B)) := by
  simp only [lowBitsE, signBitE] at hy h
  simp [decodePointE, hl, hy, h, lowBitsE]

end

theorem decodePointE_yields {C : Ctx} (hC : SoundCurve C.toCurve) (hE : kindE C.toCurve) (B : Bytes) :
    Yields (fun P => validPoint C.toCurve P = true) (decodePointE C B) := by
  refine .bind fun _ => .andThen (yields_require _ _) fun _ hy => ?_
  have hy' : lowBitsE C B < C.p := of_decide_eq_true hy
  split
  · exact .error
  · exact .error
  · next x hr =>
    obtain ⟨hx, -, hsq⟩ := rootOfParity_found_spec hC.prime.pos hr
    exact .ok (validPoint_aff_of_equation hx hy' ((equation_iff_root_E hC hE _ _).2 hsq))

/-! ### What decodes is a point of the curve -/

theorem getPT_yields {C : Ctx} (hC : SoundCurve C.toCurve) (B : Bytes) :
    Yields (fun P => validPoint C.toCurve P = true) (getPT C B) := by
  rcases kindW_or_kindE C.toCurve with hW | hE
  · rw [getPT_of_kindW hW]
    exact decodePointW_yields hW B
  · rw [getPT_of_kindE hE]
    exact decodePointE_yields hC hE B

/-- Settles O23. -/
theorem decodedPointsValid : Obligations.DecodedPointsValid := fun C B P hC hP =>
  (validPoint_iff C.toCurve P).1 (getPT_yields hC B P hP)

/-! ### How a malformed point fails -/

theorem getPT_compressed_error {C : Ctx} (hW : kindW C.toCurve) {t : Byte} (ht : t = 0x02 ∨ t = 0x03)
    {B : Bytes} (hl : B.length = C.fsize)
    (h : C.p ≤ be2int B
      ∨ ¬ ∃ y, y < C.p ∧ y % 2 = t.toNat % 2 ∧ Equation C.toCurve (be2int B) y) :
    getPT C (t :: B) = .error .invalidPoint := by
  rw [getPT_of_kindW hW, decodePointW_compressed C ht]
  refine decodeCompressed_no_root hl fun hx y hr => ?_
  obtain ⟨hy, hpar, hsq⟩ := rootOfParity_found_spec (by omega) hr
  exact h.elim (by omega) fun h => h ⟨y, hy, hpar, (equation_iff_root_W hW _ _).2 hsq⟩

theorem getPT_both_error {C : Ctx} (hW : kindW C.toCurve) {t : Byte}
    (ht : t = 0x04 ∨ t = 0x06 ∨ t = 0x07) {B : Bytes} (hl : B.length = 2 * C.fsize)
    (hx : be2int (B.take C.fsize) < C.p) (hy : be2int (B.drop C.fsize) < C.p) :
    (t ≠ 0x04 ∧ be2int (B.drop C.fsize) % 2 ≠ t.toNat % 2 → getPT C (t :: B) = .error .invalidEncoding)
      ∧ (t = 0x04 ∨ be2int (B.drop C.fsize) % 2 = t.toNat % 2 →
        ¬ Equation C.toCurve (be2int (B.take C.fsize)) (be2int (B.drop C.fsize)) →
        getPT C (t :: B) = .error .invalidPoint) := by
  rw [getPT_of_kindW hW, decodePointW_both C ht]
  refine ⟨fun ⟨h4, hpar⟩ => ?_, fun hpar heq => ?_⟩
  · rw [if_neg h4]
    exact decodeBoth_wrong_parity hl hx hy hpar
  · have hpar' : ParityOk (if t = 0x04 then none else some (t.toNat % 2)) (be2int (B.drop C.fsize)) := by
      intro u hu
      split at hu
      · cases hu
      · next h4 =>
        cases hu
        exact hpar.resolve_left h4
    rw [decodeBoth_of_parity hl hx hy hpar', if_neg]
    rw [onCurve_iff_equation]
    exact fun ⟨_, _, h⟩ => heq h

theorem getPT_E_invalidPoint {C : Ctx} (hC : SoundCurve C.toCurve) (hE : kindE C.toCurve) {B : Bytes}
    (hl : B.length = C.fsize)
    (h : C.p ≤ lowBitsE C B ∨ ¬ ∃ x, x < C.p ∧ Equation C.toCurve x (lowBitsE C B)) :
    getPT C B = .error .invalidPoint := by
  rw [getPT_of_kindE hE]
  by_cases hy : lowBitsE C B < C.p
  · have hroot := h.resolve_left (by omega)
    simp only [equation_iff_root_E hC hE] at hroot
    exact decodePointE_missing hl hy (rootOfParity_eq_missing hroot hC.prime.pos)
  · exact decodePointE_out_of_range hl (by omega)

theorem getPT_E_wrong_sign {C : Ctx} (hC : SoundCurve C.toCurve) (hE : kindE C.toCurve) {B : Bytes}
    (hl : B.length = C.fsize) (hy : lowBitsE C B < C.p) (h : Equation C.toCurve 0 (lowBitsE C B))
    (hsign : signBitE C B = 1) : getPT C B = .error .invalidEncoding := by
  rw [getPT_of_kindE hE]
  refine decodePointE_otherParity hl hy ?_
  have hzero := (equation_iff_root_E hC hE _ _).1 h
  rw [hsign, rootOfParity_zero_one hC.prime hC.ne_two (by simpa using hzero.symm)]

/-- Settles O24. -/
theorem pointFailures : Obligations.PointFailures := by
  refine ⟨fun C hW => ⟨getPT_of_kindW hW [], fun t B => ⟨fun ht => ?_, ?_, fun ht => ⟨fun hl => ?_, ?_⟩,
    fun ht => ⟨fun hl => ?_, fun hl => ⟨fun hxy => ?_, ?_⟩⟩⟩⟩, fun C hE hC B => ⟨fun hl => ?_, fun hl => ?_⟩⟩
  · rw [getPT_of_kindW hW, decodePointW_unknown_first C ht]
  · rintro rfl hB
    rw [getPT_of_kindW hW, decodePointW_zero_cons C hB]
  · rw [getPT_of_kindW hW, decodePointW_compressed C ht, decodeCompressed_wrong_length hl]
  · exact getPT_compressed_error hW ht
  · rw [getPT_of_kindW hW, decodePointW_both C ht, decodeBoth_wrong_length hl]
  · rw [getPT_of_kindW hW, decodePointW_both C ht, decodeBoth_out_of_range hl hxy]
  · exact getPT_both_error hW ht hl
  · rw [getPT_of_kindE hE, decodePointE_wrong_length hl]
  · exact ⟨getPT_E_invalidPoint hC hE hl, getPT_E_wrong_sign hC hE hl⟩

/-! ### Encodings (R152) -/

theorem lt_two_pow_of_bitlen_le {v k : Nat} (h : bitlen v ≤ k) : v < 2 ^ k :=
  (lt_two_pow_bitlen v).trans_le (Nat.pow_le_pow_right (by decide) h)

/-- A coordinate fits its bytes (00_scope.md R4). -/
theorem SoundCurve.p_lt {C : Curve} (h : SoundCurve C) : C.p < 256 ^ C.fsize := by
  have hle : bitlen C.p ≤ 8 * C.fsize := by
    rw [h.fsize_eq, byteSize]
    omega
  calc C.p < 2 ^ (8 * C.fsize) := lt_two_pow_of_bitlen_le hle
    _ = 256 ^ C.fsize := by rw [pow_mul]; norm_num

/-- A kind-E encoding gives back the coordinate and the parity it was put together from (R151). -/
theorem bitsE_encoding {C : Ctx} (hf : 0 < C.fsize) {y b : Nat} (hy : y < 2 ^ (8 * C.fsize - 1))
    (hb : b < 2) :
    lowBitsE C (i2osC C (y + 2 ^ (8 * C.fsize - 1) * b) C.fsize) = y
      ∧ signBitE C (i2osC C (y + 2 ^ (8 * C.fsize - 1) * b) C.fsize) = b := by
  have hpow : 256 ^ C.fsize = 2 ^ (8 * C.fsize - 1) * 2 := by
    rw [← pow_succ, show 8 * C.fsize - 1 + 1 = 8 * C.fsize by omega, pow_mul]
    norm_num
  have hlt : y + 2 ^ (8 * C.fsize - 1) * b < 256 ^ C.fsize := by
    rw [hpow]
    interval_cases b <;> omega
  have hos := os2i_i2os C.order hlt
  rw [lowBitsE, signBitE, os2iC, i2osC, hos]
  constructor
  · rw [Nat.add_mul_mod_self_left, Nat.mod_eq_of_lt hy]
  · rw [Nat.add_mul_div_left _ _ (Nat.two_pow_pos _), Nat.div_eq_of_lt hy, Nat.zero_add]

section
variable {C : Ctx} (hC : SoundCurve C.toCurve) {x y : Nat} (hx : x < C.p) (hy : y < C.p)
  (h : Equation C.toCurve x y)
include hC hx hy h

theorem decodeCompressed_encoding (hW : kindW C.toCurve) :
    decodeCompressed C (y % 2) (int2be x C.fsize) = .ok (.aff x y) := by
  have hX : be2int (int2be x C.fsize) = x := be2int_int2be (hx.trans hC.p_lt)
  have hroot := rootOfParity_eq_found hC.prime hC.ne_two hy rfl ((equation_iff_root_W hW x y).1 h)
  have hdec := decodeCompressed_root (C := C) (X := int2be x C.fsize) (t := y % 2) (y := y)
    (length_int2be _ _) (by rwa [hX]) (by rwa [hX])
  rwa [hX] at hdec

theorem decodeBoth_encoding {parity : Option Nat} (hpar : ParityOk parity y) :
    decodeBoth C parity (int2be x C.fsize ++ int2be y C.fsize) = .ok (.aff x y) := by
  have htake : (int2be x C.fsize ++ int2be y C.fsize).take C.fsize = int2be x C.fsize :=
    List.take_left' (length_int2be _ _)
  have hdrop : (int2be x C.fsize ++ int2be y C.fsize).drop C.fsize = int2be y C.fsize :=
    List.drop_left' (length_int2be _ _)
  have hX : be2int (int2be x C.fsize) = x := be2int_int2be (hx.trans hC.p_lt)
  have hY : be2int (int2be y C.fsize) = y := be2int_int2be (hy.trans hC.p_lt)
  have hl : (int2be x C.fsize ++ int2be y C.fsize).length = 2 * C.fsize := by
    rw [List.length_append, length_int2be, length_int2be]
    omega
  rw [decodeBoth_of_parity hl, htake, hdrop, hX, hY, if_pos ((onCurve_iff_equation _ _ _).2 ⟨hx, hy, h⟩)]
  · rwa [htake, hX]
  · rwa [hdrop, hY]
  · rwa [hdrop, hY]

theorem getPT_putPT_W (hW : kindW C.toCurve) {f : PointForm} (hf : f ≠ .reserved) :
    getPT C (putPT C (.aff x y) f) = .ok (.aff x y) := by
  have hcomp := decodeCompressed_encoding hC hx hy h hW
  have hboth := decodeBoth_encoding hC hx hy h (parity := some (y % 2)) (by rintro t ⟨⟩; rfl)
  rw [getPT_of_kindW hW]
  obtain ⟨a, b, hs⟩ := hW
  have hput : putPT C (.aff x y) f = encodePoint C (.aff x y) f := rfl
  cases f with
  | reserved => exact absurd rfl hf
  | uncompressed =>
    simp only [hput, encodePoint, hs]
    exact decodeBoth_encoding hC hx hy h (parity := none) (by rintro t ⟨⟩)
  | compressed =>
    simp only [hput, encodePoint, hs]
    rcases Nat.mod_two_eq_zero_or_one y with h2 | h2 <;> rw [h2] at hcomp ⊢ <;> exact hcomp
  | hybrid =>
    simp only [hput, encodePoint, hs]
    rcases Nat.mod_two_eq_zero_or_one y with h2 | h2 <;> rw [h2] at hboth ⊢ <;> exact hboth

theorem getPT_putPT_E (hE : kindE C.toCurve) (hbits : bitlen C.p < 8 * C.fsize) (f : PointForm) :
    getPT C (putPT C (.aff x y) f) = .ok (.aff x y) := by
  have hy2 : y < 2 ^ (8 * C.fsize - 1) := hy.trans (lt_two_pow_of_bitlen_le (by omega))
  obtain ⟨hlow, hsign⟩ := bitsE_encoding (C := C) (by omega) hy2 (Nat.mod_lt x two_pos)
  have hput : putPT C (.aff x y) f = i2osC C (y + 2 ^ (8 * C.fsize - 1) * (x % 2)) C.fsize := by
    obtain ⟨ea, d, hs⟩ := hE
    simp only [putPT, encodePoint, hs]
  have hroot := rootOfParity_eq_found hC.prime hC.ne_two hx rfl ((equation_iff_root_E hC hE x y).1 h)
  rw [hput, getPT_of_kindE hE, decodePointE_found (length_i2osC _ _ _) (x := x), hlow]
  · rwa [hlow]
  · rwa [hlow, hsign]

end

/-- Settles O25. -/
theorem pointRoundTrip : Obligations.PointRoundTrip := by
  rintro C P f hC ⟨hf, -⟩ hbits hP
  rcases (validPoint_iff C.toCurve P).1 hP with ⟨rfl, hW⟩ | ⟨x, y, rfl, hx, hy, heq⟩
  · rw [getPT_of_kindW hW]
    obtain ⟨a, b, hs⟩ := hW
    simp only [putPT, encodePoint, hs]
    rfl
  · rcases kindW_or_kindE C.toCurve with hW | hE
    · exact getPT_putPT_W hC hx hy heq hW hf
    · exact getPT_putPT_E hC hx hy heq hE (hbits hE) f

end Sys2Proof.Machine
end

section
/-! PROOFS. The curve group: the laws of both kinds in coordinates over `F_p` (41_curve_group.md R143, R144),
and the multiple the engine computes as repeated addition (R145, R147). -/

namespace Sys2Proof.Machine

/-! ### Kind W (R143) -/

theorem add_of_weierstrass {C : Curve} {a b : Nat} (hs : C.shape = .weierstrass a b) (P Q : Point) :
    add C P Q = addW C.p a P Q := by
  simp only [add, hs]

theorem inf_add_W {C : Curve} {a b : Nat} (hs : C.shape = .weierstrass a b) (P : Point) :
    add C .inf P = P := by
  rw [add_of_weierstrass hs]
  rfl

theorem add_inf_W {C : Curve} {a b : Nat} (hs : C.shape = .weierstrass a b) (P : Point) :
    add C P .inf = P := by
  rw [add_of_weierstrass hs]
  cases P <;> rfl

theorem add_sub_mod_mod {p y : Nat} (hy : y < p) : (y + (p - y) % p) % p = 0 := by
  rw [Nat.add_mod_mod, Nat.add_sub_cancel' hy.le, Nat.mod_self]

/-- The negative of a point is a point, and the two sum to the identity (R143). -/
theorem neg_valid_and_add_neg_W {C : Curve} {a b : Nat} (hs : C.shape = .weierstrass a b) {P : Point}
    (hP : validPoint C P = true) :
    validPoint C (neg C P) = true ∧ add C P (neg C P) = .inf := by
  cases P with
  | inf => exact ⟨hP, inf_add_W hs .inf⟩
  | aff x y =>
    obtain ⟨hx, hy, heq⟩ := (onCurve_iff_equation C x y).1 hP
    have hneg : neg C (.aff x y) = .aff x ((C.p - y) % C.p) := by simp only [neg, hs]
    rw [hneg]
    constructor
    · refine validPoint_aff_of_equation hx (Nat.mod_lt _ (by omega)) ?_
      have hW : kindW C := ⟨a, b, hs⟩
      rw [equation_iff_root_W hW, sub_mul_sub_mod hy.le]
      exact (equation_iff_root_W hW x y).1 heq
    · rw [add_of_weierstrass hs]
      exact if_pos ⟨rfl, add_sub_mod_mod hy⟩

/-- The slope of the chord through two points, or of the tangent where their x agree (R143). -/
def slopeW (p a x1 y1 x2 y2 : Nat) : Nat :=
  if x1 = x2 then (3 * x1 * x1 + a) * inv p (2 * y1) % p else subm p y2 y1 * inv p (subm p x2 x1) % p

theorem add_aff_W {C : Curve} {a b : Nat} (hs : C.shape = .weierstrass a b) {x1 y1 x2 y2 : Nat}
    (h : ¬ (x1 = x2 ∧ (y1 + y2) % C.p = 0)) :
    let lam := slopeW C.p a x1 y1 x2 y2
    let x3 := subm C.p (subm C.p (lam * lam) x1) x2
    add C (.aff x1 y1) (.aff x2 y2) = .aff x3 (subm C.p (lam * subm C.p x1 x3) y1) := by
  rw [add_of_weierstrass hs]
  exact if_neg h

section
variable {p : Nat} (hp : p.Prime) (h2 : p ≠ 2) {a x1 y1 x2 y2 : Nat}
include hp h2

theorem slopeW_chord (hx1 : x1 < p) (hx2 : x2 < p) (hne : x1 ≠ x2) :
    (slopeW p a x1 y1 x2 y2 : ZMod p) * ((x2 : ZMod p) - x1) = (y2 : ZMod p) - y1 := by
  have : Fact p.Prime := ⟨hp⟩
  have hden : (x2 : ZMod p) - x1 ≠ 0 := by
    rw [sub_ne_zero, Ne, ZMod.natCast_eq_natCast_iff', Nat.mod_eq_of_lt hx1, Nat.mod_eq_of_lt hx2]
    exact hne.symm
  rw [slopeW, if_neg hne, ZMod.natCast_mod, Nat.cast_mul, cast_inv hp h2, cast_subm hp.pos,
    cast_subm hp.pos, inv_mul_cancel_right₀ hden]

theorem slopeW_tangent (hy : (2 * y1) % p ≠ 0) :
    (slopeW p a x1 y1 x1 y2 : ZMod p) * (2 * (y1 : ZMod p)) = 3 * (x1 : ZMod p) ^ 2 + a := by
  have : Fact p.Prime := ⟨hp⟩
  have hden : ((2 * y1 : Nat) : ZMod p) ≠ 0 := by
    rw [Ne, ZMod.natCast_eq_zero_iff, Nat.dvd_iff_mod_eq_zero]
    exact hy
  rw [slopeW, if_pos rfl, ZMod.natCast_mod, Nat.cast_mul, cast_inv hp h2]
  push_cast at hden ⊢
  rw [inv_mul_cancel_right₀ hden]
  ring

end

/-- Two points with one x that are not negatives of each other are one point (R143). -/
theorem eq_of_same_x_W {C : Curve} (hW : kindW C) (hp : C.p.Prime) {x y1 y2 : Nat}
    (h1 : onCurve C x y1 = true) (h2 : onCurve C x y2 = true) (h : (y1 + y2) % C.p ≠ 0) : y2 = y1 := by
  obtain ⟨-, hy1, heq1⟩ := (onCurve_iff_equation C x y1).1 h1
  obtain ⟨-, hy2, heq2⟩ := (onCurve_iff_equation C x y2).1 h2
  rw [equation_iff_root_W hW] at heq1 heq2
  refine (eq_or_eq_neg_of_mul_self_mod hp hy1 hy2 (heq2.trans heq1.symm)).resolve_right fun hneg => h ?_
  rw [hneg, add_sub_mod_mod hy1]

/-- Settles O30. -/
theorem groupLawW : Obligations.GroupLawW := by
  intro C a b hC hs
  have hg := hC.goodW hs
  have hpos := hC.prime.pos
  refine ⟨fun P => ⟨inf_add_W hs P, add_inf_W hs P⟩, fun P => neg_valid_and_add_neg_W hs,
    fun x1 y1 x2 y2 h1 h2 hne => ?_⟩
  have hsum := add_aff_W hs hne
  have hvalid := add_valid hg (P := .aff x1 y1) (Q := .aff x2 y2) h1 h2
  set lam := slopeW C.p a x1 y1 x2 y2 with hlam
  refine ⟨_, _, hsum, by rwa [hsum] at hvalid, (lam : ZMod C.p), ?_, ?_, ?_, ?_⟩
  · obtain ⟨hx1, -, -⟩ := (onCurve_iff_equation C x1 y1).1 h1
    obtain ⟨hx2, -, -⟩ := (onCurve_iff_equation C x2 y2).1 h2
    exact slopeW_chord hC.prime hC.ne_two hx1 hx2
  · rintro rfl
    have hy : (y1 + y2) % C.p ≠ 0 := fun h0 => hne ⟨rfl, h0⟩
    obtain rfl := eq_of_same_x_W ⟨a, b, hs⟩ hC.prime h1 h2 hy
    exact slopeW_tangent hC.prime hC.ne_two (by rwa [two_mul])
  · rw [cast_subm hpos, cast_subm hpos, Nat.cast_mul, pow_two]
  · rw [cast_subm hpos, Nat.cast_mul, cast_subm hpos]

/-! ### Kind E (R144) -/

theorem OnE.neg {R : Type} [CommRing R] {a d x y : R} (h : OnE a d x y) : OnE a d (-x) y := by
  unfold OnE at h ⊢
  linear_combination h

theorem neg_aff_E {C : Curve} {ea d : Nat} (hg : GoodE C ea d) (x y : Nat) :
    neg C (.aff x y) = .aff ((C.p - x) % C.p) y := by
  simp only [neg, hg.shape]

/-- A point and its negative sum to the identity (R144). -/
theorem add_neg_E {C : Curve} {ea d : Nat} (hg : GoodE C ea d) {x y : Nat}
    (h : onCurve C x y = true) : add C (.aff x y) (neg C (.aff x y)) = identity C := by
  have : Fact C.p.Prime := ⟨hg.prime⟩
  obtain ⟨hx, -, hxy⟩ := (onCurve_iff_E hg x y).1 h
  obtain ⟨r, hr⟩ := square_E hg
  obtain ⟨-, hden⟩ := edwards_den_ne (two_ne_E hg) hr (nonsquare_E hg) hxy hxy.neg
  rw [neg_aff_E hg, identity_E hg]
  obtain ⟨x3, y3, hadd, hx3, hy3, hX, hY⟩ := add_cast_E hg x y ((C.p - x) % C.p) y
  have hneg : (((C.p - x) % C.p : Nat) : ZMod C.p) = -x := by simp [Nat.cast_sub hx.le]
  rw [hneg] at hX hY
  rw [hadd]
  refine aff_inj_E hx3 hy3 hg.prime.pos hg.prime.one_lt ?_ ?_
  · rw [hX, addXE]
    simp [mul_comm]
  · rw [hY, addYE, Nat.cast_one, div_eq_one_iff_eq hden]
    unfold OnE at hxy
    linear_combination hxy

/-- Settles O31. -/
theorem groupLawE : Obligations.GroupLawE := by
  intro C ea d hC hs x1 y1 x2 y2 h1 h2
  have hg := hC.goodE hs
  have : Fact C.p.Prime := ⟨hC.prime⟩
  obtain ⟨-, -, he1⟩ := (onCurve_iff_E hg x1 y1).1 h1
  obtain ⟨-, -, he2⟩ := (onCurve_iff_E hg x2 y2).1 h2
  obtain ⟨r, hr⟩ := square_E hg
  obtain ⟨hplus, hminus⟩ := edwards_den_ne (two_ne_E hg) hr (nonsquare_E hg) he1 he2
  obtain ⟨x3, y3, hadd, hx3, hy3, hX, hY⟩ := add_cast_E hg x1 y1 x2 y2
  refine ⟨⟨hplus, hminus, x3, y3, hadd, hx3, hy3, ?_, ?_⟩, identity_add_E hg h1, add_neg_E hg h1⟩
  · rw [hX, addXE, div_mul_cancel₀ _ hplus]
  · rw [hY, addYE, div_mul_cancel₀ _ hminus]

/-! ### Multiples on both kinds (R145, R147) -/

/-- One step of repeated addition (R145), and that multiples are points of the curve. -/
theorem mul_succ_and_valid {C : Curve} (hC : SoundCurve C) {P : Point} (hP : validPoint C P = true)
    (k : Nat) : mul C (k + 1) P = add C (mul C k P) P ∧ validPoint C (mul C k P) = true := by
  rcases kindW_or_kindE C with ⟨a, b, hs⟩ | ⟨ea, d, hs⟩
  · have hg := hC.goodW hs
    exact ⟨by rw [mul_add_W hg hP, mul_one_W hg hP], mul_valid hg hP k⟩
  · have hg := hC.goodE hs
    exact ⟨by rw [mul_eq_repeated_E hg hP, mul_eq_repeated_E hg hP, repeated], mul_valid_E hg hP k⟩

/-- Multiples of G depend on the scalar modulo n only (R147). -/
theorem mulG_mod {C : Curve} (hC : SoundCurve C) (k : Nat) : mulG C (k % C.n) = mulG C k := by
  have hn := hC.mulG_order
  rcases kindW_or_kindE C with ⟨a, b, hs⟩ | ⟨ea, d, hs⟩
  · have hg := hC.goodW hs
    rw [identity_W hg] at hn
    exact mul_mod_W hg hC.base_valid hn k
  · exact mul_mod_E (hC.goodE hs) hC.base_valid hn k

/-- Settles O32. -/
theorem scalarMultiples : Obligations.ScalarMultiples :=
  fun _ _ hC hP => ⟨rfl, mul_succ_and_valid hC hP, mulG_mod hC⟩

end Sys2Proof.Machine
end

section
/-! PROOFS. The curve group commands (41_curve_group.md R153 to R161): what each answers for the operands it
decodes, and how it fails for those it does not. -/

namespace Sys2Proof.Machine

/-! ### The meaning each command has -/

section
variable (c : BitVec 4) (f : PointForm) (sec : Bool) (s : State)

theorem exec_pchk : exec (.pchk c) s = execPchk c s := rfl

theorem exec_padd : exec (.padd c f) s = execPadd c f s := rfl

theorem exec_pdbl : exec (.pdbl c f) s = execPdbl c f s := rfl

theorem exec_pneg : exec (.pneg c f) s = execPneg c f s := rfl

theorem exec_pcomb : exec (.pcomb c f) s = execPcomb c f s := rfl

theorem exec_pmulg : exec (.pmulg c f sec) s = execPmulg c f sec s := rfl

theorem exec_pmul : exec (.pmul c f sec) s = execPmul c f sec s := rfl

theorem exec_penc : exec (.penc c f) s = execPenc c f s := rfl

theorem exec_pdec : exec (.pdec c) s = execPdec c s := rfl

end

/-! ### Commands whose result has a form -/

section
variable {s : State} {c : BitVec 4} {n : Nat} {p : Pending} {C : Ctx} {i : Instr} {f : PointForm}
  {rule : Ctx → Operands → Except Failure Bytes} (h : Ready s c n p C) (hf : FormOk C.toCurve f)
  (hi : exec i s = runTotal s c ⟨.both, f, .nothing, n⟩ fun C o => .ofOne (rule C o))
include h hf hi

theorem Ready.exec_form_ok {B : Bytes} (hr : rule C (s.operands p) = .ok B) :
    exec i s = .next (s.succeed B) := by
  rw [hi, runTotal_ready h _ (allows_both _) hf rfl, hr]
  rfl

theorem Ready.exec_form_error {e : Failure} (hr : rule C (s.operands p) = .error e) :
    exec i s = .next (s.failWith e.code) := by
  rw [hi, runTotal_ready h _ (allows_both _) hf rfl, hr]
  rfl

end

/-! ### Sums, doubles and negatives (R154 to R156) -/

/-- Settles O29. -/
theorem pointSums : Obligations.PointSums := by
  intro s c f p C hf A B
  refine ⟨fun h => ⟨fun P Q hP hQ => ?_, fun e he => ?_, fun P e hP he => ?_⟩,
    fun h => ⟨fun P hP => ⟨?_, ?_⟩, fun e he => ⟨?_, ?_⟩⟩⟩
  · exact h.exec_form_ok hf (exec_padd c f s) ((bind_of_ok hP _).trans (bind_of_ok hQ _))
  · exact h.exec_form_error hf (exec_padd c f s) (bind_of_error he _)
  · exact h.exec_form_error hf (exec_padd c f s) ((bind_of_ok hP _).trans (bind_of_error he _))
  · exact h.exec_form_ok hf (exec_pdbl c f s) (bind_of_ok hP _)
  · exact h.exec_form_ok hf (exec_pneg c f s) (bind_of_ok hP _)
  · exact h.exec_form_error hf (exec_pdbl c f s) (bind_of_error he _)
  · exact h.exec_form_error hf (exec_pneg c f s) (bind_of_error he _)

/-! ### Multiples (R158, R159) -/

theorem getSC_error_eq {C : Ctx} {B : Bytes} {e : Failure} (h : getSC C B = .error e) :
    e = .invalidScalar := by
  by_cases hB : B.length ≠ C.ssize ∨ C.n ≤ os2iC C B
  · rw [getSC_error hB] at h
    exact (Except.error.inj h).symm
  · rw [getSC_ok (by omega) (by omega)] at h
    cases h

section
variable {s : State} {c : BitVec 4} {p : Pending} {C : Ctx} {f : PointForm} (sec : Bool)
  (h : Ready s c 1 p C) (hf : FormOk C.toCurve f)
include h hf

theorem Ready.exec_pmulg_ok {k : Nat} (hk : getSC C (s.operands p).a0 = .ok k) :
    exec (.pmulg c f sec) s = .next ((s.succeed (putPT C (mulG C.toCurve k) f)).withTable c) := by
  rw [exec_pmulg, execPmulg, runTotal_ready h _ (allows_both _) hf rfl, hk]
  exact congrArg Host.Outcome.next (complete_afterMulG s c _)

theorem Ready.exec_pmulg_error {e : Failure} (he : getSC C (s.operands p).a0 = .error e) :
    exec (.pmulg c f sec) s = .next (s.failWith e.code) := by
  rw [exec_pmulg, execPmulg, runTotal_ready h _ (allows_both _) hf rfl, he]
  rfl

end

/-- Settles O33. -/
theorem scalarMultiplications : Obligations.ScalarMultiplications := by
  intro s c f sec p C hf A B
  refine ⟨fun h => ⟨fun k hk => h.exec_pmulg_ok sec hf hk, fun e he => ?_⟩,
    fun h => ⟨fun k P hk hP => ?_, fun e he => ?_, fun k e hk he => ?_⟩⟩
  · obtain rfl := getSC_error_eq he
    exact h.exec_pmulg_error sec hf he
  · exact h.exec_form_ok hf (exec_pmul c f sec s) ((bind_of_ok hk _).trans (bind_of_ok hP _))
  · obtain rfl := getSC_error_eq he
    exact h.exec_form_error hf (exec_pmul c f sec s) (bind_of_error he _)
  · exact h.exec_form_error hf (exec_pmul c f sec s) ((bind_of_ok hk _).trans (bind_of_error he _))

/-! ### The sum of a list of public keys (R157) -/

/-- The items decode to the points, one by one. -/
abbrev DecodeTo (C : Ctx) : List Bytes → List Point → Prop :=
  List.Forall₂ fun B P => getPK C B = .ok P

theorem getPKs_ok {C : Ctx} {items : List Bytes} {Ps : List Point} (h : DecodeTo C items Ps) :
    getPKs C items = .ok Ps := by
  induction h with
  | nil => rfl
  | cons hP _ ih => exact (bind_of_ok hP _).trans (bind_of_ok ih _)

/-- The first bad item decides the failure, whatever comes behind it. -/
theorem getPKs_error {C : Ctx} {good : List Bytes} {B : Bytes} (rest : List Bytes) {e : Failure}
    (hgood : ∀ G ∈ good, ∃ P, getPK C G = .ok P) (hB : getPK C B = .error e) :
    getPKs C (good ++ B :: rest) = .error e := by
  induction good with
  | nil => exact bind_of_error hB _
  | cons G good ih =>
    obtain ⟨⟨P, hP⟩, hrest⟩ := List.forall_mem_cons.1 hgood
    exact (bind_of_ok hP _).trans (bind_of_error (ih hrest) _)

/-- The partial sums of a list onto S, after one, two and so on of its points. -/
def partialSums (C : Curve) (S : Point) (Ps : List Point) : List Point :=
  (List.range Ps.length).map fun k => (Ps.take (k + 1)).foldl (add C) S

theorem partialSums_cons (C : Curve) (S P : Point) (Ps : List Point) :
    partialSums C S (P :: Ps) = add C S P :: partialSums C (add C S P) Ps := by
  simp [partialSums, List.range_succ_eq_map, List.map_map, Function.comp_def]

/-- The sum is refused exactly where a partial sum is the identity (R157). -/
theorem combine_eq (C : Curve) (S : Point) (Ps : List Point) :
    combine C S Ps =
      if identity C ∈ partialSums C S Ps then .error .invalidPoint else .ok (Ps.foldl (add C) S) := by
  induction Ps generalizing S with
  | nil => rfl
  | cons P Ps ih =>
    simp only [combine, isId, decide_eq_true_eq, partialSums_cons, List.mem_cons, List.foldl_cons, ih]
    by_cases hid : add C S P = identity C
    · rw [if_pos hid, if_pos (.inl hid.symm)]
    · simp only [hid, Ne.symm hid, if_false, false_or]

/-- Settles O34. Its own name is that of the model's function. -/
theorem combinePublicKeys : Obligations.Combine := by
  intro s c f p C hf h A
  have hexec := exec_pcomb c f s
  refine ⟨fun e he => ?_, fun items hitems => ⟨fun Ps hPs => ?_, fun good B rest e hsplit hgood hB => ?_⟩⟩
  · obtain rfl := listFraming.2.1 A e he
    exact h.exec_form_error hf hexec (bind_of_error he _)
  · have hkeys := bind_of_ok (β := Bytes) (getPKs_ok hPs)
    refine ⟨?_, fun hne => ⟨fun hid => ?_, fun hid => ?_⟩⟩
    · rintro rfl
      exact h.exec_form_error (e := .invalidPoint) hf hexec ((bind_of_ok hitems _).trans (hkeys _))
    · have hsum := (combine_eq C.toCurve (identity C.toCurve) Ps).trans (if_pos hid)
      refine h.exec_form_error (e := .invalidPoint) hf hexec
        ((bind_of_ok hitems _).trans ((hkeys _).trans ?_))
      rw [decide_eq_true hne, require_true_bind]
      exact bind_of_error hsum _
    · have hsum := (combine_eq C.toCurve (identity C.toCurve) Ps).trans (if_neg hid)
      refine h.exec_form_ok hf hexec ((bind_of_ok hitems _).trans ((hkeys _).trans ?_))
      rw [decide_eq_true hne, require_true_bind]
      exact bind_of_ok hsum _
  · subst hsplit
    exact h.exec_form_error hf hexec
      ((bind_of_ok hitems _).trans (bind_of_error (getPKs_error rest hgood hB) _))

/-! ### Coordinates (R153, R160, R161) -/

section
variable {s : State} {c : BitVec 4} {p : Pending} {C : Ctx}

theorem Ready.exec_pchk_answer (h : Ready s c 2 p C) :
    exec (.pchk c) s = .next (s.answer (decide ((s.operands p).a0.length = C.fsize)
      && decide ((s.operands p).a1.length = C.fsize)
      && onCurve C.toCurve (os2iC C (s.operands p).a0) (os2iC C (s.operands p).a1))) := by
  rw [exec_pchk, execPchk, runTotal_ready h _ (allows_both _) (formOk_uncompressed _) rfl]
  rfl

section
variable {f : PointForm} (h : Ready s c 2 p C) (hf : FormOk C.toCurve f)
include h hf

theorem Ready.exec_penc_wrong_length
    (hl : ¬ ((s.operands p).a0.length = C.fsize ∧ (s.operands p).a1.length = C.fsize)) :
    exec (.penc c f) s = .next (s.failWith .invalidEncoding) := by
  refine h.exec_form_error (e := .invalidEncoding) hf (exec_penc c f s) ?_
  rw [← Bool.decide_and, decide_eq_false hl, require_false_bind]

variable (hA : (s.operands p).a0.length = C.fsize) (hB : (s.operands p).a1.length = C.fsize)
include hA hB

theorem Ready.exec_penc_on_curve
    (ho : onCurve C.toCurve (os2iC C (s.operands p).a0) (os2iC C (s.operands p).a1) = true) :
    exec (.penc c f) s
      = .next (s.succeed (putPT C (.aff (os2iC C (s.operands p).a0) (os2iC C (s.operands p).a1)) f)) := by
  obtain ⟨hx, hy, -⟩ := (onCurve_iff_equation _ _ _).1 ho
  refine h.exec_form_ok hf (exec_penc c f s) ?_
  simp [hA, hB, hx, hy, ho]

theorem Ready.exec_penc_off_curve
    (ho : onCurve C.toCurve (os2iC C (s.operands p).a0) (os2iC C (s.operands p).a1) = false) :
    exec (.penc c f) s = .next (s.failWith .invalidPoint) := by
  refine h.exec_form_error (e := .invalidPoint) hf (exec_penc c f s) ?_
  by_cases hx : os2iC C (s.operands p).a0 < C.p
  · by_cases hy : os2iC C (s.operands p).a1 < C.p
    · simp [hA, hB, hx, hy, ho]
    · simp [hA, hB, hx, hy]
  · simp [hA, hB, hx]

end

section
variable (h : Ready s c 1 p C)
include h

theorem Ready.exec_pdec_aff {x y : Nat} (hP : getPT C (s.operands p).a0 = .ok (.aff x y)) :
    exec (.pdec c) s = .next (s.succeedTwo (i2osC C x C.fsize) (i2osC C y C.fsize)) := by
  rw [exec_pdec, execPdec, runTotal_ready h _ (allows_both _) (formOk_uncompressed _) rfl, hP]
  rfl

theorem Ready.exec_pdec_inf (hP : getPT C (s.operands p).a0 = .ok .inf) :
    exec (.pdec c) s = .next (s.failWith .invalidPoint) := by
  rw [exec_pdec, execPdec, runTotal_ready h _ (allows_both _) (formOk_uncompressed _) rfl, hP]
  rfl

theorem Ready.exec_pdec_error {e : Failure} (he : getPT C (s.operands p).a0 = .error e) :
    exec (.pdec c) s = .next (s.failWith e.code) := by
  rw [exec_pdec, execPdec, runTotal_ready h _ (allows_both _) (formOk_uncompressed _) rfl, he]
  rfl

end

end

/-- Settles O36. -/
theorem coordinates : Obligations.Coordinates := by
  intro s c f p C hf A B
  refine ⟨fun h => ⟨⟨_, h.exec_pchk_answer, ?_⟩, h.exec_penc_wrong_length hf,
    fun hA hB => ⟨fun hxy => ?_, fun hxy => ?_⟩⟩,
    fun h => ⟨fun x y => h.exec_pdec_aff, h.exec_pdec_inf, fun e => h.exec_pdec_error⟩⟩
  · rw [Bool.and_eq_true, Bool.and_eq_true, decide_eq_true_iff, decide_eq_true_iff, onCurve_iff_equation,
      and_assoc]
  · exact h.exec_penc_on_curve hf hA hB ((onCurve_iff_equation _ _ _).2 hxy)
  · exact h.exec_penc_off_curve hf hA hB
      (Bool.eq_false_iff.2 fun ho => hxy ((onCurve_iff_equation _ _ _).1 ho))

end Sys2Proof.Machine
end

section
/-! PROOFS. What the key lifecycle commands share: the inverse reading of the operand classes (30_encoding.md R101,
R102, R104), the meaning each command has, and the end of a ready command by its rule. -/

namespace Sys2Proof.Machine

/-! ### What an operand of a class is (30_encoding.md R101, R102, R104) -/

section
variable {C : Ctx} {B : Bytes}

theorem getSC_eq_ok_iff {k : Nat} :
    getSC C B = .ok k ↔ B.length = C.ssize ∧ os2iC C B = k ∧ k < C.n := by
  constructor
  · intro h
    by_cases hB : B.length ≠ C.ssize ∨ C.n ≤ os2iC C B
    · rw [getSC_error hB] at h
      cases h
    · rw [getSC_ok (by omega) (by omega)] at h
      cases h
      omega
  · rintro ⟨hl, rfl, hv⟩
    exact getSC_ok hl hv

theorem getSK_eq_ok_iff {k : Nat} :
    getSK C B = .ok k ↔ B.length = C.ssize ∧ os2iC C B = k ∧ 1 ≤ k ∧ k < C.n := by
  constructor
  · intro h
    by_cases hB : B.length ≠ C.ssize ∨ os2iC C B = 0 ∨ C.n ≤ os2iC C B
    · rw [getSK_error hB] at h
      cases h
    · rw [getSK_ok (by omega) (by omega) (by omega)] at h
      cases h
      omega
  · rintro ⟨hl, rfl, h1, hv⟩
    exact getSK_ok hl h1 hv

theorem getSK_error_eq {e : Failure} (h : getSK C B = .error e) : e = .invalidScalar := by
  by_cases hB : B.length ≠ C.ssize ∨ os2iC C B = 0 ∨ C.n ≤ os2iC C B
  · rw [getSK_error hB] at h
    exact (Except.error.inj h).symm
  · rw [getSK_ok (by omega) (by omega) (by omega)] at h
    cases h

theorem getPK_eq_ok_iff {P : Point} : getPK C B = .ok P ↔ getPT C B = .ok P ∧ P ≠ identity C.toCurve := by
  refine ⟨fun h => ?_, fun ⟨hP, hid⟩ => getPK_ok hP hid⟩
  cases hQ : getPT C B with
  | error e =>
    rw [getPK_error hQ] at h
    cases h
  | ok Q =>
    by_cases hid : Q = identity C.toCurve
    · rw [getPK_identity (hid ▸ hQ)] at h
      cases h
    · rw [getPK_ok hQ hid] at h
      cases h
      exact ⟨rfl, hid⟩

end

/-! ### The meaning each command has -/

section
variable (c : BitVec 4) (f : PointForm) (s : State)

theorem exec_skgen : exec (.skgen c) s = execSkgen c s := rfl

theorem exec_skvfy : exec (.skvfy c) s = execSkvfy c s := rfl

theorem exec_skred : exec (.skred c) s = execSkred c s := rfl

theorem exec_skneg : exec (.skneg c) s = execSkneg c s := rfl

theorem exec_skinv : exec (.skinv c) s = execSkinv c s := rfl

theorem exec_sktadd : exec (.sktadd c) s = execSktadd c s := rfl

theorem exec_sktmul : exec (.sktmul c) s = execSktmul c s := rfl

theorem exec_pkcrt : exec (.pkcrt c f) s = execPkcrt c f s := rfl

theorem exec_pktadd : exec (.pktadd c f) s = execPktadd c f s := rfl

theorem exec_pktmul : exec (.pktmul c f) s = execPktmul c f s := rfl

theorem exec_pkneg : exec (.pkneg c f) s = execPkneg c f s := rfl

theorem exec_pkadd : exec (.pkadd c f) s = execPkadd c f s := rfl

theorem exec_pkvfy : exec (.pkvfy c) s = execPkvfy c s := rfl

theorem exec_edpktadd : exec (.edpktadd c) s = execEdpktadd c s := rfl

end

/-- A ready command of an allowed kind and form that needs no map completes with what its rule gives. -/
theorem Ready.exec_rule {s : State} {c : BitVec 4} {n : Nat} {p : Pending} {C : Ctx} {i : Instr}
    {k : Kinds} {f : PointForm} {rule : Ctx → Operands → Ending} {e : Ending} (h : Ready s c n p C)
    (hk : k.allows C.toCurve = true) (hf : FormOk C.toCurve f)
    (hi : exec i s = runTotal s c ⟨k, f, .nothing, n⟩ rule) (hr : rule C (s.operands p) = e) :
    exec i s = .next (s.complete c e) := by
  rw [hi, runTotal_ready h rule hk hf rfl, hr]

end Sys2Proof.Machine
end

section
/-! PROOFS. The draw of a non-zero scalar from the RNG port (60_exceptions.md R334) and SKGEN
(42_key_lifecycle.md R180). -/

namespace Sys2Proof.Machine

/-! ### The draw over the known answers -/

section
variable {C : Ctx} {k t : Nat} {rng : Bytes}

theorem freeScalar_range (hn : 2 ≤ C.n) : 1 ≤ freeScalar C k ∧ freeScalar C k < C.n := by
  have hmod : Config.freeNat k % (C.n - 1) < C.n - 1 := Nat.mod_lt _ (by omega)
  unfold freeScalar
  omega

/-- With less than one draw known, the value is free. -/
theorem drawScalar_of_short (h : C.ssize = 0 ∨ rng.length < C.ssize) :
    drawScalar C k t rng = (freeScalar C k, []) := by
  cases t with
  | zero => rfl
  | succ t => rw [drawScalar, if_pos h]

section
variable (h1 : 1 ≤ C.ssize) (hl : C.ssize ≤ rng.length)
include h1 hl

theorem drawScalar_of_ne_zero (h : os2iC C (rng.take C.ssize) % C.n ≠ 0) :
    drawScalar C k (t + 1) rng = (os2iC C (rng.take C.ssize) % C.n, rng.drop C.ssize) := by
  rw [drawScalar, if_neg (by omega)]
  exact if_neg h

theorem drawScalar_of_eq_zero (h : os2iC C (rng.take C.ssize) % C.n = 0) :
    drawScalar C k (t + 1) rng = drawScalar C k t (rng.drop C.ssize) := by
  rw [drawScalar, if_neg (by omega)]
  exact if_pos h

end

/-- What a draw can give: the free value with no answer left, or a draw that is not 0 modulo n with the
answers behind it. -/
theorem drawScalar_cases (C : Ctx) (k t : Nat) (rng : Bytes) :
    drawScalar C k t rng = (freeScalar C k, [])
      ∨ ∃ B rest, os2iC C B % C.n ≠ 0 ∧ rest <:+ rng ∧ drawScalar C k t rng = (os2iC C B % C.n, rest) := by
  induction t generalizing rng with
  | zero => exact .inl rfl
  | succ t ih =>
    by_cases hs : C.ssize = 0 ∨ rng.length < C.ssize
    · exact .inl (drawScalar_of_short hs)
    by_cases hv : os2iC C (rng.take C.ssize) % C.n = 0
    · rw [drawScalar_of_eq_zero (by omega) (by omega) hv]
      obtain h | ⟨B, rest, hB, hrest, h⟩ := ih (rng.drop C.ssize)
      · exact .inl h
      · exact .inr ⟨B, rest, hB, hrest.trans (List.drop_suffix _ _), h⟩
    · exact .inr ⟨_, _, hv, List.drop_suffix _ _, drawScalar_of_ne_zero (by omega) (by omega) hv⟩

theorem drawScalar_range (hn : 2 ≤ C.n) :
    1 ≤ (drawScalar C k t rng).1 ∧ (drawScalar C k t rng).1 < C.n := by
  obtain h | ⟨B, rest, hB, -, h⟩ := drawScalar_cases C k t rng
  · rw [h]
    exact freeScalar_range hn
  · rw [h]
    exact ⟨Nat.one_le_iff_ne_zero.2 hB, Nat.mod_lt _ (by omega)⟩

theorem drawScalar_suffix : (drawScalar C k t rng).2 <:+ rng := by
  obtain h | ⟨B, rest, -, hrest, h⟩ := drawScalar_cases C k t rng
  · rw [h]
    exact List.nil_suffix
  · rwa [h]

/-- As many attempts as there are known bytes are enough; more change nothing. -/
theorem drawScalar_attempts {u : Nat} (ht : rng.length ≤ t) (hu : rng.length ≤ u) :
    drawScalar C k t rng = drawScalar C k u rng := by
  induction t generalizing u rng with
  | zero =>
    have hs : C.ssize = 0 ∨ rng.length < C.ssize := by omega
    rw [drawScalar_of_short hs, drawScalar_of_short hs]
  | succ t ih =>
    by_cases hs : C.ssize = 0 ∨ rng.length < C.ssize
    · rw [drawScalar_of_short hs, drawScalar_of_short hs]
    obtain ⟨u, rfl⟩ : ∃ v, u = v + 1 := ⟨u - 1, by omega⟩
    by_cases hv : os2iC C (rng.take C.ssize) % C.n = 0
    · rw [drawScalar_of_eq_zero (by omega) (by omega) hv, drawScalar_of_eq_zero (by omega) (by omega) hv]
      exact ih (by rw [List.length_drop]; omega) (by rw [List.length_drop]; omega)
    · rw [drawScalar_of_ne_zero (by omega) (by omega) hv, drawScalar_of_ne_zero (by omega) (by omega) hv]

end

/-! ### SKGEN (R180) -/

/-- A completion that used up some of the RNG port's known answers. -/
theorem complete_results_of_draw (s : State) (c : BitVec 4) (B : Bytes) (u : Nat) :
    s.complete c ⟨.results B none 0, false, u⟩ = { s.succeed B with rng := s.rng.drop u } := rfl

section
variable {s : State} {c : BitVec 4} {p : Pending} {C : Ctx} (h : Ready s c 0 p C)
include h

/-- SKGEN answers the draw and leaves the answers behind it. -/
theorem Ready.exec_skgen_draw {d : Nat × Bytes}
    (hd : drawScalar C (s.operands p).draw (s.rng.length + 1) s.rng = d) :
    exec (.skgen c) s = .next { s.succeed (i2osC C d.1 C.ssize) with rng := d.2 } := by
  have hrest : s.rng.drop (s.rng.length - d.2.length) = d.2 := by
    rw [← hd]
    exact (List.suffix_iff_eq_drop.1 drawScalar_suffix).symm
  rw [h.exec_rule (e := ⟨.results (putSC C d.1) none 0, false, s.rng.length - d.2.length⟩) (allows_both _)
    (formOk_uncompressed _) (exec_skgen c s) (by rw [← hd]; rfl), complete_results_of_draw, hrest]
  rfl

/-- A command that is ready stays so whatever the RNG port answers. -/
theorem Ready.with_rng (rng : Bytes) : Ready { s with rng := rng } c 0 p C :=
  ⟨h.pending, h.curve, h.fits0, h.fits1, h.fits2⟩

end

/-- Settles O37. -/
theorem keyGeneration : Obligations.KeyGeneration := by
  intro s c p C h hn
  refine ⟨?_, fun h1 hl => ⟨fun hv => ?_, fun hv => ?_⟩⟩
  · obtain ⟨hpos, hlt⟩ := drawScalar_range hn
    exact ⟨_, _, hpos, hlt, h.exec_skgen_draw rfl⟩
  · exact h.exec_skgen_draw (drawScalar_of_ne_zero h1 hl hv)
  · have hlen : (s.rng.drop C.ssize).length ≤ s.rng.length := List.length_drop ▸ Nat.sub_le _ _
    rw [h.exec_skgen_draw (drawScalar_of_eq_zero h1 hl hv),
      (h.with_rng (s.rng.drop C.ssize)).exec_skgen_draw (drawScalar_attempts (Nat.le_succ _) hlen)]
    rfl

end Sys2Proof.Machine
end

section
/-! PROOFS. The private-key commands (42_key_lifecycle.md R181 to R186), and PKVFY (R192). -/

namespace Sys2Proof.Machine

theorem succeeds_eq_true_iff {α : Type} (x : Except Failure α) : succeeds x = true ↔ ∃ a, x = .ok a := by
  cases x <;> simp [succeeds]

section
variable {s : State} {c : BitVec 4} {p : Pending} {C : Ctx} (h : Ready s c 1 p C)
include h

theorem Ready.exec_skvfy_answer :
    exec (.skvfy c) s = .next (s.answer (decide ((s.operands p).a0.length = C.ssize)
      && decide (1 ≤ os2iC C (s.operands p).a0) && decide (os2iC C (s.operands p).a0 < C.n))) :=
  h.exec_rule (allows_both _) (formOk_uncompressed _) (exec_skvfy c s) rfl

theorem Ready.exec_pkvfy_answer :
    exec (.pkvfy c) s = .next (s.answer (succeeds (getPK C (s.operands p).a0))) :=
  h.exec_rule (allows_both _) (formOk_uncompressed _) (exec_pkvfy c s) rfl

end

/-- Settles O38. -/
theorem keyChecks : Obligations.KeyChecks := by
  intro s c p C h A
  refine ⟨⟨_, h.exec_skvfy_answer, ?_⟩, ⟨_, h.exec_pkvfy_answer, ?_⟩⟩
  · simp only [Bool.and_eq_true, decide_eq_true_iff, and_assoc]
    rfl
  · simp only [succeeds_eq_true_iff, getPK_eq_ok_iff]
    rfl

/-- A tweak refuses a key or a scalar that is not in its class (R185, R186). -/
theorem getSK_getSC_bind_error {α : Type} {C : Ctx} {A B : Bytes}
    (h : (∃ e, getSK C A = .error e) ∨ ∃ e, getSC C B = .error e) (f : Nat → Nat → Except Failure α) :
    (getSK C A >>= fun k => getSC C B >>= f k) = .error .invalidScalar := by
  cases hk : getSK C A with
  | error e => exact congrArg Except.error (getSK_error_eq hk)
  | ok k =>
    obtain ⟨e, he⟩ := h.resolve_left (by simp [hk])
    exact (bind_of_error he _).trans (congrArg Except.error (getSC_error_eq he))

/-- What a tweak ends with: the residue, unless it is 0 (R185, R186). -/
theorem Ready.exec_tweak {s : State} {c : BitVec 4} {p : Pending} {C : Ctx} {i : Instr}
    {rule : Ctx → Operands → Except Failure Bytes} {r : Nat} (h : Ready s c 2 p C)
    (hi : exec i s = runTotal s c ⟨.both, .uncompressed, .nothing, 2⟩ fun C o => .ofOne (rule C o))
    (hr : rule C (s.operands p) = require (r ≠ 0) .invalidScalar >>= fun _ => .ok (putSC C r)) :
    exec i s = .next (if r = 0 then s.failWith .invalidScalar else s.succeed (i2osC C r C.ssize)) := by
  by_cases h0 : r = 0
  · rw [if_pos h0]
    exact h.exec_ofOne_error (f := .invalidScalar) hi (hr.trans (by rw [h0]; rfl))
  · rw [if_neg h0]
    exact h.exec_ofOne_ok hi (hr.trans (by rw [decide_eq_true h0]; rfl))

/-- Settles O39. -/
theorem privateKeys : Obligations.PrivateKeys := by
  intro s c p C hn A B
  refine ⟨fun h => ⟨?_, fun k hk => ?_, fun e he => ?_, fun k hk hprime => ?_, fun e he => ?_⟩,
    fun h => ⟨fun k t hk ht => ⟨?_, ?_⟩, fun hbad => ⟨?_, ?_⟩⟩⟩
  · exact h.exec_rule (allows_both _) (formOk_uncompressed _) (exec_skred c s) rfl
  · obtain ⟨-, -, hlt⟩ := getSC_eq_ok_iff.1 hk
    exact ⟨(C.n - k) % C.n, Nat.mod_lt _ (by omega), add_sub_mod_mod hlt,
      h.exec_ofOne_ok (exec_skneg c s) (bind_of_ok hk _)⟩
  · obtain rfl := getSC_error_eq he
    exact h.exec_ofOne_error (exec_skneg c s) (bind_of_error he _)
  · obtain ⟨-, -, h1, hlt⟩ := getSK_eq_ok_iff.1 hk
    have h0 : k % C.n ≠ 0 := by
      rw [Nat.mod_eq_of_lt hlt]
      omega
    exact ⟨inv C.n k, one_le_inv hprime h0, inv_lt hprime.pos k, inv_mul_mod hprime h0,
      h.exec_ofOne_ok (exec_skinv c s) (bind_of_ok hk _)⟩
  · obtain rfl := getSK_error_eq he
    exact h.exec_ofOne_error (exec_skinv c s) (bind_of_error he _)
  · exact h.exec_tweak (exec_sktadd c s) ((bind_of_ok hk _).trans (bind_of_ok ht _))
  · exact h.exec_tweak (exec_sktmul c s) ((bind_of_ok hk _).trans (bind_of_ok ht _))
  · exact h.exec_ofOne_error (exec_sktadd c s) (getSK_getSC_bind_error hbad _)
  · exact h.exec_ofOne_error (exec_sktmul c s) (getSK_getSC_bind_error hbad _)

end Sys2Proof.Machine
end

section
/-! PROOFS. The public-key commands (42_key_lifecycle.md R187 to R191; 47_eddsa.md R297). -/

namespace Sys2Proof.Machine

/-- How a command ends whose result R must be a public key (R188, R189, R191). -/
def State.publicKeyEnd (s : State) (C : Ctx) (R : Point) (f : PointForm) : State :=
  if R = identity C.toCurve then s.failWith .invalidPoint else s.succeed (putPT C R f)

theorem State.publicKeyEnd_of_ne (s : State) {C : Ctx} {R : Point} (h : R ≠ identity C.toCurve)
    (f : PointForm) : s.publicKeyEnd C R f = s.succeed (putPT C R f) := if_neg h

theorem complete_publicKeyReport (s : State) (c : BitVec 4) (C : Ctx) (R : Point) (f : PointForm) :
    s.complete c (.plain (publicKeyReport C R f)) = s.publicKeyEnd C R f := by
  unfold State.publicKeyEnd publicKeyReport
  by_cases h : R = identity C.toCurve
  · rw [if_pos h, isId, if_pos (decide_eq_true h)]
    rfl
  · rw [if_neg h, isId, if_neg (by rwa [decide_eq_true_iff])]
    rfl

/-! ### The shared rule of PKTADD and EDPKTADD (R188; 47_eddsa.md R297) -/

section
variable {C : Ctx} {f : PointForm} {A B : Bytes}

theorem tweakAddRule_ok {P : Point} {t : Nat} (hP : getPK C A = .ok P) (ht : getSC C B = .ok t) :
    tweakAddRule C f A B = .afterMulG (publicKeyReport C (add C.toCurve P (mulG C.toCurve t)) f) := by
  rw [tweakAddRule, hP, ht]

theorem tweakAddRule_key_error {e : Failure} (he : getPK C A = .error e) :
    tweakAddRule C f A B = .fail e := by
  rw [tweakAddRule, he]

theorem tweakAddRule_scalar_error {P : Point} {e : Failure} (hP : getPK C A = .ok P)
    (he : getSC C B = .error e) : tweakAddRule C f A B = .fail e := by
  rw [tweakAddRule, hP, he]

end

/-! ### What each command ends with -/

section
variable {s : State} {c : BitVec 4} {p : Pending} {C : Ctx} {f : PointForm} (hf : FormOk C.toCurve f)
include hf

section
variable (h : Ready s c 1 p C)
include h

theorem Ready.exec_pkcrt_ok {k : Nat} (hk : getSK C (s.operands p).a0 = .ok k) :
    exec (.pkcrt c f) s = .next ((s.succeed (putPT C (mulG C.toCurve k) f)).withTable c) := by
  rw [h.exec_rule (e := .afterMulG (.results (putPT C (mulG C.toCurve k) f) none 0)) (allows_both _) hf
    (exec_pkcrt c f s) (by rw [hk]), complete_afterMulG]
  rfl

theorem Ready.exec_pkcrt_error {e : Failure} (he : getSK C (s.operands p).a0 = .error e) :
    exec (.pkcrt c f) s = .next (s.failWith e.code) :=
  h.exec_rule (e := .fail e) (allows_both _) hf (exec_pkcrt c f s) (by rw [he])

end

variable (h : Ready s c 2 p C)
include h

/-- A command on two operands whose rule gives a public key. -/
theorem Ready.exec_key {i : Instr} {rule : Ctx → Operands → Ending} {R : Point}
    (hi : exec i s = runTotal s c ⟨.both, f, .nothing, 2⟩ rule)
    (hr : rule C (s.operands p) = .plain (publicKeyReport C R f)) :
    exec i s = .next (s.publicKeyEnd C R f) := by
  rw [h.exec_rule (allows_both _) hf hi hr, complete_publicKeyReport]

theorem Ready.exec_pktmul_ok {P : Point} {t : Nat} (hP : getPK C (s.operands p).a0 = .ok P)
    (ht : getSC C (s.operands p).a1 = .ok t) :
    exec (.pktmul c f) s = .next (s.publicKeyEnd C (mul C.toCurve t P) f) :=
  h.exec_key hf (exec_pktmul c f s) (by rw [hP, ht])

/-- PKTADD and EDPKTADD. -/
theorem Ready.exec_tweakAdd {i : Instr} {k : Kinds} {P : Point} {t : Nat}
    (hk : k.allows C.toCurve = true)
    (hi : exec i s = runTotal s c ⟨k, f, .nothing, 2⟩ fun C o => tweakAddRule C f o.a0 o.a1)
    (hP : getPK C (s.operands p).a0 = .ok P) (ht : getSC C (s.operands p).a1 = .ok t) :
    exec i s = .next ((s.publicKeyEnd C (add C.toCurve P (mulG C.toCurve t)) f).withTable c) := by
  rw [h.exec_rule hk hf hi (tweakAddRule_ok hP ht), complete_afterMulG, complete_publicKeyReport]

end

/-- Settles O40. -/
theorem publicKeys : Obligations.PublicKeys := by
  intro s c f p C hf h A
  refine ⟨fun k hk => h.exec_pkcrt_ok hf hk, fun e he => ?_, fun P hP => ?_, fun e he => ?_⟩
  · obtain rfl := getSK_error_eq he
    exact h.exec_pkcrt_error hf he
  · exact h.exec_form_ok hf (exec_pkneg c f s) (bind_of_ok hP _)
  · exact h.exec_form_error hf (exec_pkneg c f s) (bind_of_error he _)

/-- Settles O41. -/
theorem publicKeyTweaks : Obligations.PublicKeyTweaks := by
  intro s c f p C hf h A B report
  have hu := formOk_uncompressed C.toCurve
  refine ⟨fun P t hP ht => ⟨?_, ?_, fun hE => ?_⟩, fun P Q hP hQ => ?_,
    fun e he => ⟨?_, ?_, ?_, fun hE => ?_⟩, fun P e hP he => ⟨?_, ?_, fun hE => ?_⟩, fun P e hP he => ?_⟩
  · exact h.exec_tweakAdd hf (allows_both _) (exec_pktadd c f s) hP ht
  · exact h.exec_pktmul_ok hf hP ht
  · exact h.exec_tweakAdd hu (allows_onlyE hE) (exec_edpktadd c s) hP ht
  · exact h.exec_key hf (exec_pkadd c f s) (by rw [hP, hQ])
  · exact h.exec_rule (allows_both _) hf (exec_pktadd c f s) (tweakAddRule_key_error he)
  · exact h.exec_rule (e := .fail e) (allows_both _) hf (exec_pktmul c f s) (by rw [he])
  · exact h.exec_rule (e := .fail e) (allows_both _) hf (exec_pkadd c f s) (by rw [he])
  · exact h.exec_rule (allows_onlyE hE) hu (exec_edpktadd c s) (tweakAddRule_key_error he)
  · exact h.exec_rule (allows_both _) hf (exec_pktadd c f s) (tweakAddRule_scalar_error hP he)
  · exact h.exec_rule (e := .fail e) (allows_both _) hf (exec_pktmul c f s) (by rw [hP, he])
  · exact h.exec_rule (allows_onlyE hE) hu (exec_edpktadd c s) (tweakAddRule_scalar_error hP he)
  · exact h.exec_rule (e := .fail e) (allows_both _) hf (exec_pkadd c f s) (by rw [hP, he])

end Sys2Proof.Machine
end

section
/-! PROOFS. The homomorphism of keys (42_key_lifecycle.md R193): multiples of G on both kinds of curve follow the
arithmetic of scalars modulo n, and what one command writes the next one reads. -/

namespace Sys2Proof.Machine

/-! ### What R4 gives of the order of G -/

theorem SoundCurve.order_prime {C : Curve} (h : SoundCurve C) : C.n.Prime := by
  obtain ⟨-, -, -, hn, -⟩ := h
  exact hn

theorem SoundCurve.base_ne_identity {C : Curve} (h : SoundCurve C) : base C ≠ identity C := by
  obtain ⟨-, -, -, -, -, -, -, -, hG⟩ := h
  exact hG

/-- A scalar fits its bytes (00_scope.md R4). -/
theorem SoundCurve.n_lt {C : Curve} (h : SoundCurve C) : C.n < 256 ^ C.ssize := by
  obtain ⟨hsizes, -⟩ := h
  simp only [sizesOk, Bool.and_eq_true, decide_eq_true_eq, and_assoc] at hsizes
  obtain ⟨-, hs, -⟩ := hsizes
  have hle : bitlen C.n ≤ 8 * C.ssize := by
    rw [hs, byteSize]
    omega
  calc C.n < 2 ^ (8 * C.ssize) := lt_two_pow_of_bitlen_le hle
    _ = 256 ^ C.ssize := by rw [pow_mul]; norm_num

/-! ### Multiples follow the scalars -/

section
variable {C : Curve} (hC : SoundCurve C)
include hC

section
variable {P : Point} (hP : validPoint C P = true)
include hP

theorem SoundCurve.one_multiple : mul C 1 P = P := by
  rcases kindW_or_kindE C with ⟨a, b, hs⟩ | ⟨ea, d, hs⟩
  · exact mul_one_W (hC.goodW hs) hP
  · have hg := hC.goodE hs
    rw [mul_eq_repeated_E hg hP]
    exact identity_add_E hg hP

theorem SoundCurve.sum_multiple (k l : Nat) : mul C (k + l) P = add C (mul C k P) (mul C l P) := by
  rcases kindW_or_kindE C with ⟨a, b, hs⟩ | ⟨ea, d, hs⟩
  · exact mul_add_W (hC.goodW hs) hP k l
  · exact mul_add_E (hC.goodE hs) hP k l

theorem SoundCurve.multiple_multiple (k l : Nat) : mul C k (mul C l P) = mul C (k * l) P := by
  rcases kindW_or_kindE C with ⟨a, b, hs⟩ | ⟨ea, d, hs⟩
  · exact mul_mul_W (hC.goodW hs) hP k l
  · exact mul_mul_E (hC.goodE hs) hP k l

end

theorem mulG_sum_mod (k t : Nat) : mulG C ((k + t) % C.n) = add C (mulG C k) (mulG C t) := by
  rw [mulG_mod hC]
  exact hC.sum_multiple hC.base_valid k t

theorem mulG_product_mod (k t : Nat) : mulG C (k * t % C.n) = mul C t (mulG C k) := by
  rw [mulG_mod hC, mul_comm]
  exact (hC.multiple_multiple hC.base_valid t k).symm

/-- G has the prime order n: no multiple by a scalar other than 0 modulo n is the identity. -/
theorem mulG_ne_identity {k : Nat} (hk : k % C.n ≠ 0) : mulG C k ≠ identity C := by
  intro hid
  have hone : mulG C 1 = mul C (inv C.n k) (mulG C k) := by
    rw [← mulG_product_mod hC, inv_mul_mod hC.order_prime hk]
  have hmul : mul C (inv C.n k) (mul C 0 (base C)) = identity C := hC.multiple_multiple hC.base_valid _ 0
  refine hC.base_ne_identity ?_
  calc base C = mulG C 1 := (hC.one_multiple hC.base_valid).symm
    _ = mul C (inv C.n k) (mulG C k) := hone
    _ = mul C (inv C.n k) (mul C 0 (base C)) := congrArg _ hid
    _ = identity C := hmul

end

/-! ### What one command writes the next one reads -/

section
variable {C : Ctx} (hC : SoundCurve C.toCurve) {v : Nat}
include hC

theorem getSC_putSC (hv : v < C.n) : getSC C (putSC C v) = .ok v :=
  getSC_eq_ok_iff.2 ⟨length_putSC C v, os2i_i2os C.order (hv.trans hC.n_lt), hv⟩

theorem getSK_putSC (h1 : 1 ≤ v) (hv : v < C.n) : getSK C (putSC C v) = .ok v :=
  getSK_eq_ok_iff.2 ⟨length_putSC C v, os2i_i2os C.order (hv.trans hC.n_lt), h1, hv⟩

theorem getPK_putPT_mulG {f : PointForm} (hf : FormOk C.toCurve f)
    (hbits : kindE C.toCurve → bitlen C.p < 8 * C.fsize) (hv : v % C.n ≠ 0) :
    getPK C (putPT C (mulG C.toCurve v) f) = .ok (mulG C.toCurve v) :=
  getPK_ok (pointRoundTrip C _ f hC hf hbits (mul_succ_and_valid hC hC.base_valid v).2)
    (mulG_ne_identity hC hv)

end

/-- Settles O42. -/
theorem keyHomomorphism : Obligations.KeyHomomorphism := by
  intro C c f g k t s s' p p' hC hbits hf hg hk1 hk ht h h' hA hB
  have hn := hC.order_prime
  have hk0 : k % C.n ≠ 0 := by
    rw [Nat.mod_eq_of_lt hk]
    omega
  have hP : getPK C (s'.operands p').a0 = .ok (mulG C.toCurve k) :=
    hA ▸ getPK_putPT_mulG hC hg hbits hk0
  have hT : getSC C (s'.operands p').a1 = .ok t := hB ▸ getSC_putSC hC ht
  have hcrt {r : Nat} (hr : r % C.n ≠ 0) (ha : (s.operands p).a0 = putSC C (r % C.n)) :=
    h.exec_pkcrt_ok hf (ha ▸ getSK_putSC hC (Nat.one_le_iff_ne_zero.2 hr) (Nat.mod_lt _ hn.pos))
  have hend {r : Nat} (hr : r % C.n ≠ 0) :
      s'.publicKeyEnd C (mulG C.toCurve (r % C.n)) f = s'.succeed (putPT C (mulG C.toCurve (r % C.n)) f) :=
    s'.publicKeyEnd_of_ne (mulG_ne_identity hC (by rwa [Nat.mod_mod])) f
  refine ⟨fun hr ha => ⟨_, hcrt hr ha, ?_⟩, fun ht0 ha => ?_⟩
  · rw [h'.exec_tweakAdd hf (allows_both _) (exec_pktadd c f s') hP hT, ← mulG_sum_mod hC, hend hr]
  · have hr : k * t % C.n ≠ 0 := by
      rw [Ne, ← Nat.dvd_iff_mod_eq_zero, hn.dvd_mul]
      exact not_or_intro (Nat.not_dvd_of_pos_of_lt hk1 hk) (Nat.not_dvd_of_pos_of_lt (by omega) ht)
    refine ⟨_, hcrt hr ha, ?_⟩
    rw [h'.exec_pktmul_ok hf hP hT, ← mulG_product_mod hC, hend hr]

end Sys2Proof.Machine
end

section
/-! PROOFS. The DER INTEGER (43_signature_codec.md R212, R213): its content is the one minimal string of a number that
is not negative, and reading its layout inverts writing it. -/

namespace Sys2Proof.Machine

/-! ### How many bytes a number takes -/

theorem bitlen_le_iff (v k : Nat) : bitlen v ≤ k ↔ v < 2 ^ k := by
  unfold bitlen
  split
  · next hv => simp [hv]
  · next hv => exact Nat.log2_lt hv

theorem byteSize_le_iff (v L : Nat) : byteSize v ≤ L ↔ v < 256 ^ L := by
  have hbits : byteSize v ≤ L ↔ bitlen v ≤ 8 * L := by
    unfold byteSize
    omega
  rw [hbits, bitlen_le_iff, pow_mul, show 2 ^ 8 = 256 from rfl]

/-! ### The shortest string of a number -/

/-- No byte can be left out in front: the first byte is not 0, or it is the only one. -/
def NoLeadingZero (b : Byte) (T : Bytes) : Prop := b ≠ 0 ∨ T = []

theorem be2int_zero_cons (T : Bytes) : be2int (0x00 :: T) = be2int T := by
  simp [be2int_cons]

theorem pow_le_be2int_cons {b : Byte} (h : b ≠ 0) (T : Bytes) : 256 ^ T.length ≤ be2int (b :: T) := by
  have hb : 1 ≤ b.toNat := Nat.one_le_iff_ne_zero.2 fun h0 => h (BitVec.eq_of_toNat_eq h0)
  rw [be2int_cons]
  exact (Nat.le_mul_of_pos_left _ hb).trans (Nat.le_add_right _ _)

theorem be2int_shortest (v : Nat) : be2int (shortest v) = v :=
  be2int_int2be ((byteSize_le_iff v _).1 (le_max_right _ _))

theorem exists_shortest (v : Nat) : ∃ b T, shortest v = b :: T ∧ NoLeadingZero b T := by
  cases hM : shortest v with
  | nil =>
    have hlen := length_shortest v
    simp only [hM, List.length_nil] at hlen
    omega
  | cons b T =>
    refine ⟨b, T, rfl, Classical.or_iff_not_imp_left.2 fun hb => ?_⟩
    have hlen : T.length + 1 = max 1 (byteSize v) := by rw [← length_shortest, hM, List.length_cons]
    have hv : v = be2int T := by rw [← be2int_zero_cons, ← not_not.1 hb, ← hM, be2int_shortest]
    have hsize : byteSize v ≤ T.length := (byteSize_le_iff _ _).2 (hv ▸ be2int_lt T)
    exact List.length_eq_zero_iff.1 (by omega)

theorem shortest_be2int {b : Byte} {T : Bytes} (h : NoLeadingZero b T) :
    shortest (be2int (b :: T)) = b :: T := by
  have hle : byteSize (be2int (b :: T)) ≤ T.length + 1 := (byteSize_le_iff _ _).2 (be2int_lt _)
  have hlen : max 1 (byteSize (be2int (b :: T))) = T.length + 1 := by
    rcases h with hb | rfl
    · have hgt := mt (byteSize_le_iff _ T.length).1 (Nat.not_lt.2 (pow_le_be2int_cons hb T))
      omega
    · exact max_eq_left hle
  have hback := int2be_be2int (b :: T)
  rwa [List.length_cons, ← hlen] at hback

/-! ### The content of an INTEGER -/

theorem derContent_of_shortest {v : Nat} {b : Byte} {T : Bytes} (h : shortest v = b :: T) :
    derContent v = if 128 ≤ b.toNat then 0x00 :: b :: T else b :: T := by
  rw [derContent, h]
  rfl

theorem be2int_derContent (v : Nat) : be2int (derContent v) = v := by
  obtain ⟨b, T, hM, -⟩ := exists_shortest v
  have hv : be2int (b :: T) = v := hM ▸ be2int_shortest v
  rw [derContent_of_shortest hM]
  split
  · exact (be2int_zero_cons _).trans hv
  · exact hv

theorem derMinimal_derContent (v : Nat) : derMinimal (derContent v) = true := by
  obtain ⟨b, T, hM, hb⟩ := exists_shortest v
  rw [derContent_of_shortest hM]
  split
  · next hhigh => simpa [derMinimal] using hhigh
  · next hlow =>
    cases T with
    | nil => simpa [derMinimal] using hlow
    | cons b' T =>
      have hb0 : b ≠ 0#8 := hb.resolve_right (List.cons_ne_nil b' T)
      simp [derMinimal, Nat.not_le.1 hlow, hb0]

/-- A minimal content is the one of its number. -/
theorem derContent_be2int {M : Bytes} (h : derMinimal M = true) : derContent (be2int M) = M := by
  match M with
  | [] => cases h
  | [b] =>
    have hlow : b.toNat < 128 := by simpa [derMinimal] using h
    rw [derContent_of_shortest (shortest_be2int (.inr rfl)), if_neg (by omega)]
  | b :: b' :: T =>
    obtain ⟨hlow, hmin⟩ : b.toNat < 128 ∧ (b ≠ 0 ∨ 128 ≤ b'.toNat) := by
      simpa [derMinimal] using h
    by_cases hb : b = 0
    · have hhigh : 128 ≤ b'.toNat := hmin.resolve_left (not_not.2 hb)
      have hb' : b' ≠ 0 := by
        rintro rfl
        exact absurd hhigh (by decide)
      rw [hb, be2int_zero_cons, derContent_of_shortest (shortest_be2int (.inl hb')), if_pos hhigh]
    · rw [derContent_of_shortest (shortest_be2int (.inl hb)), if_neg (by omega)]

theorem derContent_ne_nil (v : Nat) : derContent v ≠ [] := fun h => by
  have hmin := derMinimal_derContent v
  rw [h] at hmin
  cases hmin

/-! ### Reading what was written -/

theorem readLen_derLen {k : Nat} (h : k < 256) (R : Bytes) : readLen (derLen k ++ R) = .ok (k, R) := by
  have hk : (BitVec.ofNat 8 k).toNat = k := Nat.mod_eq_of_lt h
  unfold derLen
  split
  · next hs => simp only [List.singleton_append, readLen, hk, if_pos hs]
  · next hs =>
    have hl : 128 ≤ k := by omega
    simp [readLen, Nat.mod_eq_of_lt h, hl]

theorem readInt_derInt {v : Nat} (h : (derContent v).length < 256) (R : Bytes) :
    readInt (derInt v ++ R) = .ok (v, R) := by
  have hpos : 1 ≤ (derContent v).length := List.length_pos_iff.2 (derContent_ne_nil v)
  rw [derInt, List.cons_append, List.cons_append, List.append_assoc, readInt, decide_eq_true rfl, require_true_bind,
    bind_of_ok (readLen_derLen h _)]
  simp [hpos, derMinimal_derContent, be2int_derContent]

/-! ### What a layout that is read is the writing of -/

/-- The computation gives a value with the property, or raises InvalidEncoding. -/
def Reads {α : Type} (P : α → Prop) (x : Except Failure α) : Prop :=
  x = .error .invalidEncoding ∨ ∃ a, x = .ok a ∧ P a

/-- A first step of reading, and whatever holds both of the failure and of all that can follow. -/
theorem Reads.andThen {α β : Type} {P : α → Prop} {x : Except Failure α} (hx : Reads P x)
    (f : α → Except Failure β) {Q : Except Failure β → Prop} (he : Q (.error .invalidEncoding))
    (hf : ∀ a, P a → Q (f a)) : Q (x >>= f) := by
  rcases hx with rfl | ⟨a, rfl, ha⟩
  · exact he
  · exact hf a ha

theorem reads_require (b : Bool) : Reads (fun _ => b = true) (require b .invalidEncoding) := by
  cases b with
  | false => exact .inl rfl
  | true => exact .inr ⟨(), rfl, rfl⟩

theorem reads_readLen (B : Bytes) :
    Reads (fun k => k.1 < 256 ∧ B = derLen k.1 ++ k.2) (readLen B) := by
  match B with
  | [] => exact .inl rfl
  | b :: B =>
    unfold readLen
    dsimp only
    split
    · next hs => exact .inr ⟨_, rfl, b.isLt, by simp [derLen, hs]⟩
    · next hl =>
      match B with
      | [] => exact .inl rfl
      | k :: B =>
        dsimp only
        split
        · next hk =>
          obtain ⟨rfl, hk⟩ := hk
          exact .inr ⟨_, rfl, k.isLt, by simp [derLen, Nat.not_lt.2 hk]⟩
        · exact .inl rfl

theorem reads_readInt (B : Bytes) : Reads (fun v => B = derInt v.1 ++ v.2) (readInt B) := by
  match B with
  | [] => exact .inl rfl
  | t :: B =>
    rw [readInt]
    refine (reads_require _).andThen _ (.inl rfl) fun _ ht => ?_
    refine (reads_readLen B).andThen _ (.inl rfl) fun (k, R) ⟨_, hB⟩ => ?_
    refine (reads_require _).andThen _ (.inl rfl) fun _ hk => ?_
    refine (reads_require _).andThen _ (.inl rfl) fun _ hmin => .inr ⟨_, rfl, ?_⟩
    obtain ⟨-, hk⟩ : 1 ≤ k ∧ k ≤ R.length := by simpa using hk
    obtain rfl : t = 0x02 := of_decide_eq_true ht
    simp only [hB, derInt, derContent_be2int hmin, List.length_take_of_le hk, List.cons_append,
      List.append_assoc, List.take_append_drop]

end Sys2Proof.Machine
end

section
/-! PROOFS. Signature encodings (43_signature_codec.md R210, R212, R213): which strings decode in either form, and the
failure of those that do not. -/

namespace Sys2Proof.Machine

/-! ### The range of a signature -/

/-- Both components are in range (R210). -/
def SigInRange (C : Ctx) (r v : Nat) : Prop := 0 < r ∧ r < C.n ∧ 0 < v ∧ v < C.n

/-- What both decoders end with: the pair where it is in range (R210, R213). -/
def checkSig (C : Ctx) (r v : Nat) : Except Failure (Nat × Nat) := do
  require (sigRange C r) .invalidScalar
  require (sigRange C v) .invalidScalar
  .ok (r, v)

section
variable {C : Ctx} {r v : Nat}

theorem sigInRange_iff : SigInRange C r v ↔ sigRange C r = true ∧ sigRange C v = true := by
  simp [SigInRange, sigRange, and_assoc]

theorem checkSig_ok (h : SigInRange C r v) : checkSig C r v = .ok (r, v) := by
  obtain ⟨hr, hv⟩ := sigInRange_iff.1 h
  simp [checkSig, hr, hv]

theorem checkSig_error (h : ¬ SigInRange C r v) : checkSig C r v = .error .invalidScalar := by
  rw [sigInRange_iff] at h
  cases hr : sigRange C r with
  | false => simp [checkSig, hr]
  | true =>
    have hv : sigRange C v = false := by simpa [hr] using h
    simp [checkSig, hr, hv]

theorem checkSig_eq_ok {rs : Nat × Nat} (h : checkSig C r v = .ok rs) :
    rs = (r, v) ∧ SigInRange C r v := by
  by_cases hrv : SigInRange C r v
  · rw [checkSig_ok hrv] at h
    cases h
    exact ⟨rfl, hrv⟩
  · rw [checkSig_error hrv] at h
    cases h

/-- A component in range takes no more bytes than a scalar (00_scope.md R4). -/
theorem byteSize_le_of_lt_order (hn : C.n ≤ 256 ^ C.ssize) (hs : C.ssize ≤ 66) (hv : v < C.n) :
    byteSize v ≤ 66 :=
  ((byteSize_le_iff v _).2 (hv.trans_le hn)).trans hs

end

/-! ### Compact strings (R210) -/

section
variable {C : Ctx} {B : Bytes}

theorem getSigC_wrong_length (h : B.length ≠ 2 * C.ssize) : getSigC C B = .error .invalidEncoding := by
  simp [getSigC, h]

theorem getSigC_of_length (h : B.length = 2 * C.ssize) :
    getSigC C B = checkSig C (be2int (B.take C.ssize)) (be2int (B.drop C.ssize)) := by
  simp [getSigC, h, checkSig]

theorem getSigC_eq_ok {r v : Nat} (h : getSigC C B = .ok (r, v)) :
    B = putSigC C r v ∧ SigInRange C r v := by
  by_cases hl : B.length = 2 * C.ssize
  · obtain ⟨⟨⟩, hrange⟩ := checkSig_eq_ok ((getSigC_of_length hl).symm.trans h)
    have htake : (B.take C.ssize).length = C.ssize := List.length_take_of_le (by omega)
    have hdrop : (B.drop C.ssize).length = C.ssize := by
      rw [List.length_drop]
      omega
    have hr := int2be_be2int (B.take C.ssize)
    have hv := int2be_be2int (B.drop C.ssize)
    rw [htake] at hr
    rw [hdrop] at hv
    rw [putSigC, hr, hv, List.take_append_drop]
    exact ⟨rfl, hrange⟩
  · rw [getSigC_wrong_length hl] at h
    cases h

theorem getSigC_putSigC (hn : C.n ≤ 256 ^ C.ssize) {r v : Nat} (h : SigInRange C r v) :
    getSigC C (putSigC C r v) = .ok (r, v) := by
  have ⟨_, hr, _, hv⟩ := h
  rw [getSigC_of_length (by simp only [putSigC, List.length_append, length_int2be]; omega), putSigC,
    List.take_left' (length_int2be _ _), List.drop_left' (length_int2be _ _),
    be2int_int2be (hr.trans_le hn), be2int_int2be (hv.trans_le hn), checkSig_ok h]

end

/-! ### Strict DER strings (R213) -/

section
variable {C : Ctx} {B : Bytes} {r v : Nat}

theorem length_derLen_of_ge {k : Nat} (h : 128 ≤ k) : (derLen k).length = 2 := by
  rw [derLen, if_neg (by omega)]
  rfl

/-- A string within the longest length form `81 ff` holds two INTEGERs that take less than 256 bytes. -/
theorem length_derInts_lt (h : (encodeDER r v).length ≤ 258) : (derInt r ++ derInt v).length < 256 := by
  by_contra hlong
  have hL := length_derLen_of_ge (k := (derInt r ++ derInt v).length) (by omega)
  rw [encodeDER, List.cons_append, List.length_cons, List.length_append] at h
  omega

theorem length_derContent_lt (v : Nat) : (derContent v).length < (derInt v).length := by
  rw [derInt, List.length_append, List.length_cons]
  omega

theorem decodeDER_encodeDER (C : Ctx) (h : (encodeDER r v).length ≤ 258) :
    decodeDER C (encodeDER r v) = checkSig C r v := by
  have hbody := length_derInts_lt h
  have hsum := List.length_append (as := derInt r) (bs := derInt v)
  have hr := length_derContent_lt r
  have hv := length_derContent_lt v
  have hv' := readInt_derInt (v := v) (by omega) []
  rw [List.append_nil] at hv'
  rw [encodeDER, List.cons_append, decodeDER, decide_eq_true rfl, require_true_bind, bind_of_ok (readLen_derLen hbody _),
    decide_eq_true rfl, require_true_bind, bind_of_ok (readInt_derInt (by omega) _), bind_of_ok hv']
  rfl

/-- Strict decoding refuses the string for its layout, or the string is an encoding of at most 258 bytes. -/
def DerOrRefused (B : Bytes) (x : Except Failure (Nat × Nat)) : Prop :=
  x = .error .invalidEncoding ∨ ∃ r v, B = encodeDER r v ∧ B.length ≤ 258

theorem decodeDER_cases (C : Ctx) (B : Bytes) : DerOrRefused B (decodeDER C B) := by
  match B with
  | [] => exact .inl rfl
  | t :: B =>
    rw [decodeDER]
    refine (reads_require _).andThen _ (.inl rfl) fun _ ht => ?_
    refine (reads_readLen B).andThen _ (.inl rfl) fun (k, R) ⟨hk, hB⟩ => ?_
    refine (reads_require _).andThen _ (.inl rfl) fun _ hR => ?_
    refine (reads_readInt R).andThen _ (.inl rfl) fun (r, R') hr => ?_
    refine (reads_readInt R').andThen _ (.inl rfl) fun (v, R'') hv => ?_
    refine (reads_require _).andThen _ (.inl rfl) fun _ hend => .inr ⟨r, v, ?_, ?_⟩
    · obtain rfl : t = 0x30 := of_decide_eq_true ht
      obtain rfl : R.length = k := of_decide_eq_true hR
      obtain rfl : R'' = [] := of_decide_eq_true hend
      rw [hB, hr, hv, List.append_nil]
      rfl
    · have hlen : R.length = k := of_decide_eq_true hR
      have hL := length_derLen_le k
      simp only [hB, hlen, List.length_cons, List.length_append]
      omega

theorem decodeDER_eq_ok (h : decodeDER C B = .ok (r, v)) : B = encodeDER r v ∧ SigInRange C r v := by
  rcases decodeDER_cases C B with he | ⟨r', v', rfl, hlen⟩
  · rw [he] at h
    cases h
  · obtain ⟨⟨⟩, hrange⟩ := checkSig_eq_ok ((decodeDER_encodeDER C hlen).symm.trans h)
    exact ⟨rfl, hrange⟩

end

/-- Settles O44: both decoders check the range last, and before it accept exactly the layouts their encoder writes. -/
theorem signatureEncodings : Obligations.SignatureEncodings := by
  intro C B hn hs inRange
  refine ⟨fun r v => ⟨⟨decodeDER_eq_ok, ?_⟩, ⟨getSigC_eq_ok, ?_⟩, ?_⟩, fun h => ?_, getSigC_wrong_length,
    fun hl hrange => (getSigC_of_length hl).trans (checkSig_error hrange)⟩
  · rintro ⟨rfl, hrange⟩
    have ⟨_, hr, _, hv⟩ := hrange
    have hlen := length_encodeDER_le (byteSize_le_of_lt_order hn hs hr) (byteSize_le_of_lt_order hn hs hv)
    exact (decodeDER_encodeDER C (hlen.trans (by decide))).trans (checkSig_ok hrange)
  · rintro ⟨rfl, hrange⟩
    exact getSigC_putSigC hn hrange
  · rintro rfl hlen hrange
    exact (decodeDER_encodeDER C hlen).trans (checkSig_error hrange)
  · exact (decodeDER_cases C B).resolve_right h

end Sys2Proof.Machine
end

section
/-! PROOFS. The signature codec commands (43_signature_codec.md R214 to R219). -/

namespace Sys2Proof.Machine

/-! ### The meaning each command has -/

section
variable (c : BitVec 4) (s : State)

theorem exec_sigtoder : exec (.sigtoder c) s = execSigtoder c s := rfl

theorem exec_sigfromder : exec (.sigfromder c) s = execSigfromder c s := rfl

theorem exec_siglows : exec (.siglows c) s = execSiglows c s := rfl

theorem exec_siglowder : exec (.siglowder c) s = execSiglowder c s := rfl

theorem exec_signorm : exec (.signorm c) s = execSignorm c s := rfl

theorem exec_signormder : exec (.signormder c) s = execSignormder c s := rfl

end

/-! ### Low values (R211) -/

theorem readsLow_eq_true_iff (C : Ctx) (x : Except Failure (Nat × Nat)) :
    readsLow C x = true ↔ ∃ r v, x = .ok (r, v) ∧ v ≤ (C.n - 1) / 2 := by
  cases x with
  | error e => simp [readsLow]
  | ok rs => simp [readsLow, lowS, Prod.ext_iff]

/-- The canonical value of a component in range is low, and n is odd, so it is one of two (R211). -/
theorem normalS_low {C : Ctx} {r v : Nat} (hodd : C.n % 2 = 1) (h : SigInRange C r v) :
    1 ≤ normalS C v ∧ normalS C v ≤ (C.n - 1) / 2 ∧ (normalS C v = v ∨ normalS C v = C.n - v) := by
  obtain ⟨-, -, hpos, hlt⟩ := h
  unfold normalS lowS
  split
  · next hlow => exact ⟨hpos, of_decide_eq_true hlow, .inl rfl⟩
  · next hhigh =>
    rw [decide_eq_true_eq] at hhigh
    exact ⟨by omega, by omega, .inr rfl⟩

/-! ### What each command ends with -/

section
variable {s : State} {c : BitVec 4} {p : Pending} {C : Ctx} {i : Instr} (hW : kindW C.toCurve)
  (h : Ready s c 1 p C)
include hW h

theorem Ready.exec_readsLow {read : Ctx → Bytes → Except Failure (Nat × Nat)}
    (hi : exec i s = runTotal s c ⟨.onlyW, .uncompressed, .nothing, 1⟩ fun C o =>
      .plain (.predicate (readsLow C (read C o.a0)))) :
    ∃ b : Bool, exec i s = .next (s.answer b)
      ∧ (b = true ↔ ∃ r v, read C (s.operands p).a0 = .ok (r, v) ∧ v ≤ (C.n - 1) / 2) :=
  ⟨_, h.exec_rule (allows_onlyW hW) (formOk_uncompressed _) hi rfl, readsLow_eq_true_iff _ _⟩

variable {rule : Ctx → Operands → Except Failure Bytes}
  (hi : exec i s = runTotal s c ⟨.onlyW, .uncompressed, .nothing, 1⟩ fun C o => .ofOne (rule C o))
include hi

theorem Ready.exec_codec_ok {B : Bytes} (hr : rule C (s.operands p) = .ok B) :
    exec i s = .next (s.succeed B) :=
  h.exec_rule (allows_onlyW hW) (formOk_uncompressed _) hi (congrArg Ending.ofOne hr)

theorem Ready.exec_codec_error {e : Failure} (hr : rule C (s.operands p) = .error e) :
    exec i s = .next (s.failWith e.code) :=
  h.exec_rule (allows_onlyW hW) (formOk_uncompressed _) hi (congrArg Ending.ofOne hr)

end

/-- Settles O43: what decodes is in range, so that its canonical value is low. -/
theorem signatureCodec : Obligations.SignatureCodec := by
  intro s c p C hW hodd h A
  refine ⟨h.exec_readsLow hW (exec_siglows c s), h.exec_readsLow hW (exec_siglowder c s),
    fun r v hA => ?_, fun r v hA => ?_, fun e he => ?_, fun e he => ?_⟩
  · obtain ⟨hpos, hlow, heq⟩ := normalS_low hodd (getSigC_eq_ok hA).2
    exact ⟨h.exec_codec_ok hW (exec_sigtoder c s) (bind_of_ok hA _),
      normalS C v, hpos, hlow, heq, h.exec_codec_ok hW (exec_signorm c s) (bind_of_ok hA _)⟩
  · obtain ⟨hpos, hlow, heq⟩ := normalS_low hodd (decodeDER_eq_ok hA).2
    exact ⟨h.exec_codec_ok hW (exec_sigfromder c s) (bind_of_ok hA _),
      normalS C v, hpos, hlow, heq, h.exec_codec_ok hW (exec_signormder c s) (bind_of_ok hA _)⟩
  · exact ⟨h.exec_codec_error hW (exec_sigtoder c s) (bind_of_error he _),
      h.exec_codec_error hW (exec_signorm c s) (bind_of_error he _)⟩
  · exact ⟨h.exec_codec_error hW (exec_sigfromder c s) (bind_of_error he _),
      h.exec_codec_error hW (exec_signormder c s) (bind_of_error he _)⟩

end Sys2Proof.Machine
end

section
/-! PROOFS. Messages as integers and HMAC (44_ecdsa.md R230, R231). -/

namespace Sys2Proof.Machine

/-- A string with no more bits than n is taken whole (R230). -/
theorem bits2int_of_short {C : Ctx} {B : Bytes} (h : 8 * B.length ≤ bitlen C.n) :
    bits2int C B = be2int B := by
  rw [bits2int, Nat.sub_eq_zero_of_le h, pow_zero, Nat.div_one]

/-- Of any string its leftmost bits are taken, and the bits cut off are below their weight (R230). -/
theorem be2int_eq_bits2int_add (C : Ctx) (B : Bytes) :
    ∃ low < 2 ^ (8 * B.length - bitlen C.n),
      be2int B = bits2int C B * 2 ^ (8 * B.length - bitlen C.n) + low :=
  ⟨_, Nat.mod_lt _ (Nat.two_pow_pos _), (Nat.div_add_mod' _ _).symm⟩

theorem messageInt_nil (C : Ctx) : messageInt C [] = 0 := by
  simp [messageInt, bits2int, be2int, le2int]

/-- A padded key is the one string of HBLOCK bytes with these bytes (R231). -/
theorem hmacPad_eq {C : Ctx} {K B : Bytes} {x : Byte} (hK : K.length ≤ C.digest.hblock)
    (hB : B.length = C.digest.hblock)
    (h : ∀ i < C.digest.hblock, B[i]? = some (K.getD i 0 ^^^ x)) : hmacPad C K x = B := by
  have hlen : (hmacPad C K x).length = C.digest.hblock := by
    simp only [hmacPad, List.length_map, List.length_append, List.length_replicate]
    omega
  refine List.ext_getElem? fun i => ?_
  by_cases hi : i < C.digest.hblock
  · rw [h i hi, hmacPad, List.getElem?_map]
    by_cases hiK : i < K.length
    · simp [List.getElem?_append_left hiK, hiK]
    · rw [List.getElem?_append_right (by omega), List.getElem?_replicate_of_lt (by omega)]
      simp [List.getD, List.getElem?_eq_none (Nat.not_lt.1 hiK)]
  · rw [List.getElem?_eq_none (by omega), List.getElem?_eq_none (by omega)]

/-- Settles O60. -/
theorem messageAndHmac : Obligations.MessageAndHmac := by
  intro C
  refine ⟨fun B => ⟨bits2int_of_short, fun _ => be2int_eq_bits2int_add C B, rfl, messageInt_nil C⟩,
    length_hashC C, fun K M inner outer hK hinner houter hpad => ?_⟩
  rw [hmac, hmacPad_eq hK houter fun i hi => (hpad i hi).2, hmacPad_eq hK hinner fun i hi => (hpad i hi).1]

end Sys2Proof.Machine
end

section
/-! PROOFS. The nonce generator and the signing core (44_ecdsa.md R232 to R234): the generator's states are a run of
R232, and a candidate is refused for the reasons of R233 or gives a signature that satisfies the signing equation. -/

namespace Sys2Proof.Machine

/-! ### The generator (R232) -/

/-- The first j blocks `HMAC(K, V) ‖ HMAC(K, HMAC(K, V)) ‖ …` (R232). -/
def nonceBytes (C : Ctx) (K V : Bytes) (j : Nat) : Bytes :=
  (List.range j).flatMap fun i => (hmac C K)^[i + 1] V

theorem nonceBytes_succ (C : Ctx) (K V : Bytes) (j : Nat) :
    nonceBytes C K V (j + 1) = nonceBytes C K V j ++ hmac C K ((hmac C K)^[j] V) := by
  simp [nonceBytes, List.range_succ, Function.iterate_succ_apply']

theorem length_nonceBytes (C : Ctx) (K V : Bytes) (j : Nat) :
    (nonceBytes C K V j).length = j * C.digest.hlen := by
  induction j with
  | zero => simp [nonceBytes]
  | succ j ih => rw [nonceBytes_succ, List.length_append, ih, length_hmac, Nat.succ_mul]

/-- How many blocks of HLEN bytes a candidate takes (R232). -/
def nonceBlocks (C : Ctx) : Nat := (C.ssize + C.digest.hlen - 1) / C.digest.hlen

section
variable {C : Ctx} (hH : 1 ≤ C.digest.hlen)
include hH

/-- The loop of R232 goes on exactly until it has its blocks. -/
theorem lt_nonceBlocks_iff (j : Nat) : j < nonceBlocks C ↔ j * C.digest.hlen < C.ssize := by
  rw [nonceBlocks, ← Nat.succ_le_iff, Nat.le_div_iff_mul_le hH, Nat.succ_mul]
  omega

theorem nonceBlocks_le : nonceBlocks C ≤ C.ssize := by
  have h := (lt_nonceBlocks_iff hH C.ssize).not.2 (Nat.not_lt.2 (Nat.le_mul_of_pos_right _ hH))
  exact Nat.not_lt.1 h

/-- With j blocks collected, enough rounds collect the rest. -/
theorem nonceFill_of_blocks (K V : Bytes) (t j : Nat) (hj : j ≤ nonceBlocks C) (ht : nonceBlocks C ≤ j + t) :
    nonceFill C K t (nonceBytes C K V j) ((hmac C K)^[j] V)
      = (nonceBytes C K V (nonceBlocks C), (hmac C K)^[nonceBlocks C] V) := by
  induction t generalizing j with
  | zero =>
    obtain rfl : j = nonceBlocks C := by omega
    rfl
  | succ t ih =>
    have hlt := lt_nonceBlocks_iff hH j
    rw [nonceFill, length_nonceBytes]
    split
    · next hshort =>
      rw [← nonceBytes_succ, ← Function.iterate_succ_apply' (hmac C K)]
      exact ih (j + 1) (hlt.2 hshort) (by omega)
    · next hfull =>
      obtain rfl : j = nonceBlocks C := by
        have := mt hlt.1 hfull
        omega
      rfl

theorem nonceFill_eq (K V : Bytes) :
    nonceFill C K C.ssize [] V = (nonceBytes C K V (nonceBlocks C), (hmac C K)^[nonceBlocks C] V) :=
  nonceFill_of_blocks hH K V C.ssize 0 (Nat.zero_le _) ((nonceBlocks_le hH).trans (Nat.le_add_left _ _))

end

/-- The generator before candidate i. -/
def nonceAt (C : Ctx) (d e i : Nat) : NonceGen := (nonceAfter C)^[i] (nonceStart C d e)

/-- The bytes candidate i is read from. -/
def nonceBytesAt (C : Ctx) (d e i : Nat) : Bytes :=
  (nonceFill C (nonceAt C d e i).key C.ssize [] (nonceAt C d e i).v).1

theorem nonceAt_succ (C : Ctx) (d e i : Nat) : nonceAt C d e (i + 1) = nonceAfter C (nonceAt C d e i) :=
  Function.iterate_succ_apply' _ _ _

/-- The model's generator runs as R232 says. -/
theorem nonceRun_nonceAt {C : Ctx} (hH : 1 ≤ C.digest.hlen) (d e : Nat) :
    NonceRun C d e (fun i => (nonceAt C d e i).key) (fun i => (nonceAt C d e i).v) (nonceBytesAt C d e) where
  start := ⟨_, _, rfl, rfl, rfl, rfl⟩
  next i := by
    simp only [nonceAt_succ, nonceBytesAt, nonceAfter, nonceUpdate, nonceFill_eq hH]
    exact ⟨rfl, rfl, rfl⟩

/-! ### One candidate (R233, R234) -/

/-- The value of s that a candidate k gives, before it is made low (R233 step 4). -/
def signValue (C : Ctx) (d e k r : Nat) : Nat := inv C.n k * (e + r * d) % C.n

/-- What R233 and R234 say of a signature from the candidate k whose point is `(x, y)`, with v the value of s
before it is made low. -/
structure SignedWith (C : Ctx) (d e k x y v : Nat) (sig : Signature) : Prop where
  nonce_pos : 1 ≤ k
  nonce_lt : k < C.n
  point : mulG C.toCurve k = .aff x y
  r_eq : sig.r = x % C.n
  r_pos : 0 < sig.r
  v_lt : v < C.n
  equation : k * v % C.n = (e + sig.r * d) % C.n
  s_pos : 0 < sig.s
  s_low : sig.s ≤ (C.n - 1) / 2
  side : sig.s = v ∧ sig.recid.toNat % 2 = y % 2 ∨ sig.s = C.n - v ∧ sig.recid.toNat % 2 ≠ y % 2
  overflow : 2 ≤ sig.recid.toNat ↔ C.n ≤ x

/-- The recovery id before s is made low (R234). -/
def recoveryId (C : Ctx) (x y : Nat) : BitVec 2 := BitVec.ofNat 2 (y % 2 + 2 * (if C.n ≤ x then 1 else 0))

theorem recoveryId_parity (C : Ctx) (x y : Nat) : (recoveryId C x y).toNat % 2 = y % 2 := by
  rw [recoveryId, BitVec.toNat_ofNat]
  omega

theorem recoveryId_overflow (C : Ctx) (x y : Nat) : 2 ≤ (recoveryId C x y).toNat ↔ C.n ≤ x := by
  rw [recoveryId, BitVec.toNat_ofNat]
  split <;> omega

/-- The flip of bit 0 keeps bit 1 (R233 step 5). -/
theorem flipped_recid (id : BitVec 2) :
    (id ^^^ 1).toNat % 2 ≠ id.toNat % 2 ∧ (2 ≤ (id ^^^ 1).toNat ↔ 2 ≤ id.toNat) := by
  decide +revert

section
variable {C : Ctx} {d e k : Nat}

/-- The core on a candidate in range whose multiple of G has coordinates (R233). -/
theorem signWith_of_point {x y : Nat} (h1 : 1 ≤ k) (hk : k < C.n) (hR : mulG C.toCurve k = .aff x y) :
    signWith C d e k =
      if x % C.n = 0 ∨ signValue C d e k (x % C.n) = 0 then none
      else if lowS C (signValue C d e k (x % C.n)) then
        some ⟨x % C.n, signValue C d e k (x % C.n), recoveryId C x y⟩
      else some ⟨x % C.n, C.n - signValue C d e k (x % C.n), recoveryId C x y ^^^ 1⟩ := by
  rw [signWith, if_neg (by omega), hR]
  rfl

theorem signWith_of_out_of_range (h : k = 0 ∨ C.n ≤ k) : signWith C d e k = none := by
  rw [signWith, if_pos h]

theorem signWith_of_inf (h : mulG C.toCurve k = .inf) : signWith C d e k = none := by
  rw [signWith, h, ite_self]

variable (hn : C.n.Prime)
include hn

/-- The value of s solves `k·s = e + r·d` (R233 step 4). -/
theorem mul_signValue (h1 : 1 ≤ k) (hk : k < C.n) (r : Nat) :
    k * signValue C d e k r % C.n = (e + r * d) % C.n := by
  have hinv := inv_mul_mod hn (a := k) (by rw [Nat.mod_eq_of_lt hk]; omega)
  rw [signValue, Nat.mul_mod_mod, ← mul_assoc, Nat.mul_mod, hinv, one_mul, Nat.mod_mod]

theorem signValue_eq_zero_iff (h1 : 1 ≤ k) (hk : k < C.n) (r : Nat) :
    signValue C d e k r = 0 ↔ (e + r * d) % C.n = 0 := by
  constructor
  · intro h
    rw [← mul_signValue hn h1 hk, h, mul_zero, Nat.zero_mod]
  · intro h
    rw [signValue, Nat.mul_mod, h, mul_zero, Nat.zero_mod]

/-- A candidate gives no signature exactly for the reasons of R233. -/
theorem signWith_eq_none_iff : signWith C d e k = none ↔ NonceRejected C e d k := by
  unfold NonceRejected
  by_cases hrange : k = 0 ∨ C.n ≤ k
  · exact iff_of_true (signWith_of_out_of_range hrange) (hrange.imp_right .inl)
  have h1 : 1 ≤ k := by omega
  have hk : k < C.n := by omega
  cases hR : mulG C.toCurve k with
  | inf => exact iff_of_true (signWith_of_inf hR) (.inr (.inr (.inl rfl)))
  | aff x y =>
    simp only [signWith_of_point h1 hk hR, signValue_eq_zero_iff hn h1 hk]
    by_cases h0 : x % C.n = 0 ∨ (e + x % C.n * d) % C.n = 0
    · rw [if_pos h0]
      exact iff_of_true rfl (.inr (.inr (.inr ⟨x, y, rfl, h0⟩)))
    · rw [if_neg h0]
      refine iff_of_false (by split <;> simp) ?_
      rintro (hk0 | hkn | hinf | ⟨x', y', hxy, h0'⟩)
      · omega
      · omega
      · cases hinf
      · cases hxy
        exact h0 h0'

/-- Every signature a candidate gives is one of R233 and R234. -/
theorem signedWith_of_signWith (hodd : C.n % 2 = 1) {sig : Signature} (h : signWith C d e k = some sig) :
    ∃ x y v, SignedWith C d e k x y v sig := by
  by_cases hrange : k = 0 ∨ C.n ≤ k
  · rw [signWith_of_out_of_range hrange] at h
    cases h
  have h1 : 1 ≤ k := by omega
  have hk : k < C.n := by omega
  cases hR : mulG C.toCurve k with
  | inf =>
    rw [signWith_of_inf hR] at h
    cases h
  | aff x y =>
    rw [signWith_of_point h1 hk hR] at h
    have hv : signValue C d e k (x % C.n) < C.n := Nat.mod_lt _ hn.pos
    have heq := mul_signValue (d := d) (e := e) hn h1 hk (x % C.n)
    have hpar := recoveryId_parity C x y
    have hover := recoveryId_overflow C x y
    split at h
    · cases h
    next h0 =>
    refine ⟨x, y, signValue C d e k (x % C.n), ?_⟩
    split at h
    · next hlow =>
      cases h
      exact ⟨h1, hk, hR, rfl, by dsimp only; omega, hv, heq, by dsimp only; omega, of_decide_eq_true hlow,
        .inl ⟨rfl, hpar⟩, hover⟩
    · next hhigh =>
      rw [lowS, decide_eq_true_eq] at hhigh
      obtain ⟨hflip, hbit1⟩ := flipped_recid (recoveryId C x y)
      cases h
      exact ⟨h1, hk, hR, rfl, by dsimp only; omega, hv, heq, by dsimp only; omega, by dsimp only; omega,
        .inr ⟨rfl, hpar ▸ hflip⟩, hbit1.trans hover⟩

end

/-! ### The core (R233) -/

section
variable {C : Ctx} {msg : Bytes} {d : Nat} (hn : C.n.Prime)
include hn

theorem signCore_eq_none_iff : signCore C msg d = none ↔
    ∀ i, NonceRejected C (messageInt C msg) d (bits2int C (nonceBytesAt C d (messageInt C msg) i)) := by
  constructor
  · exact fun h i => (signWith_eq_none_iff hn).1 (signSearch_exhausted C d _ (sized_nonceStart _ _ _) h i)
  · exact fun h => (signSearch_eq_none _ _ _ _ _).2 fun i _ => (signWith_eq_none_iff hn).2 (h i)

/-- Every signature of the core is that of the first candidate accepted. -/
theorem signCore_eq_some (hodd : C.n % 2 = 1) {sig : Signature} (h : signCore C msg d = some sig) :
    ∃ j, (∀ i < j, NonceRejected C (messageInt C msg) d (bits2int C (nonceBytesAt C d (messageInt C msg) i)))
      ∧ ∃ x y v,
        SignedWith C d (messageInt C msg) (bits2int C (nonceBytesAt C d (messageInt C msg) j)) x y v sig := by
  obtain ⟨j, -, hj, hbefore⟩ := (signSearch_eq_some _ _ _ _ _ _).1 h
  exact ⟨j, fun i hi => (signWith_eq_none_iff hn).1 (hbefore i hi), signedWith_of_signWith hn hodd hj⟩

end

/-- Settles O46. -/
theorem signatureEquation : Obligations.SignatureEquation := by
  intro C msg d hn hodd hH e
  refine ⟨_, _, _, nonceRun_nonceAt hH d e, signCore_eq_none_iff hn, fun sig hsig => ?_⟩
  obtain ⟨j, hbefore, x, y, v, h⟩ := signCore_eq_some hn hodd hsig
  exact ⟨h.r_pos, h.r_eq ▸ Nat.mod_lt _ hn.pos, h.s_pos, h.s_low, j, x, y, v, hbefore, h.nonce_pos, h.nonce_lt,
    h.point, h.r_eq, h.equation, h.v_lt, h.side, h.overflow⟩

end Sys2Proof.Machine
end

section
/-! PROOFS. The ECDSA commands (44_ecdsa.md R235 to R238): the rule of each as equations, one per way it can go,
and what a ready command ends with. -/

namespace Sys2Proof.Machine

/-! ### The meaning each command has -/

section
variable (c : BitVec 4) (der : Bool) (s : State)

theorem exec_ecsign : exec (.ecsign c der) s = execEcsign c der s := rfl

theorem exec_ecsignr : exec (.ecsignr c der) s = execEcsignr c der s := rfl

theorem exec_ecvfy : exec (.ecvfy c der) s = execEcvfy c der s := rfl

theorem exec_ecrcv (f : PointForm) (rid : BitVec 2) :
    exec (.ecrcv c f der rid) s = execEcrcv c f der rid s := rfl

end

/-- A signature that is read is in range (43_signature_codec.md R210, R213). -/
theorem readSig_inRange {C : Ctx} {der : Bool} {B : Bytes} {r v : Nat} (h : readSig C der B = .ok (r, v)) :
    SigInRange C r v := by
  cases der with
  | false => exact (getSigC_eq_ok h).2
  | true => exact (decodeDER_eq_ok h).2

theorem SigInRange.mod_ne_zero {C : Ctx} {r v : Nat} (h : SigInRange C r v) : r % C.n ≠ 0 ∧ v % C.n ≠ 0 := by
  obtain ⟨hr, hrn, hv, hvn⟩ := h
  rw [Nat.mod_eq_of_lt hrn, Nat.mod_eq_of_lt hvn]
  omega

/-! ### Signing (R235, R236) -/

section
variable {C : Ctx} {der id : Bool} {msg priv : Bytes}

theorem signRule_some {d : Nat} {sig : Signature} (hd : getSK C priv = .ok d)
    (hsig : signCore C msg d = some sig) : signRule C der id msg priv =
      some (.afterMulG (.results (writeSig C der sig.r sig.s) none (if id then sig.recid else 0))) := by
  rw [signRule, hd]
  dsimp only
  rw [hsig]

theorem signRule_stuck {d : Nat} (hd : getSK C priv = .ok d) (hsig : signCore C msg d = none) :
    signRule C der id msg priv = none := by
  rw [signRule, hd]
  dsimp only
  rw [hsig]

theorem signRule_error {e : Failure} (he : getSK C priv = .error e) :
    signRule C der id msg priv = some (.fail .invalidScalar) := by
  obtain rfl := getSK_error_eq he
  rw [signRule, he]

/-- What ECSIGN and ECSIGNR end with, by their rule. -/
theorem Ready.exec_sign {s : State} {c : BitVec 4} {p : Pending} {i : Instr} {x : Option Ending}
    (hW : kindW C.toCurve) (h : Ready s c 2 p C)
    (hi : exec i s = runCommand s c ⟨.onlyW, .uncompressed, .nothing, 2⟩ fun C o => signRule C der id o.a0 o.a1)
    (hx : signRule C der id (s.operands p).a0 (s.operands p).a1 = x) :
    exec i s = x.elim (.fault .nonceNeverAccepted) fun e => .next (s.complete c e) := by
  rw [hi, runCommand_ready h _ (allows_onlyW hW) (formOk_uncompressed _) rfl, hx]
  cases x <;> rfl

end

/-- Settles O45. -/
theorem ecdsaSign : Obligations.EcdsaSign := by
  intro s c der p C hW h M K
  refine ⟨fun d sig hd hsig => ⟨?_, ?_⟩, fun d hd hsig => ⟨?_, ?_⟩, fun e he => ⟨?_, ?_⟩⟩
  · rw [h.exec_sign hW (exec_ecsign c der s) (signRule_some hd hsig), Option.elim_some, complete_afterMulG]
    rfl
  · rw [h.exec_sign hW (exec_ecsignr c der s) (signRule_some hd hsig), Option.elim_some, complete_afterMulG]
    rfl
  · exact h.exec_sign hW (exec_ecsign c der s) (signRule_stuck hd hsig)
  · exact h.exec_sign hW (exec_ecsignr c der s) (signRule_stuck hd hsig)
  · exact h.exec_sign hW (exec_ecsign c der s) (signRule_error he)
  · exact h.exec_sign hW (exec_ecsignr c der s) (signRule_error he)

/-! ### Verification (R237) -/

/-- The recomputed point has coordinates, and its x is r modulo n. -/
def xMatches (C : Ctx) (r : Nat) : Point → Bool
  | .inf => false
  | .aff x _ => decide (x % C.n = r)

theorem xMatches_iff (C : Ctx) (r : Nat) (P : Point) :
    xMatches C r P = true ↔ ∃ x y, x % C.n = r ∧ P = .aff x y := by
  cases P <;> simp [xMatches]

section
variable {C : Ctx} {der : Bool} {msg sig pub : Bytes}

theorem verifyRule_malformed (h : (∃ e, readSig C der sig = .error e) ∨ ∃ e, getPK C pub = .error e) :
    verifyRule C der msg sig pub = .plain (.verified false) := by
  unfold verifyRule
  split
  · rfl
  · rfl
  · next hsig hpub =>
    rw [hsig, hpub] at h
    simp at h

theorem verifyRule_decoded {r v : Nat} {Q : Point} (hsig : readSig C der sig = .ok (r, v))
    (hpub : getPK C pub = .ok Q) : verifyRule C der msg sig pub =
      .afterMulG (.verified (xMatches C r (verifyPoint C (messageInt C msg) r v Q))) := by
  rw [verifyRule, hsig, hpub]
  dsimp only
  cases verifyPoint C (messageInt C msg) r v Q <;> rfl

variable {s : State} {c : BitVec 4} {p : Pending} (hW : kindW C.toCurve) (h : Ready s c 3 p C)
include hW h

theorem Ready.exec_ecvfy_malformed (hbad : (∃ e, readSig C der (s.operands p).a1 = .error e)
    ∨ ∃ e, getPK C (s.operands p).a2 = .error e) : exec (.ecvfy c der) s = .next (s.verdict false) :=
  h.exec_rule (allows_onlyW hW) (formOk_uncompressed _) (exec_ecvfy c der s) (verifyRule_malformed hbad)

theorem Ready.exec_ecvfy_decoded {r v : Nat} {Q : Point} (hsig : readSig C der (s.operands p).a1 = .ok (r, v))
    (hpub : getPK C (s.operands p).a2 = .ok Q) :
    exec (.ecvfy c der) s = .next ((s.verdict
      (xMatches C r (verifyPoint C (messageInt C (s.operands p).a0) r v Q))).withTable c) := by
  rw [h.exec_rule (allows_onlyW hW) (formOk_uncompressed _) (exec_ecvfy c der s) (verifyRule_decoded hsig hpub),
    complete_afterMulG, complete_verified]

end

/-- Settles O47. -/
theorem ecdsaVerify : Obligations.EcdsaVerify := by
  intro s c der p C hW h M S K sig
  refine ⟨h.exec_ecvfy_malformed hW, fun r v Q hsig hQ hn => ?_⟩
  obtain ⟨-, hv⟩ := (readSig_inRange (der := der) hsig).mod_ne_zero
  exact ⟨_, inv C.n v, inv_mul_mod hn hv, inv_lt hn.pos v, h.exec_ecvfy_decoded hW hsig hQ, xMatches_iff _ _ _⟩

/-! ### Recovery (R238) -/

/-- The x that r and the overflow bit of a recovery id stand for (R238). -/
def recoveredX (C : Ctx) (r : Nat) (rid : BitVec 2) : Nat := r + rid.toNat / 2 * C.n

/-- The key that belongs to a commitment R: `r⁻¹·(v·R − e·G)` (R238). -/
def recoveredKey (C : Ctx) (e r v : Nat) (R : Point) : Point :=
  mul C.toCurve (inv C.n r) (add C.toCurve (mul C.toCurve v R) (neg C.toCurve (mulG C.toCurve e)))

/-- How ECRCV ends with a recovered point, before the table bit (R238). -/
def State.recoveryEnd (s : State) (C : Ctx) (Q : Point) (f : PointForm) : State :=
  if Q = .inf then s.nullResult else s.succeed (putPT C Q f)

/-- Bit 0 of a recovery id asks for a parity (R234). -/
theorem recid_bit0 (rid : BitVec 2) : (if rid.getLsbD 0 then 1 else 0) = rid.toNat % 2 := by
  decide +revert

/-- Bit 1 of a recovery id says whether x reached n (R234). -/
theorem recid_bit1 (rid : BitVec 2) (n : Nat) : (if rid.getLsbD 1 then n else 0) = rid.toNat / 2 * n := by
  have hbit : rid.toNat / 2 = if rid.getLsbD 1 then 1 else 0 := by decide +revert
  rw [hbit, ite_mul, one_mul, zero_mul]

section
variable {C : Ctx} {r : Nat} {rid : BitVec 2}

variable (hC : SoundCurve C.toCurve) (hW : kindW C.toCurve)
include hC hW

/-- A commitment is found exactly where the x is below p and has a y of the parity asked for. -/
theorem recoverCommitment_eq_some_iff {R : Point} : recoverCommitment C r rid = some R ↔
    recoveredX C r rid < C.p ∧ ∃ y, R = .aff (recoveredX C r rid) y ∧ y < C.p ∧ y % 2 = rid.toNat % 2
      ∧ Equation C.toCurve (recoveredX C r rid) y := by
  simp only [recoverCommitment, recid_bit0, recid_bit1, recoveredX]
  constructor
  · intro h
    split at h
    · cases h
    next hx =>
    split at h
    · cases h
    · cases h
    · next y hy =>
      cases h
      obtain ⟨hlt, hpar, hroot⟩ := rootOfParity_found_spec hC.prime.pos hy
      exact ⟨Nat.not_le.1 hx, y, rfl, hlt, hpar, (equation_iff_root_W hW _ _).2 hroot⟩
  · rintro ⟨hx, y, rfl, hlt, hpar, heq⟩
    rw [if_neg (Nat.not_le.2 hx),
      rootOfParity_eq_found hC.prime hC.ne_two hlt hpar ((equation_iff_root_W hW _ _).1 heq)]

end

section
variable {C : Ctx} {f : PointForm} {der : Bool} {rid : BitVec 2} {msg sig : Bytes}

theorem recoverRule_malformed {e : Failure} (he : readSig C der sig = .error e) :
    recoverRule C f der rid msg sig = .plain .null := by
  rw [recoverRule, he]

variable {r v : Nat} (hsig : readSig C der sig = .ok (r, v))
include hsig

theorem recoverRule_no_commitment (hR : recoverCommitment C r rid = none) :
    recoverRule C f der rid msg sig = .plain .null := by
  rw [recoverRule, hsig]
  dsimp only
  rw [hR]

theorem recoverRule_commitment {R : Point} (hR : recoverCommitment C r rid = some R) :
    recoverRule C f der rid msg sig =
      .afterMulG (if recoveredKey C (messageInt C msg) r v R = .inf then .null
        else .results (putPT C (recoveredKey C (messageInt C msg) r v R) f) none 0) := by
  rw [recoverRule, hsig]
  dsimp only
  rw [hR]
  rfl

end

section
variable {C : Ctx} {s : State} {c : BitVec 4} {p : Pending} {f : PointForm} {der : Bool} {rid : BitVec 2}
  (hW : kindW C.toCurve) (hf : FormOk C.toCurve f) (h : Ready s c 2 p C)
include hW hf h

theorem Ready.exec_ecrcv_malformed {e : Failure} (he : readSig C der (s.operands p).a1 = .error e) :
    exec (.ecrcv c f der rid) s = .next s.nullResult :=
  h.exec_rule (allows_onlyW hW) hf (exec_ecrcv c der s f rid) (recoverRule_malformed he)

variable {r v : Nat} (hsig : readSig C der (s.operands p).a1 = .ok (r, v))
include hsig

theorem Ready.exec_ecrcv_no_commitment (hR : recoverCommitment C r rid = none) :
    exec (.ecrcv c f der rid) s = .next s.nullResult :=
  h.exec_rule (allows_onlyW hW) hf (exec_ecrcv c der s f rid) (recoverRule_no_commitment hsig hR)

theorem Ready.exec_ecrcv_commitment {R : Point} (hR : recoverCommitment C r rid = some R) :
    exec (.ecrcv c f der rid) s = .next ((s.recoveryEnd C
      (recoveredKey C (messageInt C (s.operands p).a0) r v R) f).withTable c) := by
  rw [h.exec_rule (allows_onlyW hW) hf (exec_ecrcv c der s f rid) (recoverRule_commitment hsig hR), complete_afterMulG,
    State.recoveryEnd]
  split <;> rfl

end

/-- Settles O48. -/
theorem ecdsaRecover : Obligations.EcdsaRecover := by
  intro s c f der rid p C hW hf h hC M S sig
  refine ⟨fun ⟨e, he⟩ => h.exec_ecrcv_malformed hW hf he, fun r v hsig => ⟨fun hno => ?_,
    fun y hx hy hpar heq => ?_⟩⟩
  · refine h.exec_ecrcv_no_commitment hW hf hsig (Option.eq_none_iff_forall_ne_some.2 fun R hR => ?_)
    obtain ⟨hx, y, -, hy⟩ := (recoverCommitment_eq_some_iff hC hW).1 hR
    exact hno.elim (Nat.not_le.2 hx) fun hnone => hnone ⟨y, hy⟩
  · obtain ⟨hr, -⟩ := (readSig_inRange (der := der) hsig).mod_ne_zero
    exact ⟨inv C.n r, inv_mul_mod hC.order_prime hr, inv_lt hC.order_prime.pos r, h.exec_ecrcv_commitment hW hf hsig
      ((recoverCommitment_eq_some_iff hC hW).2 ⟨hx, y, rfl, hy, hpar, heq⟩)⟩

end Sys2Proof.Machine
end

section
/-! PROOFS. What a signature of the signing core gives its verifier (44_ecdsa.md R239): it verifies under the signer's
key, and recovery gives that key back with its id and with no other. The signature is that of one multiple `k'·G`,
the commitment or its negative, with `k'·s = e + r·d` modulo n; both commands come down to it. -/

namespace Sys2Proof.Machine

/-! ### What R4 gives besides -/

theorem SoundCurve.order_odd {C : Curve} (h : SoundCurve C) : C.n % 2 = 1 := by
  obtain ⟨-, -, -, -, hodd, -⟩ := h
  exact hodd

theorem not_kindE_of_kindW {C : Curve} (h : kindW C) : ¬ kindE C := by
  obtain ⟨a, b, hW⟩ := h
  rintro ⟨ea, d, hE⟩
  cases hW.symm.trans hE

theorem mulG_valid {C : Curve} (hC : SoundCurve C) (k : Nat) : validPoint C (mulG C k) = true :=
  (mul_succ_and_valid hC hC.base_valid k).2

/-! ### Differences and multiples in the group (41_curve_group.md R143, R145) -/

section
variable {C : Curve} (hC : SoundCurve C) (hW : kindW C)
include hC hW

/-- A difference is what makes the sum. -/
theorem add_neg_eq_iff {A B X : Point} (hA : validPoint C A = true) (hB : validPoint C B = true)
    (hX : validPoint C X = true) : add C A (neg C B) = X ↔ A = add C X B := by
  obtain ⟨a, b, hs⟩ := hW
  have hg := hC.goodW hs
  obtain ⟨hN, hBN⟩ := neg_valid_and_add_neg_W hs hB
  constructor
  · rintro rfl
    rw [add_assoc_W hg hA hN hB, add_comm_W hg hN hB, hBN, add_inf_W hs]
  · rintro rfl
    rw [add_assoc_W hg hX hB hN, hBN, add_inf_W hs]

/-- A multiple of a sum. -/
theorem mul_add_points {P Q : Point} (hP : validPoint C P = true) (hQ : validPoint C Q = true) (k : Nat) :
    mul C k (add C P Q) = add C (mul C k P) (mul C k Q) := by
  obtain ⟨a, b, hs⟩ := hW
  have hg := hC.goodW hs
  have : Fact C.p.Prime := ⟨hC.prime⟩
  have hPQ := add_valid hg hP hQ
  have hkP := mul_valid hg hP k
  have hkQ := mul_valid hg hQ k
  apply toW_injective hg (mul_valid hg hPQ k) (add_valid hg hkP hkQ)
  rw [(mul_toW hg hPQ k).2, (add_toW hg hP hQ).2, (add_toW hg hkP hkQ).2, (mul_toW hg hP k).2, (mul_toW hg hQ k).2,
    nsmul_add]

/-- The negative of `k·G` is the multiple `(n − k)·G`. -/
theorem neg_mulG {k : Nat} (hk : k ≤ C.n) : neg C (mulG C k) = mulG C (C.n - k) := by
  have hinf := validPoint_inf_of_kindW hW
  have hsum : Point.inf = add C (mulG C (C.n - k)) (mulG C k) := by
    obtain ⟨a, b, hs⟩ := hW
    calc Point.inf = mulG C C.n := (hC.mulG_order.trans (identity_W (hC.goodW hs))).symm
      _ = mulG C (C.n - k + k) := by rw [Nat.sub_add_cancel hk]
      _ = add C (mulG C (C.n - k)) (mulG C k) := hC.sum_multiple hC.base_valid _ _
  have hneg := (add_neg_eq_iff hC hW hinf (mulG_valid hC k) (mulG_valid hC _)).2 hsum
  obtain ⟨a, b, hs⟩ := hW
  rwa [inf_add_W hs] at hneg

/-- No multiple of G other than the identity is its own negative: none has a y equal to 0. -/
theorem mulG_y_pos {k x y : Nat} (h1 : 1 ≤ k) (hk : k < C.n) (h : mulG C k = .aff x y) : 0 < y := by
  obtain ⟨a, b, hs⟩ := hW
  refine Nat.pos_of_ne_zero fun h0 => ?_
  have hsum : mulG C (k + k) = identity C := by
    rw [show mulG C (k + k) = add C (mulG C k) (mulG C k) from hC.sum_multiple hC.base_valid k k, h, h0,
      add_of_weierstrass hs, identity_W (hC.goodW hs)]
    exact if_pos ⟨rfl, Nat.zero_mod _⟩
  refine mulG_ne_identity hC (fun hmod => ?_) hsum
  rw [← Nat.dvd_iff_mod_eq_zero, ← two_mul, hC.order_prime.dvd_mul] at hmod
  rcases hmod with htwo | hdvd
  · have := Nat.le_of_dvd two_pos htwo
    have := hC.order_prime.two_le
    have := hC.order_odd
    omega
  · exact Nat.not_dvd_of_pos_of_lt h1 hk hdvd

end

/-! ### The points n kills -/

/-- A point of the curve that n kills. -/
structure KilledByOrder (C : Curve) (P : Point) : Prop where
  valid : validPoint C P = true
  killed : mul C C.n P = .inf

section
variable {C : Curve} (hC : SoundCurve C) (hW : kindW C)
include hC hW

theorem mul_inf (k : Nat) : mul C k .inf = .inf := by
  obtain ⟨a, b, hs⟩ := hW
  have hg := hC.goodW hs
  have h := mul_mul_W hg hC.base_valid k 0
  rwa [mul_zero_W hg, Nat.mul_zero, mul_zero_W hg] at h

theorem KilledByOrder.multiple {P : Point} (h : KilledByOrder C P) (k : Nat) : KilledByOrder C (mul C k P) where
  valid := (mul_succ_and_valid hC h.valid k).2
  killed := by
    rw [hC.multiple_multiple h.valid, mul_comm, ← hC.multiple_multiple h.valid, h.killed, mul_inf hC hW]

theorem killedByOrder_mulG (k : Nat) : KilledByOrder C (mulG C k) := by
  have hid : identity C = .inf := by
    obtain ⟨a, b, hs⟩ := hW
    exact identity_W (hC.goodW hs)
  exact KilledByOrder.multiple hC hW ⟨hC.base_valid, hC.mulG_order.trans hid⟩ k

theorem KilledByOrder.difference {P Q : Point} (hP : KilledByOrder C P) (hQ : KilledByOrder C Q) :
    KilledByOrder C (add C P (neg C Q)) := by
  have hinf := validPoint_inf_of_kindW hW
  obtain ⟨a, b, hs⟩ := id hW
  obtain ⟨hN, -⟩ := neg_valid_and_add_neg_W hs hQ.valid
  have hvalid := add_valid (hC.goodW hs) hP.valid hN
  refine ⟨hvalid, ?_⟩
  have hsum := (add_neg_eq_iff hC hW hP.valid hQ.valid hvalid).1 rfl
  have hkill := congrArg (mul C C.n) hsum
  rwa [mul_add_points hC hW hvalid hQ.valid, hP.killed, hQ.killed, add_inf_W hs, eq_comm] at hkill

/-- On a point n kills, the inverse of a modulo n undoes the multiple by a. -/
theorem KilledByOrder.mul_of_mul_mod_eq_one {P : Point} (h : KilledByOrder C P) {k l : Nat}
    (hkl : k * l % C.n = 1) : mul C k (mul C l P) = P := by
  obtain ⟨a, b, hs⟩ := hW
  have hg := hC.goodW hs
  rw [mul_mul_W hg h.valid, ← mul_mod_W hg h.valid h.killed, hkl, mul_one_W hg h.valid]

theorem KilledByOrder.inv_mul_eq_iff {P Q : Point} (hP : KilledByOrder C P) (hQ : KilledByOrder C Q) {a : Nat}
    (ha : a % C.n ≠ 0) : mul C (inv C.n a) P = Q ↔ P = mul C a Q := by
  have hinv := inv_mul_mod hC.order_prime ha
  constructor
  · rintro rfl
    exact (hP.mul_of_mul_mod_eq_one hC hW hinv).symm
  · rintro rfl
    exact hQ.mul_of_mul_mod_eq_one hC hW (mul_comm a _ ▸ hinv)

end

/-! ### The multiple a signature stands for -/

/-- The signature is that of `k'·G = (x, y')` with `k'·s = e + r·d`, and its id tells x and y' (R233, R234). -/
structure SignatureOf (C : Ctx) (d e k' x y' : Nat) (sig : Signature) : Prop where
  range : SigInRange C sig.r sig.s
  point : mulG C.toCurve k' = .aff x y'
  r_eq : sig.r = x % C.n
  equation : k' * sig.s % C.n = (e + sig.r * d) % C.n
  parity : y' % 2 = sig.recid.toNat % 2
  overflow : 2 ≤ sig.recid.toNat ↔ C.n ≤ x

/-- Negating both factors keeps a product modulo n. -/
theorem sub_mul_sub_mod_eq {n a b : Nat} (ha : a ≤ n) (hb : b ≤ n) : (n - a) * (n - b) % n = a * b % n := by
  rw [← ZMod.natCast_eq_natCast_iff']
  simp [Nat.cast_sub ha, Nat.cast_sub hb]

/-- The multiple is the commitment where s is the value computed, its negative where s was made low (R233). -/
theorem SignedWith.signatureOf {C : Ctx} {d e k x y v : Nat} {sig : Signature} (hC : SoundCurve C.toCurve)
    (hW : kindW C.toCurve) (h : SignedWith C d e k x y v sig) : ∃ k' y', SignatureOf C d e k' x y' sig := by
  have hlow := h.s_low
  have hk := h.nonce_pos
  have hkn := h.nonce_lt
  have hrange : SigInRange C sig.r sig.s :=
    ⟨h.r_pos, h.r_eq ▸ Nat.mod_lt _ hC.order_prime.pos, h.s_pos, by omega⟩
  rcases h.side with ⟨hs, hpar⟩ | ⟨hs, hpar⟩
  · exact ⟨k, y, hrange, h.point, h.r_eq, hs ▸ h.equation, hpar.symm, h.overflow⟩
  · have hy := mulG_y_pos hC hW hk hkn h.point
    have hp : C.p % 2 = 1 := hC.prime.eq_two_or_odd.resolve_left hC.ne_two
    have hvalid := mulG_valid hC k
    rw [h.point] at hvalid
    obtain ⟨-, hyp, -⟩ := (onCurve_iff_equation _ _ _).1 hvalid
    have hpoint : mulG C.toCurve (C.n - k) = .aff x (C.p - y) := by
      rw [← neg_mulG hC hW hkn.le, h.point]
      obtain ⟨a, b, hshape⟩ := hW
      simp only [neg, hshape]
      rw [Nat.mod_eq_of_lt (by omega)]
    refine ⟨C.n - k, C.p - y, hrange, hpoint, h.r_eq, ?_, by omega, h.overflow⟩
    rw [hs, sub_mul_sub_mod_eq hkn.le h.v_lt.le]
    exact h.equation

theorem signCore_signatureOf {C : Ctx} {msg : Bytes} {d : Nat} {sig : Signature} (hC : SoundCurve C.toCurve)
    (hW : kindW C.toCurve) (h : signCore C msg d = some sig) :
    sig.s ≤ (C.n - 1) / 2 ∧ ∃ k' x y', SignatureOf C d (messageInt C msg) k' x y' sig := by
  obtain ⟨j, -, x, y, v, hsig⟩ := signCore_eq_some hC.order_prime hC.order_odd h
  obtain ⟨k', y', hof⟩ := hsig.signatureOf hC hW
  exact ⟨hsig.s_low, k', x, y', hof⟩

/-! ### The points of verification and recovery -/

section
variable {C : Ctx} {d e k' x y' : Nat} {sig : Signature} (hC : SoundCurve C.toCurve)
  (h : SignatureOf C d e k' x y' sig)
include hC h

/-- The signing equation, solved for the multiple. -/
theorem SignatureOf.mulG_solved : mulG C.toCurve (inv C.n sig.s * (e + sig.r * d)) = mulG C.toCurve k' := by
  obtain ⟨-, hs⟩ := h.range.mod_ne_zero
  rw [← mulG_mod hC, Nat.mul_mod, ← h.equation, ← Nat.mul_mod,
    show inv C.n sig.s * (k' * sig.s) = k' * (sig.s * inv C.n sig.s) by ring, Nat.mul_mod,
    inv_mul_mod hC.order_prime hs, mul_one, Nat.mod_mod, mulG_mod hC]

/-- The point ECVFY recomputes is the multiple (R237). -/
theorem SignatureOf.verifyPoint_eq : verifyPoint C e sig.r sig.s (mulG C.toCurve d) = mulG C.toCurve k' := by
  have hscalar : (e * inv C.n sig.s % C.n + d * (sig.r * inv C.n sig.s % C.n) % C.n) % C.n
      = inv C.n sig.s * (e + sig.r * d) % C.n := by
    rw [← ZMod.natCast_eq_natCast_iff']
    simp only [Nat.cast_add, Nat.cast_mul, ZMod.natCast_mod]
    ring
  rw [verifyPoint, ← mulG_product_mod hC, ← mulG_sum_mod hC, hscalar, mulG_mod hC, h.mulG_solved hC]

/-- The key of a point R that n kills is the signer's exactly where R is the multiple (R238, R239). -/
theorem SignatureOf.recoveredKey_eq_iff (hW : kindW C.toCurve) {R : Point} (hR : KilledByOrder C.toCurve R) :
    recoveredKey C e sig.r sig.s R = mulG C.toCurve d ↔ R = mulG C.toCurve k' := by
  obtain ⟨hr, hs⟩ := h.range.mod_ne_zero
  have hG := killedByOrder_mulG hC hW
  have hsR := hR.multiple hC hW sig.s
  have hrd := (hG d).multiple hC hW sig.r
  have hsum : add C.toCurve (mul C.toCurve sig.r (mulG C.toCurve d)) (mulG C.toCurve e)
      = mulG C.toCurve (e + sig.r * d) := by
    rw [← mulG_product_mod hC, ← mulG_sum_mod hC, Nat.mod_add_mod, mulG_mod hC]
    congr 1
    ring
  calc recoveredKey C e sig.r sig.s R = mulG C.toCurve d
      ↔ add C.toCurve (mul C.toCurve sig.s R) (neg C.toCurve (mulG C.toCurve e))
          = mul C.toCurve sig.r (mulG C.toCurve d) := (hsR.difference hC hW (hG e)).inv_mul_eq_iff hC hW (hG d) hr
    _ ↔ mul C.toCurve sig.s R = mulG C.toCurve (e + sig.r * d) := by
        rw [add_neg_eq_iff hC hW hsR.valid (hG e).valid hrd.valid, hsum]
    _ ↔ mul C.toCurve (inv C.n sig.s) (mulG C.toCurve (e + sig.r * d)) = R := by
        rw [(hG _).inv_mul_eq_iff hC hW hR hs, eq_comm]
    _ ↔ R = mulG C.toCurve k' := by
        rw [← mulG_product_mod hC, mulG_mod hC, mul_comm, h.mulG_solved hC, eq_comm]

end

/-! ### Recovery ids -/

/-- Bit 1 of an id says whether the x it stands for reaches n. -/
theorem recoveredX_overflow {C : Ctx} {r : Nat} (hr : r < C.n) (rid : BitVec 2) :
    2 ≤ rid.toNat ↔ C.n ≤ recoveredX C r rid := by
  have hlt := rid.isLt
  rw [recoveredX]
  constructor
  · intro h
    rw [show rid.toNat / 2 = 1 by omega]
    omega
  · intro h
    by_contra h2
    rw [show rid.toNat / 2 = 0 by omega] at h
    omega

section
variable {C : Ctx} {d e k' x y' : Nat} {sig : Signature} (h : SignatureOf C d e k' x y' sig)
include h

/-- Below 2·n, r and the id of a signature give x back (R239, log 34). -/
theorem SignatureOf.recoveredX_eq (hx : x < 2 * C.n) : recoveredX C sig.r sig.recid = x := by
  have hlt := sig.recid.isLt
  have hover := h.overflow
  rw [recoveredX, h.r_eq]
  by_cases hn : C.n ≤ x
  · rw [Nat.mod_eq_sub_mod hn, Nat.mod_eq_of_lt (by omega), show sig.recid.toNat / 2 = 1 by omega]
    omega
  · rw [Nat.mod_eq_of_lt (by omega), show sig.recid.toNat / 2 = 0 by omega]
    omega

variable (hC : SoundCurve C.toCurve) (hW : kindW C.toCurve)
include hC hW

/-- With the id of the signature the multiple is found (R238, R239). -/
theorem SignatureOf.recoverCommitment_eq (hp : C.p ≤ 2 * C.n) :
    recoverCommitment C sig.r sig.recid = some (mulG C.toCurve k') := by
  have hvalid := mulG_valid hC k'
  rw [h.point] at hvalid ⊢
  obtain ⟨hx, hy, heq⟩ := (onCurve_iff_equation _ _ _).1 hvalid
  have hX := h.recoveredX_eq (by omega)
  exact (recoverCommitment_eq_some_iff hC hW).2 ⟨hX ▸ hx, y', by rw [hX], hy, h.parity, hX ▸ heq⟩

/-- Only with the id of the signature the multiple is found (R239). -/
theorem SignatureOf.recid_unique {id : BitVec 2} (hid : recoverCommitment C sig.r id = some (mulG C.toCurve k')) :
    id = sig.recid := by
  obtain ⟨-, y, hpoint, -, hpar, -⟩ := (recoverCommitment_eq_some_iff hC hW).1 hid
  obtain ⟨hX, hY⟩ := Point.aff.inj (h.point.symm.trans hpoint)
  obtain ⟨-, hrn, -⟩ := h.range
  have hbit1 := recoveredX_overflow hrn id
  rw [← hX, ← h.overflow] at hbit1
  have hbit0 := h.parity
  rw [hY, hpar] at hbit0
  apply BitVec.eq_of_toNat_eq
  have := id.isLt
  have := sig.recid.isLt
  omega

end

/-! ### What one command writes the next one reads -/

theorem readSig_writeSig {C : Ctx} (hC : SoundCurve C.toCurve) {r v : Nat} (h : SigInRange C r v) (der : Bool) :
    readSig C der (writeSig C der r v) = .ok (r, v) := by
  have hn := hC.n_lt.le
  obtain ⟨hsizes, -⟩ := hC
  obtain ⟨hboth, -⟩ := signatureEncodings C (writeSig C der r v) hn (smallSizes_of_sizesOk hsizes).ssize
  obtain ⟨hder, hcompact, -⟩ := hboth r v
  cases der with
  | false => exact hcompact.2 ⟨rfl, h⟩
  | true => exact hder.2 ⟨rfl, h⟩

/-- Different points of the curve have different encodings (41_curve_group.md R152). -/
theorem putPT_injective {C : Ctx} (hC : SoundCurve C.toCurve) (hW : kindW C.toCurve) {f : PointForm}
    (hf : FormOk C.toCurve f) {P Q : Point} (hP : validPoint C.toCurve P = true)
    (hQ : validPoint C.toCurve Q = true) (h : putPT C P f = putPT C Q f) : P = Q := by
  have hget {R : Point} (hR : validPoint C.toCurve R = true) : getPT C (putPT C R f) = .ok R :=
    pointRoundTrip C R f hC hf (fun hE => absurd hE (not_kindE_of_kindW hW)) hR
  exact Except.ok.inj ((hget hP).symm.trans ((congrArg (getPT C) h).trans (hget hQ)))

section
variable {s : State} {c : BitVec 4}

/-- A success tells the string it wrote, where its length fits RES0 (20_memory.md R71). -/
theorem succeed_withTable_injective {B B' : Bytes} (hB : B.length < 65536) (hB' : B'.length < 65536)
    (h : (s.succeed B).withTable c = (s.succeed B').withTable c) : B = B' := by
  have hres : BitVec.ofNat 16 B.length = BitVec.ofNat 16 B'.length := congrArg (fun t => t.res0.len) h
  have hlen : B.length = B'.length := by
    have hnat := congrArg BitVec.toNat hres
    rwa [BitVec.toNat_ofNat, BitVec.toNat_ofNat, Nat.mod_eq_of_lt hB, Nat.mod_eq_of_lt hB'] at hnat
  refine List.ext_getElem? fun x => ?_
  by_cases hx : x < B.length
  · have homem : (s.omemAfter B).get? x = (s.omemAfter B').get? x := congrArg (fun t => t.omem.get? x) h
    rwa [State.omemAfter_get?, State.omemAfter_get?, if_pos hx, if_pos (hlen ▸ hx)] at homem
  · rw [List.getElem?_eq_none (Nat.not_lt.1 hx), List.getElem?_eq_none (by omega)]

/-- A null result is no success (60_exceptions.md R324). -/
theorem null_of_succeed_ne {t : State} (ht : t.status.null = true) (B : Bytes) :
    t ≠ (s.succeed B).withTable c := by
  intro h
  have hnull : true = false := ht.symm.trans (congrArg (fun u => u.status.null) h)
  cases hnull

/-- Where recovery ends with the encoding of a point, that point is the key recovered. -/
theorem recoveryEnd_withTable_eq {C : Ctx} (hC : SoundCurve C.toCurve) (hW : kindW C.toCurve) {f : PointForm}
    (hf : FormOk C.toCurve f) {P Q : Point} (hP : validPoint C.toCurve P = true)
    (hQ : validPoint C.toCurve Q = true)
    (h : (s.recoveryEnd C Q f).withTable c = (s.succeed (putPT C P f)).withTable c) : Q = P := by
  unfold State.recoveryEnd at h
  split at h
  · exact absurd h (null_of_succeed_ne rfl _)
  · have hsizes : SmallSizes C.toCurve := by
      obtain ⟨hs, -⟩ := hC
      exact smallSizes_of_sizesOk hs
    have hlen (R : Point) : (putPT C R f).length < 65536 := (hsizes.length_putPT R f).trans_lt (by decide)
    exact putPT_injective hC hW hf hQ hP (succeed_withTable_injective (hlen Q) (hlen P) h)

end

/-! ### The commands on a signature -/

section
variable {C : Ctx} {d k' x y' : Nat} {msg : Bytes} {sig : Signature} {der : Bool} {s : State} {c : BitVec 4}
  {p : Pending} (hC : SoundCurve C.toCurve) (hW : kindW C.toCurve)
  (hsig : SignatureOf C d (messageInt C msg) k' x y' sig)
include hC hW hsig

theorem SignatureOf.exec_ecvfy_true (h : Ready s c 3 p C) (hM : (s.operands p).a0 = msg)
    (hS : (s.operands p).a1 = writeSig C der sig.r sig.s)
    (hK : getPK C (s.operands p).a2 = .ok (mulG C.toCurve d)) :
    exec (.ecvfy c der) s = .next ((s.verdict true).withTable c) := by
  have hmatch : xMatches C sig.r (verifyPoint C (messageInt C msg) sig.r sig.s (mulG C.toCurve d)) = true :=
    (xMatches_iff _ _ _).2 ⟨x, y', hsig.r_eq.symm, (hsig.verifyPoint_eq hC).trans hsig.point⟩
  rw [h.exec_ecvfy_decoded hW (hS ▸ readSig_writeSig hC hsig.range der) hK, hM, hmatch]

variable {f : PointForm} (hf : FormOk C.toCurve f) (h : Ready s c 2 p C) (hM : (s.operands p).a0 = msg)
  (hS : (s.operands p).a1 = writeSig C der sig.r sig.s)
include hf h hM hS

theorem SignatureOf.exec_ecrcv_own_id (hd : d % C.n ≠ 0) (hp : C.p ≤ 2 * C.n) :
    exec (.ecrcv c f der sig.recid) s = .next ((s.succeed (putPT C (mulG C.toCurve d) f)).withTable c) := by
  have hkey := (hsig.recoveredKey_eq_iff hC hW (killedByOrder_mulG hC hW k')).2 rfl
  have hne : mulG C.toCurve d ≠ .inf := by
    have hid := mulG_ne_identity hC hd
    obtain ⟨a, b, hs⟩ := hW
    rwa [identity_W (hC.goodW hs)] at hid
  have hread : readSig C der (s.operands p).a1 = .ok (sig.r, sig.s) := hS ▸ readSig_writeSig hC hsig.range der
  rw [h.exec_ecrcv_commitment hW hf hread (hsig.recoverCommitment_eq hC hW hp), hM, hkey, State.recoveryEnd,
    if_neg hne]

/-- Where recovery gives the signer's key, its id is that of the signature, if n kills every point. -/
theorem SignatureOf.recid_of_exec_ecrcv
    (hkill : ∀ P, validPoint C.toCurve P = true → mul C.toCurve C.n P = .inf) {id : BitVec 2}
    (hkey : exec (.ecrcv c f der id) s = .next ((s.succeed (putPT C (mulG C.toCurve d) f)).withTable c)) :
    id = sig.recid := by
  have hread : readSig C der (s.operands p).a1 = .ok (sig.r, sig.s) := hS ▸ readSig_writeSig hC hsig.range der
  cases hcommit : recoverCommitment C sig.r id with
  | none =>
    rw [h.exec_ecrcv_no_commitment hW hf hread hcommit] at hkey
    exact absurd (Host.Outcome.next.inj hkey) (null_of_succeed_ne rfl _)
  | some R =>
    obtain ⟨hx, y, rfl, hy, -, heq⟩ := (recoverCommitment_eq_some_iff hC hW).1 hcommit
    have hvalid := validPoint_aff_of_equation hx hy heq
    have hR : KilledByOrder C.toCurve (.aff (recoveredX C sig.r id) y) := ⟨hvalid, hkill _ hvalid⟩
    rw [h.exec_ecrcv_commitment hW hf hread hcommit, hM] at hkey
    have hQ := ((hR.multiple hC hW sig.s).difference hC hW (killedByOrder_mulG hC hW (messageInt C msg))).multiple hC hW
      (inv C.n sig.r)
    have heqKey := recoveryEnd_withTable_eq hC hW hf (mulG_valid hC d) hQ.valid (Host.Outcome.next.inj hkey)
    rw [(hsig.recoveredKey_eq_iff hC hW hR).1 heqKey] at hcommit
    exact hsig.recid_unique hC hW hcommit

end

/-- The check of low-S on what a signature with a low s writes (43_signature_codec.md R216, R217). -/
theorem Ready.exec_readsLow_true {s : State} {c : BitVec 4} {p : Pending} {C : Ctx} {i : Instr} {r v : Nat}
    {read : Ctx → Bytes → Except Failure (Nat × Nat)} (hW : kindW C.toCurve) (h : Ready s c 1 p C)
    (hi : exec i s = runTotal s c ⟨.onlyW, .uncompressed, .nothing, 1⟩ fun C o =>
      .plain (.predicate (readsLow C (read C o.a0))))
    (hread : read C (s.operands p).a0 = .ok (r, v)) (hlow : v ≤ (C.n - 1) / 2) :
    exec i s = .next (s.answer true) := by
  obtain ⟨b, hb, hiff⟩ := h.exec_readsLow hW hi
  rwa [hiff.2 ⟨r, v, hread, hlow⟩] at hb

/-- Settles O49: a signature is that of one multiple of G, which verification recomputes and recovery looks for. -/
theorem signedMessagesVerify : Obligations.SignedMessagesVerify := by
  intro C c f g der d msg sig s s' p p' hC hW hf hg hd1 hdn hcore B
  obtain ⟨hlow, k', x, y', hsig⟩ := signCore_signatureOf hC hW hcore
  have hd : d % C.n ≠ 0 := by
    rw [Nat.mod_eq_of_lt hdn]
    omega
  have hread := readSig_writeSig hC hsig.range der
  refine ⟨fun h hM hS hK => ?_, fun h hM hS => ⟨?_, fun hkill id hne hkey => ?_⟩,
    fun s0 p0 h hS => ⟨fun hder => ?_, fun hder => ?_⟩⟩
  · have hkey := getPK_putPT_mulG hC hg (fun hE => absurd hE (not_kindE_of_kindW hW)) hd
    exact hsig.exec_ecvfy_true hC hW h hM hS (hK ▸ hkey)
  · exact hsig.exec_ecrcv_own_id hC hW hf h hM hS hd
  · exact hne (hsig.recid_of_exec_ecrcv hC hW hf h hM hS hkill hkey)
  · subst hder
    exact h.exec_readsLow_true hW (exec_siglows c s0) ((congrArg (getSigC C) hS).trans hread) hlow
  · subst hder
    exact h.exec_readsLow_true hW (exec_siglowder c s0) ((congrArg (decodeDER C) hS).trans hread) hlow

end Sys2Proof.Machine
end

section
/-! PROOFS. What a Schnorr triple is once it parses (45_schnorr.md R260, R263), and SCHVFY (R261). -/

namespace Sys2Proof.Machine

/-! ### The meaning each command has -/

section
variable (c : BitVec 4) (s : State)

theorem exec_schvfy : exec (.schvfy c) s = execSchvfy c s := rfl

theorem exec_schvfyb : exec (.schvfyb c) s = execSchvfyb c s := rfl

end

/-! ### The lift and the challenge of a configuration (R260) -/

section
variable {C : Ctx} {Rb : Bytes} {R : Point}

theorem liftPort_valid (h : liftPort C Rb = some R) : validPoint C.toCurve R = true := by
  unfold liftPort at h
  split at h
  · cases h
  · obtain ⟨hon, hR⟩ := Option.ite_none_right_eq_some.1 h
    cases hR
    exact hon

theorem liftSquare_valid (hC : SoundCurve C.toCurve) (hW : kindW C.toCurve) (h : liftSquare C Rb = some R) :
    validPoint C.toCurve R = true := by
  obtain ⟨hx, h⟩ := Option.ite_none_left_eq_some.1 h
  split at h
  · cases h
  · next y hy =>
    cases h
    exact validPoint_aff_of_equation (Nat.not_le.1 hx) (sqrt?_lt hC.prime.pos hy)
      ((equation_iff_root_W hW _ _).2 (sqrt?_sound hy))

/-- What a commitment lifts to is a point of the curve. -/
theorem schnorrLift_valid (hC : SoundCurve C.toCurve) (hW : kindW C.toCurve) (h : schnorrLift C Rb = some R) :
    validPoint C.toCurve R = true := by
  unfold schnorrLift at h
  split at h
  · exact liftPort_valid h
  · split at h
    · exact liftSquare_valid hC hW h
    · exact liftPort_valid h

theorem schnorrChal_lt (hn : 0 < C.n) (P : Point) (msg : Bytes) : schnorrChal C Rb P msg < C.n := by
  unfold schnorrChal
  split <;> exact Nat.mod_lt _ hn

end

/-! ### Triples that parse (R263) -/

section
variable {C : Ctx} {msg sig pub : Bytes}

/-- A triple parses exactly where its signature has the right length and an s below n, its key decodes and its
commitment lifts. -/
theorem schnorrParse_eq_some_iff {T : SchnorrTriple} : schnorrParse C msg sig pub = some T ↔
    sig.length = C.fsize + C.ssize ∧ be2int (sig.drop C.fsize) < C.n ∧ getPK C pub = .ok T.P
      ∧ schnorrLift C (sig.take C.fsize) = some T.R ∧ T.s = be2int (sig.drop C.fsize)
      ∧ T.e = schnorrChal C (sig.take C.fsize) T.P msg := by
  rw [schnorrParse, Option.ite_none_left_eq_some, not_or, not_not, Nat.not_le, and_assoc]
  refine and_congr_right fun _ => and_congr_right fun _ => ?_
  cases getPK C pub with
  | error e => simp
  | ok P =>
    cases schnorrLift C (sig.take C.fsize) with
    | none => simp
    | some R =>
      constructor
      · rintro ⟨rfl⟩
        exact ⟨rfl, rfl, rfl, rfl⟩
      · rintro ⟨⟨rfl⟩, ⟨rfl⟩, hs, he⟩
        dsimp only
        rw [← hs, ← he]

theorem schnorrParse_eq_none (h : sig.length ≠ C.fsize + C.ssize ∨ C.n ≤ be2int (sig.drop C.fsize)
    ∨ (∃ e, getPK C pub = .error e) ∨ schnorrLift C (sig.take C.fsize) = none) :
    schnorrParse C msg sig pub = none := by
  refine Option.eq_none_iff_forall_ne_some.2 fun T hT => ?_
  obtain ⟨hlen, hs, hP, hR, -⟩ := schnorrParse_eq_some_iff.1 hT
  rcases h with h | h | ⟨e, he⟩ | h
  · exact h hlen
  · exact absurd hs (Nat.not_lt.2 h)
  · cases he.symm.trans hP
  · cases h.symm.trans hR

end

/-- The equation of a triple, `s·G = R + e·P` (R261). -/
abbrev SchnorrTriple.Holds (C : Curve) (T : SchnorrTriple) : Prop :=
  mulG C T.s = add C T.R (mul C T.e T.P)

/-! ### SCHVFY (R261) -/

section
variable {C : Ctx} {msg sig pub : Bytes}

theorem schnorrRule_malformed (h : schnorrParse C msg sig pub = none) :
    schnorrRule C msg sig pub = .plain (.verified false) := by
  rw [schnorrRule, h]

theorem schnorrRule_parsed {T : SchnorrTriple} (h : schnorrParse C msg sig pub = some T) :
    schnorrRule C msg sig pub = .afterMulG (.verified (decide (T.Holds C.toCurve))) := by
  rw [schnorrRule, h]

variable {s : State} {c : BitVec 4} {p : Pending} (hW : kindW C.toCurve) (h : Ready s c 3 p C)
include hW h

theorem Ready.exec_schvfy_malformed
    (hbad : schnorrParse C (s.operands p).a0 (s.operands p).a1 (s.operands p).a2 = none) :
    exec (.schvfy c) s = .next (s.verdict false) :=
  h.exec_rule (allows_onlyW hW) (formOk_uncompressed _) (exec_schvfy c s) (schnorrRule_malformed hbad)

theorem Ready.exec_schvfy_parsed {T : SchnorrTriple}
    (hT : schnorrParse C (s.operands p).a0 (s.operands p).a1 (s.operands p).a2 = some T) :
    exec (.schvfy c) s = .next ((s.verdict (decide (T.Holds C.toCurve))).withTable c) := by
  rw [h.exec_rule (allows_onlyW hW) (formOk_uncompressed _) (exec_schvfy c s) (schnorrRule_parsed hT),
    complete_afterMulG, complete_verified]

end

/-- Settles O50. -/
theorem schnorrVerify : Obligations.SchnorrVerify := by
  intro s c p C hW h M S K Rb v
  refine ⟨fun hbad => h.exec_schvfy_malformed hW (schnorrParse_eq_none hbad), fun P R hlen hv hP hR => ?_⟩
  have hT : schnorrParse C M S K = some ⟨R, schnorrChal C Rb P M, v, P⟩ :=
    schnorrParse_eq_some_iff.2 ⟨hlen, hv, hP, hR, rfl, rfl⟩
  exact ⟨_, h.exec_schvfy_parsed hW hT, decide_eq_true_iff⟩

end Sys2Proof.Machine
end

section
/-! PROOFS. What SCHVFYB computes with (45_schnorr.md R262): the items of a batch as triples, the coefficients drawn
for them, and both sides of the combined equation as sums over the batch. -/

namespace Sys2Proof.Machine

/-! ### The items of a batch -/

/-- The items triples are given by, three for each. -/
def tripleStrings (triples : List (Bytes × Bytes × Bytes)) : List Bytes :=
  triples.flatMap fun t => [t.1, t.2.1, t.2.2]

theorem tripleStrings_append (ts us : List (Bytes × Bytes × Bytes)) :
    tripleStrings (ts ++ us) = tripleStrings ts ++ tripleStrings us := List.flatMap_append

theorem tripleItems_tripleStrings (ts : List (Bytes × Bytes × Bytes)) :
    tripleItems (tripleStrings ts) = some ts := by
  induction ts with
  | nil => rfl
  | cons t ts ih => exact congrArg (Option.map _) ih

/-- Items whose number is a multiple of 3 are the strings of triples. -/
theorem exists_tripleStrings {items : List Bytes} (h : items.length % 3 = 0) :
    ∃ ts, items = tripleStrings ts := by
  induction items using tripleItems.induct with
  | case1 => exact ⟨[], rfl⟩
  | case2 => cases h
  | case3 => cases h
  | case4 m g k items ih =>
    obtain ⟨ts, rfl⟩ := ih (by simpa [Nat.add_assoc] using h)
    exact ⟨(m, g, k) :: ts, rfl⟩

theorem tripleItems_eq_none {items : List Bytes} (h : items.length % 3 ≠ 0) : tripleItems items = none := by
  induction items using tripleItems.induct with
  | case1 => exact absurd rfl h
  | case2 => rfl
  | case3 => rfl
  | case4 m g k items ih => exact congrArg (Option.map _) (ih (by simpa [Nat.add_assoc] using h))

/-- The triples parse, one by one. -/
abbrev ParseTo (C : Ctx) : List (Bytes × Bytes × Bytes) → List SchnorrTriple → Prop :=
  List.Forall₂ fun t T => schnorrParse C t.1 t.2.1 t.2.2 = some T

theorem parseTriples_of_parseTo {C : Ctx} {triples : List (Bytes × Bytes × Bytes)} {ts : List SchnorrTriple}
    (h : ParseTo C triples ts) : parseTriples C triples = some ts := by
  induction h with
  | nil => rfl
  | cons hT _ ih => rw [parseTriples, hT, ih]

/-- Triples that each parse to one with a property parse to a list of such. -/
theorem exists_parseTo {C : Ctx} {triples : List (Bytes × Bytes × Bytes)} {Q : SchnorrTriple → Prop}
    (h : ∀ t ∈ triples, ∃ T, schnorrParse C t.1 t.2.1 t.2.2 = some T ∧ Q T) :
    ∃ ts, ParseTo C triples ts ∧ ∀ T ∈ ts, Q T := by
  induction triples with
  | nil => exact ⟨[], .nil, List.forall_mem_nil _⟩
  | cons t triples ih =>
    obtain ⟨⟨T, hT, hQ⟩, hrest⟩ := List.forall_mem_cons.1 h
    obtain ⟨ts, hts, hall⟩ := ih hrest
    exact ⟨T :: ts, .cons hT hts, List.forall_mem_cons.2 ⟨hQ, hall⟩⟩

theorem parseTriples_eq_none {C : Ctx} {t : Bytes × Bytes × Bytes} {triples : List (Bytes × Bytes × Bytes)}
    (ht : t ∈ triples) (h : schnorrParse C t.1 t.2.1 t.2.2 = none) : parseTriples C triples = none := by
  induction ht with
  | head triples => rw [parseTriples, h]
  | tail u _ ih =>
    rw [parseTriples, ih]
    split
    · rfl
    · rfl
    · next hsome => cases hsome

/-! ### The coefficients (R262) -/

section
variable {C : Ctx} {k i : Nat} {rng : Bytes}

theorem length_drawCoefficients : (drawCoefficients C k i rng).1.length = k := by
  induction k generalizing i rng with
  | zero => rfl
  | succ k ih => exact congrArg Nat.succ ih

theorem drawCoefficients_range (hn : 2 ≤ C.n) : ∀ a ∈ (drawCoefficients C k i rng).1, 1 ≤ a ∧ a < C.n := by
  induction k generalizing i rng with
  | zero => exact List.forall_mem_nil _
  | succ k ih => exact List.forall_mem_cons.2 ⟨drawScalar_range hn, ih⟩

theorem drawCoefficients_suffix : (drawCoefficients C k i rng).2 <:+ rng := by
  induction k generalizing i rng with
  | zero => exact List.suffix_rfl
  | succ k ih => exact ih.trans drawScalar_suffix

/-- What the j-th `ssize` bytes of the RNG port's known answers give modulo n (R262; 60_exceptions.md R334). -/
def knownDraw (C : Ctx) (rng : Bytes) (j : Nat) : Nat :=
  os2iC C ((rng.drop (j * C.ssize)).take C.ssize) % C.n

theorem knownDraw_zero (C : Ctx) (rng : Bytes) : knownDraw C rng 0 = os2iC C (rng.take C.ssize) % C.n := by
  rw [knownDraw, Nat.zero_mul, List.drop_zero]

theorem knownDraw_succ (C : Ctx) (rng : Bytes) (j : Nat) :
    knownDraw C rng (j + 1) = knownDraw C (rng.drop C.ssize) j := by
  rw [knownDraw, knownDraw, List.drop_drop, Nat.succ_mul, Nat.add_comm]

/-- As long as the known answers last and none of them is 0 modulo n, they are the coefficients. -/
theorem drawCoefficients_known (h1 : 1 ≤ C.ssize) (hl : k * C.ssize ≤ rng.length)
    (hne : ∀ j < k, knownDraw C rng j ≠ 0) :
    drawCoefficients C k i rng = ((List.range k).map (knownDraw C rng), rng.drop (k * C.ssize)) := by
  induction k generalizing i rng with
  | zero => simp [drawCoefficients]
  | succ k ih =>
    rw [Nat.succ_mul] at hl
    have h0 : os2iC C (rng.take C.ssize) % C.n ≠ 0 := knownDraw_zero C rng ▸ hne 0 k.succ_pos
    have hrest : ∀ j < k, knownDraw C (rng.drop C.ssize) j ≠ 0 := fun j hj =>
      knownDraw_succ C rng j ▸ hne (j + 1) (Nat.succ_lt_succ hj)
    have hl' : k * C.ssize ≤ (rng.drop C.ssize).length := by
      rw [List.length_drop]
      omega
    rw [drawCoefficients, drawScalar_of_ne_zero h1 (by omega) h0]
    dsimp only
    rw [ih hl' hrest, List.range_succ_eq_map, List.map_cons, List.map_map, knownDraw_zero, List.drop_drop,
      Nat.succ_mul, Nat.add_comm (k * C.ssize)]
    simp only [Function.comp_def, knownDraw_succ]

end

/-! ### The combined equation (R262) -/

/-- The scalar of the left side is the sum of the `a_j·s_j`, reduced modulo n once. -/
theorem batchScalar_eq_sum (C : Ctx) (as : List Nat) (ts : List SchnorrTriple) :
    batchScalar C as ts = ((as.zip ts).map fun q => q.1 * q.2.s).sum % C.n := by
  induction as, ts using batchScalar.induct with
  | case1 a as t ts ih => simp [batchScalar, ih]
  | case2 ts => simp [batchScalar]
  | case3 a as => simp [batchScalar]

/-- What a triple adds to the right side, `a·R + (a·e mod n)·P`. -/
abbrev SchnorrTriple.term (C : Curve) (T : SchnorrTriple) (a : Nat) : Point :=
  add C (mul C a T.R) (mul C (a * T.e % C.n) T.P)

theorem batchPoint_cons (C : Ctx) (S : Point) (a : Nat) (as : List Nat) (T : SchnorrTriple)
    (ts : List SchnorrTriple) :
    batchPoint C S (a :: as) (T :: ts) = batchPoint C (add C.toCurve S (T.term C.toCurve a)) as ts := rfl

/-- The right side adds the triples' terms up in their order. -/
theorem batchPoint_eq_foldl (C : Ctx) (S : Point) (as : List Nat) (ts : List SchnorrTriple) :
    batchPoint C S as ts = (as.zip ts).foldl (fun S q => add C.toCurve S (q.2.term C.toCurve q.1)) S := by
  induction S, as, ts using batchPoint.induct C with
  | case1 S a as t ts ih => exact ih
  | case2 S ts => rfl
  | case3 S a as => rfl

/-- The combined equation of a batch. -/
abbrev BatchHolds (C : Ctx) (as : List Nat) (ts : List SchnorrTriple) : Prop :=
  mulG C.toCurve (batchScalar C as ts) = batchPoint C .inf as ts

/-- On kind W the first multiple is the point itself, whatever the point. -/
theorem one_mul_of_kindW {C : Curve} (hW : kindW C) (P : Point) : mul C 1 P = P := by
  obtain ⟨a, b, hs⟩ := hW
  have hid : identity C = .inf := by simp only [identity, hs]
  change add C (add C (identity C) (identity C)) P = P
  rw [hid, inf_add_W hs, inf_add_W hs]

/-- For one triple with the coefficient 1 the combined equation is the triple's own. -/
theorem batchHolds_single_iff {C : Ctx} {T : SchnorrTriple} (hW : kindW C.toCurve) (hs : T.s < C.n)
    (he : T.e < C.n) : BatchHolds C [1] [T] ↔ T.Holds C.toCurve := by
  have hone := one_mul_of_kindW hW T.R
  obtain ⟨a, b, hshape⟩ := hW
  simp only [BatchHolds, batchScalar, batchPoint, hone, one_mul, Nat.add_zero, Nat.mod_eq_of_lt hs,
    Nat.mod_eq_of_lt he, inf_add_W hshape, SchnorrTriple.Holds]

/-! ### Batches of valid triples -/

/-- A triple of points that n kills whose equation holds. -/
structure ValidTriple (C : Curve) (T : SchnorrTriple) : Prop where
  commitment : validPoint C T.R = true
  key : KilledByOrder C T.P
  holds : T.Holds C

section
variable {C : Ctx} (hC : SoundCurve C.toCurve) (hW : kindW C.toCurve)
include hC hW

/-- A triple that parses and whose equation holds is a valid one, where n kills every point. -/
theorem validTriple_of_schnorrParse {msg sig pub : Bytes} {T : SchnorrTriple}
    (hkill : ∀ P, validPoint C.toCurve P = true → mul C.toCurve C.n P = .inf)
    (hT : schnorrParse C msg sig pub = some T) (h : T.Holds C.toCurve) : ValidTriple C.toCurve T := by
  obtain ⟨-, -, hP, hR, -⟩ := schnorrParse_eq_some_iff.1 hT
  have hvalid := getPT_yields hC pub T.P (getPK_eq_ok_iff.1 hP).1
  exact ⟨schnorrLift_valid hC hW hR, ⟨hvalid, hkill _ hvalid⟩, h⟩

/-- A valid triple's term is the multiple of G its part of the left side stands for. -/
theorem ValidTriple.term_eq {T : SchnorrTriple} (h : ValidTriple C.toCurve T) (a : Nat) :
    T.term C.toCurve a = mulG C.toCurve (a * T.s) := by
  have heP := (h.key.multiple hC hW T.e).valid
  have hmod : mul C.toCurve (a * T.e % C.n) T.P = mul C.toCurve a (mul C.toCurve T.e T.P) := by
    rw [hC.multiple_multiple h.key.valid]
    obtain ⟨_, _, hs⟩ := hW
    exact mul_mod_W (hC.goodW hs) h.key.valid h.key.killed _
  calc T.term C.toCurve a
      = add C.toCurve (mul C.toCurve a T.R) (mul C.toCurve a (mul C.toCurve T.e T.P)) := by rw [← hmod]
    _ = mul C.toCurve a (mulG C.toCurve T.s) := by rw [h.holds, mul_add_points hC hW h.commitment heP]
    _ = mulG C.toCurve (a * T.s) := hC.multiple_multiple hC.base_valid a T.s

/-- Of valid triples the right side is the multiple of G on the left, whatever the coefficients are. -/
theorem batchPoint_of_validTriples {as : List Nat} {ts : List SchnorrTriple}
    (h : ∀ T ∈ ts, ValidTriple C.toCurve T) {S : Point} (hS : validPoint C.toCurve S = true) :
    batchPoint C S as ts = add C.toCurve S (mulG C.toCurve (batchScalar C as ts)) := by
  obtain ⟨_, _, hs⟩ := id hW
  have hg := hC.goodW hs
  have hzero (S : Point) : S = add C.toCurve S (mulG C.toCurve 0) := by rw [mulG, mul_zero_W hg, add_inf_W hs]
  induction ts generalizing as S with
  | nil => cases as <;> exact hzero S
  | cons T ts ih =>
    cases as with
    | nil => exact hzero S
    | cons a as =>
      obtain ⟨hT, hts⟩ := List.forall_mem_cons.1 h
      have hterm := mulG_valid hC (a * T.s)
      rw [batchPoint_cons, hT.term_eq hC hW, ih hts (add_valid hg hS hterm), batchScalar, mulG_sum_mod hC,
        add_assoc_W hg hS hterm (mulG_valid hC _)]

theorem batchHolds_of_validTriples {ts : List SchnorrTriple} (h : ∀ T ∈ ts, ValidTriple C.toCurve T)
    (as : List Nat) : BatchHolds C as ts := by
  have hpoint := batchPoint_of_validTriples hC hW (as := as) h (validPoint_inf_of_kindW hW)
  obtain ⟨_, _, hs⟩ := hW
  rw [BatchHolds, hpoint, inf_add_W hs]

end

end Sys2Proof.Machine
end

section
/-! PROOFS. SCHVFYB (45_schnorr.md R262): the rule of the command as equations, one per way it can go, and what a
ready command ends with. -/

namespace Sys2Proof.Machine

section
variable {C : Ctx} {L : Bytes} {draw : Nat} {rng : Bytes}

theorem batchRule_unframed {e : Failure} (h : parseList L = .error e) :
    batchRule C L draw rng = .fail .invalidEncoding := by
  obtain rfl := listFraming.2.1 L e h
  rw [batchRule, h]

theorem batchRule_no_triples {items : List Bytes} (h : parseList L = .ok items) (hlen : items.length % 3 ≠ 0) :
    batchRule C L draw rng = .fail .invalidEncoding := by
  rw [batchRule, h]
  dsimp only
  rw [tripleItems_eq_none hlen]

theorem batchRule_empty (h : parseList L = .ok []) : batchRule C L draw rng = .plain (.verified true) := by
  rw [batchRule, h]
  rfl

theorem batchRule_malformed {t : Bytes × Bytes × Bytes} {triples : List (Bytes × Bytes × Bytes)}
    (h : parseList L = .ok (tripleStrings triples)) (ht : t ∈ triples)
    (hbad : schnorrParse C t.1 t.2.1 t.2.2 = none) : batchRule C L draw rng = .plain (.verified false) := by
  obtain ⟨x, xs, rfl⟩ := List.exists_cons_of_ne_nil (List.ne_nil_of_mem ht)
  rw [batchRule, h]
  dsimp only
  rw [tripleItems_tripleStrings]
  dsimp only
  rw [parseTriples_eq_none ht hbad]

theorem batchRule_parsed {t : Bytes × Bytes × Bytes} {triples : List (Bytes × Bytes × Bytes)}
    {ts : List SchnorrTriple} (h : parseList L = .ok (tripleStrings (t :: triples)))
    (hts : ParseTo C (t :: triples) ts) {d : List Nat × Bytes} (hd : drawCoefficients C triples.length draw rng = d) :
    batchRule C L draw rng =
      ⟨.verified (decide (BatchHolds C (1 :: d.1) ts)), true, rng.length - d.2.length⟩ := by
  rw [batchRule, h]
  dsimp only
  rw [tripleItems_tripleStrings]
  dsimp only
  rw [parseTriples_of_parseTo hts, hd]

/-- A verification that evaluated `MulG_C` and used up some of the RNG port's known answers. -/
theorem complete_verified_of_draw (s : State) (c : BitVec 4) (b : Bool) (u : Nat) :
    s.complete c ⟨.verified b, true, u⟩ = { s.verdict b with rng := s.rng.drop u }.withTable c := by
  have hdraw : s.complete c ⟨.verified b, true, u⟩
      = { s.complete c (.afterMulG (.verified b)) with rng := s.rng.drop u } := rfl
  rw [hdraw, complete_afterMulG, complete_verified]
  rfl

variable {s : State} {c : BitVec 4} {p : Pending} (hW : kindW C.toCurve) (h : Ready s c 1 p C)
include hW h

theorem Ready.exec_batch {e : Ending} (he : batchRule C (s.operands p).a0 (s.operands p).draw s.rng = e) :
    exec (.schvfyb c) s = .next (s.complete c e) :=
  h.exec_rule (allows_onlyW hW) (formOk_uncompressed _) (exec_schvfyb c s) he

/-- A batch that parses is verified with the coefficients drawn, and the answers behind them are left. -/
theorem Ready.exec_batch_parsed {t : Bytes × Bytes × Bytes} {triples : List (Bytes × Bytes × Bytes)}
    {ts : List SchnorrTriple} (hitems : parseList (s.operands p).a0 = .ok (tripleStrings (t :: triples)))
    (hts : ParseTo C (t :: triples) ts) {d : List Nat × Bytes}
    (hd : drawCoefficients C triples.length (s.operands p).draw s.rng = d) :
    exec (.schvfyb c) s =
      .next ({ s.verdict (decide (BatchHolds C (1 :: d.1) ts)) with rng := d.2 }.withTable c) := by
  have hrest : s.rng.drop (s.rng.length - d.2.length) = d.2 := by
    rw [← hd]
    exact (List.suffix_iff_eq_drop.1 drawCoefficients_suffix).symm
  rw [h.exec_batch hW (batchRule_parsed hitems hts hd), complete_verified_of_draw, hrest]

/-- A batch of one triple that parses answers as SCHVFY does: no coefficient is drawn. -/
theorem Ready.exec_batch_single {t : Bytes × Bytes × Bytes} {T : SchnorrTriple}
    (hitems : parseList (s.operands p).a0 = .ok (tripleStrings [t]))
    (hT : schnorrParse C t.1 t.2.1 t.2.2 = some T) (hn : 0 < C.n) :
    exec (.schvfyb c) s = .next ((s.verdict (decide (T.Holds C.toCurve))).withTable c) := by
  obtain ⟨-, hlt, -, -, hs, he⟩ := schnorrParse_eq_some_iff.1 hT
  have hchal : T.e < C.n := he ▸ schnorrChal_lt hn T.P t.1
  rw [← decide_eq_decide.2 (batchHolds_single_iff hW (hs ▸ hlt) hchal)]
  exact h.exec_batch_parsed hW hitems (.cons hT .nil) rfl

end

/-- The draws of a curve of kind W are big-endian (00_scope.md R9). -/
theorem Ready.knownDraw_eq {s : State} {c : BitVec 4} {n : Nat} {p : Pending} {C : Ctx} (hW : kindW C.toCurve)
    (h : Ready s c n p C) (rng : Bytes) :
    knownDraw C rng = fun j => be2int ((rng.drop (j * C.ssize)).take C.ssize) % C.n := by
  have hbig : C.order = .big := (order_of_ctx? h.curve).trans (byteOrder_of_kindW s.cfg hW)
  funext j
  rw [knownDraw, os2iC, hbig]
  rfl

/-- Settles O51. -/
theorem schnorrBatch : Obligations.SchnorrBatch := by
  intro s c p C hW h A
  refine ⟨fun e he => h.exec_batch hW (batchRule_unframed he), fun items hitems => ⟨fun hlen => ?_, ?_, ?_, ?_, ?_⟩⟩
  · exact h.exec_batch hW (batchRule_no_triples hitems hlen)
  · rintro rfl
    rw [h.exec_batch hW (batchRule_empty hitems), complete_verified]
  · rintro before m g k after rfl hbefore hafter hbad
    obtain ⟨ts, rfl⟩ := exists_tripleStrings hbefore
    obtain ⟨us, rfl⟩ := exists_tripleStrings hafter
    rw [show m :: g :: k :: tripleStrings us = tripleStrings ((m, g, k) :: us) from rfl,
      ← tripleStrings_append] at hitems
    exact h.exec_batch hW (batchRule_malformed hitems List.mem_append_cons_self hbad)
  · rintro m g k T rfl hT hn
    exact ⟨_, h.exec_batch_single (t := (m, g, k)) hW hitems hT hn, decide_eq_true_iff⟩
  · rintro triples ts rfl hne hn hts
    obtain ⟨t, triples, rfl⟩ := List.exists_cons_of_ne_nil hne
    have hlen : triples.length + 1 = ts.length := hts.length_eq
    refine ⟨(drawCoefficients C triples.length (s.operands p).draw s.rng).1, _, _, ?_, drawCoefficients_range hn, ?_,
      h.exec_batch_parsed hW hitems hts rfl, ?_⟩
    · rw [length_drawCoefficients, hlen]
    · rw [length_drawCoefficients, ← h.knownDraw_eq hW]
      intro draw h1 hl hdraw
      rw [drawCoefficients_known h1 hl hdraw]
      exact ⟨rfl, rfl⟩
    · rw [decide_eq_true_iff, BatchHolds, batchScalar_eq_sum, batchPoint_eq_foldl]

/-- Settles O52: with valid triples the combined equation holds for every coefficient. -/
theorem schnorrBatchAccepts : Obligations.SchnorrBatchAccepts := by
  intro s c p C triples hW hC hkill h hitems hvalid hne
  obtain ⟨t, triples, rfl⟩ := List.exists_cons_of_ne_nil hne
  have hparsed : ∀ u ∈ t :: triples, ∃ T, schnorrParse C u.1 u.2.1 u.2.2 = some T
      ∧ ValidTriple C.toCurve T := fun u hu => by
    obtain ⟨T, hT, hholds⟩ := hvalid u hu
    exact ⟨T, hT, validTriple_of_schnorrParse hC hW hkill hT hholds⟩
  obtain ⟨ts, hts, hall⟩ := exists_parseTo hparsed
  have hholds := batchHolds_of_validTriples hC hW hall
  have hexec := h.exec_batch_parsed hW hitems hts rfl
  rw [decide_eq_true (hholds _)] at hexec
  exact ⟨_, hexec⟩

end Sys2Proof.Machine
end

section
/-! PROOFS. The commands of hash to curve (46_hash_to_curve.md R271 to R275): what the three map commands and H2HASH
do on a curve that carries the map. -/

namespace Sys2Proof.Machine

/-! ### The meaning each command has -/

section
variable (c : BitVec 4) (f : PointForm) (s : State)

theorem exec_h2sswu : exec (.h2sswu c f) s = execH2sswu c f s := rfl

theorem exec_h2icart : exec (.h2icart c f) s = execH2icart c f s := rfl

theorem exec_h2svdw : exec (.h2svdw c f) s = execH2svdw c f s := rfl

theorem exec_h2hash : exec (.h2hash c f) s = execH2hash c f s := rfl

end

/-! ### The field element an operand stands for (R271) -/

section
variable {C : Ctx} {B : Bytes}

theorem getU_of_length (h : B.length = C.fsize) : getU C B = .ok (be2int B % C.p) := by
  simp [getU, h]

theorem getU_of_other_length (h : B.length ≠ C.fsize) : getU C B = .error .invalidEncoding := by
  simp [getU, h]

end

/-! ### The commands -/

section
variable {s : State} {c : BitVec 4} {p : Pending} {C : Ctx} {f : PointForm} (h : Ready s c 1 p C)
  (hW : kindW C.toCurve) (hf : FormOk C.toCurve f)
include h hW hf

/-- What a map command does (R272 to R274). -/
theorem Ready.exec_map {i : Instr} {m : MapKind}
    (hi : exec i s = runTotal s c ⟨.onlyW, f, .exactly m, 1⟩ fun C o => mapRule C f o.a0)
    (hm : C.h2c = m) :
    exec i s = .next (if (s.operands p).a0.length = C.fsize
      then s.succeed (putPT C (mapToCurve C (be2int (s.operands p).a0 % C.p)) f)
      else s.failWith .invalidEncoding) := by
  have hmet : (MapNeed.exactly m).met C.toCurve = true := decide_eq_true hm
  rw [hi, runTotal_ready h _ (allows_onlyW hW) hf hmet, mapRule]
  split
  · next hlen =>
    rw [bind_of_ok (getU_of_length hlen)]
    rfl
  · next hlen =>
    rw [bind_of_error (getU_of_other_length hlen)]
    rfl

/-- What H2HASH does (R275). -/
theorem Ready.exec_hash (hm : C.h2c ≠ .none) :
    exec (.h2hash c f) s = .next (if (s.operands p).a0.length ≠ 2 * C.fsize then s.failWith .invalidEncoding
      else if fromHash C (s.operands p).a0 = .inf then s.failWith .invalidPoint
      else s.succeed (putPT C (fromHash C (s.operands p).a0) f)) := by
  have hmet : MapNeed.some.met C.toCurve = true := decide_eq_true hm
  rw [exec_h2hash, execH2hash, runTotal_ready h _ (allows_onlyW hW) hf hmet]
  split
  · next hlen =>
    rw [decide_eq_false hlen]
    rfl
  · next hlen =>
    rw [decide_eq_true (not_not.1 hlen)]
    split
    · next hR =>
      rw [decide_eq_false (not_not.2 hR)]
      rfl
    · next hR =>
      rw [decide_eq_true hR]
      rfl

end

/-- Settles O53: the map commands differ in the map they ask for alone, and every map of a curve whose generator is on
it gives an affine point of it. -/
theorem curveMaps : Obligations.CurveMaps := by
  intro s c f p C hW hf h hG A
  obtain ⟨x, y, hxy, hon⟩ := mapToCurve_affine C hG (be2int A % C.p)
  refine ⟨x, y, hon, hxy, ?_⟩
  rw [← hxy]
  exact ⟨h.exec_map hW hf (exec_h2sswu c f s), h.exec_map hW hf (exec_h2icart c f s),
    h.exec_map hW hf (exec_h2svdw c f s)⟩

end Sys2Proof.Machine
end

section
/-! PROOFS. BC's vector on the Koblitz curve (46_hash_to_curve.md R279): a suggested map reads few of the constants of
its curve, so its value on any configuration of the curve is that on the suggested one; and H2HASH (R275). -/

namespace Sys2Proof.Machine

/-! ### What a suggested map depends on (R276 to R278) -/

/-- Two curves agree in what a suggested map and the group law read. -/
structure SameMap (C D : Curve) : Prop where
  shape : C.shape = D.shape
  p : C.p = D.p
  h2c : C.h2c = D.h2c
  z : C.z = D.z

section
variable {C D : Curve} (h : SameMap C D)
include h

theorem SameMap.suggestedMap_eq (u : Nat) : suggestedMap C u = suggestedMap D u := by
  obtain ⟨hs, hp, hm, hz⟩ := h
  cases C
  cases D
  cases hs
  cases hp
  cases hm
  cases hz
  rfl

theorem SameMap.add_eq (P Q : Point) : add C P Q = add D P Q := by
  simp only [add, h.shape, h.p]

theorem SameMap.affineOn_iff (P : Point) : AffineOn C P ↔ AffineOn D P := by
  simp only [AffineOn, onCurve, h.shape, h.p]

end

/-- An image of the suggested formula that is a point of the curve is the map's (log 33). -/
theorem mapToCurve_of_affine {C : Ctx} (hs : C.maps = .suggested) {u : Nat}
    (h : AffineOn C.toCurve (suggestedMap C.toCurve u)) : mapToCurve C u = suggestedMap C.toCurve u := by
  simp only [mapToCurve, hs]
  exact affineOr_of_affine h _

theorem affineOn_iff_validPoint (C : Curve) (P : Point) : AffineOn C P ↔ P ≠ .inf ∧ validPoint C P = true := by
  cases P <;> simp [AffineOn, validPoint]

theorem encodePoint_congr {C D : Ctx} (hW : kindW D.toCurve) (hs : C.shape = D.shape) (hf : C.fsize = D.fsize)
    (P : Point) (f : PointForm) : encodePoint C P f = encodePoint D P f := by
  obtain ⟨a, b, hD⟩ := hW
  cases P <;> simp only [encodePoint, hs, hD, hf]

/-! ### The vector (R279) -/

/-- Every form but the reserved one is allowed on kind W (30_encoding.md R96 step 5). -/
theorem formOk_of_kindW {C : Curve} (hW : kindW C) {f : PointForm} (hf : f ≠ .reserved) : FormOk C f :=
  ⟨hf, fun hE => absurd hE (not_kindE_of_kindW hW)⟩

/-- The suggested configuration of the Koblitz curve, on which the vector is evaluated. -/
def koblitz : Ctx where
  toCurve := Config.secp256k1
  order := .big
  digest := ⟨32, 64, []⟩
  schnorr := .suggested
  maps := .suggested

theorem isKoblitz.kindW {C : Curve} (h : isKoblitz C) : kindW C := by
  obtain ⟨hs, -, -⟩ := h
  exact ⟨0, 7, hs⟩

theorem isKoblitz.fsize {C : Curve} (h : isKoblitz C) : C.fsize = 32 := by
  obtain ⟨-, -, hf⟩ := h
  exact hf

theorem isKoblitz.sameMap {C : Curve} (h : isKoblitz C) (hm : C.h2c = .svdw) (hz : C.z = 1) :
    SameMap C koblitz.toCurve := by
  obtain ⟨hs, hp, -⟩ := h
  exact ⟨hs, hp, hm, hz⟩

theorem length_vectorDigest : vectorDigest.length = 64 := by simp [vectorDigest]

/-- The suggested formula has an image for both halves of BC's digest. -/
theorem vectorHalf_affine : ∀ B ∈ [vectorDigest.take 32, vectorDigest.drop 32],
    AffineOn koblitz.toCurve (suggestedMap koblitz.toCurve (be2int B % koblitz.p)) := by
  simp only [affineOn_iff_validPoint]
  decide +kernel

theorem putPT_fromHash_koblitz : putPT koblitz (fromHash koblitz vectorDigest) .compressed = vectorPoint := by
  decide +kernel

section
variable {C : Ctx} (hK : isKoblitz C.toCurve)
include hK

/-- The suggested map with z = 1 takes each half of BC's digest where it does on the suggested configuration. -/
theorem isKoblitz.mapToCurve_half (hm : C.h2c = .svdw) (hz : C.z = 1) (hs : C.maps = .suggested) {B : Bytes}
    (hB : B ∈ [vectorDigest.take 32, vectorDigest.drop 32]) :
    mapToCurve C (be2int B % C.p) = mapToCurve koblitz (be2int B % koblitz.p) := by
  have hsame := hK.sameMap hm hz
  have haff := vectorHalf_affine B hB
  rw [hsame.p, mapToCurve_of_affine rfl haff, ← hsame.suggestedMap_eq]
  rw [← hsame.suggestedMap_eq, ← hsame.affineOn_iff] at haff
  exact mapToCurve_of_affine hs haff

theorem isKoblitz.fromHash_eq (hm : C.h2c = .svdw) (hz : C.z = 1) (hs : C.maps = .suggested) :
    fromHash C vectorDigest = fromHash koblitz vectorDigest := by
  rw [fromHash, fromHash, hK.fsize, hK.mapToCurve_half hm hz hs (by simp),
    hK.mapToCurve_half hm hz hs (by simp), (hK.sameMap hm hz).add_eq]
  rfl

theorem isKoblitz.svdwVectorOk (hz : C.z = 1) (hs : C.maps = .suggested) : svdwVectorOk C := by
  intro _ hm
  rw [hK.fromHash_eq hm hz hs, putPT,
    encodePoint_congr (D := koblitz) ⟨0, 7, rfl⟩ (hK.sameMap hm hz).shape hK.fsize]
  exact putPT_fromHash_koblitz

theorem isKoblitz.ne_inf_of_putPT {P : Point} (hP : putPT C P .compressed = vectorPoint) : P ≠ .inf := by
  obtain ⟨hs, -, -⟩ := hK
  rintro rfl
  simp [putPT, encodePoint, hs, vectorPoint] at hP

end

/-- Settles O54: the vector of a configuration that meets R279 is no encoding of the identity, so H2HASH succeeds with
it; and a suggested map with z = 1 gives the vector because the one of the suggested configuration does. -/
theorem fromHash_sum_and_vector : Obligations.FromHash := by
  refine ⟨fun s c f p C hW hf h hm => h.exec_hash hW hf hm, fun s c p C h hv hK hm hA => ?_,
    fun C hK hz hs => hK.svdwVectorOk hz hs⟩
  have hvec := hv hK hm
  have hlen : ¬ vectorDigest.length ≠ 2 * C.fsize := by rw [length_vectorDigest, hK.fsize]; decide
  rw [h.exec_hash hK.kindW (formOk_of_kindW hK.kindW (by decide)) (by rw [hm]; decide), hA, if_neg hlen,
    if_neg (hK.ne_inf_of_putPT hvec), hvec]

end Sys2Proof.Machine
end

section
/-! PROOFS. Host accesses that reach nothing (20_memory.md R62; 60_exceptions.md R328). -/

namespace Sys2Proof.Machine

/-- Settles O8: an access that reaches nothing has the target `busError`, where nothing is stored and nothing read. -/
theorem busErrors : Obligations.BusErrors := fun s w a _ hreach =>
  have htarget := (target_busError s.cfg w a).2 hreach
  ⟨fun _ hwrite => step_write_to hwrite htarget, fun hread => step_read_to hread htarget⟩

end Sys2Proof.Machine
end

section
/-! PROOFS. The clamped scalar (47_eddsa.md R291). -/

namespace Sys2Proof.Machine

/-- Rounding down to a multiple of 8 keeps the bits from 3 on. -/
theorem testBit_div_eight_mul_eight (v : Nat) {k : Nat} (hk : 3 ≤ k) :
    (v / 8 * 8).testBit k = v.testBit k := by
  rw [show v / 8 * 8 = v >>> 3 <<< 3 by rw [Nat.shiftRight_eq_div_pow, Nat.shiftLeft_eq],
    Nat.testBit_shiftLeft, Nat.testBit_shiftRight, Nat.add_sub_cancel' hk]
  simp [hk]

/-- Settles O55: what is clamped is a multiple of 8 below `2^(8f−2)`, and the bit set above it is the highest. -/
theorem clamping : Obligations.Clamping := by
  intro f v hf
  have hlow : v / 8 * 8 % 2 ^ (8 * f - 2) < 2 ^ (8 * f - 2) := Nat.mod_lt _ (Nat.two_pow_pos _)
  have htop : 2 ^ (8 * f - 1) = 2 ^ (8 * f - 2) * 2 := by
    rw [← pow_succ]
    congr 1
    omega
  have hdvd : 2 ^ 3 ∣ 2 ^ (8 * f - 2) := Nat.pow_dvd_pow 2 (by omega)
  refine ⟨Nat.mod_eq_zero_of_dvd ?_, Nat.le_add_left _ _, by rw [clamp]; omega, fun k hk3 hk => ?_⟩
  · exact Nat.dvd_add ((Nat.dvd_mod_iff hdvd).2 (Nat.dvd_mul_left 8 _)) hdvd
  · rw [clamp, Nat.add_comm, Nat.testBit_two_pow_add_gt hk, Nat.testBit_mod_two_pow, decide_eq_true hk,
      Bool.true_and, testBit_div_eight_mul_eight v hk3]

end Sys2Proof.Machine
end

section
/-! PROOFS. The EdDSA commands as equations (47_eddsa.md R292 to R298): the expanded key of a seed, the rule of each
command for each way it can go, and what a ready command ends with. -/

namespace Sys2Proof.Machine

/-! ### The meaning each command has -/

section
variable (c : BitVec 4) (s : State)

theorem exec_edexp : exec (.edexp c) s = execEdexp c s := rfl

theorem exec_edpub : exec (.edpub c) s = execEdpub c s := rfl

theorem exec_edsign : exec (.edsign c) s = execEdsign c s := rfl

theorem exec_edvfy : exec (.edvfy c) s = execEdvfy c s := rfl

theorem exec_edsignt : exec (.edsignt c) s = execEdsignt c s := rfl

theorem exec_edtomont : exec (.edtomont c) s = execEdtomont c s := rfl

theorem exec_edfrommont (sign : Bool) : exec (.edfrommont c sign) s = execEdfrommont c sign s := rfl

end

/-! ### Expanded keys (R292) -/

/-- The expanded key of a seed: the clamped low half of its digest, and the high half. -/
def edKeyOf (C : Ctx) (seed : Bytes) : EdKey :=
  ⟨clamp C.fsize (os2iC C ((hashC C seed).take C.fsize)), ((hashC C seed).drop C.fsize).take C.fsize⟩

/-- The expanded key under a tweak t (R298). -/
def EdKey.tweaked (C : Ctx) (K : EdKey) (t : Nat) : EdKey :=
  ⟨(K.a + t) % C.n, (hashC C (K.nonceKey ++ i2osC C t C.ssize)).take C.fsize⟩

/-- The encoded public key of an expanded key (R294). -/
def EdKey.pub (C : Ctx) (K : EdKey) : Bytes := edEncode C (mulG C.toCurve (K.a % C.n))

theorem EdKey.pub_tweaked (C : Ctx) (K : EdKey) (t : Nat) :
    (K.tweaked C t).pub C = edEncode C (mulG C.toCurve ((K.a + t) % C.n)) := by
  rw [EdKey.pub, EdKey.tweaked, Nat.mod_mod]

section
variable {C : Ctx} {seed : Bytes}

theorem edExpand_of_length (h : seed.length = C.fsize) : edExpand C seed = .ok (edKeyOf C seed) := by
  rw [edExpand, decide_eq_true h]
  rfl

theorem edExpand_of_other_length (h : seed.length ≠ C.fsize) : edExpand C seed = .error .invalidEncoding := by
  rw [edExpand, decide_eq_false h]
  rfl

end

/-! ### The rules (R295, R296, R298) -/

section
variable {C : Ctx} {msg seed tweak : Bytes}

theorem edSignRule_wrong_length (h : seed.length ≠ C.fsize) :
    edSignRule C msg seed = .fail .invalidEncoding := by
  rw [edSignRule, edExpand_of_other_length h]

theorem edSignTweakRule_wrong_length (h : seed.length ≠ C.fsize) :
    edSignTweakRule C msg seed tweak = .fail .invalidEncoding := by
  rw [edSignTweakRule, edExpand_of_other_length h]

variable (h : seed.length = C.fsize)
include h

theorem edSignRule_identity (hid : mulG C.toCurve ((edKeyOf C seed).a % C.n) = identity C.toCurve) :
    edSignRule C msg seed = .afterMulG (.failure .invalidPoint) := by
  rw [edSignRule, edExpand_of_length h]
  dsimp only
  rw [isId, if_pos (decide_eq_true hid)]

theorem edSignRule_ok (hid : mulG C.toCurve ((edKeyOf C seed).a % C.n) ≠ identity C.toCurve) :
    edSignRule C msg seed =
      .afterMulG (.results (edSignCore C msg (edKeyOf C seed) ((edKeyOf C seed).pub C)) none 0) := by
  rw [edSignRule, edExpand_of_length h]
  dsimp only
  rw [isId, if_neg (by rwa [decide_eq_true_iff])]
  rfl

theorem edSignTweakRule_scalar_error {e : Failure} (he : getSC C tweak = .error e) :
    edSignTweakRule C msg seed tweak = .fail e := by
  rw [edSignTweakRule, edExpand_of_length h, he]

variable {t : Nat} (ht : getSC C tweak = .ok t)
include ht

theorem edSignTweakRule_zero (h0 : ((edKeyOf C seed).a + t) % C.n = 0) :
    edSignTweakRule C msg seed tweak = .fail .invalidScalar := by
  rw [edSignTweakRule, edExpand_of_length h, ht]
  exact if_pos h0

theorem edSignTweakRule_ok (h0 : ((edKeyOf C seed).a + t) % C.n ≠ 0) :
    edSignTweakRule C msg seed tweak = .afterMulG (.results
      (edSignCore C msg ((edKeyOf C seed).tweaked C t) (((edKeyOf C seed).tweaked C t).pub C)) none 0) := by
  rw [edSignTweakRule, edExpand_of_length h, ht, EdKey.pub_tweaked]
  exact if_neg h0

end

section
variable {C : Ctx} {msg sig pub : Bytes}

theorem edVerifyRule_malformed (h : sig.length ≠ 2 * C.fsize ∨ C.n ≤ os2iC C (sig.drop C.fsize)
    ∨ (∃ e, getPT C (sig.take C.fsize) = .error e) ∨ ∃ e, getPK C pub = .error e) :
    edVerifyRule C msg sig pub = .plain (.verified false) := by
  rw [edVerifyRule]
  split
  · rfl
  · next hin =>
    rw [← or_assoc] at h
    rcases h.resolve_left hin with ⟨e, he⟩ | ⟨e, he⟩
    · rw [he]
    · rw [he]
      cases getPT C (sig.take C.fsize) <;> rfl

theorem edVerifyRule_decoded {R A : Point} (hlen : sig.length = 2 * C.fsize)
    (hS : os2iC C (sig.drop C.fsize) < C.n) (hR : getPT C (sig.take C.fsize) = .ok R)
    (hA : getPK C pub = .ok A) :
    edVerifyRule C msg sig pub = .afterMulG (.verified (decide (mulG C.toCurve (os2iC C (sig.drop C.fsize))
      = add C.toCurve R (mul C.toCurve (edHashInt C (sig.take C.fsize ++ pub ++ msg)) A)))) := by
  rw [edVerifyRule, if_neg (by omega), hR, hA]

end

/-! ### What a ready command ends with -/

section
variable {s : State} {c : BitVec 4} {n : Nat} {p : Pending} {C : Ctx} {i : Instr}
  {rule : Ctx → Operands → Ending} (hE : kindE C.toCurve) (h : Ready s c n p C)
  (hi : exec i s = runTotal s c ⟨.onlyE, .uncompressed, .nothing, n⟩ rule)
include hE h hi

/-- A kind-E command completes with what its rule gives. -/
theorem Ready.exec_ed {e : Ending} (hr : rule C (s.operands p) = e) : exec i s = .next (s.complete c e) :=
  h.exec_rule (allows_onlyE hE) (formOk_uncompressed _) hi hr

/-- A kind-E command that evaluated `MulG_C` sets the table bit (10_state.md R33). -/
theorem Ready.exec_ed_table {r : Report} (hr : rule C (s.operands p) = .afterMulG r) :
    exec i s = .next ((s.complete c (.plain r)).withTable c) := by
  rw [h.exec_ed hE hi hr, complete_afterMulG]

end

section
variable {s : State} {c : BitVec 4} {p : Pending} {C : Ctx} (hE : kindE C.toCurve) (h : Ready s c 1 p C)
include hE h

theorem Ready.exec_edexp_wrong_length (hl : (s.operands p).a0.length ≠ C.fsize) :
    exec (.edexp c) s = .next (s.failWith .invalidEncoding) :=
  h.exec_ed hE (exec_edexp c s) (e := .fail .invalidEncoding) (by rw [edExpand_of_other_length hl]; rfl)

theorem Ready.exec_edpub_wrong_length (hl : (s.operands p).a0.length ≠ C.fsize) :
    exec (.edpub c) s = .next (s.failWith .invalidEncoding) :=
  h.exec_ed hE (exec_edpub c s) (e := .fail .invalidEncoding) (by rw [edExpand_of_other_length hl])

variable (hl : (s.operands p).a0.length = C.fsize)
include hl

theorem Ready.exec_edexp_ok :
    exec (.edexp c) s = .next (s.succeedTwo (i2osC C (edKeyOf C (s.operands p).a0).a C.fsize)
      (edKeyOf C (s.operands p).a0).nonceKey) :=
  h.exec_ed hE (exec_edexp c s) (e := .two _ _) (by rw [edExpand_of_length hl]; rfl)

theorem Ready.exec_edpub_end :
    exec (.edpub c) s = .next ((s.publicKeyEnd C
      (mulG C.toCurve ((edKeyOf C (s.operands p).a0).a % C.n)) .uncompressed).withTable c) := by
  rw [h.exec_ed_table hE (exec_edpub c s) (by rw [edExpand_of_length hl]), complete_publicKeyReport]

theorem Ready.exec_edpub_identity
    (hid : mulG C.toCurve ((edKeyOf C (s.operands p).a0).a % C.n) = identity C.toCurve) :
    exec (.edpub c) s = .next ((s.failWith .invalidPoint).withTable c) := by
  rw [h.exec_edpub_end hE hl, State.publicKeyEnd, if_pos hid]

theorem Ready.exec_edpub_ok
    (hid : mulG C.toCurve ((edKeyOf C (s.operands p).a0).a % C.n) ≠ identity C.toCurve) :
    exec (.edpub c) s = .next ((s.succeed ((edKeyOf C (s.operands p).a0).pub C)).withTable c) := by
  rw [h.exec_edpub_end hE hl, s.publicKeyEnd_of_ne hid]
  rfl

end

/-- Settles O56. -/
theorem edwardsKeys : Obligations.EdwardsKeys := by
  intro s c p C hE half nonce enc
  refine ⟨fun h => ?_, fun h => ?_⟩
  · intro seed A
    refine ⟨fun hl => ⟨h.exec_edexp_wrong_length hE hl, h.exec_edpub_wrong_length hE hl⟩,
      fun hl => ⟨h.exec_edexp_ok hE hl, h.exec_edpub_identity hE hl, h.exec_edpub_ok hE hl⟩⟩
  · intro msg seed A r Rb k
    refine ⟨fun hl => ?_, fun hl => ⟨fun hid => ?_, fun hid => ?_⟩⟩
    · exact h.exec_ed hE (exec_edsign c s) (edSignRule_wrong_length hl)
    · exact h.exec_ed_table hE (exec_edsign c s) (edSignRule_identity hl hid)
    · exact h.exec_ed_table hE (exec_edsign c s) (edSignRule_ok hl hid)

/-- Settles O57. -/
theorem edwardsTweakedSign : Obligations.EdwardsTweakedSign := by
  intro s c p C hE h msg seed T enc
  refine ⟨fun hl => ?_, fun hl ⟨e, he⟩ => ?_, fun t hl ht => ⟨fun h0 => ?_, fun h0 => ?_⟩⟩
  · exact h.exec_ed hE (exec_edsignt c s) (edSignTweakRule_wrong_length hl)
  · obtain rfl := getSC_error_eq he
    exact h.exec_ed hE (exec_edsignt c s) (edSignTweakRule_scalar_error hl he)
  · exact h.exec_ed hE (exec_edsignt c s) (edSignTweakRule_zero hl ht h0)
  · have hok := edSignTweakRule_ok (msg := msg) hl ht h0
    rw [EdKey.pub_tweaked] at hok
    exact h.exec_ed_table hE (exec_edsignt c s) hok

end Sys2Proof.Machine
end

section
/-! PROOFS. EDVFY (47_eddsa.md R296), and that it accepts what EDSIGN and EDSIGNT make (R294 to R298). -/

namespace Sys2Proof.Machine

/-! ### A signature verifies under its public key -/

section
variable {C : Ctx} (hC : SoundCurve C.toCurve)
include hC

/-- `S·G = R + k·A` where `S = r + k·a`, `R = r·G` and `A = a·G` (R296, R301). -/
theorem mulG_signed (r k a : Nat) :
    mulG C.toCurve ((r + k * a) % C.n)
      = add C.toCurve (mulG C.toCurve r) (mul C.toCurve k (mulG C.toCurve a)) := by
  rw [mulG_sum_mod hC, mulG, mulG, mulG, hC.multiple_multiple hC.base_valid]

variable (hbits : bitlen C.p < 8 * C.fsize)
include hbits

theorem getPK_pub {K : EdKey} (ha : K.a % C.n ≠ 0) :
    getPK C (K.pub C) = .ok (mulG C.toCurve K.a) := by
  rw [EdKey.pub, mulG_mod hC]
  exact getPK_putPT_mulG hC (formOk_uncompressed _) (fun _ => hbits) ha

/-- EDVFY accepts what the signing core makes with a key under the public key of that key (R296, R301). -/
theorem edVerifyRule_edSignCore (hE : kindE C.toCurve) (hsize : C.ssize ≤ C.fsize) {K : EdKey}
    (ha : K.a % C.n ≠ 0) (msg : Bytes) :
    edVerifyRule C msg (edSignCore C msg K (K.pub C)) (K.pub C) = .afterMulG (.verified true) := by
  set r := edHashInt C (K.nonceKey ++ msg)
  set Rb := edEncode C (mulG C.toCurve r)
  set S := (r + edHashInt C (Rb ++ K.pub C ++ msg) * K.a) % C.n
  have hcore : edSignCore C msg K (K.pub C) = Rb ++ i2osC C S C.fsize := rfl
  have hlenR : Rb.length = C.fsize := length_encodePoint_of_kindE hE _ _
  have hSn : S < C.n := Nat.mod_lt _ hC.order_prime.pos
  have hSbytes : os2iC C (i2osC C S C.fsize) = S :=
    os2i_i2os C.order (hSn.trans (hC.n_lt.trans_le (Nat.pow_le_pow_right (by decide) hsize)))
  have hR : getPT C Rb = .ok (mulG C.toCurve r) :=
    pointRoundTrip C _ .uncompressed hC (formOk_uncompressed _) (fun _ => hbits) (mulG_valid hC r)
  have htake : (Rb ++ i2osC C S C.fsize).take C.fsize = Rb := List.take_left' hlenR
  have hdrop : (Rb ++ i2osC C S C.fsize).drop C.fsize = i2osC C S C.fsize := List.drop_left' hlenR
  have hlen : (Rb ++ i2osC C S C.fsize).length = 2 * C.fsize := by
    rw [List.length_append, hlenR, length_i2osC, two_mul]
  rw [hcore, edVerifyRule_decoded hlen (by rwa [hdrop, hSbytes]) (by rwa [htake]) (getPK_pub hC hbits ha),
    hdrop, hSbytes, htake, decide_eq_true (mulG_signed hC r _ K.a)]

end

/-! ### What EDVFY ends with, and EDPKTADD on the key of a seed -/

section
variable {s : State} {c : BitVec 4} {p : Pending} {C : Ctx} (hE : kindE C.toCurve)
include hE

theorem Ready.exec_edvfy_verdict (h : Ready s c 3 p C) {b : Bool}
    (hr : edVerifyRule C (s.operands p).a0 (s.operands p).a1 (s.operands p).a2 = .afterMulG (.verified b)) :
    exec (.edvfy c) s = .next ((s.verdict b).withTable c) := by
  rw [h.exec_ed_table hE (exec_edvfy c s) hr, complete_verified]

/-- EDPKTADD of a public key gives the public key under the tweak (R297, R298). -/
theorem Ready.exec_edpktadd_pub (h : Ready s c 2 p C) (hC : SoundCurve C.toCurve)
    (hbits : bitlen C.p < 8 * C.fsize) {K : EdKey} {t : Nat} (ha : K.a % C.n ≠ 0)
    (hsum : (K.a + t) % C.n ≠ 0) (hpub : (s.operands p).a0 = K.pub C)
    (ht : getSC C (s.operands p).a1 = .ok t) :
    exec (.edpktadd c) s = .next ((s.succeed ((K.tweaked C t).pub C)).withTable c) := by
  have hPK : getPK C (s.operands p).a0 = .ok (mulG C.toCurve K.a) := hpub ▸ getPK_pub hC hbits ha
  rw [h.exec_tweakAdd (formOk_uncompressed _) (allows_onlyE hE) (exec_edpktadd c s) hPK ht,
    ← mulG_sum_mod hC, s.publicKeyEnd_of_ne (mulG_ne_identity hC (by rwa [Nat.mod_mod])), EdKey.pub_tweaked]
  rfl

end

/-- Settles O58: with the nonce `r`, the challenge `k` and the scalar `a`, both sides of what EDVFY tests are
`(r + k·a)·G`. -/
theorem edwardsVerify : Obligations.EdwardsVerify := by
  refine ⟨fun s c p C hE h => ?_, fun C c seed msg hC hE hbits hsize hl => ?_⟩
  · intro msg sig pub Rb S
    exact ⟨fun hbad => h.exec_ed hE (exec_edvfy c s) (edVerifyRule_malformed hbad), fun R A hlen hS hR hA =>
      ⟨_, h.exec_edvfy_verdict hE (edVerifyRule_decoded hlen hS hR hA), decide_eq_true_iff⟩⟩
  · intro a accepts hid
    set K := edKeyOf C seed
    have ha : K.a % C.n ≠ 0 := fun h0 => hid (by rw [show a = K.a from rfl, h0]; rfl)
    have haccepts {K : EdKey} (ha : K.a % C.n ≠ 0) :
        accepts (edSignCore C msg K (K.pub C)) (K.pub C) := fun s p h hmsg hsig hpub =>
      h.exec_edvfy_verdict hE (by rw [hmsg, hsig, hpub, edVerifyRule_edSignCore hC hbits hE hsize ha])
    refine ⟨K.pub C, edSignCore C msg K (K.pub C), fun s p h h0 => ?_, fun s p h h0 h1 => ?_, haccepts ha,
      fun T t ht hsum => ⟨(K.tweaked C t).pub C,
        edSignCore C msg (K.tweaked C t) ((K.tweaked C t).pub C), fun s p h h0 h1 => ?_,
        fun s p h h0 h1 h2 => ?_, haccepts ?_⟩⟩
    · subst h0
      exact h.exec_edpub_ok hE hl hid
    · subst h0 h1
      exact h.exec_ed_table hE (exec_edsign c s) (edSignRule_ok hl hid)
    · exact h.exec_edpktadd_pub hE hC hbits ha hsum h0 (h1 ▸ ht)
    · subst h0 h1 h2
      exact h.exec_ed_table hE (exec_edsignt c s) (edSignTweakRule_ok hl ht hsum)
    · rwa [EdKey.tweaked, Nat.mod_mod]

end Sys2Proof.Machine
end

section
/-! PROOFS. EDTOMONT and EDFROMMONT (47_eddsa.md R299, R300): the two maps are one relation between u and y, read
in either direction. -/

namespace Sys2Proof.Machine

/-! ### The relation between u and y -/

section
variable {F : Type} [Field F] {u y : F}

/-- R299's equation for u is R300's for y. -/
theorem mul_one_sub_eq_iff : u * (1 - y) = 1 + y ↔ y * (u + 1) = u - 1 := by
  constructor <;> intro h <;> linear_combination -h

/-- The denominator of R300 is not 0 where there is a y. -/
theorem add_one_ne_zero_of_mul_eq (h2 : (2 : F) ≠ 0) (h : y * (u + 1) = u - 1) : u + 1 ≠ 0 := fun h0 =>
  h2 (by linear_combination (1 - y) * h0 + h)

/-- Only the identity has `y = 1`, where the two constants of the equation differ (R140, R299). -/
theorem OnE.eq_zero_of_one {ea d x : F} (h : OnE ea d x 1) (hne : ea ≠ d) : x = 0 := by
  have hprod : x ^ 2 * (ea - d) = 0 := by
    unfold OnE at h
    linear_combination h
  exact pow_eq_zero_iff two_ne_zero |>.1 ((mul_eq_zero.1 hprod).resolve_right (sub_ne_zero.2 hne))

end

section
variable {p : Nat} (hp : p.Prime) (h2 : p ≠ 2) {u y : Nat}
include hp h2

/-- EDTOMONT's u (R299). -/
theorem montU_spec (hy : (y : ZMod p) ≠ 1) : (montU p y : ZMod p) * (1 - y) = 1 + y := by
  have : Fact p.Prime := ⟨hp⟩
  rw [montU, ZMod.natCast_mod, Nat.cast_mul, cast_inv hp h2, cast_subm hp.pos, Nat.cast_add, Nat.cast_one,
    inv_mul_cancel_right₀ (sub_ne_zero.2 hy.symm)]

/-- EDFROMMONT's y (R300). -/
theorem montY_eq_iff (hu : (u : ZMod p) + 1 ≠ 0) (hy : y < p) :
    montY p u = y ↔ (y : ZMod p) * (u + 1) = u - 1 := by
  have : Fact p.Prime := ⟨hp⟩
  have hlt : montY p u < p := Nat.mod_lt _ hp.pos
  have hcast : (montY p u : ZMod p) = ((u : ZMod p) - 1) * ((u : ZMod p) + 1)⁻¹ := by
    rw [montY, ZMod.natCast_mod, Nat.cast_mul, cast_inv hp h2, cast_subm hp.pos, ZMod.natCast_mod, Nat.cast_add,
      Nat.cast_one]
  rw [← eq_mul_inv_iff_mul_eq₀ hu, ← hcast, ZMod.natCast_eq_natCast_iff', Nat.mod_eq_of_lt hlt,
    Nat.mod_eq_of_lt hy, eq_comm]

end

/-- The one u below p without an image (R300). -/
theorem cast_add_one_eq_zero_iff {p u : Nat} (hu : u < p) : (u : ZMod p) + 1 = 0 ↔ u = p - 1 := by
  rw [← Nat.cast_succ, ZMod.natCast_eq_zero_iff]
  constructor
  · intro hdvd
    have := Nat.le_of_dvd u.succ_pos hdvd
    omega
  · intro h
    rw [show u.succ = p by omega]

/-! ### The point of a y with a given parity -/

section
variable {C : Curve} (hC : SoundCurve C) (hE : kindE C)
include hC hE

/-- The search finds x exactly where it is the first coordinate, of the parity asked for, of a point of the curve. -/
theorem rootOfParity_xSquaredE_eq_found_iff {x y t : Nat} (hy : y < C.p) :
    rootOfParity C.p (xSquaredE C y) t = .found x ↔ onCurve C x y = true ∧ x % 2 = t := by
  rw [onCurve_iff_equation, equation_iff_root_E hC hE]
  constructor
  · intro h
    obtain ⟨hx, hpar, hsq⟩ := rootOfParity_found_spec hC.prime.pos h
    exact ⟨⟨hx, hy, hsq⟩, hpar⟩
  · rintro ⟨⟨hx, -, hsq⟩, hpar⟩
    exact rootOfParity_eq_found hC.prime hC.ne_two hx hpar hsq

/-- A point other than the identity has `y ≠ 1` (R299). -/
theorem cast_y_ne_one {x y : Nat} (hon : onCurve C x y = true) (hid : Point.aff x y ≠ identity C) :
    (y : ZMod C.p) ≠ 1 := by
  obtain ⟨ea, d, hs⟩ := hE
  have hg := hC.goodE hs
  have : Fact C.p.Prime := ⟨hC.prime⟩
  obtain ⟨hx, hy, hxy⟩ := (onCurve_iff_E hg x y).1 hon
  have hne : (ea : ZMod C.p) ≠ d := fun h => nonsquare_E hg (h ▸ square_E hg)
  intro h1
  rw [h1] at hxy
  rw [identity_E hg] at hid
  refine hid (aff_inj_E hx hy hC.prime.pos hC.prime.one_lt ?_ (by rw [h1, Nat.cast_one]))
  rw [hxy.eq_zero_of_one hne, Nat.cast_zero]

end

/-! ### The commands -/

/-- The bit SIGN asks for, as the model writes it (R300). -/
theorem ite_eq_toNat (b : Bool) : (if b then 1 else 0) = b.toNat := by cases b <;> rfl

section
variable {s : State} {c : BitVec 4} {p : Pending} {C : Ctx} (hE : kindE C.toCurve) (h : Ready s c 1 p C)
include hE h

theorem Ready.exec_edtomont_error {e : Failure} (he : getPK C (s.operands p).a0 = .error e) :
    exec (.edtomont c) s = .next (s.failWith e.code) :=
  h.exec_ed hE (exec_edtomont c s) (e := .fail e) (by rw [bind_of_error he]; rfl)

theorem Ready.exec_edtomont_ok {x y : Nat} (hP : getPK C (s.operands p).a0 = .ok (.aff x y)) :
    exec (.edtomont c) s = .next (s.succeed (i2osC C (montU C.p y) C.fsize)) :=
  h.exec_ed hE (exec_edtomont c s) (e := .one (i2osC C (montU C.p y) C.fsize)) (by rw [bind_of_ok hP]; rfl)

variable {sign : Bool}

theorem Ready.exec_edfrommont_wrong_length (hl : (s.operands p).a0.length ≠ C.fsize) :
    exec (.edfrommont c sign) s = .next (s.failWith .invalidEncoding) :=
  h.exec_ed hE (exec_edfrommont c s sign) (e := .fail .invalidEncoding) (by rw [decide_eq_false hl]; rfl)

variable (hl : (s.operands p).a0.length = C.fsize)
include hl

theorem Ready.exec_edfrommont_out_of_range
    (hu : C.p ≤ os2iC C (s.operands p).a0 ∨ os2iC C (s.operands p).a0 = C.p - 1) :
    exec (.edfrommont c sign) s = .next (s.failWith .invalidPoint) := by
  refine h.exec_ed hE (exec_edfrommont c s sign) (e := .fail .invalidPoint) ?_
  rcases lt_or_ge (os2iC C (s.operands p).a0) C.p with hlt | hge
  · have hlast := hu.resolve_left (Nat.not_le.2 hlt)
    have hlast' : decide (os2iC C (s.operands p).a0 ≠ C.p - 1) = false := decide_eq_false (not_not.2 hlast)
    simp only [hl, hlt, hlast', decide_true, require_true_bind, require_false_bind]
    rfl
  · simp [hl, Nat.not_lt.2 hge, Ending.ofOne]

variable (hu : os2iC C (s.operands p).a0 < C.p)
include hu

section
variable (hne : os2iC C (s.operands p).a0 ≠ C.p - 1)
include hne

theorem Ready.exec_edfrommont_found {x : Nat}
    (hr : rootOfParity C.p (xSquaredE C.toCurve (montY C.p (os2iC C (s.operands p).a0))) sign.toNat = .found x) :
    exec (.edfrommont c sign) s
      = .next (s.succeed (putPT C (.aff x (montY C.p (os2iC C (s.operands p).a0))) .uncompressed)) := by
  refine h.exec_ed hE (exec_edfrommont c s sign) (e := .one _) ?_
  simp only [hl, hu, hne, ne_eq, not_false_eq_true, decide_true, require_true_bind]
  rw [ite_eq_toNat, hr]
  rfl

theorem Ready.exec_edfrommont_not_found
    (hr : ∀ x, rootOfParity C.p (xSquaredE C.toCurve (montY C.p (os2iC C (s.operands p).a0))) sign.toNat
      ≠ .found x) :
    exec (.edfrommont c sign) s = .next (s.failWith .invalidPoint) := by
  refine h.exec_ed hE (exec_edfrommont c s sign) (e := .fail .invalidPoint) ?_
  simp only [hl, hu, hne, ne_eq, not_false_eq_true, decide_true, require_true_bind]
  rw [ite_eq_toNat]
  split
  · rfl
  · rfl
  · next x hx => exact absurd hx (hr x)

end

variable (hC : SoundCurve C.toCurve)
include hC

/-- EDFROMMONT of a u that belongs to a point of the parity asked for (R300). -/
theorem Ready.exec_edfrommont_ok {x y : Nat} (hon : onCurve C.toCurve x y = true) (hpar : x % 2 = sign.toNat)
    (hrel : (y : ZMod C.p) * (os2iC C (s.operands p).a0 + 1) = os2iC C (s.operands p).a0 - 1) :
    exec (.edfrommont c sign) s = .next (s.succeed (putPT C (.aff x y) .uncompressed)) := by
  have : Fact C.p.Prime := ⟨hC.prime⟩
  obtain ⟨ea, d, hs⟩ := id hE
  obtain ⟨-, hy, -⟩ := (onCurve_iff_equation C.toCurve x y).1 hon
  have hden := add_one_ne_zero_of_mul_eq (two_ne_E (hC.goodE hs)) hrel
  have hY := (montY_eq_iff hC.prime hC.ne_two hden hy).2 hrel
  have hfound := h.exec_edfrommont_found hE hl hu ((cast_add_one_eq_zero_iff hu).not.1 hden) (sign := sign) (x := x)
  rw [hY] at hfound
  exact hfound ((rootOfParity_xSquaredE_eq_found_iff hC hE hy).2 ⟨hon, hpar⟩)

/-- EDFROMMONT of a u that belongs to no such point (R300). -/
theorem Ready.exec_edfrommont_no_point
    (hno : ¬ ∃ x y, onCurve C.toCurve x y = true ∧ x % 2 = sign.toNat
      ∧ (y : ZMod C.p) * (os2iC C (s.operands p).a0 + 1) = os2iC C (s.operands p).a0 - 1) :
    exec (.edfrommont c sign) s = .next (s.failWith .invalidPoint) := by
  by_cases hlast : os2iC C (s.operands p).a0 = C.p - 1
  · exact h.exec_edfrommont_out_of_range hE hl (.inr hlast)
  · have hlt : montY C.p (os2iC C (s.operands p).a0) < C.p := Nat.mod_lt _ hC.prime.pos
    have hden := (cast_add_one_eq_zero_iff hu).not.2 hlast
    refine h.exec_edfrommont_not_found hE hl hu hlast fun x hx => hno ?_
    obtain ⟨hon, hpar⟩ := (rootOfParity_xSquaredE_eq_found_iff hC hE hlt).1 hx
    exact ⟨x, _, hon, hpar, (montY_eq_iff hC.prime hC.ne_two hden hlt).1 rfl⟩

end

/-- Settles O59: EDTOMONT's u and EDFROMMONT's y are in the one relation `u·(1 − y) = 1 + y`, so the way back ends in
the y it began with, and the parity gives x. -/
theorem montgomeryForm : Obligations.MontgomeryForm := by
  intro s c p C hE h A
  refine ⟨fun x y hC hbits hP => ?_, fun e he => h.exec_edtomont_error hE he, fun sign =>
    ⟨fun x y hC hl hu => h.exec_edfrommont_ok hE hl hu hC, h.exec_edfrommont_wrong_length hE,
      h.exec_edfrommont_out_of_range hE, fun hl hu hC => h.exec_edfrommont_no_point hE hl hu hC⟩⟩
  obtain ⟨hPT, hid⟩ := getPK_eq_ok_iff.1 hP
  have hon : onCurve C.toCurve x y = true := getPT_yields hC A _ hPT
  have hu : montU C.p y < C.p := Nat.mod_lt _ hC.prime.pos
  have hspec := montU_spec hC.prime hC.ne_two (cast_y_ne_one hC hE hon hid)
  refine ⟨montU C.p y, hu, hspec, h.exec_edtomont_ok hE hP, fun s' p' h' hA => ?_⟩
  have hos : os2iC C (s'.operands p').a0 = montU C.p y := by
    rw [hA]
    exact os2i_i2os C.order (hu.trans hC.p_lt)
  have hpar : x % 2 = (decide (x % 2 = 1)).toNat := by
    rcases Nat.mod_two_eq_zero_or_one x with h2 | h2 <;> simp [h2]
  have : Fact C.p.Prime := ⟨hC.prime⟩
  exact h'.exec_edfrommont_ok hE (by rw [hA, length_i2osC]) (by rwa [hos]) hC hon hpar
    (by rw [hos]; exact mul_one_sub_eq_iff.1 hspec)

end Sys2Proof.Machine
end
